-- ==== Sys2Proof/Word.lean ====
section
/-! DEFINITION. Word.lean: the binary widths the register window speaks of. -/

namespace Sys2Proof

/-- One byte of the 8-bit bus (R173). -/
abbrev Byte := BitVec 8

/-- One digit position: a four-bit pattern, decimal when it is 0 to 9 (R2). -/
abbrev Nibble := BitVec 4

/-- A register offset A5 to A0 (R173). -/
abbrev Offset := BitVec 6

end Sys2Proof
end

