-- ==== Sys2Proof/Syntax.lean ====
section
/-! DEFINITION. Syntax.lean: the commands the part takes, one constructor per row of spec/opcode_table.json, and the
fourteen commands of the command code register (R142, R189). -/

namespace Sys2Proof

/-- What puts a part that is not held in cold reset into warm reset (R191): the RESET# line going low, or the main
supply falling below 2.7 V. -/
inductive WarmCause where
  | resetLine
  | mainSupply
deriving DecidableEq, Repr

/-- The fourteen commands a command code can name (R142, R189). -/
inductive CommandName where
  | preset | add | subtract | transfer | repair | clearFlags
  | armTrip | disarmTrip
  | capture | openBank | closeBank
  | setTariff | setTime | resetInput
deriving DecidableEq, Repr

/-- The commands of the block: every row of the opcode table, in its order. A command code write carries no operand
here, because the slot reads its operands from the operand registers at the taking (R140, R141). -/
inductive Instr where
  /-- Write of code 0x01 to CMD_CODE (R141). -/
  | preset
  /-- Write of code 0x02 to CMD_CODE (R141). -/
  | add
  /-- Write of code 0x03 to CMD_CODE (R141). -/
  | subtract
  /-- Write of code 0x04 to CMD_CODE (R141). -/
  | transfer
  /-- Write of code 0x05 to CMD_CODE (R141). -/
  | repair
  /-- Write of code 0x06 to CMD_CODE (R141). -/
  | clearFlags
  /-- Write of code 0x10 to CMD_CODE (R105, R141). -/
  | armTrip
  /-- Write of code 0x11 to CMD_CODE (R107, R141). -/
  | disarmTrip
  /-- Write of code 0x20 to CMD_CODE (R75). -/
  | capture
  /-- Write of code 0x21 to CMD_CODE (R95). -/
  | openBank
  /-- Write of code 0x22 to CMD_CODE (R96). -/
  | closeBank
  /-- Write of code 0x30 to CMD_CODE (R132). -/
  | setTariff
  /-- Write of code 0x31 to CMD_CODE (R133). -/
  | setTime
  /-- Write of code 0x40 to CMD_CODE (R40). -/
  | resetInput
  /-- Write of a code that names no command to CMD_CODE (R142). -/
  | undefinedCommandCode (code : Byte)
  /-- Write of any value to CANCEL (R147, R148). -/
  | cancel (value : Byte)
  /-- The arbiter grants an input's head group (R55, R66). -/
  | applyGrant
  /-- The arbiter grants the COPY request (R61, R85). -/
  | copyGrant
  /-- The arbiter grants the host request (R145). -/
  | hostGrant
  /-- The APPLY in flight completes (R56, R57). -/
  | applyCompletion
  /-- The COPY in flight completes (R86). -/
  | copyCompletion
  /-- The PRESET in flight completes (R151). -/
  | presetCompletion
  /-- The ADD in flight completes (R152). -/
  | addCompletion
  /-- The SUBTRACT in flight completes (R152). -/
  | subtractCompletion
  /-- The TRANSFER in flight completes (R153). -/
  | transferCompletion
  /-- The REPAIR in flight completes (R154). -/
  | repairCompletion
  /-- The CLEAR_FLAGS in flight completes (R155). -/
  | clearFlagsCompletion
  /-- The ARM_TRIP in flight completes (R106). -/
  | armTripCompletion
  /-- The DISARM_TRIP in flight completes (R107). -/
  | disarmTripCompletion
  /-- Line IN`input` goes to `level` (true is high) (R29). -/
  | inputEdge (input : Fin 16) (level : Bool)
  /-- The lockout interval of an input expires (R30). -/
  | lockoutExpiry (input : Fin 16)
  /-- The CAP line goes to `level` (true is high) (R76). -/
  | capEdge (level : Bool)
  /-- The 1 ms CAP lockout expires (R76). -/
  | capLockoutExpiry
  /-- One rising transition of the timebase input (R121). -/
  | timebaseEdge
  /-- The timebase runs up to and including the next second expiry (R121). -/
  | secondExpiry
  /-- The timebase runs up to and including the next minute expiry (R122). -/
  | minuteExpiry
  /-- Write of any value to NOTICE_POP (R167). -/
  | noticePop (value : Byte)
  /-- Write of one to the CMD_DONE bit of INT_STATUS (R150). -/
  | clearCmdDone
  /-- Write of one to the WIN_REFUSED bit of WIN_STATUS (R184). -/
  | clearWinRefused
  /-- Write of one to the WIN_FAULT bit of WIN_STATUS (R184). -/
  | clearWinFault
  /-- Write of one to the schedule enable in SCHED_CONTROL (R128, R175). -/
  | enableAttempt
  /-- Write of zero to the schedule enable in SCHED_CONTROL (R128, R175). -/
  | clearScheduleEnable
  /-- Read of TIME_DAY_HI (R124). -/
  | timeDayHiRead
  /-- Write to WIN_SPACE (R178). -/
  | winSpaceWrite (value : Byte)
  /-- Write to WIN_INDEX (R178). -/
  | winIndexWrite (value : Byte)
  /-- Write to WIN_OFFSET (R178). -/
  | winOffsetWrite (value : Byte)
  /-- Read of WIN_DATA (R179). -/
  | winDataRead
  /-- Write to WIN_DATA (R181). -/
  | winDataWrite (value : Byte)
  /-- Write of `value` at a register offset that has no row of its own (R174). -/
  | registerWrite (offset : Offset) (value : Byte)
  /-- RESET# goes low or the main supply falls below 2.7 V (R191). -/
  | warmReset (cause : WarmCause)
  /-- RESET# is high with the main supply present (R191, R193). -/
  | warmResetEnd
  /-- First power-up, or the backup supply below 1.8 V (R191). -/
  | coldReset
  /-- The backup supply reaches 2.2 V (R191). -/
  | coldResetEnd
deriving DecidableEq, Repr

end Sys2Proof
end

