-- ==== Sys2Proof/Decode.lean ====
section
/-! DEFINITION. Decode.lean: reading a command from bits. The opcode table gives no row any bits, so no word spells a
command; what the part itself decodes is the byte written to CMD_CODE (R189). -/

namespace Sys2Proof

/-- The code that stands for each command (R189). -/
def encodeCommand : CommandName → Byte
  | .preset => 0x01
  | .add => 0x02
  | .subtract => 0x03
  | .transfer => 0x04
  | .repair => 0x05
  | .clearFlags => 0x06
  | .armTrip => 0x10
  | .disarmTrip => 0x11
  | .capture => 0x20
  | .openBank => 0x21
  | .closeBank => 0x22
  | .setTariff => 0x30
  | .setTime => 0x31
  | .resetInput => 0x40

/-- The command a byte written to CMD_CODE names, if any (R189); the others give BAD_COMMAND (R142). -/
def decodeCommand (code : Byte) : Option CommandName :=
  match code.toNat with
  | 0x01 => some .preset
  | 0x02 => some .add
  | 0x03 => some .subtract
  | 0x04 => some .transfer
  | 0x05 => some .repair
  | 0x06 => some .clearFlags
  | 0x10 => some .armTrip
  | 0x11 => some .disarmTrip
  | 0x20 => some .capture
  | 0x21 => some .openBank
  | 0x22 => some .closeBank
  | 0x30 => some .setTariff
  | 0x31 => some .setTime
  | 0x40 => some .resetInput
  | _ => none

/-- The command a word spells by the table's bits. No row of the table has bits ("fields" is empty and there is no
"fixed"), so no word spells one (log entry 15). -/
def decodeTableWord (_nbits _w : Nat) : Option Instr := none

end Sys2Proof
end

