-- ==== Sys2Proof/Config.lean ====
section
/-! DEFINITION. Config.lean: the capacities and limits the spec fixes for every part. The spec leaves no value open
that an instruction computes, so there is no free value here (see NOTES.md). -/

namespace Sys2Proof.Config

/-- One more than the largest total, 999 999 999 999 (R1, R50). -/
@[simp] abbrev totalModulus : Nat := 1000000000000

/-- The largest remaining amount and the largest overshoot of a trip counter (R102, R112, R113). -/
@[simp] abbrev tripMax : Nat := 99999999

/-- Groups a Pending Group Queue holds at most (R32, R35). -/
@[simp] abbrev queueDepth : Nat := 4

/-- Pulses a group holds at most (R32, R35). -/
@[simp] abbrev groupMax : Nat := 63

/-- The reject count saturates here (R28, R30). -/
@[simp] abbrev rejectMax : Nat := 255

/-- The dropped count saturates here (R28, R33). -/
@[simp] abbrev droppedMax : Nat := 65535

/-- Notices the Notice Queue holds at most (R164, R165). -/
@[simp] abbrev noticeDepth : Nat := 16

/-- The lost count saturates here (R165). -/
@[simp] abbrev lostMax : Nat := 255

/-- Grants to other requests an eligible host command waits for at most (R66, R67). -/
@[simp] abbrev hostWaitMax : Nat := 8

/-- Timebase edges in a second, seconds in a minute, minutes in a day (R121, R122). -/
@[simp] abbrev edgesPerSecond : Nat := 32768
@[simp] abbrev secondsPerMinute : Nat := 60
@[simp] abbrev minutesPerDay : Nat := 1440

/-- Switch points of the schedule (R126). -/
@[simp] abbrev schedulePoints : Nat := 12

end Sys2Proof.Config
end

