-- ==== Sys2Proof/Machine/State.lean ====
section
/-! DEFINITION. Machine/State.lean: everything the spec gives the part to hold, block by block, as plain data; the
values a cold reset gives each block; and the state right after reset. -/

namespace Sys2Proof.Machine

/-! ## The Total Table (01) -/

/-- An entry record (R1). `digits[0]` is d0, the least significant position. DAMAGED and the suspense are two fields, as
in R1; that they go together (R7) is an invariant. -/
structure Entry where
  digits   : Vector Nibble 12
  check    : Fin 10
  wrapped  : Bool
  borrowed : Bool
  damaged  : Bool
  member   : Bool
  suspense : Option Nat
deriving DecidableEq, Repr

/-- The deferred value: an entry index and twelve digit patterns waiting to be written (R18). -/
structure Deferred where
  entry  : Fin 64
  digits : Vector Nibble 12
deriving DecidableEq, Repr

/-- The table: the entries, the entries held by the operation in flight (R13), and the deferred value (R18). -/
structure Table where
  entries  : Vector Entry 64
  held     : List (Fin 64)
  deferred : Option Deferred
deriving DecidableEq, Repr

/-! ## Count inputs (02) -/

/-- Input mode (R23). -/
inductive InputMode where
  | off
  | count
deriving DecidableEq, Repr

/-- The transitions selected for counting (R23, R29). -/
inductive EdgeSelect where
  | rise
  | fall
  | both
deriving DecidableEq, Repr

/-- Whether amounts are added or subtracted (R23). -/
inductive Sense where
  | add
  | subtract
deriving DecidableEq, Repr

/-- The configuration record (R23). `weight[0]` is the units position; an OFF configuration may hold any patterns. -/
structure InputConfig where
  mode     : InputMode
  edge     : EdgeSelect
  sense    : Sense
  weight   : Vector Nibble 4
  lockout  : Byte
  base     : Fin 64
  tariffed : Bool
  link     : Option (Fin 8)
deriving DecidableEq, Repr

/-- A group record (R35). The epoch is false for 0 and true for 1. -/
structure Group where
  dest   : Fin 64
  epoch  : Bool
  weight : Nat
  sense  : Sense
  link   : Option (Fin 8)
  count  : Nat
deriving DecidableEq, Repr

/-- Input state (R28). -/
inductive InputState where
  | off
  | active
  | overrun
deriving DecidableEq, Repr

/-- One input: its configuration (R23), its status (R28), its Pending Group Queue, oldest first (R35), whether a lockout
interval is running (R30), and the level last seen on its line (R27, R43). -/
structure Input where
  config   : InputConfig
  state    : InputState
  queue    : List Group
  inFlight : Bool
  rejects  : Nat
  dropped  : Nat
  lockout  : Bool
  level    : Bool
deriving DecidableEq, Repr

/-! ## Host commands and engine operations (03, 07) -/

/-- An engine command with the operands the slot copied and validated at its taking (R60, R139, R141). -/
inductive EngineCommand where
  | preset (entry : Fin 64) (value : Nat)
  | add (entry : Fin 64) (amount : Nat)
  | subtract (entry : Fin 64) (amount : Nat)
  | transfer (source target : Fin 64)
  | repair (entry : Fin 64) (value : Nat) (fold : Bool)
  | clearFlags (entry : Fin 64)
  | armTrip (counter : Fin 8) (preset prewarn : Nat)
  | disarmTrip (counter : Fin 8)
deriving DecidableEq, Repr

/-- The found condition of a verified entry (R45). -/
inductive Condition where
  | healthy
  | damaged
deriving DecidableEq, Repr

/-- Kind, source and operands of an operation (R45): an APPLY with its input and claimed group, a COPY with its Capture
List position and entry, or a host operation. -/
inductive Work where
  | apply (input : Fin 16) (group : Group)
  | copy (position : Nat) (entry : Fin 64)
  | host (command : EngineCommand)
deriving DecidableEq, Repr

/-- The operation record (R45): the work, and the found condition of each entry verified at the grant, in the order of
verification. -/
structure Operation where
  work  : Work
  found : List Condition
deriving DecidableEq, Repr

/-- The engine (R45). The condition is BUSY exactly while an operation is in flight, so it is not stored again. -/
structure Engine where
  op       : Option Operation
  hostWait : Nat
deriving DecidableEq, Repr

/-- Results of commands (R139). -/
inductive Result where
  | ok | okWrapped | okBorrowed
  | badCommand | badIndex | badDigit | badOperand
  | damaged | notDamaged
  | noBank | bankOpen | capturing | cancelled
deriving DecidableEq, Repr

/-- The slot's state with the held command, which is present exactly while WAITING or RUNNING (R139). -/
inductive SlotState where
  | idle
  | waiting (command : EngineCommand)
  | running (command : EngineCommand)
deriving DecidableEq, Repr

/-- The command slot (R139) and its operand registers OPERAND0 to OPERAND8 (R140). -/
structure Slot where
  state       : SlotState
  lastCode    : Option Byte
  result      : Result
  cmdDone     : Bool
  refusedBusy : Bool
  cancelLate  : Bool
  operands    : Vector Byte 9
deriving DecidableEq, Repr

/-! ## Trip counters (05) -/

/-- Trip counter state (R102). -/
inductive TripState where
  | idle
  | armed
  | prewarn
  | tripped
deriving DecidableEq, Repr

/-- A trip counter record (R102). -/
structure TripCounter where
  state     : TripState
  remaining : Nat
  prewarn   : Nat
  overshoot : Nat
deriving DecidableEq, Repr

/-! ## The capture unit (04) -/

/-- Trigger sources (R75, R76, R78, R82). -/
inductive TriggerSource where
  | host
  | line
  | schedule
deriving DecidableEq, Repr

/-- The two Snapshot Banks. -/
inductive BankId where
  | a
  | b
deriving DecidableEq, Repr

/-- Bank states (R92). -/
inductive BankState where
  | free
  | filling
  | complete
  | opened
deriving DecidableEq, Repr

/-- The header of a bank (R82). The source is none in a zeroed header. -/
structure BankHeader where
  sequence      : BitVec 16
  source        : Option TriggerSource
  bin           : Fin 4
  day           : BitVec 16
  minute        : Nat
  second        : Nat
  listLength    : Nat
  copiesMade    : Nat
  damagedCopies : Nat
deriving DecidableEq, Repr

/-- A copy record (R86). -/
structure CopyRecord where
  index    : Fin 64
  digits   : Vector Nibble 12
  wrapped  : Bool
  borrowed : Bool
  damaged  : Bool
  suspense : Option Nat
deriving DecidableEq, Repr

/-- A Snapshot Bank: state, header and 64 copy record positions (R92). -/
structure Bank where
  state  : BankState
  header : BankHeader
  copies : Vector CopyRecord 64
deriving DecidableEq, Repr

/-- The capture state and, while CAPTURING, its phase (R74). -/
inductive CapturePhase where
  | idle
  | copying
  | draining
deriving DecidableEq, Repr

/-- The capture unit (R74). -/
structure CaptureUnit where
  epoch      : Bool
  phase      : CapturePhase
  list       : List (Fin 64)
  copiesMade : Nat
  sequence   : BitVec 16
  lastChosen : Option BankId
  bankA      : Bank
  bankB      : Bank
  capEnable  : Bool
  capLockout : Bool
  capLevel   : Bool
deriving DecidableEq, Repr

/-! ## The tariff selector (06) -/

/-- A switch point as stored: an 11-bit minute, a 3-bit bin and a capture flag (R126). -/
structure SwitchPoint where
  minute  : BitVec 11
  bin     : BitVec 3
  capture : Bool
deriving DecidableEq, Repr

/-- The time hold (R124). -/
structure TimeHold where
  day    : BitVec 16
  minute : Nat
  second : Nat
deriving DecidableEq, Repr

/-- The tariff selector: time of day (R120), current bin (R125), schedule (R126), SCHED_INVALID (R126), time hold
(R124). -/
structure Tariff where
  phase   : Nat
  second  : Nat
  minute  : Nat
  day     : BitVec 16
  bin     : Fin 4
  count   : Byte
  points  : Vector SwitchPoint 12
  enable  : Bool
  invalid : Bool
  hold    : TimeHold
deriving DecidableEq, Repr

/-! ## Notices (08) -/

/-- Notice kinds (R161). -/
inductive NoticeKind where
  | trip | prewarn | overrun | wrap | borrow | damaged
  | captureDone | captureRefused | bankOverwritten | tariff | lost
deriving DecidableEq, Repr

/-- A notice record (R161): `data0` is the first data byte, `data1` the second. -/
structure Notice where
  kind     : NoticeKind
  subject  : Byte
  sequence : Byte
  data0    : Byte
  data1    : Byte
deriving DecidableEq, Repr

/-- The Notice Queue, oldest first, with the lost count (R165), the sequence counter (R163) and the two interrupt enables
(R169). -/
structure Notices where
  queue    : List Notice
  lost     : Nat
  nextSeq  : Byte
  noticeIe : Bool
  cmdIe    : Bool
deriving DecidableEq, Repr

/-! ## The host window (09) -/

/-- A valid read latch: where it was loaded from and the record's bytes (R176). -/
structure Latch where
  space : Byte
  index : Byte
  bytes : List Byte
deriving DecidableEq, Repr

/-- An open write buffer: the record it opened for and the bytes of one writable part (R176, R181). -/
structure Buffer where
  space : Byte
  index : Byte
  bytes : List Byte
deriving DecidableEq, Repr

/-- The window (R176). `readData` is the model's own field: the byte the last read access put on D7 to D0, none when the
part drove none (R173, log entry 11). -/
structure Window where
  space    : Byte
  index    : Byte
  offset   : Byte
  latch    : Option Latch
  buffer   : Option Buffer
  refused  : Bool
  fault    : Bool
  readData : Option Byte
deriving DecidableEq, Repr

/-! ## Supply and the whole state -/

/-- Whether the part runs or is held in a reset (R191). -/
inductive Hold where
  | running
  | warm
  | cold
deriving DecidableEq, Repr

/-- The hold, and the two levels that decide whether a cold reset ends in warm reset (R191). -/
structure Supply where
  hold       : Hold
  resetLow   : Bool
  mainAbsent : Bool
deriving DecidableEq, Repr

/-- The whole part, and the commands that wait for it, first in first out. -/
structure State where
  table   : Table
  inputs  : Vector Input 16
  engine  : Engine
  trips   : Vector TripCounter 8
  capture : CaptureUnit
  tariff  : Tariff
  slot    : Slot
  notices : Notices
  window  : Window
  supply  : Supply
  pending : List Instr
deriving DecidableEq, Repr

/-- Why the machine stops. The spec names no event that stops the part, so there is no fault: nothing raises one. -/
inductive Fault where
deriving DecidableEq, Repr

/-- Why a command has no meaning. -/
inductive Refusal where
  /-- A command the model gives no meaning yet, raised by an arm of exec only; safe, since a claim can then not be proved
  of it. No arm raises it. -/
  | notModelled (mnemonic : String)
deriving DecidableEq, Repr

/-! ## The values a cold reset gives each block -/

/-- An entry after a cold reset (R21). -/
def Entry.cold : Entry :=
  { digits := Vector.replicate 12 0, check := 0, wrapped := false, borrowed := false, damaged := false,
    member := false, suspense := none }

/-- The table after a cold reset (R21). -/
def Table.cold : Table := { entries := Vector.replicate 64 Entry.cold, held := [], deferred := none }

/-- An input configuration after a cold reset: weight 1, everything else the first code (R44). -/
def InputConfig.cold : InputConfig :=
  { mode := .off, edge := .rise, sense := .add, weight := #v[1, 0, 0, 0], lockout := 0, base := 0, tariffed := false,
    link := none }

/-- The main-domain state of an input after a reset, with its configuration and the level of its line (R43, R44). -/
def Input.afterReset (config : InputConfig) (level : Bool) : Input :=
  { config := config, state := if config.mode = .off then .off else .active, queue := [], inFlight := false,
    rejects := 0, dropped := 0, lockout := false, level := level }

/-- The engine after either reset (R70, R71). -/
def Engine.afterReset : Engine := { op := none, hostWait := 0 }

/-- A trip counter after a cold reset (R119). -/
def TripCounter.cold : TripCounter := { state := .idle, remaining := 0, prewarn := 0, overshoot := 0 }

/-- A zeroed bank header (R92, R99). -/
def BankHeader.zero : BankHeader :=
  { sequence := 0, source := none, bin := 0, day := 0, minute := 0, second := 0, listLength := 0, copiesMade := 0,
    damagedCopies := 0 }

/-- A zeroed copy record (R82). -/
def CopyRecord.zero : CopyRecord :=
  { index := 0, digits := Vector.replicate 12 0, wrapped := false, borrowed := false, damaged := false,
    suspense := none }

/-- A bank after either reset (R99). -/
def Bank.afterReset : Bank :=
  { state := .free, header := BankHeader.zero, copies := Vector.replicate 64 CopyRecord.zero }

/-- The capture unit after a reset, with the sequence number it is left with and the level of CAP (R99, R100). -/
def CaptureUnit.afterReset (sequence : BitVec 16) (capLevel : Bool) : CaptureUnit :=
  { epoch := false, phase := .idle, list := [], copiesMade := 0, sequence := sequence, lastChosen := none,
    bankA := Bank.afterReset, bankB := Bank.afterReset, capEnable := false, capLockout := false,
    capLevel := capLevel }

/-- The time hold after either reset (R124). -/
def TimeHold.zero : TimeHold := { day := 0, minute := 0, second := 0 }

/-- The tariff selector after a cold reset (R137). -/
def Tariff.cold : Tariff :=
  { phase := 0, second := 0, minute := 0, day := 0, bin := 0, count := 0,
    points := Vector.replicate 12 { minute := 0, bin := 0, capture := false },
    enable := false, invalid := false, hold := TimeHold.zero }

/-- The command slot after either reset (R159, R160). -/
def Slot.afterReset : Slot :=
  { state := .idle, lastCode := none, result := .ok, cmdDone := false, refusedBusy := false, cancelLate := false,
    operands := Vector.replicate 9 0 }

/-- The Notice Queue and the interrupt enables after either reset (R171, R172). -/
def Notices.afterReset : Notices := { queue := [], lost := 0, nextSeq := 0, noticeIe := false, cmdIe := false }

/-- The window after either reset (R176). -/
def Window.afterReset : Window :=
  { space := 0, index := 0, offset := 0, latch := none, buffer := none, refused := false, fault := false,
    readData := none }

/-- The machine right after reset: a cold reset has given every block its values and has ended, with the main supply
present and RESET# high, so the part runs (R191; DESIGN CHOICE, log entry 1). The count input and CAP lines are low
(DESIGN CHOICE, log entry 2), and no command waits. -/
def State.reset : State :=
  { table := Table.cold,
    inputs := Vector.replicate 16 (Input.afterReset InputConfig.cold false),
    engine := Engine.afterReset,
    trips := Vector.replicate 8 TripCounter.cold,
    capture := CaptureUnit.afterReset 0 false,
    tariff := Tariff.cold,
    slot := Slot.afterReset,
    notices := Notices.afterReset,
    window := Window.afterReset,
    supply := { hold := .running, resetLow := false, mainAbsent := false },
    pending := [] }

end Sys2Proof.Machine
end

