-- ==== Sys2Proof/Machine/Operands.lean ====
section
/-! DEFINITION. Machine/Operands.lean: decimal digits, packed BCD and binary fields, and the operands of every command
with their validation (R105, R142, R189). -/

namespace Sys2Proof.Machine

/-! ## Digits and bytes -/

/-- A digit position that holds a decimal digit (R2). -/
def isDecimal (d : Nibble) : Bool := decide (d.toNat ≤ 9)

/-- Every position holds a decimal digit. -/
def allDecimal {n : Nat} (ds : Vector Nibble n) : Bool := ds.toList.all isDecimal

/-- The number a list of digits spells, least significant first. -/
def decimalOf : List Nibble → Nat
  | [] => 0
  | d :: ds => d.toNat + 10 * decimalOf ds

/-- The number twelve (or four, or eight) digit positions spell. -/
def decimalValue {n : Nat} (ds : Vector Nibble n) : Nat := decimalOf ds.toList

/-- The `n` decimal digits of a number, least significant first. -/
def decimalDigits (n v : Nat) : Vector Nibble n := Vector.ofFn fun i => BitVec.ofNat 4 (v / 10 ^ i.val % 10)

/-- The more significant digit of a packed BCD byte, in bits 7 to 4 (09, Record layouts). -/
def highNibble (b : Byte) : Nibble := b.extractLsb' 4 4

/-- The less significant digit of a packed BCD byte. -/
def lowNibble (b : Byte) : Nibble := b.extractLsb' 0 4

/-- The byte that holds two digits. -/
def packNibbles (high low : Nibble) : Byte := high ++ low

/-- The packed BCD bytes of `n` digits, most significant byte first; `n` is even. -/
def bcdBytes {n : Nat} (ds : Vector Nibble n) : List Byte :=
  (List.range (n / 2)).map fun j =>
    packNibbles (ds.toList.getD (n - 1 - 2 * j) 0) (ds.toList.getD (n - 2 - 2 * j) 0)

/-- The `n` digits held in packed BCD bytes, most significant byte first; `n` is even. -/
def bcdDigits (n : Nat) (bytes : List Byte) : Vector Nibble n :=
  Vector.ofFn fun i =>
    let p := n - 1 - i.val
    let b := bytes.getD (p / 2) 0
    if p % 2 = 0 then highNibble b else lowNibble b

/-- The packed BCD bytes of a number of `n` digits. -/
def bcdNumber (n v : Nat) : List Byte := bcdBytes (decimalDigits n v)

/-- The more significant byte of a two-byte binary field. -/
def highByte (w : BitVec 16) : Byte := w.extractLsb' 8 8

/-- The less significant byte of a two-byte binary field. -/
def lowByte (w : BitVec 16) : Byte := w.extractLsb' 0 8

/-- The two bytes of a two-byte binary field, most significant byte first. -/
def wordBytes (w : BitVec 16) : List Byte := [highByte w, lowByte w]

/-- The two-byte binary field made of a high and a low byte. -/
def wordOf (high low : Byte) : BitVec 16 := high ++ low

/-- A number presented in one byte. -/
def byteOf (n : Nat) : Byte := BitVec.ofNat 8 n

/-- A flag presented at a bit position of a byte. -/
def flagBit (position : Nat) (flag : Bool) : Byte := if flag then BitVec.ofNat 8 (2 ^ position) else 0

/-! ## Commands and their validation -/

/-- A command with its validated operands: one for the engine, or one taken at once by its owner (R141, R157). -/
inductive Command where
  | engine (command : EngineCommand)
  | capture
  | openBank
  | closeBank
  | setTariff (bin : Fin 4)
  | setTime (day : BitVec 16) (minute second : Nat)
  | resetInput (input : Fin 16)
deriving DecidableEq, Repr

/-- The first failing check of R142, or the command. -/
abbrev Validation := Except Result Command

/-- An index operand: BAD_INDEX at or above the limit (R142). -/
def checkIndex (limit : Nat) (b : Byte) (k : Fin limit → Validation) : Validation :=
  if h : b.toNat < limit then k ⟨b.toNat, h⟩ else .error .badIndex

/-- A decimal operand: BAD_DIGIT when a position holds a non-decimal digit (R142). -/
def checkDigits {n : Nat} (ds : Vector Nibble n) (k : Nat → Validation) : Validation :=
  if allDecimal ds then k (decimalValue ds) else .error .badDigit

/-- A condition on operand values: BAD_OPERAND when it fails (R142). -/
def checkOperand (good : Bool) (c : Command) : Validation := if good then .ok c else .error .badOperand

/-- Decimal operand of `n` digits starting at OPERAND`start` (R189). -/
def operandDigits (ops : Vector Byte 9) (start n : Nat) : Vector Nibble n := bcdDigits n (ops.toList.drop start)

/-- The codes of REPAIR's fold byte (R189). -/
def foldOf (b : Byte) : Option Bool :=
  match b.toNat with
  | 0 => some false
  | 1 => some true
  | _ => none

/-- ARM_TRIP's preset and prewarn: the preset is not 0, and the prewarn is 0 or below it (R105). -/
def armOperandsGood (preset prewarn : Nat) : Bool := decide (preset ≠ 0 ∧ (prewarn = 0 ∨ prewarn < preset))

/-- The operands of a named command, read from the operand registers and checked in the order index, digits, operand
(R105, R142, R189). -/
def validateOperands (name : CommandName) (ops : Vector Byte 9) : Validation :=
  match name with
  | .preset =>
    checkIndex 64 ops[0] fun e => checkDigits (operandDigits ops 1 12) fun v => .ok (.engine (.preset e v))
  | .add =>
    checkIndex 64 ops[0] fun e => checkDigits (operandDigits ops 1 12) fun v => .ok (.engine (.add e v))
  | .subtract =>
    checkIndex 64 ops[0] fun e => checkDigits (operandDigits ops 1 12) fun v => .ok (.engine (.subtract e v))
  | .transfer =>
    checkIndex 64 ops[0] fun source => checkIndex 64 ops[1] fun target =>
      checkOperand (source != target) (.engine (.transfer source target))
  | .repair =>
    checkIndex 64 ops[0] fun e => checkDigits (operandDigits ops 1 12) fun v =>
      match foldOf ops[7] with
      | some fold => .ok (.engine (.repair e v fold))
      | none => .error .badOperand
  | .clearFlags => checkIndex 64 ops[0] fun e => .ok (.engine (.clearFlags e))
  | .armTrip =>
    checkIndex 8 ops[0] fun k => checkDigits (operandDigits ops 1 8) fun preset =>
      checkDigits (operandDigits ops 5 8) fun prewarn =>
        checkOperand (armOperandsGood preset prewarn) (.engine (.armTrip k preset prewarn))
  | .disarmTrip => checkIndex 8 ops[0] fun k => .ok (.engine (.disarmTrip k))
  | .capture => .ok .capture
  | .openBank => .ok .openBank
  | .closeBank => .ok .closeBank
  | .setTariff =>
    if h : ops[0].toNat < 4 then .ok (.setTariff ⟨ops[0].toNat, h⟩) else .error .badOperand
  | .setTime =>
    let minute := (wordOf ops[2] ops[3]).toNat
    let second := ops[4].toNat
    checkOperand (decide (minute < Config.minutesPerDay ∧ second < Config.secondsPerMinute))
      (.setTime (wordOf ops[0] ops[1]) minute second)
  | .resetInput => checkIndex 16 ops[0] fun n => .ok (.resetInput n)

/-- Validation of a code and its operands (R142): a code that names no command gives BAD_COMMAND, and its operands are
not checked. -/
def validate (code : Byte) (ops : Vector Byte 9) : Validation :=
  match decodeCommand code with
  | some name => validateOperands name ops
  | none => .error .badCommand

end Sys2Proof.Machine
end

