-- ==== Sys2Proof/Machine/Flags.lean ====
section
/-! DEFINITION. Machine/Flags.lean: the check digit (R3), the tests of verification (R10), and decimal addition and
subtraction with the WRAPPED and BORROWED flags (R50, R51). -/

namespace Sys2Proof.Machine

/-- The weighted digit sum S: positions d0, d2, … have weight 3, positions d1, d3, … weight 1 (R3). -/
def weightedSum : List Nibble → Nat
  | [] => 0
  | [d] => 3 * d.toNat
  | d :: e :: ds => 3 * d.toNat + e.toNat + weightedSum ds

/-- The check digit of a value: 10 minus S modulo 10, taken modulo 10 (R3). -/
def checkDigit (ds : Vector Nibble 12) : Fin 10 := Fin.ofNat 10 (10 - weightedSum ds.toList % 10)

/-- The cause of a failed verification (R10, R11). -/
inductive DamageCause where
  | digit
  | check
deriving DecidableEq, Repr

/-- The tests made on an entry that is not marked DAMAGED: DIGIT when a position holds a non-decimal digit, CHECK when
the stored check digit is not the computed one (R10). -/
def examine (en : Entry) : Option DamageCause :=
  if allDecimal en.digits then
    if en.check = checkDigit en.digits then none else some .check
  else some .digit

/-- What an addition or a subtraction gives: the twelve-digit result and whether it went out of range. -/
structure Carry where
  result   : Nat
  wrapped  : Bool
  borrowed : Bool
deriving DecidableEq, Repr

/-- Addition to a twelve-digit quantity (R50). -/
def addTotal (q a : Nat) : Carry :=
  if q + a < Config.totalModulus then { result := q + a, wrapped := false, borrowed := false }
  else { result := q + a - Config.totalModulus, wrapped := true, borrowed := false }

/-- Subtraction from a twelve-digit quantity (R51). -/
def subtractTotal (q a : Nat) : Carry :=
  if a ≤ q then { result := q - a, wrapped := false, borrowed := false }
  else { result := q + Config.totalModulus - a, wrapped := false, borrowed := true }

/-- The arithmetic of an amount by its sense (R56, R57). -/
def carryAmount (sense : Sense) (q a : Nat) : Carry :=
  match sense with
  | .add => addTotal q a
  | .subtract => subtractTotal q a

/-- An entry with the flags the arithmetic sets: a set flag stays set (R5). -/
def Entry.withFlags (en : Entry) (c : Carry) : Entry :=
  { en with wrapped := en.wrapped || c.wrapped, borrowed := en.borrowed || c.borrowed }

/-- An entry whose value the engine writes: twelve decimal digits and their fresh check digit (R2, R4). -/
def Entry.withValue (en : Entry) (v : Nat) : Entry :=
  { en with digits := decimalDigits 12 v, check := checkDigit (decimalDigits 12 v) }

/-- The numeric value of an entry's digits (R1). -/
def Entry.value (en : Entry) : Nat := decimalValue en.digits

/-- An accepted pulse's group amount: count times weight, exact (R54). -/
def Group.amount (g : Group) : Nat := g.count * g.weight

end Sys2Proof.Machine
end

