-- ==== Sys2Proof/Machine/Layout.lean ====
section
/-! DEFINITION. Machine/Layout.lean: the byte layouts of the records (R185 to R187), the codes of results and notices
(R188, R189), the lines out, and the fields the direct registers are made of (R166, R175). -/

namespace Sys2Proof.Machine

/-! ## TABLE and BANK records (R185) -/

/-- A suspense as its twelve digits, twelve zero digits when absent (R8, R185). -/
def suspenseBytes (suspense : Option Nat) : List Byte := bcdNumber 12 (suspense.getD 0)

/-- The 14 bytes of an entry; IN_UPDATE is set when the entry is held at the load (R16, R17, R185). -/
def entryBytes (en : Entry) (inUpdate : Bool) : List Byte :=
  bcdBytes en.digits ++
    [byteOf en.check.val,
     flagBit 0 en.wrapped ||| flagBit 1 en.borrowed ||| flagBit 2 en.damaged ||| flagBit 3 en.member |||
       flagBit 4 inUpdate] ++
    suspenseBytes en.suspense

/-- The 14 bytes of a copy record (R185). -/
def copyBytes (c : CopyRecord) : List Byte :=
  [byteOf c.index.val, flagBit 0 c.wrapped ||| flagBit 1 c.borrowed ||| flagBit 2 c.damaged] ++
    bcdBytes c.digits ++ suspenseBytes c.suspense

/-! ## INPUT records (R186) -/

/-- The code of a mode. -/
def InputMode.code : InputMode → Byte
  | .off => 0x00
  | .count => 0x01

/-- The code of an edge selection. -/
def EdgeSelect.code : EdgeSelect → Byte
  | .rise => 0x01
  | .fall => 0x02
  | .both => 0x03

/-- The code of a sense. -/
def Sense.code : Sense → Byte
  | .add => 0x00
  | .subtract => 0x01

/-- The code of a trip link. -/
def linkCode : Option (Fin 8) → Byte
  | none => 0x00
  | some k => byteOf (0x80 + k.val)

/-- The nine configuration bytes (R186). -/
def configBytes (c : InputConfig) : List Byte :=
  [c.mode.code, c.edge.code, c.sense.code] ++ bcdBytes c.weight ++
    [c.lockout, byteOf c.base.val, if c.tariffed then 0x01 else 0x00, linkCode c.link]

/-- The mode a code names. -/
def decodeMode (b : Byte) : Option InputMode :=
  match b.toNat with
  | 0 => some .off
  | 1 => some .count
  | _ => none

/-- The edge selection a code names. -/
def decodeEdge (b : Byte) : Option EdgeSelect :=
  match b.toNat with
  | 1 => some .rise
  | 2 => some .fall
  | 3 => some .both
  | _ => none

/-- The sense a code names. -/
def decodeSense (b : Byte) : Option Sense :=
  match b.toNat with
  | 0 => some .add
  | 1 => some .subtract
  | _ => none

/-- The tariffed field a code names. -/
def decodeTariffed (b : Byte) : Option Bool :=
  match b.toNat with
  | 0 => some false
  | 1 => some true
  | _ => none

/-- The trip link a code names: none, or a counter. -/
def decodeLink (b : Byte) : Option (Option (Fin 8)) :=
  if b.toNat = 0 then some none
  else if h : 0x80 ≤ b.toNat ∧ b.toNat < 0x88 then some (some ⟨b.toNat - 0x80, by omega⟩)
  else none

/-- The base a number names, none above 63 (R24). -/
def decodeBase (b : Byte) : Option (Fin 64) := if h : b.toNat < 64 then some ⟨b.toNat, h⟩ else none

/-- The configuration nine bytes spell; none when a field holds an undefined code (R24, R186). -/
def decodeConfig (bytes : List Byte) : Option InputConfig :=
  match decodeMode (bytes.getD 0 0), decodeEdge (bytes.getD 1 0), decodeSense (bytes.getD 2 0),
      decodeBase (bytes.getD 6 0), decodeTariffed (bytes.getD 7 0), decodeLink (bytes.getD 8 0) with
  | some mode, some edge, some sense, some base, some tariffed, some link =>
    some { mode := mode, edge := edge, sense := sense, weight := bcdDigits 4 (bytes.drop 3),
           lockout := bytes.getD 5 0, base := base, tariffed := tariffed, link := link }
  | _, _, _, _, _, _ => none

/-- The code of an input state. -/
def InputState.code : InputState → Byte
  | .off => 0
  | .active => 1
  | .overrun => 2

/-- Queued groups (R28). -/
def Input.queuedGroups (i : Input) : Nat := i.queue.length

/-- Queued pulses: the sum of the groups' counts (R28). -/
def Input.queuedPulses (i : Input) : Nat := (i.queue.map Group.count).sum

/-- The 16 bytes of an input record (R186). -/
def inputBytes (i : Input) : List Byte :=
  configBytes i.config ++
    [i.state.code, byteOf i.queuedGroups, byteOf i.queuedPulses, if i.inFlight then 1 else 0, byteOf i.rejects] ++
    wordBytes (BitVec.ofNat 16 i.dropped)

/-! ## TRIP, BANK header and SCHEDULE records (R187) -/

/-- The code of a counter state. -/
def TripState.code : TripState → Byte
  | .idle => 0
  | .armed => 1
  | .prewarn => 2
  | .tripped => 3

/-- The 13 bytes of a counter record. -/
def tripBytes (t : TripCounter) : List Byte :=
  [t.state.code] ++ bcdNumber 8 t.remaining ++ bcdNumber 8 t.prewarn ++ bcdNumber 8 t.overshoot

/-- The code of a bank (R187, R188). -/
def BankId.code : BankId → Byte
  | .a => 0
  | .b => 1

/-- The code of a trigger source (R187, R188). -/
def TriggerSource.code : TriggerSource → Byte
  | .host => 1
  | .line => 2
  | .schedule => 3

/-- The 13 bytes of a bank header; a zeroed header has no source and reads 0 there. -/
def headerBytes (id : BankId) (h : BankHeader) : List Byte :=
  [id.code] ++ wordBytes h.sequence ++ [(h.source.map TriggerSource.code).getD 0, byteOf h.bin.val] ++
    wordBytes h.day ++ wordBytes (BitVec.ofNat 16 h.minute) ++
    [byteOf h.second, byteOf h.listLength, byteOf h.copiesMade, byteOf h.damagedCopies]

/-- The three bytes of a switch point. -/
def pointBytes (p : SwitchPoint) : List Byte :=
  [BitVec.setWidth 8 (p.minute.extractLsb' 8 3), p.minute.extractLsb' 0 8,
   BitVec.setWidth 8 p.bin ||| flagBit 7 p.capture]

/-- The switch point three bytes spell: the named bits, the others ignored (R187). -/
def decodePoint (bytes : List Byte) : SwitchPoint :=
  let high : BitVec 3 := (bytes.getD 0 0).extractLsb' 0 3
  { minute := high ++ bytes.getD 1 0, bin := (bytes.getD 2 0).extractLsb' 0 3,
    capture := (bytes.getD 2 0).getLsbD 7 }

/-! ## Result and notice codes (R188, R189) -/

/-- The code CMD_RESULT reads (R189). -/
def Result.code : Result → Byte
  | .ok => 0x00
  | .okWrapped => 0x01
  | .okBorrowed => 0x02
  | .badCommand => 0x10
  | .badIndex => 0x11
  | .badDigit => 0x12
  | .badOperand => 0x13
  | .damaged => 0x20
  | .notDamaged => 0x21
  | .noBank => 0x30
  | .bankOpen => 0x31
  | .capturing => 0x32
  | .cancelled => 0x40

/-- The code of a notice kind (R188). -/
def NoticeKind.code : NoticeKind → Byte
  | .trip => 0x01
  | .prewarn => 0x02
  | .overrun => 0x03
  | .wrap => 0x04
  | .borrow => 0x05
  | .damaged => 0x06
  | .captureDone => 0x07
  | .captureRefused => 0x08
  | .bankOverwritten => 0x09
  | .tariff => 0x0A
  | .lost => 0x0B

/-- The code of a damage cause (R188). -/
def DamageCause.code : DamageCause → Byte
  | .digit => 1
  | .check => 2

/-! ## Lines and register fields -/

/-- The part runs: it is held in no reset (R191). -/
abbrev State.Running (s : State) : Prop := s.supply.hold = .running

/-- IRQ is asserted (R169): a notice with NOTICE_IE, or CMD_DONE with CMD_IE; never while a reset holds the driver off
(R171, R191). -/
def State.irqAsserted (s : State) : Bool :=
  decide s.Running && ((!s.notices.queue.isEmpty && s.notices.noticeIe) || (s.slot.cmdDone && s.notices.cmdIe))

/-- The level line TRIPn is driven to: asserted (true, high) exactly while TCn is TRIPPED, and not driven while a reset
holds the drivers off (R104, R191). -/
def State.tripLine (s : State) (k : Fin 8) : Option Bool :=
  if s.Running then some (decide ((s.trips[k.val]).state = .tripped)) else none

/-- The code of the slot state in SLOT_STATUS (R175). -/
def SlotState.code : SlotState → Byte
  | .idle => 0
  | .waiting _ => 1
  | .running _ => 2

/-- The code of a bank state in BANK_STATES (R175). -/
def BankState.code : BankState → Byte
  | .free => 0
  | .filling => 1
  | .complete => 2
  | .opened => 3

/-- CAPTURE_STATUS (R175). -/
def CapturePhase.code : CapturePhase → Byte
  | .idle => 0
  | .copying => 1
  | .draining => 3

/-- A field of the head notice, 0 while the queue is empty (R166). -/
def headField (q : List Notice) (field : Notice → Byte) : Byte := (q.head?.map field).getD 0

/-- PENDING_COMMIT: the table holds a deferred value (R176, R183). -/
def State.pendingCommit (s : State) : Bool := s.table.deferred.isSome

end Sys2Proof.Machine
end

