-- ==== Sys2Proof/Machine/Ops.lean ====
section
/-! DEFINITION. Machine/Ops.lean: the operations over the blocks that the commands share: records, notices,
verification and holds, the arbiter, grants and completions, triggers and captures, the bin. -/

namespace Sys2Proof.Machine

/-! ## Records -/

/-- The entry at an index. -/
def State.entry (s : State) (e : Fin 64) : Entry := s.table.entries[e.val]

/-- The state with one entry written. -/
def State.setEntry (s : State) (e : Fin 64) (en : Entry) : State :=
  { s with table := { s.table with entries := s.table.entries.set e.val en } }

/-- The input at a number. -/
def State.input (s : State) (n : Fin 16) : Input := s.inputs[n.val]

/-- The state with one input written. -/
def State.setInput (s : State) (n : Fin 16) (i : Input) : State := { s with inputs := s.inputs.set n.val i }

/-- The trip counter at a number. -/
def State.trip (s : State) (k : Fin 8) : TripCounter := s.trips[k.val]

/-- The state with one trip counter written. -/
def State.setTrip (s : State) (k : Fin 8) (t : TripCounter) : State := { s with trips := s.trips.set k.val t }

/-- A Snapshot Bank. -/
def CaptureUnit.bank (c : CaptureUnit) : BankId → Bank
  | .a => c.bankA
  | .b => c.bankB

/-- The capture unit with one bank written. -/
def CaptureUnit.setBank (c : CaptureUnit) (id : BankId) (bk : Bank) : CaptureUnit :=
  match id with
  | .a => { c with bankA := bk }
  | .b => { c with bankB := bk }

/-- The other bank. -/
def BankId.other : BankId → BankId
  | .a => .b
  | .b => .a

/-- An event that reaches the part only while it runs: held in a reset it leaves no trace (R99, R159, R171, R173, R191). -/
def whenRunning (f : State → State) (s : State) : State := if s.Running then f s else s

/-- The sixteen input numbers, in order. -/
def allInputs : List (Fin 16) := List.finRange 16

/-- The sixty-four entry indexes, in ascending order. -/
def allEntries : List (Fin 64) := List.finRange 64

/-! ## Notices (R163 to R167) -/

/-- Offering a notice to the queue: stored at the tail with the next sequence, or counted as lost when the queue is full
(R163, R164, R165). -/
def Notices.offer (q : Notices) (kind : NoticeKind) (subject data0 data1 : Byte) : Notices :=
  if q.queue.length < Config.noticeDepth then
    { q with
      queue := q.queue ++ [{ kind := kind, subject := subject, sequence := q.nextSeq, data0 := data0, data1 := data1 }],
      nextSeq := q.nextSeq + 1 }
  else { q with lost := min Config.lostMax (q.lost + 1) }

/-- A block offers a notice. While the part is held in a reset the queue takes none (R171, R172). -/
def offer (kind : NoticeKind) (subject data0 data1 : Byte) (s : State) : State :=
  if s.Running then { s with notices := s.notices.offer kind subject data0 data1 } else s

/-- A pop (R167). -/
def Notices.pop (q : Notices) : Notices :=
  match q.queue with
  | [] => q
  | _ :: rest =>
    if q.lost = 0 then { q with queue := rest }
    else
      { q with
        queue := rest ++ [{ kind := .lost, subject := 0, sequence := q.nextSeq, data0 := 0, data1 := byteOf q.lost }],
        nextSeq := q.nextSeq + 1, lost := 0 }

/-! ## Verification (R9 to R12) -/

/-- The operations that notices name, with their codes (R188). -/
inductive OpKind where
  | apply | copy | preset | add | subtract | transfer | repair
deriving DecidableEq, Repr

/-- The operation codes of notices (R188). -/
def OpKind.code : OpKind → Byte
  | .apply => 1
  | .copy => 2
  | .preset => 3
  | .add => 4
  | .subtract => 5
  | .transfer => 6
  | .repair => 7

/-- Damage marking: DAMAGED set, the suspense present at 0, and the DAMAGED notice (R11). -/
def markDamaged (k : OpKind) (e : Fin 64) (cause : DamageCause) (s : State) : State :=
  offer .damaged (byteOf e.val) cause.code k.code
    (s.setEntry e { s.entry e with damaged := true, suspense := some 0 })

/-- Verification of one entry for one kind of operation: its found condition, and the state it leaves (R10, R11). -/
def verify (k : OpKind) (e : Fin 64) (s : State) : Condition × State :=
  if (s.entry e).damaged then (.damaged, s)
  else
    match examine (s.entry e) with
    | none => (.healthy, s)
    | some cause => (.damaged, markDamaged k e cause s)

/-- Verification of a list of entries, in order (R12). -/
def verifyAll : List (OpKind × Fin 64) → State → List Condition × State
  | [], s => ([], s)
  | (k, e) :: rest, s =>
    let first := verify k e s
    let others := verifyAll rest first.2
    (first.1 :: others.1, others.2)

/-- The entries a host operation holds (R13). -/
def EngineCommand.targets : EngineCommand → List (Fin 64)
  | .preset e _ => [e]
  | .add e _ => [e]
  | .subtract e _ => [e]
  | .transfer source target => [source, target]
  | .repair e _ _ => [e]
  | .clearFlags e => [e]
  | .armTrip _ _ _ => []
  | .disarmTrip _ => []

/-- The entries an operation holds (R13, R45). -/
def Work.targets : Work → List (Fin 64)
  | .apply _ g => [g.dest]
  | .copy _ e => [e]
  | .host c => c.targets

/-- The entries an operation verifies at its grant, with the operation its DAMAGED notices name (R9). -/
def Work.verified : Work → List (OpKind × Fin 64)
  | .apply _ g => [(.apply, g.dest)]
  | .copy _ e => [(.copy, e)]
  | .host (.preset e _) => [(.preset, e)]
  | .host (.add e _) => [(.add, e)]
  | .host (.subtract e _) => [(.subtract, e)]
  | .host (.transfer source target) => [(.transfer, source), (.transfer, target)]
  | .host (.repair e _ _) => [(.repair, e)]
  | .host (.clearFlags _) => []
  | .host (.armTrip _ _ _) => []
  | .host (.disarmTrip _) => []

/-! ## Requests, eligibility and the grant order (R62 to R67) -/

/-- A group of the previous epoch (R62). -/
def State.previousEpoch (s : State) (g : Group) : Bool := g.epoch != s.capture.epoch

/-- The Capture List entries not yet copied, empty while the capture unit is IDLE (R62, R63). -/
def State.uncopied (s : State) : List (Fin 64) :=
  match s.capture.phase with
  | .idle => []
  | _ => s.capture.list.drop s.capture.copiesMade

/-- The capture gate on an entry (R63, R65). -/
def State.gated (s : State) (e : Fin 64) : Bool := s.uncopied.contains e

/-- An input's head group (R36). -/
def State.headGroup (s : State) (n : Fin 16) : Option Group := (s.input n).queue.head?

/-- The next list entry, presented as the COPY request in the COPYING phase (R62, R85). -/
def State.nextCopy (s : State) : Option (Fin 64) :=
  match s.capture.phase with
  | .copying => s.capture.list[s.capture.copiesMade]?
  | _ => none

/-- Some queue holds a previous-epoch group for this entry (R64). -/
def State.awaited (s : State) (e : Fin 64) : Bool :=
  allInputs.any fun n => (s.input n).queue.any fun g => s.previousEpoch g && g.dest == e

/-- The host request: the engine command WAITING in the slot (R62). -/
def State.hostRequest (s : State) : Option EngineCommand :=
  match s.slot.state with
  | .waiting c => some c
  | _ => none

/-- The host request, when it is eligible (R65). -/
def State.eligibleHost (s : State) : Option EngineCommand :=
  match s.hostRequest with
  | some c => if c.targets.any s.gated then none else some c
  | none => none

/-- Step 2: the previous-epoch APPLY request of the lowest-numbered input (R63, R66). -/
def State.previousApply (s : State) : Option Work :=
  allInputs.findSome? fun n =>
    match s.headGroup n with
    | some g => if s.previousEpoch g then some (.apply n g) else none
    | none => none

/-- Step 3: the COPY request, when it is eligible (R64, R66). -/
def State.eligibleCopy (s : State) : Option Work :=
  match s.nextCopy with
  | some e => if s.awaited e then none else some (.copy s.capture.copiesMade e)
  | none => none

/-- Step 4: the eligible current-epoch APPLY request of the lowest-numbered input (R63, R66). -/
def State.currentApply (s : State) : Option Work :=
  allInputs.findSome? fun n =>
    match s.headGroup n with
    | some g => if !s.previousEpoch g && !s.gated g.dest then some (.apply n g) else none
    | none => none

/-- The request the arbiter grants, if the engine is FREE and some request is eligible (R47, R66). Held in a reset it
grants none (R70). -/
def State.arbiter (s : State) : Option Work :=
  if s.Running ∧ s.engine.op = none then
    let host := s.eligibleHost.map Work.host
    (if Config.hostWaitMax ≤ s.engine.hostWait then host else none).or
      (s.previousApply.or (s.eligibleCopy.or (s.currentApply.or host)))
  else none

/-- The host-wait count after a grant to another request (R67). -/
def State.hostWaitAfter (s : State) : Nat :=
  if s.eligibleHost.isSome then s.engine.hostWait + 1 else s.engine.hostWait

/-- What every grant does once its request is taken from its source: verification, holds, and the operation record with
its found conditions (R47). -/
def beginOperation (w : Work) (s : State) : State :=
  let v := verifyAll w.verified s
  { v.2 with
    table := { v.2.table with held := w.targets },
    engine := { v.2.engine with op := some { work := w, found := v.1 } } }

/-! ## Completion (R48) -/

/-- The deferred raw value lands on its entry (R18). -/
def landDeferred (s : State) : State :=
  match s.table.deferred with
  | none => s
  | some d =>
    let s' := s.setEntry d.entry { s.entry d.entry with digits := d.digits }
    { s' with table := { s'.table with deferred := none } }

/-- The end of every operation: the deferred value lands, the holds are released, the engine becomes FREE (R48). -/
def release (s : State) : State :=
  let s' := landDeferred s
  { s' with table := { s'.table with held := [] }, engine := { s'.engine with op := none } }

/-- Which quantity of an entry an arithmetic result is written to (R52). -/
inductive Quantity where
  | value
  | suspense
deriving DecidableEq, Repr

/-- The code of a quantity in a WRAP or BORROW notice (R188). -/
def Quantity.code : Quantity → Byte
  | .value => 0
  | .suspense => 1

/-- The WRAP or BORROW notice of a completion: only for a flag that was clear (R52). -/
def offerCarry (k : OpKind) (e : Fin 64) (q : Quantity) (before : Entry) (c : Carry) (s : State) : State :=
  if c.wrapped && !before.wrapped then offer .wrap (byteOf e.val) k.code q.code s
  else if c.borrowed && !before.borrowed then offer .borrow (byteOf e.val) k.code q.code s
  else s

/-- An arithmetic result written to an entry's value, with the fresh check digit, its flag and its notice (R50 to R52). -/
def carryToValue (k : OpKind) (e : Fin 64) (c : Carry) (s : State) : State :=
  offerCarry k e .value (s.entry e) c (s.setEntry e (((s.entry e).withValue c.result).withFlags c))

/-- An arithmetic result written to an entry's suspense, with its flag and its notice (R8, R57). -/
def carryToSuspense (k : OpKind) (e : Fin 64) (c : Carry) (s : State) : State :=
  offerCarry k e .suspense (s.entry e) c (s.setEntry e ({ s.entry e with suspense := some c.result }.withFlags c))

/-- The outcomes an engine completion hands the slot (R53). -/
inductive HostOutcome where
  | inRange
  | wrapped
  | borrowed
  | refusedDamaged
  | refusedNotDamaged
deriving DecidableEq, Repr

/-- The result the slot makes of an outcome (R146). -/
def HostOutcome.result : HostOutcome → Result
  | .inRange => .ok
  | .wrapped => .okWrapped
  | .borrowed => .okBorrowed
  | .refusedDamaged => .damaged
  | .refusedNotDamaged => .notDamaged

/-- The outcome an operation's own arithmetic gives (R53). -/
def Carry.outcome (c : Carry) : HostOutcome :=
  if c.wrapped then .wrapped else if c.borrowed then .borrowed else .inRange

/-- Some verified entry was found DAMAGED at the grant (R45, R60). -/
def Operation.foundDamaged (op : Operation) : Bool := op.found.contains .damaged

/-- The end of a command: the slot is IDLE with this result, and CMD_DONE is set (R146, R147, R150). -/
def endCommand (r : Result) (s : State) : State :=
  { s with slot := { s.slot with state := .idle, result := r, cmdDone := true } }

/-- The completion of the host operation in flight, when `effect` is its effect: the writes, the deferred value, the
release, and the slot's result (R48, R146). With another operation, or none, in flight this completion does not occur
(log entry 5). -/
def completeHost (effect : EngineCommand → Bool → State → Option (HostOutcome × State)) (s : State) : State :=
  match s.engine.op with
  | some op =>
    match op.work with
    | .host c =>
      match effect c op.foundDamaged s with
      | some r => endCommand r.1.result (release r.2)
      | none => s
    | _ => s
  | none => s

/-! ## Trip counters (R110 to R115) -/

/-- The notice a movement queues: none, PREWARN, or TRIP with whether the overshoot is nonzero (R116). -/
inductive TripEvent where
  | none
  | prewarn
  | trip (overshot : Bool)
deriving DecidableEq, Repr

/-- Movement by an ADD-sense amount (R110, R111, R112, R115). -/
def TripCounter.moveDown (t : TripCounter) (a : Nat) : TripCounter × TripEvent :=
  match t.state with
  | .idle => (t, .none)
  | .tripped => ({ t with overshoot := min Config.tripMax (t.overshoot + a) }, .none)
  | .armed =>
    if a < t.remaining then
      if 0 < t.prewarn ∧ t.remaining - a ≤ t.prewarn then
        ({ t with state := .prewarn, remaining := t.remaining - a }, .prewarn)
      else ({ t with remaining := t.remaining - a }, .none)
    else
      ({ t with state := .tripped, remaining := 0, overshoot := a - t.remaining }, .trip (decide (t.remaining < a)))
  | .prewarn =>
    if a < t.remaining then ({ t with remaining := t.remaining - a }, .none)
    else
      ({ t with state := .tripped, remaining := 0, overshoot := a - t.remaining }, .trip (decide (t.remaining < a)))

/-- Movement by a SUBTRACT-sense amount (R113, R114, R115). -/
def TripCounter.moveUp (t : TripCounter) (a : Nat) : TripCounter :=
  match t.state with
  | .idle => t
  | .tripped => { t with overshoot := t.overshoot - a }
  | .armed => { t with remaining := min Config.tripMax (t.remaining + a) }
  | .prewarn =>
    let r := min Config.tripMax (t.remaining + a)
    { t with state := if r ≤ t.prewarn then .prewarn else .armed, remaining := r }

/-- Movement by an amount of either sense (R109). -/
def TripCounter.move (t : TripCounter) (sense : Sense) (a : Nat) : TripCounter × TripEvent :=
  match sense with
  | .add => t.moveDown a
  | .subtract => (t.moveUp a, .none)

/-- The notice of a movement (R116). -/
def offerTrip (input : Fin 16) (k : Fin 8) (ev : TripEvent) (s : State) : State :=
  match ev with
  | .none => s
  | .prewarn => offer .prewarn (byteOf k.val) (byteOf input.val) 0 s
  | .trip overshot => offer .trip (byteOf k.val) (byteOf input.val) (if overshot then 1 else 0) s

/-- An APPLY moves its linked trip counter (R58, R109). -/
def moveLinked (input : Fin 16) (g : Group) (s : State) : State :=
  match g.link with
  | none => s
  | some k =>
    let m := (s.trip k).move g.sense g.amount
    offerTrip input k m.2 (s.setTrip k m.1)

/-! ## Captures (R79 to R94) -/

/-- The state with the capture unit replaced. -/
def State.setCapture (s : State) (c : CaptureUnit) : State := { s with capture := c }

/-- A previous-epoch group is in flight (R90). -/
def State.previousInFlight (s : State) : Bool :=
  match s.engine.op with
  | some op =>
    match op.work with
    | .apply _ g => s.previousEpoch g
    | _ => false
  | none => false

/-- A previous-epoch group exists, queued or in flight (R90). -/
def State.previousExists (s : State) : Bool :=
  s.previousInFlight || allInputs.any fun n => (s.input n).queue.any s.previousEpoch

/-- The bank being filled. -/
def CaptureUnit.fillingBank (c : CaptureUnit) : Option BankId :=
  if c.bankA.state = .filling then some .a else if c.bankB.state = .filling then some .b else none

/-- The completion of a capture: the FILLING bank becomes COMPLETE, the unit IDLE, and CAPTURE_DONE is queued (R91). -/
def completeCapture (s : State) : State :=
  let c := s.capture
  match c.fillingBank with
  | none => s.setCapture { c with phase := .idle }
  | some id =>
    let bk := c.bank id
    offer .captureDone id.code (highByte bk.header.sequence) (lowByte bk.header.sequence)
      (s.setCapture { c.setBank id { bk with state := .complete } with phase := .idle })

/-- A capture in DRAINING completes at the first event after which no previous-epoch group exists (R90). -/
def checkDrain (s : State) : State :=
  if s.capture.phase = .draining ∧ s.previousExists = false then completeCapture s else s

/-- The bank a trigger chooses (R93): a FREE bank, A first, or else the COMPLETE bank, the earlier of two. The last line
is never reached, since at most one bank is OPEN and none is FILLING at a trigger (R74, log entry 14). -/
def CaptureUnit.choose (c : CaptureUnit) : BankId :=
  if c.bankA.state = .free then .a
  else if c.bankB.state = .free then .b
  else if c.bankA.state = .complete ∧ c.bankB.state = .complete then
    (match c.lastChosen with
     | some id => id.other
     | none => .a)
  else if c.bankA.state = .complete then .a
  else .b

/-- The entries whose MEMBER flag is set, in ascending order (R81). -/
def State.members (s : State) : List (Fin 64) := allEntries.filter fun e => (s.entry e).member

/-- The header written at the taking of a trigger (R82). -/
def State.triggerHeader (s : State) (source : TriggerSource) : BankHeader :=
  { sequence := s.capture.sequence + 1, source := some source, bin := s.tariff.bin, day := s.tariff.day,
    minute := s.tariff.minute, second := s.tariff.second, listLength := s.members.length, copiesMade := 0,
    damagedCopies := 0 }

/-- The BANK_OVERWRITTEN notice of a COMPLETE bank that is chosen (R94). -/
def offerOverwritten (id : BankId) (s : State) : State :=
  let bk := s.capture.bank id
  if bk.state = .complete then
    offer .bankOverwritten id.code (highByte bk.header.sequence) (lowByte bk.header.sequence) s
  else s

/-- The effects of taking a trigger on the capture unit (R79): epoch, sequence, Capture List, bank, phase. -/
def State.triggered (s : State) (source : TriggerSource) : CaptureUnit :=
  let c := s.capture
  let id := c.choose
  { c.setBank id
      { state := .filling, header := s.triggerHeader source, copies := Vector.replicate 64 CopyRecord.zero } with
    epoch := !c.epoch, sequence := c.sequence + 1, list := s.members, copiesMade := 0, lastChosen := some id,
    phase := if s.members.isEmpty then .draining else .copying }

/-- Taking a trigger (R79), with the notices of the taking in their order and the completion of an empty capture (R90). -/
def takeTrigger (source : TriggerSource) (s : State) : State :=
  checkDrain ((offerOverwritten s.capture.choose s).setCapture (s.triggered source))

/-- A trigger of the LINE or SCHEDULE source is taken in IDLE and refused, with CAPTURE_REFUSED, while CAPTURING
(R79, R83). -/
def trigger (source : TriggerSource) (s : State) : State :=
  if s.capture.phase = .idle then takeTrigger source s
  else offer .captureRefused source.code (highByte s.capture.sequence) (lowByte s.capture.sequence) s

/-! ## The current bin and the schedule (R125 to R134) -/

/-- The causes of a TARIFF notice (R134). -/
inductive TariffCause where
  | schedule
  | resolve
  | host
deriving DecidableEq, Repr

/-- The code of a cause (R188). -/
def TariffCause.code : TariffCause → Byte
  | .schedule => 1
  | .resolve => 2
  | .host => 3

/-- A write of the bin, with the TARIFF notice when its value changes (R134). -/
def setBin (bin : Fin 4) (cause : TariffCause) (s : State) : State :=
  let s' := { s with tariff := { s.tariff with bin := bin } }
  if bin = s.tariff.bin then s' else offer .tariff (byteOf bin.val) cause.code (byteOf s.tariff.bin.val) s'

/-- The points in use (R126). -/
def Tariff.inUse (t : Tariff) : List SwitchPoint := t.points.toList.take t.count.toNat

/-- Minutes in strictly ascending order (R126). -/
def ascending : List SwitchPoint → Bool
  | [] => true
  | [_] => true
  | p :: q :: rest => decide (p.minute.toNat < q.minute.toNat) && ascending (q :: rest)

/-- The schedule is valid (R126). -/
def Tariff.valid (t : Tariff) : Bool :=
  decide (t.count.toNat ≤ Config.schedulePoints) &&
    t.inUse.all (fun p => decide (p.minute.toNat < Config.minutesPerDay) && decide (p.bin.toNat < 4)) &&
    ascending t.inUse

/-- The later of the best point so far and a point not above the minute (R131). -/
def laterPoint (minute : Nat) (best : Option SwitchPoint) (p : SwitchPoint) : Option SwitchPoint :=
  if p.minute.toNat ≤ minute then
    match best with
    | none => some p
    | some q => if q.minute.toNat < p.minute.toNat then some p else some q
  else best

/-- The point in force at a minute: the point in use with the greatest minute not above it, or else the last point in
use; none in an empty schedule (R131). -/
def Tariff.pointInForce (t : Tariff) (minute : Nat) : Option SwitchPoint :=
  (t.inUse.foldl (laterPoint minute) none).or t.inUse.getLast?

/-- A switch point's bin; a valid point's bin is 0 to 3 (R126). -/
def SwitchPoint.binOf (p : SwitchPoint) : Fin 4 := Fin.ofNat 4 p.bin.toNat

/-- Resolution of the bin (R131). -/
def resolveBin (s : State) : State :=
  match s.tariff.pointInForce s.tariff.minute with
  | none => s
  | some p => setBin p.binOf .resolve s

end Sys2Proof.Machine
end

