-- ==== Sys2Proof/Machine/Completion.lean ====
section
/-! DEFINITION. Machine/Completion.lean: the completions of the ten kinds of operation (R48). A completion occurs only
when an operation of its kind is in flight; otherwise the command changes nothing (log entry 5). The held entry cannot
change between the grant and the completion (R14), so the quantity found at the grant is the entry's at the completion
(log entry 10). -/

namespace Sys2Proof.Machine

/-! ## APPLY and COPY -/

/-- The amount of an APPLY carried to the value of a healthy entry, or to the suspense of a damaged one (R56, R57). -/
def applyAmount (g : Group) (foundDamaged : Bool) (s : State) : State :=
  if foundDamaged then
    carryToSuspense .apply g.dest (carryAmount g.sense ((s.entry g.dest).suspense.getD 0) g.amount) s
  else carryToValue .apply g.dest (carryAmount g.sense (s.entry g.dest).value g.amount) s

/-- The input's in-flight flag clears (R37). -/
def clearInFlight (n : Fin 16) (s : State) : State := s.setInput n { s.input n with inFlight := false }

/-- APPLY_COMPLETION: the entry, the deferred value, the trip counter, the in-flight flag, and the end of a drain
(R48, R56, R57, R58, R90). -/
def completeApply (s : State) : State :=
  match s.engine.op with
  | some op =>
    match op.work with
    | .apply n g =>
      checkDrain (clearInFlight n (moveLinked n g (release (applyAmount g op.foundDamaged s))))
    | _ => s
  | none => s

/-- The copy record of an entry (R86). -/
def copyOf (e : Fin 64) (en : Entry) (foundDamaged : Bool) : CopyRecord :=
  { index := e, digits := en.digits, wrapped := en.wrapped, borrowed := en.borrowed, damaged := foundDamaged,
    suspense := if foundDamaged then en.suspense else none }

/-- A bank with one more copy (R86). -/
def Bank.addCopy (bk : Bank) (position : Nat) (r : CopyRecord) : Bank :=
  { bk with
    copies := bk.copies.setIfInBounds position r,
    header := { bk.header with
      copiesMade := bk.header.copiesMade + 1,
      damagedCopies := if r.damaged then bk.header.damagedCopies + 1 else bk.header.damagedCopies } }

/-- The capture unit takes a copy: the record, copies made, and the passage to DRAINING at the last one (R86, R89). -/
def CaptureUnit.takeCopy (c : CaptureUnit) (position : Nat) (r : CopyRecord) : CaptureUnit :=
  let c' := match c.fillingBank with
    | some id => c.setBank id ((c.bank id).addCopy position r)
    | none => c
  { c' with
    copiesMade := c.copiesMade + 1,
    phase := if c.copiesMade + 1 = c.list.length then .draining else c.phase }

/-- COPY_COMPLETION (R61, R86, R90): the copy is taken before a deferred value lands. -/
def completeCopy (s : State) : State :=
  match s.engine.op with
  | some op =>
    match op.work with
    | .copy position e =>
      checkDrain (release (s.setCapture (s.capture.takeCopy position (copyOf e (s.entry e) op.foundDamaged))))
    | _ => s
  | none => s

/-! ## The table commands (R151 to R155) -/

/-- PRESET's effect (R151). -/
def presetEffect (c : EngineCommand) (damaged : Bool) (s : State) : Option (HostOutcome × State) :=
  match c with
  | .preset e v =>
    some (if damaged then (.refusedDamaged, s) else (.inRange, s.setEntry e ((s.entry e).withValue v)))
  | _ => none

/-- ADD's effect (R152). -/
def addEffect (c : EngineCommand) (damaged : Bool) (s : State) : Option (HostOutcome × State) :=
  match c with
  | .add e a =>
    let r := addTotal (s.entry e).value a
    some (if damaged then (.refusedDamaged, s) else (r.outcome, carryToValue .add e r s))
  | _ => none

/-- SUBTRACT's effect (R152). -/
def subtractEffect (c : EngineCommand) (damaged : Bool) (s : State) : Option (HostOutcome × State) :=
  match c with
  | .subtract e a =>
    let r := subtractTotal (s.entry e).value a
    some (if damaged then (.refusedDamaged, s) else (r.outcome, carryToValue .subtract e r s))
  | _ => none

/-- TRANSFER's effect: the target gains the source's value and the source becomes 0, in one change (R153). -/
def transferEffect (c : EngineCommand) (damaged : Bool) (s : State) : Option (HostOutcome × State) :=
  match c with
  | .transfer source target =>
    let r := addTotal (s.entry target).value (s.entry source).value
    some (if damaged then (.refusedDamaged, s)
      else (r.outcome, carryToValue .transfer target r (s.setEntry source ((s.entry source).withValue 0))))
  | _ => none

/-- The entry a REPAIR leaves before its arithmetic is written: DAMAGED clear, the suspense absent (R154). -/
def Entry.restored (en : Entry) : Entry := { en with damaged := false, suspense := none }

/-- What a REPAIR writes: the operand, plus the suspense with fold yes (R50, R154). -/
def repairCarry (v : Nat) (fold : Bool) (en : Entry) : Carry :=
  if fold then addTotal v (en.suspense.getD 0) else { result := v, wrapped := false, borrowed := false }

/-- REPAIR's effect (R154). -/
def repairEffect (c : EngineCommand) (damaged : Bool) (s : State) : Option (HostOutcome × State) :=
  match c with
  | .repair e v fold =>
    let r := repairCarry v fold (s.entry e)
    some (if damaged then (r.outcome, carryToValue .repair e r (s.setEntry e (s.entry e).restored))
      else (.refusedNotDamaged, s))
  | _ => none

/-- CLEAR_FLAGS's effect (R155). -/
def clearFlagsEffect (c : EngineCommand) (_damaged : Bool) (s : State) : Option (HostOutcome × State) :=
  match c with
  | .clearFlags e => some (.inRange, s.setEntry e { s.entry e with wrapped := false, borrowed := false })
  | _ => none

/-- ARM_TRIP's effect (R106). -/
def armTripEffect (c : EngineCommand) (_damaged : Bool) (s : State) : Option (HostOutcome × State) :=
  match c with
  | .armTrip k preset prewarn =>
    some (.inRange, s.setTrip k { state := .armed, remaining := preset, prewarn := prewarn, overshoot := 0 })
  | _ => none

/-- DISARM_TRIP's effect (R107). -/
def disarmTripEffect (c : EngineCommand) (_damaged : Bool) (s : State) : Option (HostOutcome × State) :=
  match c with
  | .disarmTrip k => some (.inRange, s.setTrip k { s.trip k with state := .idle })
  | _ => none

/-! ## The rows -/

/-- APPLY_COMPLETION. -/
def execApplyCompletion (s : State) : Host.Outcome State Fault Refusal := .next (whenRunning completeApply s)
/-- COPY_COMPLETION. -/
def execCopyCompletion (s : State) : Host.Outcome State Fault Refusal := .next (whenRunning completeCopy s)
/-- PRESET_COMPLETION. -/
def execPresetCompletion (s : State) : Host.Outcome State Fault Refusal :=
  .next (whenRunning (completeHost presetEffect) s)
/-- ADD_COMPLETION. -/
def execAddCompletion (s : State) : Host.Outcome State Fault Refusal := .next (whenRunning (completeHost addEffect) s)
/-- SUBTRACT_COMPLETION. -/
def execSubtractCompletion (s : State) : Host.Outcome State Fault Refusal :=
  .next (whenRunning (completeHost subtractEffect) s)
/-- TRANSFER_COMPLETION. -/
def execTransferCompletion (s : State) : Host.Outcome State Fault Refusal :=
  .next (whenRunning (completeHost transferEffect) s)
/-- REPAIR_COMPLETION. -/
def execRepairCompletion (s : State) : Host.Outcome State Fault Refusal :=
  .next (whenRunning (completeHost repairEffect) s)
/-- CLEAR_FLAGS_COMPLETION. -/
def execClearFlagsCompletion (s : State) : Host.Outcome State Fault Refusal :=
  .next (whenRunning (completeHost clearFlagsEffect) s)
/-- ARM_TRIP_COMPLETION. -/
def execArmTripCompletion (s : State) : Host.Outcome State Fault Refusal :=
  .next (whenRunning (completeHost armTripEffect) s)
/-- DISARM_TRIP_COMPLETION. -/
def execDisarmTripCompletion (s : State) : Host.Outcome State Fault Refusal :=
  .next (whenRunning (completeHost disarmTripEffect) s)

end Sys2Proof.Machine
end

