-- ==== Sys2Proof/Machine/Grant.lean ====
section
/-! DEFINITION. Machine/Grant.lean: the three kinds of grant (R47, R55, R61, R145). A grant occurs only when the arbiter
names a request of its kind; otherwise the command changes nothing (log entry 5). -/

namespace Sys2Proof.Machine

/-- The claim of an input's head group: it leaves the queue and the in-flight flag is set (R37). -/
def claimHead (n : Fin 16) (s : State) : State :=
  s.setInput n { s.input n with queue := (s.input n).queue.tail, inFlight := true }

/-- The host-wait count at a grant to another request (R67). -/
def countHostWait (s : State) : State := { s with engine := { s.engine with hostWait := s.hostWaitAfter } }

/-- The slot passes from WAITING to RUNNING and the host-wait count becomes 0 (R67, R145). -/
def startHost (c : EngineCommand) (s : State) : State :=
  { s with slot := { s.slot with state := .running c }, engine := { s.engine with hostWait := 0 } }

/-- APPLY_GRANT (R55). -/
def grantApply (s : State) : State :=
  match s.arbiter with
  | some (.apply n g) => beginOperation (.apply n g) (claimHead n (countHostWait s))
  | _ => s

/-- COPY_GRANT (R61, R85). -/
def grantCopy (s : State) : State :=
  match s.arbiter with
  | some (.copy position e) => beginOperation (.copy position e) (countHostWait s)
  | _ => s

/-- HOST_GRANT (R145). -/
def grantHost (s : State) : State :=
  match s.arbiter with
  | some (.host c) => beginOperation (.host c) (startHost c s)
  | _ => s

/-- APPLY_GRANT. -/
def execApplyGrant (s : State) : Host.Outcome State Fault Refusal := .next (grantApply s)
/-- COPY_GRANT. -/
def execCopyGrant (s : State) : Host.Outcome State Fault Refusal := .next (grantCopy s)
/-- HOST_GRANT. -/
def execHostGrant (s : State) : Host.Outcome State Fault Refusal := .next (grantHost s)

end Sys2Proof.Machine
end

