-- ==== Sys2Proof/Machine/Lines.lean ====
section
/-! DEFINITION. Machine/Lines.lean: edges on the count inputs and on CAP, and the expiries of their lockouts
(R29 to R34, R76, R77). -/

namespace Sys2Proof.Machine

/-! ## Count inputs -/

/-- Edge selection: a transition to `level` is one the input counts (R29). -/
def EdgeSelect.selects : EdgeSelect → Bool → Bool
  | .rise, level => level
  | .fall, level => !level
  | .both, _ => true

/-- The destination of a pulse: the base, plus the current bin when tariffed (R31). -/
def InputConfig.destination (c : InputConfig) (bin : Fin 4) : Fin 64 :=
  if c.tariffed then Fin.ofNat 64 (c.base.val + bin.val) else c.base

/-- A pulse as the group it would open (R31, R32). -/
def pulseOf (c : InputConfig) (bin : Fin 4) (epoch : Bool) : Group :=
  { dest := c.destination bin, epoch := epoch, weight := decimalValue c.weight, sense := c.sense, link := c.link,
    count := 1 }

/-- A pulse may join a group: the five fields agree and the count is below 63 (R32). -/
def Group.accepts (g pulse : Group) : Bool :=
  decide (g.dest = pulse.dest ∧ g.epoch = pulse.epoch ∧ g.weight = pulse.weight ∧ g.sense = pulse.sense ∧
    g.link = pulse.link ∧ g.count < Config.groupMax)

/-- The queue after an acceptance: the pulse joins the tail group, or opens a new group where there is room; none when
the pulse is dropped (R32). -/
def placePulse (pulse : Group) (queue : List Group) : Option (List Group) :=
  let opened := if queue.length < Config.queueDepth then some (queue ++ [pulse]) else none
  match queue.getLast? with
  | some tail =>
    if tail.accepts pulse then some (queue.dropLast ++ [{ tail with count := tail.count + 1 }]) else opened
  | none => opened

/-- A qualified edge: it restarts the lockout (R30), and its pulse is accepted (R32, R34) or dropped, with OVERRUN on the
first drop of an episode (R33). -/
def qualifiedEdge (n : Fin 16) (s : State) : State :=
  let i := s.input n
  let running := decide (i.config.lockout ≠ 0)
  match placePulse (pulseOf i.config s.tariff.bin s.capture.epoch) i.queue with
  | some queue => s.setInput n { i with queue := queue, lockout := running, state := .active }
  | none =>
    let dropped := min Config.droppedMax (i.dropped + 1)
    let s' := s.setInput n { i with dropped := dropped, lockout := running, state := .overrun }
    if i.state = .overrun then s'
    else offer .overrun (byteOf n.val) (highByte (BitVec.ofNat 16 dropped)) (lowByte (BitVec.ofNat 16 dropped)) s'

/-- A transition of the line to `level`: ignored, rejected or qualified (R29, R30). -/
def handleEdge (n : Fin 16) (level : Bool) (s : State) : State :=
  let i := s.input n
  if i.config.mode = .count ∧ i.config.edge.selects level = true then
    if i.lockout then s.setInput n { i with rejects := min Config.rejectMax (i.rejects + 1) }
    else qualifiedEdge n s
  else s

/-- The line follows the board in every mode and in every hold (R27, R43). -/
def setLevel (n : Fin 16) (level : Bool) (s : State) : State := s.setInput n { s.input n with level := level }

/-- INPUT_EDGE: line `n` goes to `level`. The level it already has is no transition (log entry 8), and while the part is
held in a reset only the level is followed (R43, R191). -/
def inputEdge (n : Fin 16) (level : Bool) (s : State) : State :=
  if (s.input n).level = level then s else whenRunning (handleEdge n level) (setLevel n level s)

/-- LOCKOUT_EXPIRY: no interval is running any more (R30). -/
def expireLockout (n : Fin 16) (s : State) : State := s.setInput n { s.input n with lockout := false }

/-! ## The CAP line -/

/-- A rising edge on CAP: with the enable set and no lockout running it starts the lockout and issues a LINE trigger
(R76). -/
def capRise (s : State) : State :=
  if s.capture.capEnable && !s.capture.capLockout then
    trigger .line (s.setCapture { s.capture with capLockout := true })
  else s

/-- CAP_EDGE: the CAP line goes to `level` (R76, R77). -/
def capEdge (level : Bool) (s : State) : State :=
  if s.capture.capLevel = level then s
  else
    let s' := s.setCapture { s.capture with capLevel := level }
    if level then whenRunning capRise s' else s'

/-- CAP_LOCKOUT_EXPIRY (R76). -/
def expireCapLockout (s : State) : State := s.setCapture { s.capture with capLockout := false }

/-! ## The rows -/

/-- INPUT_EDGE. -/
def execInputEdge (n : Fin 16) (level : Bool) (s : State) : Host.Outcome State Fault Refusal :=
  .next (inputEdge n level s)
/-- LOCKOUT_EXPIRY. -/
def execLockoutExpiry (n : Fin 16) (s : State) : Host.Outcome State Fault Refusal := .next (expireLockout n s)
/-- CAP_EDGE. -/
def execCapEdge (level : Bool) (s : State) : Host.Outcome State Fault Refusal := .next (capEdge level s)
/-- CAP_LOCKOUT_EXPIRY. -/
def execCapLockoutExpiry (s : State) : Host.Outcome State Fault Refusal := .next (expireCapLockout s)

end Sys2Proof.Machine
end

