-- ==== Sys2Proof/Machine/Slot.lean ====
section
/-! DEFINITION. Machine/Slot.lean: the command slot (07): code writes, commands taken at once, CANCEL. -/

namespace Sys2Proof.Machine

/-! ## Commands taken at once (R157) -/

/-- A CAPTURE command's trigger (R75, R79, R83). -/
def captureCommand (s : State) : Result × State :=
  if s.capture.phase = .idle then (.ok, takeTrigger .host s) else (.capturing, s)

/-- The COMPLETE bank that OPEN_BANK opens: the earlier of two (R95). -/
def CaptureUnit.bankToOpen (c : CaptureUnit) : Option BankId :=
  if c.bankA.state = .complete ∧ c.bankB.state = .complete then
    (match c.lastChosen with
     | some id => some id.other
     | none => some .a)
  else if c.bankA.state = .complete then some .a
  else if c.bankB.state = .complete then some .b
  else none

/-- The OPEN bank (R92, R98). -/
def CaptureUnit.openBank (c : CaptureUnit) : Option BankId :=
  if c.bankA.state = .opened then some .a else if c.bankB.state = .opened then some .b else none

/-- OPEN_BANK (R95). -/
def openBankCommand (s : State) : Result × State :=
  match s.capture.openBank with
  | some _ => (.bankOpen, s)
  | none =>
    match s.capture.bankToOpen with
    | none => (.noBank, s)
    | some id => (.ok, s.setCapture (s.capture.setBank id { s.capture.bank id with state := .opened }))

/-- CLOSE_BANK (R96). -/
def closeBankCommand (s : State) : Result × State :=
  match s.capture.openBank with
  | none => (.noBank, s)
  | some id => (.ok, s.setCapture (s.capture.setBank id { s.capture.bank id with state := .free }))

/-- SET_TIME (R133): the time, the phase, and resolution while the schedule is enabled. -/
def setTimeCommand (day : BitVec 16) (minute second : Nat) (s : State) : State :=
  let s' := { s with tariff := { s.tariff with day := day, minute := minute, second := second, phase := 0 } }
  if s.tariff.enable then resolveBin s' else s'

/-- RESET_INPUT (R40), with the end of a drain it may bring (R90). -/
def resetInputCommand (n : Fin 16) (s : State) : State :=
  let i := s.input n
  checkDrain (s.setInput n
    { i with queue := [], rejects := 0, dropped := 0, state := if i.config.mode = .off then .off else .active })

/-- A validated command at its taking: an engine command becomes WAITING; any other is carried out by its owner and ends
(R141, R157). -/
def handOn (c : Command) (s : State) : State :=
  match c with
  | .engine ec => { s with slot := { s.slot with state := .waiting ec } }
  | .capture => let r := captureCommand s; endCommand r.1 r.2
  | .openBank => let r := openBankCommand s; endCommand r.1 r.2
  | .closeBank => let r := closeBankCommand s; endCommand r.1 r.2
  | .setTariff bin => endCommand .ok (setBin bin .host s)
  | .setTime day minute second => endCommand .ok (setTimeCommand day minute second s)
  | .resetInput n => endCommand .ok (resetInputCommand n s)

/-! ## The code and cancel registers (R141 to R148) -/

/-- The first effects of a taking: the flags clear and the last code (R141, step 1). -/
def beginTaking (code : Byte) (s : State) : State :=
  { s with slot :=
    { s.slot with cmdDone := false, refusedBusy := false, cancelLate := false, lastCode := some code } }

/-- A write to CMD_CODE: taken while the slot is IDLE (R141), refused with REFUSED_BUSY otherwise (R143). -/
def writeCode (code : Byte) (s : State) : State :=
  match s.slot.state with
  | .idle =>
    match validate code s.slot.operands with
    | .ok c => handOn c (beginTaking code s)
    | .error r => endCommand r (beginTaking code s)
  | _ => { s with slot := { s.slot with refusedBusy := true } }

/-- A write to CANCEL: the WAITING command is removed (R147) and the host-wait count becomes 0 (R67); otherwise
CANCEL_LATE (R148). -/
def writeCancel (s : State) : State :=
  match s.slot.state with
  | .waiting _ => endCommand .cancelled { s with engine := { s.engine with hostWait := 0 } }
  | _ => { s with slot := { s.slot with cancelLate := true } }

/-- A write of a code to CMD_CODE as a command of the block. -/
def codeCommand (code : Byte) (s : State) : Host.Outcome State Fault Refusal := .next (whenRunning (writeCode code) s)

/-! ## The rows -/

/-- PRESET: code 0x01 (R141, R189). -/
def execPreset (s : State) : Host.Outcome State Fault Refusal := codeCommand (encodeCommand .preset) s
/-- ADD: code 0x02 (R141, R189). -/
def execAdd (s : State) : Host.Outcome State Fault Refusal := codeCommand (encodeCommand .add) s
/-- SUBTRACT: code 0x03 (R141, R189). -/
def execSubtract (s : State) : Host.Outcome State Fault Refusal := codeCommand (encodeCommand .subtract) s
/-- TRANSFER: code 0x04 (R141, R189). -/
def execTransfer (s : State) : Host.Outcome State Fault Refusal := codeCommand (encodeCommand .transfer) s
/-- REPAIR: code 0x05 (R141, R189). -/
def execRepair (s : State) : Host.Outcome State Fault Refusal := codeCommand (encodeCommand .repair) s
/-- CLEAR_FLAGS: code 0x06 (R141, R189). -/
def execClearFlags (s : State) : Host.Outcome State Fault Refusal := codeCommand (encodeCommand .clearFlags) s
/-- ARM_TRIP: code 0x10 (R105, R141). -/
def execArmTrip (s : State) : Host.Outcome State Fault Refusal := codeCommand (encodeCommand .armTrip) s
/-- DISARM_TRIP: code 0x11 (R107, R141). -/
def execDisarmTrip (s : State) : Host.Outcome State Fault Refusal := codeCommand (encodeCommand .disarmTrip) s
/-- CAPTURE: code 0x20 (R75). -/
def execCapture (s : State) : Host.Outcome State Fault Refusal := codeCommand (encodeCommand .capture) s
/-- OPEN_BANK: code 0x21 (R95). -/
def execOpenBank (s : State) : Host.Outcome State Fault Refusal := codeCommand (encodeCommand .openBank) s
/-- CLOSE_BANK: code 0x22 (R96). -/
def execCloseBank (s : State) : Host.Outcome State Fault Refusal := codeCommand (encodeCommand .closeBank) s
/-- SET_TARIFF: code 0x30 (R132). -/
def execSetTariff (s : State) : Host.Outcome State Fault Refusal := codeCommand (encodeCommand .setTariff) s
/-- SET_TIME: code 0x31 (R133). -/
def execSetTime (s : State) : Host.Outcome State Fault Refusal := codeCommand (encodeCommand .setTime) s
/-- RESET_INPUT: code 0x40 (R40). -/
def execResetInput (s : State) : Host.Outcome State Fault Refusal := codeCommand (encodeCommand .resetInput) s
/-- A code that names no command (R142). A byte that does name one is that command's code (log entry 9). -/
def execUndefinedCommandCode (code : Byte) (s : State) : Host.Outcome State Fault Refusal := codeCommand code s
/-- CANCEL: any value (R147, R148). -/
def execCancel (_value : Byte) (s : State) : Host.Outcome State Fault Refusal := .next (whenRunning writeCancel s)

end Sys2Proof.Machine
end

