-- ==== Sys2Proof/Machine/Supply.lean ====
section
/-! DEFINITION. Machine/Supply.lean: the warm and the cold reset and their ends (R191 to R193), gathering what each
chapter's Resets section says of its block. -/

namespace Sys2Proof.Machine

/-- The table after a warm reset: entries kept, no hold, no deferred value (R20). -/
def Table.warm (t : Table) : Table := { t with held := [], deferred := none }

/-- An input after a warm reset: its configuration, and the level of its line, which follows the board (R43). -/
def Input.warm (i : Input) : Input := Input.afterReset i.config i.level

/-- An input after a cold reset (R44). -/
def Input.coldFrom (i : Input) : Input := Input.afterReset InputConfig.cold i.level

/-- The capture unit after a warm reset: only the sequence number is kept (R99). -/
def CaptureUnit.warm (c : CaptureUnit) : CaptureUnit := CaptureUnit.afterReset c.sequence c.capLevel

/-- The tariff selector after a warm reset: SCHED_INVALID and the time hold are lost (R136). -/
def Tariff.warm (t : Tariff) : Tariff := { t with invalid := false, hold := TimeHold.zero }

/-- What a warm reset does to a running part (R20, R43, R70, R99, R118, R136, R159, R171, R176). -/
def clearMain (s : State) : State :=
  { s with
    table := s.table.warm, inputs := s.inputs.map Input.warm, engine := Engine.afterReset, capture := s.capture.warm,
    tariff := s.tariff.warm, slot := Slot.afterReset, notices := Notices.afterReset, window := Window.afterReset }

/-- What a cold reset does (R21, R44, R71, R100, R119, R137, R160, R172, R176). The levels of the lines are the
board's. -/
def clearAll (s : State) : State :=
  { s with
    table := Table.cold, inputs := s.inputs.map Input.coldFrom, engine := Engine.afterReset,
    trips := Vector.replicate 8 TripCounter.cold, capture := CaptureUnit.afterReset 0 s.capture.capLevel,
    tariff := Tariff.cold, slot := Slot.afterReset, notices := Notices.afterReset, window := Window.afterReset }

/-- The level a cause of warm reset leaves (R191, log entry 13). -/
def Supply.withCause (p : Supply) : WarmCause → Supply
  | .resetLine => { p with resetLow := true }
  | .mainSupply => { p with mainAbsent := true }

/-- The hold after a cause of warm reset: a running part enters warm reset, a held part stays held (R191). -/
def Hold.warmed : Hold → Hold
  | .running => .warm
  | h => h

/-- WARM_RESET (R191). -/
def enterWarm (cause : WarmCause) (s : State) : State :=
  let p := s.supply.withCause cause
  { whenRunning clearMain s with supply := { p with hold := s.supply.hold.warmed } }

/-- WARM_RESET_END: RESET# is high and the main supply present, so a part held in warm reset runs (R191). -/
def endWarm (s : State) : State :=
  { s with supply :=
    { hold := if s.supply.hold = .warm then .running else s.supply.hold, resetLow := false, mainAbsent := false } }

/-- COLD_RESET (R191). -/
def enterCold (s : State) : State := { clearAll s with supply := { s.supply with hold := .cold } }

/-- COLD_RESET_END: the part is held in warm reset if RESET# is low or the main supply absent, and otherwise runs
(R191). -/
def endCold (s : State) : State :=
  if s.supply.hold = .cold then
    { s with supply :=
      { s.supply with hold := if s.supply.resetLow || s.supply.mainAbsent then .warm else .running } }
  else s

/-- WARM_RESET. -/
def execWarmReset (cause : WarmCause) (s : State) : Host.Outcome State Fault Refusal := .next (enterWarm cause s)
/-- WARM_RESET_END. -/
def execWarmResetEnd (s : State) : Host.Outcome State Fault Refusal := .next (endWarm s)
/-- COLD_RESET. -/
def execColdReset (s : State) : Host.Outcome State Fault Refusal := .next (enterCold s)
/-- COLD_RESET_END. -/
def execColdResetEnd (s : State) : Host.Outcome State Fault Refusal := .next (endCold s)

end Sys2Proof.Machine
end

