-- ==== Sys2Proof/Machine/Time.lean ====
section
/-! DEFINITION. Machine/Time.lean: the timebase (R121, R122), switching at a minute expiry (R129, R130), the schedule
enable (R128) and the time hold (R124). -/

namespace Sys2Proof.Machine

/-! ## The timebase -/

/-- The minute, and at midnight the day, advance (R122). -/
def Tariff.nextMinute (t : Tariff) : Tariff :=
  if t.minute + 1 < Config.minutesPerDay then { t with phase := 0, second := 0, minute := t.minute + 1 }
  else { t with phase := 0, second := 0, minute := 0, day := t.day + 1 }

/-- The point in use whose minute is the current minute (R129). -/
def Tariff.matching (t : Tariff) : Option SwitchPoint := t.inUse.find? fun p => p.minute.toNat == t.minute

/-- A matching point: the bin, then a flagged point's trigger, which reaches the capture unit only while the part runs
(R129, R130, R136). -/
def switchTo (p : SwitchPoint) (s : State) : State :=
  let s' := setBin p.binOf .schedule s
  if p.capture then whenRunning (trigger .schedule) s' else s'

/-- A minute expiry (R122, R129). -/
def minuteExpiry (s : State) : State :=
  let t := s.tariff.nextMinute
  let s' := { s with tariff := t }
  match t.matching with
  | some p => if t.enable then switchTo p s' else s'
  | none => s'

/-- A second expiry, which is also the minute expiry when the second was 59 (R121). -/
def secondExpiry (s : State) : State :=
  if s.tariff.second + 1 < Config.secondsPerMinute then
    { s with tariff := { s.tariff with phase := 0, second := s.tariff.second + 1 } }
  else minuteExpiry s

/-- One timebase edge (R121). -/
def timebaseEdge (s : State) : State :=
  if s.tariff.phase + 1 < Config.edgesPerSecond then
    { s with tariff := { s.tariff with phase := s.tariff.phase + 1 } }
  else secondExpiry s

/-- The timebase works in running and in warm reset, and leaves no trace in cold reset (R123, R136, R191). -/
def whenTimed (f : State → State) (s : State) : State := if s.supply.hold = .cold then s else f s

/-! ## The schedule enable -/

/-- A write of one to the schedule enable (R128): an enable attempt while it is clear, nothing while it is set. -/
def enableSchedule (s : State) : State :=
  if s.tariff.enable then s
  else if s.tariff.valid then
    resolveBin { s with tariff := { s.tariff with enable := true, invalid := false } }
  else { s with tariff := { s.tariff with invalid := true } }

/-- A write of zero to the schedule enable (R128). -/
def disableSchedule (s : State) : State := { s with tariff := { s.tariff with enable := false } }

/-! ## The time hold -/

/-- A read of TIME_DAY_HI: the hold takes day, minute and second, and the read returns its first byte (R124). -/
def readDayHigh (s : State) : State :=
  { s with
    tariff := { s.tariff with
      hold := { day := s.tariff.day, minute := s.tariff.minute, second := s.tariff.second } },
    window := { s.window with readData := some (highByte s.tariff.day) } }

/-- A read access while the part is held in a reset is not taken, and D7 to D0 are not driven (R173, log entry 20). -/
def readAccess (f : State → State) (s : State) : State :=
  if s.Running then f s else { s with window := { s.window with readData := none } }

/-! ## The rows -/

/-- TIMEBASE_EDGE. -/
def execTimebaseEdge (s : State) : Host.Outcome State Fault Refusal := .next (whenTimed timebaseEdge s)
/-- SECOND_EXPIRY: the timebase edges up to the one that ends the second (log entry 6). -/
def execSecondExpiry (s : State) : Host.Outcome State Fault Refusal := .next (whenTimed secondExpiry s)
/-- MINUTE_EXPIRY: the timebase edges up to the one that ends the minute (log entry 6). -/
def execMinuteExpiry (s : State) : Host.Outcome State Fault Refusal := .next (whenTimed minuteExpiry s)
/-- ENABLE_ATTEMPT. -/
def execEnableAttempt (s : State) : Host.Outcome State Fault Refusal := .next (whenRunning enableSchedule s)
/-- CLEAR_SCHEDULE_ENABLE. -/
def execClearScheduleEnable (s : State) : Host.Outcome State Fault Refusal := .next (whenRunning disableSchedule s)
/-- TIME_DAY_HI_READ. -/
def execTimeDayHiRead (s : State) : Host.Outcome State Fault Refusal := .next (readAccess readDayHigh s)

end Sys2Proof.Machine
end

