-- ==== Sys2Proof/Machine/Window.lean ====
section
/-! DEFINITION. Machine/Window.lean: the indirect window (R177 to R184), the commits it hands to the owners (R18, R19,
R24 to R26, R127), and writes and reads of the direct registers (R173 to R175). -/

namespace Sys2Proof.Machine

/-! ## Records and parts -/

/-- The bytes of the record a space and an index name; none when there is no such record, or no bank is OPEN
(R177, R180). -/
def State.recordBytes (s : State) (space index : Byte) : Option (List Byte) :=
  match space.toNat with
  | 0 =>
    if h : index.toNat < 64 then
      some (entryBytes (s.entry ⟨index.toNat, h⟩) (s.table.held.contains ⟨index.toNat, h⟩))
    else none
  | 1 => if h : index.toNat < 16 then some (inputBytes (s.input ⟨index.toNat, h⟩)) else none
  | 2 => if h : index.toNat < 8 then some (tripBytes (s.trip ⟨index.toNat, h⟩)) else none
  | 3 =>
    match s.capture.openBank with
    | none => none
    | some id =>
      if index.toNat = 0 then some (headerBytes id (s.capture.bank id).header)
      else if h : index.toNat - 1 < 64 then some (copyBytes ((s.capture.bank id).copies[index.toNat - 1]))
      else none
  | 4 =>
    if h : index.toNat < 12 then some (pointBytes (s.tariff.points[index.toNat]))
    else if index.toNat = 12 then some [s.tariff.count] else none
  | _ => none

/-- The addressed record with the addressed byte present in it (R177). -/
def State.addressed (s : State) : Option (List Byte) :=
  match s.recordBytes s.window.space s.window.index with
  | some bytes => if s.window.offset.toNat < bytes.length then some bytes else none
  | none => none

/-- A writable part of a record that the write buffer collects (R177). -/
inductive WindowPart where
  | rawValue (entry : Fin 64)
  | config (input : Fin 16)
  | point (index : Fin 12)
  | count
deriving DecidableEq, Repr

/-- The entry whose member byte is addressed: offset 7 of a TABLE record, which commits alone (R177, R181). -/
def memberAt (space index offset : Byte) : Option (Fin 64) :=
  if h : space.toNat = 0 ∧ index.toNat < 64 ∧ offset.toNat = 7 then some ⟨index.toNat, h.2.1⟩ else none

/-- The part a byte of a record belongs to, if any (R177). -/
def partAt (space index offset : Byte) : Option WindowPart :=
  match space.toNat with
  | 0 => if h : index.toNat < 64 ∧ offset.toNat < 6 then some (.rawValue ⟨index.toNat, h.1⟩) else none
  | 1 => if h : index.toNat < 16 ∧ offset.toNat < 9 then some (.config ⟨index.toNat, h.1⟩) else none
  | 4 =>
    if h : index.toNat < 12 then (if offset.toNat < 3 then some (.point ⟨index.toNat, h⟩) else none)
    else if index.toNat = 12 ∧ offset.toNat = 0 then some .count
    else none
  | _ => none

/-- The commit byte of a part (R177). -/
def WindowPart.commitOffset : WindowPart → Nat
  | .rawValue _ => 5
  | .config _ => 8
  | .point _ => 2
  | .count => 0

/-! ## Commits -/

/-- The state with WIN_REFUSED set (R184). -/
def refuseWindow (s : State) : State := { s with window := { s.window with refused := true } }

/-- A raw-value commit: it lands, or is deferred when the entry is held (R18). -/
def commitRaw (e : Fin 64) (digits : Vector Nibble 12) (s : State) : State :=
  if s.table.held.contains e then
    { s with table := { s.table with deferred := some { entry := e, digits := digits } } }
  else s.setEntry e { s.entry e with digits := digits }

/-- A member write (R19). -/
def commitMember (e : Fin 64) (flag : Bool) (s : State) : State := s.setEntry e { s.entry e with member := flag }

/-- A configuration valid for mode COUNT (R24). -/
def InputConfig.validCount (c : InputConfig) : Bool :=
  allDecimal c.weight && decide (decimalValue c.weight ≠ 0) && (!c.tariffed || decide (c.base.val ≤ 60))

/-- A configuration commit: taken as a whole, turning the input OFF, or refused (R24, R25, R26). -/
def commitConfig (n : Fin 16) (bytes : List Byte) (s : State) : State :=
  let i := s.input n
  match decodeConfig bytes with
  | none => refuseWindow s
  | some c =>
    match i.config.mode, c.mode with
    | .off, .off => s.setInput n { i with config := c }
    | .off, .count =>
      if c.validCount then s.setInput n { i with config := c, state := .active, lockout := false } else refuseWindow s
    | .count, .off =>
      s.setInput n { i with config := { i.config with mode := .off }, state := .off, lockout := false }
    | .count, .count => refuseWindow s

/-- A commit of a switch point: taken only while the schedule is disabled (R127). -/
def commitPoint (k : Fin 12) (p : SwitchPoint) (s : State) : State :=
  if s.tariff.enable then refuseWindow s
  else { s with tariff := { s.tariff with points := s.tariff.points.set k.val p } }

/-- A commit of the count: taken only while the schedule is disabled (R127). -/
def commitCount (count : Byte) (s : State) : State :=
  if s.tariff.enable then refuseWindow s else { s with tariff := { s.tariff with count := count } }

/-- The commit of a part's bytes to its owner (R182). -/
def commitPart (part : WindowPart) (bytes : List Byte) (s : State) : State :=
  match part with
  | .rawValue e => commitRaw e (bcdDigits 12 bytes) s
  | .config n => commitConfig n bytes s
  | .point k => commitPoint k (decodePoint bytes) s
  | .count => commitCount (bytes.getD 0 0) s

/-! ## Accesses to the window -/

/-- The state with the window replaced. -/
def State.setWindow (s : State) (w : Window) : State := { s with window := w }

/-- A byte served from the latch: the offset rises, or becomes 0 with the latch invalidated after the last byte (R179). -/
def serve (l : Latch) (s : State) : State :=
  let w := s.window
  let last := decide (l.bytes.length ≤ w.offset.toNat + 1)
  s.setWindow
    { w with
      readData := some (l.bytes.getD w.offset.toNat 0),
      offset := if last then 0 else w.offset + 1,
      latch := if last then none else some l }

/-- A read of WIN_DATA (R179). -/
def readData (s : State) : State :=
  match s.window.latch with
  | some l => serve l s
  | none =>
    match s.addressed with
    | some bytes => serve { space := s.window.space, index := s.window.index, bytes := bytes } s
    | none => s.setWindow { s.window with readData := some 0, fault := true }

/-- The offset after a write to a byte of a record of this length (R181, step 4). -/
def nextOffset (length : Nat) (offset : Byte) : Byte := if length ≤ offset.toNat + 1 then 0 else offset + 1

/-- The write buffer, opened and seeded from the stored record when it was closed (R181, step 6). -/
def Window.openBuffer (w : Window) (part : WindowPart) (bytes : List Byte) : Buffer :=
  match w.buffer with
  | some b => b
  | none => { space := w.space, index := w.index, bytes := bytes.take (part.commitOffset + 1) }

/-- A byte written to a part of the addressed record (R181, step 6). -/
def writePart (part : WindowPart) (bytes : List Byte) (v : Byte) (s : State) : State :=
  let w := s.window
  let b := w.openBuffer part bytes
  let written := b.bytes.set w.offset.toNat v
  if w.offset.toNat = part.commitOffset then commitPart part written (s.setWindow { w with buffer := none })
  else s.setWindow { w with buffer := some { b with bytes := written } }

/-- A byte written at a present byte of the addressed record: the member byte commits alone, a byte of a part goes to the
buffer, and any other byte is ignored (R181, steps 4 to 6). -/
def writePresent (bytes : List Byte) (v : Byte) (s : State) : State :=
  let w := s.window
  match memberAt w.space w.index w.offset with
  | some e => commitMember e (v.getLsbD 3) s
  | none =>
    match partAt w.space w.index w.offset with
    | some part => writePart part bytes v s
    | none => s

/-- A write to WIN_DATA (R181, R183). -/
def writeData (v : Byte) (s : State) : State :=
  if s.pendingCommit then refuseWindow s
  else
    match s.addressed with
    | none => s.setWindow { s.window with latch := none, fault := true }
    | some bytes =>
      let s' := writePresent bytes v (s.setWindow { s.window with latch := none })
      s'.setWindow { s'.window with offset := nextOffset bytes.length s.window.offset }

/-- A write to WIN_SPACE (R178). -/
def writeSpace (v : Byte) (s : State) : State :=
  s.setWindow { s.window with space := v, latch := none, buffer := none }

/-- A write to WIN_INDEX (R178). -/
def writeIndex (v : Byte) (s : State) : State :=
  s.setWindow { s.window with index := v, latch := none, buffer := none }

/-- A write to WIN_OFFSET (R178). -/
def writeOffset (v : Byte) (s : State) : State := s.setWindow { s.window with offset := v, latch := none }

/-- A write to WIN_STATUS: a one clears its flag (R184). -/
def writeWinStatus (v : Byte) (s : State) : State :=
  s.setWindow
    { s.window with
      refused := s.window.refused && !v.getLsbD 0, fault := s.window.fault && !v.getLsbD 1 }

/-! ## The direct registers -/

/-- A pop (R167). -/
def writePop (s : State) : State := { s with notices := s.notices.pop }

/-- A write to INT_STATUS: a one clears CMD_DONE (R150, R175). -/
def writeIntStatus (v : Byte) (s : State) : State :=
  { s with slot := { s.slot with cmdDone := s.slot.cmdDone && !v.getLsbD 0 } }

/-- A write to INT_ENABLE: both enables at once (R169, R175). -/
def writeIntEnable (v : Byte) (s : State) : State :=
  { s with notices := { s.notices with cmdIe := v.getLsbD 0, noticeIe := v.getLsbD 1 } }

/-- A write to CAP_ENABLE (R77). -/
def writeCapEnable (v : Byte) (s : State) : State :=
  s.setCapture { s.capture with capEnable := v.getLsbD 0 }

/-- A write to SCHED_CONTROL, by its bit 0 (R128, R175). -/
def writeSchedControl (v : Byte) (s : State) : State := if v.getLsbD 0 then enableSchedule s else disableSchedule s

/-- A write to an operand register (R140). -/
def writeOperand (k : Nat) (v : Byte) (s : State) : State :=
  { s with slot := { s.slot with operands := s.slot.operands.setIfInBounds k v } }

/-- A write access at any register offset (R173, R174). A read-only register, and an offset with no register, ignore
it. -/
def busWrite (offset : Offset) (v : Byte) (s : State) : State :=
  match offset.toNat with
  | 0x00 => writeCode v s
  | 0x01 => writeCancel s
  | 0x04 => writeOperand 0 v s
  | 0x05 => writeOperand 1 v s
  | 0x06 => writeOperand 2 v s
  | 0x07 => writeOperand 3 v s
  | 0x08 => writeOperand 4 v s
  | 0x09 => writeOperand 5 v s
  | 0x0A => writeOperand 6 v s
  | 0x0B => writeOperand 7 v s
  | 0x0C => writeOperand 8 v s
  | 0x12 => writePop s
  | 0x15 => writeIntEnable v s
  | 0x16 => writeIntStatus v s
  | 0x17 => writeCapEnable v s
  | 0x18 => writeSchedControl v s
  | 0x23 => writeSpace v s
  | 0x24 => writeIndex v s
  | 0x25 => writeOffset v s
  | 0x26 => writeData v s
  | 0x27 => writeWinStatus v s
  | _ => s

/-! ## Reads of the direct registers -/

/-- The byte a read of WIN_DATA returns as the state stands (R179). -/
def State.servedByte (s : State) : Byte := (readData s).window.readData.getD 0

/-- The byte of each register offset as the state stands (R166, R174, R175). A write-only register and an offset with no
register give 0 (R173). A read of TIME_DAY_HI loads the hold first, so it gives the day as it stands (R124). -/
def registerByte (s : State) (offset : Offset) : Byte :=
  match offset.toNat with
  | 0x00 => s.slot.lastCode.getD 0
  | 0x02 => s.slot.state.code ||| flagBit 4 s.slot.refusedBusy ||| flagBit 5 s.slot.cancelLate
  | 0x03 => s.slot.result.code
  | 0x04 => s.slot.operands[0]
  | 0x05 => s.slot.operands[1]
  | 0x06 => s.slot.operands[2]
  | 0x07 => s.slot.operands[3]
  | 0x08 => s.slot.operands[4]
  | 0x09 => s.slot.operands[5]
  | 0x0A => s.slot.operands[6]
  | 0x0B => s.slot.operands[7]
  | 0x0C => s.slot.operands[8]
  | 0x0D => headField s.notices.queue fun n => n.kind.code
  | 0x0E => headField s.notices.queue Notice.subject
  | 0x0F => headField s.notices.queue Notice.sequence
  | 0x10 => headField s.notices.queue Notice.data0
  | 0x11 => headField s.notices.queue Notice.data1
  | 0x13 => byteOf s.notices.queue.length
  | 0x14 => byteOf s.notices.lost
  | 0x15 => flagBit 0 s.notices.cmdIe ||| flagBit 1 s.notices.noticeIe
  | 0x16 => flagBit 0 s.slot.cmdDone ||| flagBit 1 (!s.notices.queue.isEmpty)
  | 0x17 => flagBit 0 s.capture.capEnable
  | 0x18 => flagBit 0 s.tariff.enable ||| flagBit 1 s.tariff.invalid
  | 0x19 => s.capture.phase.code
  | 0x1A => byteOf s.capture.list.length
  | 0x1B => byteOf s.capture.copiesMade
  | 0x1C => s.capture.bankA.state.code ||| (s.capture.bankB.state.code <<< 2)
  | 0x1D => byteOf s.tariff.bin.val
  | 0x1E => highByte s.tariff.day
  | 0x1F => lowByte s.tariff.hold.day
  | 0x20 => highByte (BitVec.ofNat 16 s.tariff.hold.minute)
  | 0x21 => lowByte (BitVec.ofNat 16 s.tariff.hold.minute)
  | 0x22 => byteOf s.tariff.hold.second
  | 0x23 => s.window.space
  | 0x24 => s.window.index
  | 0x25 => s.window.offset
  | 0x26 => s.servedByte
  | 0x27 =>
    flagBit 0 s.window.refused ||| flagBit 1 s.window.fault ||| flagBit 2 s.pendingCommit |||
      flagBit 3 s.window.latch.isSome ||| flagBit 4 s.window.buffer.isSome
  | _ => 0

/-- What a read access at a register offset returns. While the part is held in a reset no access is taken and D7 to D0 are
not driven: there is no value (R173, R191). -/
def readRegister (s : State) (offset : Offset) : Option Byte :=
  if s.Running then some (registerByte s offset) else none

/-! ## The rows -/

/-- NOTICE_POP: any value. -/
def execNoticePop (_value : Byte) (s : State) : Host.Outcome State Fault Refusal := .next (whenRunning writePop s)
/-- CLEAR_CMD_DONE. -/
def execClearCmdDone (s : State) : Host.Outcome State Fault Refusal := .next (whenRunning (writeIntStatus 0x01) s)
/-- CLEAR_WIN_REFUSED. -/
def execClearWinRefused (s : State) : Host.Outcome State Fault Refusal := .next (whenRunning (writeWinStatus 0x01) s)
/-- CLEAR_WIN_FAULT. -/
def execClearWinFault (s : State) : Host.Outcome State Fault Refusal := .next (whenRunning (writeWinStatus 0x02) s)
/-- WIN_SPACE_WRITE. -/
def execWinSpaceWrite (v : Byte) (s : State) : Host.Outcome State Fault Refusal := .next (whenRunning (writeSpace v) s)
/-- WIN_INDEX_WRITE. -/
def execWinIndexWrite (v : Byte) (s : State) : Host.Outcome State Fault Refusal := .next (whenRunning (writeIndex v) s)
/-- WIN_OFFSET_WRITE. -/
def execWinOffsetWrite (v : Byte) (s : State) : Host.Outcome State Fault Refusal :=
  .next (whenRunning (writeOffset v) s)
/-- WIN_DATA_READ. -/
def execWinDataRead (s : State) : Host.Outcome State Fault Refusal := .next (readAccess readData s)
/-- WIN_DATA_WRITE. -/
def execWinDataWrite (v : Byte) (s : State) : Host.Outcome State Fault Refusal := .next (whenRunning (writeData v) s)
/-- REGISTER_WRITE: a write access at an offset (log entry 9). -/
def execRegisterWrite (offset : Offset) (v : Byte) (s : State) : Host.Outcome State Fault Refusal :=
  .next (whenRunning (busWrite offset v) s)

end Sys2Proof.Machine
end

