-- ==== Sys2Proof/Machine/Dispatch.lean ====
section
/-! DEFINITION. Machine/Dispatch.lean: one arm per command, each one call of its meaning. -/

namespace Sys2Proof.Machine

def exec (i : Instr) (s : State) : Host.Outcome State Fault Refusal :=
  match i with
  | .preset => Sys2Proof.Machine.execPreset s
  | .add => Sys2Proof.Machine.execAdd s
  | .subtract => Sys2Proof.Machine.execSubtract s
  | .transfer => Sys2Proof.Machine.execTransfer s
  | .repair => Sys2Proof.Machine.execRepair s
  | .clearFlags => Sys2Proof.Machine.execClearFlags s
  | .armTrip => Sys2Proof.Machine.execArmTrip s
  | .disarmTrip => Sys2Proof.Machine.execDisarmTrip s
  | .capture => Sys2Proof.Machine.execCapture s
  | .openBank => Sys2Proof.Machine.execOpenBank s
  | .closeBank => Sys2Proof.Machine.execCloseBank s
  | .setTariff => Sys2Proof.Machine.execSetTariff s
  | .setTime => Sys2Proof.Machine.execSetTime s
  | .resetInput => Sys2Proof.Machine.execResetInput s
  | .undefinedCommandCode code => Sys2Proof.Machine.execUndefinedCommandCode code s
  | .cancel value => Sys2Proof.Machine.execCancel value s
  | .applyGrant => Sys2Proof.Machine.execApplyGrant s
  | .copyGrant => Sys2Proof.Machine.execCopyGrant s
  | .hostGrant => Sys2Proof.Machine.execHostGrant s
  | .applyCompletion => Sys2Proof.Machine.execApplyCompletion s
  | .copyCompletion => Sys2Proof.Machine.execCopyCompletion s
  | .presetCompletion => Sys2Proof.Machine.execPresetCompletion s
  | .addCompletion => Sys2Proof.Machine.execAddCompletion s
  | .subtractCompletion => Sys2Proof.Machine.execSubtractCompletion s
  | .transferCompletion => Sys2Proof.Machine.execTransferCompletion s
  | .repairCompletion => Sys2Proof.Machine.execRepairCompletion s
  | .clearFlagsCompletion => Sys2Proof.Machine.execClearFlagsCompletion s
  | .armTripCompletion => Sys2Proof.Machine.execArmTripCompletion s
  | .disarmTripCompletion => Sys2Proof.Machine.execDisarmTripCompletion s
  | .inputEdge n level => Sys2Proof.Machine.execInputEdge n level s
  | .lockoutExpiry n => Sys2Proof.Machine.execLockoutExpiry n s
  | .capEdge level => Sys2Proof.Machine.execCapEdge level s
  | .capLockoutExpiry => Sys2Proof.Machine.execCapLockoutExpiry s
  | .timebaseEdge => Sys2Proof.Machine.execTimebaseEdge s
  | .secondExpiry => Sys2Proof.Machine.execSecondExpiry s
  | .minuteExpiry => Sys2Proof.Machine.execMinuteExpiry s
  | .noticePop value => Sys2Proof.Machine.execNoticePop value s
  | .clearCmdDone => Sys2Proof.Machine.execClearCmdDone s
  | .clearWinRefused => Sys2Proof.Machine.execClearWinRefused s
  | .clearWinFault => Sys2Proof.Machine.execClearWinFault s
  | .enableAttempt => Sys2Proof.Machine.execEnableAttempt s
  | .clearScheduleEnable => Sys2Proof.Machine.execClearScheduleEnable s
  | .timeDayHiRead => Sys2Proof.Machine.execTimeDayHiRead s
  | .winSpaceWrite v => Sys2Proof.Machine.execWinSpaceWrite v s
  | .winIndexWrite v => Sys2Proof.Machine.execWinIndexWrite v s
  | .winOffsetWrite v => Sys2Proof.Machine.execWinOffsetWrite v s
  | .winDataRead => Sys2Proof.Machine.execWinDataRead s
  | .winDataWrite v => Sys2Proof.Machine.execWinDataWrite v s
  | .registerWrite offset v => Sys2Proof.Machine.execRegisterWrite offset v s
  | .warmReset cause => Sys2Proof.Machine.execWarmReset cause s
  | .warmResetEnd => Sys2Proof.Machine.execWarmResetEnd s
  | .coldReset => Sys2Proof.Machine.execColdReset s
  | .coldResetEnd => Sys2Proof.Machine.execColdResetEnd s

end Sys2Proof.Machine
end

