-- ==== Sys2Proof/Safety.lean ====
section
/-! DEFINITION. Safety.lean: what the spec promises of every state of the part. Each predicate is one promise of the
prose, stated over any state; the obligations say that reset meets it and that every step keeps it. -/

namespace Sys2Proof.Safety

open Sys2Proof.Machine

/-- The queue never holds more than 16 notices, the lost count saturates at 255, and it is nonzero only while the queue is
full (R165). -/
def NoticesBounded (q : Notices) : Prop :=
  q.queue.length ≤ 16 ∧ q.lost ≤ 255 ∧ (q.lost ≠ 0 → q.queue.length = 16)

/-- The ranges of the time of day (R120), and a schedule in force is a valid one (R127, R128). -/
def TariffSound (t : Tariff) : Prop :=
  t.phase < 32768 ∧ t.second < 60 ∧ t.minute < 1440 ∧ (t.enable = true → t.valid = true)

/-- The host-wait count never rises above 8, and is 0 whenever no engine command is WAITING (R67). -/
def HostWaitBounded (s : State) : Prop :=
  s.engine.hostWait ≤ 8 ∧ (s.hostRequest = none → s.engine.hostWait = 0)

/-- The ranges of a group record (R35). -/
def GroupSound (g : Group) : Prop := 1 ≤ g.count ∧ g.count ≤ 63 ∧ 1 ≤ g.weight ∧ g.weight ≤ 9999

/-- One input: OFF exactly while its mode is OFF, at most 4 groups in range, counts within their widths, and a counting
configuration valid (R24, R28, R35). -/
def InputSound (i : Input) : Prop :=
  (i.state = .off ↔ i.config.mode = .off) ∧ i.queue.length ≤ 4 ∧ (∀ g ∈ i.queue, GroupSound g) ∧
    i.rejects ≤ 255 ∧ i.dropped ≤ 65535 ∧ (i.config.mode = .count → i.config.validCount = true)

/-- Every input is sound, the group in flight is in range, and every suspense is a twelve-digit amount
(R1, R28, R35, R54). -/
def AmountsSound (s : State) : Prop :=
  (∀ n : Fin 16, InputSound (s.input n)) ∧
    (∀ op n g, s.engine.op = some op → op.work = .apply n g → GroupSound g) ∧
    (∀ e : Fin 64, ∀ a, (s.entry e).suspense = some a → a ≤ 999999999999)

/-- DAMAGED and the suspense go together (R7). -/
def DamageSound (s : State) : Prop := ∀ e : Fin 64, (s.entry e).damaged = true ↔ (s.entry e).suspense.isSome = true

/-- The found condition that a verification of an entry leaves (R10, R11). -/
def conditionOf (en : Entry) : Condition := if en.damaged then .damaged else .healthy

/-- The operation in flight and the state it shows in: held entries (R13), the in-flight flag of its input (R28), the
RUNNING slot (R139), a deferred value only on a held entry (R18), and found conditions that still stand (R14). -/
def OperationSound (s : State) : Prop :=
  match s.engine.op with
  | none =>
    s.table.held = [] ∧ s.table.deferred = none ∧ (∀ n, (s.input n).inFlight = false) ∧
      (∀ c, s.slot.state ≠ .running c)
  | some op =>
    s.Running ∧ s.table.held = op.work.targets ∧ (∀ d, s.table.deferred = some d → d.entry ∈ op.work.targets) ∧
      (∀ n, (s.input n).inFlight = true ↔ ∃ g, op.work = .apply n g) ∧
      (∀ c, s.slot.state = .running c ↔ op.work = .host c) ∧
      op.found = op.work.verified.map fun p => conditionOf (s.entry p.2)

/-- No current-epoch group stands ahead of a previous-epoch group (R35). -/
def EpochOrdered (s : State) (q : List Group) : Prop :=
  q.Pairwise fun g h => s.previousEpoch h = true → s.previousEpoch g = true

/-- A previous-epoch group exists only while the capture unit is CAPTURING, and DRAINING lasts only while one exists
(R35, R90). -/
def EpochSound (s : State) : Prop :=
  (∀ n, EpochOrdered s (s.input n).queue) ∧ (s.capture.phase = .idle → s.previousExists = false) ∧
    (s.capture.phase = .draining → s.previousExists = true)

/-- The bank being filled and the capture it belongs to (R74, R82, R86, R87): its copy records are those of the Capture
List entries copied so far, in list order, and the rest are zero. -/
def FillingSound (c : CaptureUnit) (id : BankId) : Prop :=
  c.lastChosen = some id ∧ (c.bank id).state = .filling ∧ (c.bank id.other).state ≠ .filling ∧
    (c.bank id).header.sequence = c.sequence ∧ (c.bank id).header.listLength = c.list.length ∧
    (c.bank id).header.copiesMade = c.copiesMade ∧
    (∀ p : Fin 64, p.val < c.copiesMade → c.list[p.val]? = some ((c.bank id).copies[p.val]).index) ∧
    (∀ p : Fin 64, c.copiesMade ≤ p.val → (c.bank id).copies[p.val] = CopyRecord.zero)

/-- The capture unit (R74, R81, R85, R89): the Capture List ascends without duplicates, a bank is FILLING exactly while
CAPTURING and it is the last chosen one, at most one bank is OPEN, and a COPY in flight is that of the next list entry. -/
def CaptureSound (s : State) : Prop :=
  let c := s.capture
  c.list.Pairwise (· < ·) ∧ c.copiesMade ≤ c.list.length ∧
    (c.phase = .copying → c.copiesMade < c.list.length) ∧ (c.phase = .draining → c.copiesMade = c.list.length) ∧
    (c.phase = .idle → c.bankA.state ≠ .filling ∧ c.bankB.state ≠ .filling) ∧
    (c.phase ≠ .idle → ∃ id, FillingSound c id) ∧
    ¬(c.bankA.state = .opened ∧ c.bankB.state = .opened) ∧
    (c.bankA.state = .complete → c.bankB.state = .complete → c.lastChosen ≠ none) ∧
    (∀ op position e, s.engine.op = some op → op.work = .copy position e →
      c.phase = .copying ∧ position = c.copiesMade ∧ c.list[position]? = some e)

/-- The four states of a counter stand in fixed relation to its fields (R102, R103). -/
def TripSound (t : TripCounter) : Prop :=
  t.remaining ≤ 99999999 ∧ t.prewarn ≤ 99999998 ∧ t.overshoot ≤ 99999999 ∧
    match t.state with
    | .idle => True
    | .armed => 0 < t.remaining ∧ t.overshoot = 0
    | .prewarn => 0 < t.prewarn ∧ 0 < t.remaining ∧ t.remaining ≤ t.prewarn ∧ t.overshoot = 0
    | .tripped => t.remaining = 0

/-- An ARM_TRIP past its validation has operands that arm a sound counter (R105, R106). -/
def ArmSound : EngineCommand → Prop
  | .armTrip _ preset prewarn => 0 < preset ∧ preset ≤ 99999999 ∧ (prewarn = 0 ∨ prewarn < preset)
  | _ => True

/-- Every counter is sound, and so are the operands of the ARM_TRIP the slot or the engine holds. -/
def TripsSound (s : State) : Prop :=
  (∀ k : Fin 8, TripSound (s.trip k)) ∧
    (∀ c, s.slot.state = .waiting c ∨ s.slot.state = .running c → ArmSound c) ∧
    (∀ op c, s.engine.op = some op → op.work = .host c → ArmSound c)

/-- The latch holds the record its pointers name and the offset lies in it; an open buffer belongs to the pointers' record
(R176, R178, R179, R181). -/
def WindowSound (w : Window) : Prop :=
  (∀ l, w.latch = some l → l.space = w.space ∧ l.index = w.index ∧ w.offset.toNat < l.bytes.length ∧
      l.bytes.length ≤ 16) ∧
    (∀ b, w.buffer = some b → b.space = w.space ∧ b.index = w.index ∧ 1 < b.bytes.length ∧ b.bytes.length ≤ 9)

/-- A part that runs has its main supply and a high RESET# (R191). -/
def SupplySound (p : Supply) : Prop := p.hold = .running → p.resetLow = false ∧ p.mainAbsent = false

/-- While the part is held in a reset, every main-domain item holds the value the reset gave it (R20, R43, R70, R99, R136,
R159, R171, R176). -/
def HeldAtReset (s : State) : Prop :=
  s.Running ∨
    (s.table.held = [] ∧ s.table.deferred = none ∧
      (∀ n, s.input n = Input.afterReset (s.input n).config (s.input n).level) ∧ s.engine = Engine.afterReset ∧
      s.capture = CaptureUnit.afterReset s.capture.sequence s.capture.capLevel ∧ s.tariff.invalid = false ∧
      s.tariff.hold = TimeHold.zero ∧ s.slot = Slot.afterReset ∧ s.notices = Notices.afterReset ∧
      s.window = Window.afterReset)

/-! ## Terms of the statements: what the rules say, in words of the state -/

/-- Every step keeps this promise. -/
def Kept (P : State → Prop) : Prop := ∀ s t, P s → step s = .next t → P t

/-- Every position holds a decimal digit (R2). -/
abbrev Decimal {n : Nat} (ds : Vector Nibble n) : Prop := ∀ i : Fin n, ds[i.val].toNat ≤ 9

/-- The rows that write a code to CMD_CODE, with the code (R189). -/
def codeRows : List (Instr × Byte) :=
  [(.preset, 0x01), (.add, 0x02), (.subtract, 0x03), (.transfer, 0x04), (.repair, 0x05), (.clearFlags, 0x06),
   (.armTrip, 0x10), (.disarmTrip, 0x11), (.capture, 0x20), (.openBank, 0x21), (.closeBank, 0x22),
   (.setTariff, 0x30), (.setTime, 0x31), (.resetInput, 0x40)]

/-- The slot after an engine command is taken (R141). -/
def waitingSlot (code : Byte) (c : EngineCommand) (sl : Slot) : Slot :=
  { sl with state := .waiting c, lastCode := some code, cmdDone := false, refusedBusy := false, cancelLate := false }

/-- The slot after a command is taken and ends in the same event (R141). -/
def endedSlot (code : Byte) (r : Result) (sl : Slot) : Slot :=
  { sl with state := .idle, lastCode := some code, result := r, cmdDone := true, refusedBusy := false,
            cancelLate := false }

/-! ### The engine -/

/-- An entry once the deferred value of the table, if it is this entry's, has landed on it (R18). -/
def withDeferred (d : Option Deferred) (e : Fin 64) (en : Entry) : Entry :=
  match d with
  | some d => if d.entry = e then { en with digits := d.digits } else en
  | none => en

/-- An entry whose value the engine writes: twelve digits and their check digit (R2, R4). -/
def written (en : Entry) (v : Nat) : Entry :=
  { en with digits := decimalDigits 12 v, check := checkDigit (decimalDigits 12 v) }

/-- What a sum past the top leaves (R50). -/
def wrappedSum (sum : Nat) : Nat := if sum ≤ 999999999999 then sum else sum - 1000000000000

/-- What a difference below 0 leaves (R51). -/
def borrowedDifference (q a : Nat) : Nat := if a ≤ q then q - a else q + 1000000000000 - a

/-- A WRAP or BORROW notice, offered only when its flag goes from clear to set (R52). -/
def carryNotice (kind : NoticeKind) (e : Fin 64) (op quantity : Byte) (out before : Bool) (q : Notices) : Notices :=
  if out = true ∧ before = false then q.offer kind (byteOf e.val) op quantity else q

/-- The capture gate stands on an entry: CAPTURING, on the Capture List, not yet copied (R63, R65). -/
def Gated (s : State) (e : Fin 64) : Prop :=
  s.capture.phase ≠ .idle ∧ e ∈ s.capture.list.drop s.capture.copiesMade

/-- The host request is presented and eligible (R62, R65). -/
def HostEligible (s : State) (c : EngineCommand) : Prop :=
  s.slot.state = .waiting c ∧ ∀ e ∈ c.targets, ¬Gated s e

/-- The head group of an input is of the previous epoch (R62). -/
def PreviousHead (s : State) (n : Fin 16) : Prop :=
  ∃ g, (s.input n).queue.head? = some g ∧ g.epoch ≠ s.capture.epoch

/-- The head group of an input is of the current epoch and no gate holds it back (R62, R63). -/
def CurrentHead (s : State) (n : Fin 16) : Prop :=
  ∃ g, (s.input n).queue.head? = some g ∧ g.epoch = s.capture.epoch ∧ ¬Gated s g.dest

/-- The COPY request is presented for this entry and eligible (R62, R64). -/
def CopyEligible (s : State) (e : Fin 64) : Prop :=
  s.capture.phase = .copying ∧ s.capture.list[s.capture.copiesMade]? = some e ∧
    ∀ n, ∀ g ∈ (s.input n).queue, g.epoch ≠ s.capture.epoch → g.dest ≠ e

/-- What the verification of one entry finds and leaves, and the notice it queues (R10, R11). -/
structure Verified (op : OpKind) (e : Fin 64) (en en' : Entry) (q q' : Notices) (found : Condition) : Prop where
  alreadyMarked : en.damaged = true → found = .damaged ∧ en' = en ∧ q' = q
  healthy : en.damaged = false → Decimal en.digits → en.check = checkDigit en.digits →
    found = .healthy ∧ en' = en ∧ q' = q
  badCheck : en.damaged = false → Decimal en.digits → en.check ≠ checkDigit en.digits →
    found = .damaged ∧ en' = { en with damaged := true, suspense := some 0 } ∧
      q' = q.offer .damaged (byteOf e.val) 2 op.code
  badDigit : en.damaged = false → ¬Decimal en.digits →
    found = .damaged ∧ en' = { en with damaged := true, suspense := some 0 } ∧
      q' = q.offer .damaged (byteOf e.val) 1 op.code

/-- A host command that verifies one entry, with the operation its DAMAGED notice names (R9). -/
def VerifiesOne : EngineCommand → OpKind → Fin 64 → Prop
  | .preset e _, k, e' => e = e' ∧ k = .preset
  | .add e _, k, e' => e = e' ∧ k = .add
  | .subtract e _, k, e' => e = e' ∧ k = .subtract
  | .repair e _ _, k, e' => e = e' ∧ k = .repair
  | _, _, _ => False

/-- A host command that verifies no entry, with the entries it holds (R9, R13). -/
def VerifiesNone : EngineCommand → List (Fin 64) → Prop
  | .clearFlags e, held => held = [e]
  | .armTrip _ _ _, held => held = []
  | .disarmTrip _, held => held = []
  | _, _ => False

/-- What the completion of a host operation leaves: the entries, the counters and the notices it gives, the deferred value
landed, the holds gone, the engine FREE, the slot IDLE with the result, and nothing else changed (R48, R146). -/
structure CompletedHost (s t : State) (result : Result) (entries : Fin 64 → Entry) (trips : Fin 8 → TripCounter)
    (notices : Notices) : Prop where
  entry : ∀ x, t.entry x = withDeferred s.table.deferred x (entries x)
  trip : ∀ k, t.trip k = trips k
  notices : t.notices = notices
  slot : t.slot = { s.slot with state := .idle, result := result, cmdDone := true }
  claims : t.table.held = [] ∧ t.table.deferred = none
  engine : t.engine = { op := none, hostWait := s.engine.hostWait }
  others : t.inputs = s.inputs ∧ t.capture = s.capture ∧ t.tariff = s.tariff ∧ t.window = s.window ∧
    t.supply = s.supply ∧ t.pending = s.pending

/-- A grant of the model's arbiter to a request other than the host request (R67). -/
def otherGrant (s : State) : Instr → Bool
  | .applyGrant => match s.arbiter with | some (.apply _ _) => true | _ => false
  | .copyGrant => match s.arbiter with | some (.copy _ _) => true | _ => false
  | _ => false

/-- Along a run of commands, the grants to other requests while this command waits and is eligible at every one of them;
none when it is not. -/
def grantsWaited (c : EngineCommand) : List Instr → State → Option Nat
  | [], _ => some 0
  | i :: rest, s =>
    if s.eligibleHost = some c then
      match exec i s with
      | .next t => (grantsWaited c rest t).map fun k => k + (if otherGrant s i then 1 else 0)
      | _ => none
    else none

/-! ### Captures -/

/-- No bank is FILLING, at most one is OPEN, and two COMPLETE banks have an order (R74, R93). -/
abbrev BanksReady (c : CaptureUnit) : Prop :=
  c.bankA.state ≠ .filling ∧ c.bankB.state ≠ .filling ∧ ¬(c.bankA.state = .opened ∧ c.bankB.state = .opened) ∧
    (c.bankA.state = .complete → c.bankB.state = .complete → c.lastChosen ≠ none)

/-- The bank a trigger chooses (R93). -/
def Chosen (c : CaptureUnit) (id : BankId) : Prop :=
  (c.bankA.state = .free → id = .a) ∧ (c.bankA.state ≠ .free → c.bankB.state = .free → id = .b) ∧
    (c.bankA.state ≠ .free → c.bankB.state ≠ .free →
      (c.bank id).state = .complete ∧ ((c.bank id.other).state = .complete → c.lastChosen = some id.other))

/-- Every group queued or in flight carries the current epoch, as in IDLE (R90). -/
abbrev OneEpoch (s : State) : Prop :=
  (∀ n, ∀ g ∈ (s.input n).queue, g.epoch = s.capture.epoch) ∧ s.previousInFlight = false

/-- No group is queued on any input, and no APPLY is in flight (R90). -/
def NoGroups (s : State) : Prop :=
  (∀ n, (s.input n).queue = []) ∧ ∀ op n g, s.engine.op = some op → op.work ≠ .apply n g

/-- The notice of a completed capture (R91). -/
def doneNotice (id : BankId) (sequence : BitVec 16) (q : Notices) : Notices :=
  q.offer .captureDone id.code (highByte sequence) (lowByte sequence)

/-- The notice of an overwritten snapshot, when the chosen bank is COMPLETE (R94). -/
def overwrittenNotice (id : BankId) (bk : Bank) (q : Notices) : Notices :=
  if bk.state = .complete then
    q.offer .bankOverwritten id.code (highByte bk.header.sequence) (lowByte bk.header.sequence)
  else q

/-- What the taking of a trigger does to the capture unit and the Notice Queue, from the state `s` before it and the
notices `q` already queued in its event (R79 to R82, R90 to R94). -/
structure TriggerTaken (s t : State) (q : Notices) (id : BankId) (source : TriggerSource) : Prop where
  chosen : Chosen s.capture id ∧ t.capture.lastChosen = some id
  epoch : t.capture.epoch = !s.capture.epoch
  sequence : t.capture.sequence = s.capture.sequence + 1
  members : ∀ e, e ∈ t.capture.list ↔ (s.entry e).member = true
  ascending : t.capture.list.Pairwise (· < ·)
  copiesMade : t.capture.copiesMade = 0
  header : (t.capture.bank id).header =
    { sequence := s.capture.sequence + 1, source := some source, bin := t.tariff.bin, day := t.tariff.day,
      minute := t.tariff.minute, second := t.tariff.second, listLength := t.capture.list.length, copiesMade := 0,
      damagedCopies := 0 }
  copies : (t.capture.bank id).copies = Vector.replicate 64 CopyRecord.zero
  otherBank : t.capture.bank id.other = s.capture.bank id.other
  copying : t.capture.list ≠ [] → t.capture.phase = .copying ∧ (t.capture.bank id).state = .filling ∧
    t.notices = overwrittenNotice id (s.capture.bank id) q
  draining : t.capture.list = [] → ¬NoGroups s → t.capture.phase = .draining ∧ (t.capture.bank id).state = .filling ∧
    t.notices = overwrittenNotice id (s.capture.bank id) q
  ended : t.capture.list = [] → NoGroups s → t.capture.phase = .idle ∧ (t.capture.bank id).state = .complete ∧
    t.notices = doneNotice id (s.capture.sequence + 1) (overwrittenNotice id (s.capture.bank id) q)

/-- This bank is the one being filled. -/
abbrev Filling (c : CaptureUnit) (id : BankId) : Prop :=
  (c.bank id).state = .filling ∧ (c.bank id.other).state ≠ .filling

/-- The capture unit after its capture completes into this bank (R91). -/
def completedUnit (c : CaptureUnit) (id : BankId) : CaptureUnit :=
  { c.setBank id { c.bank id with state := .complete } with phase := .idle }

/-- No queue holds a previous-epoch group (R90). -/
abbrev QueuesCurrent (s : State) : Prop := ∀ n, ∀ g ∈ (s.input n).queue, g.epoch = s.capture.epoch

/-! ### Time and schedule -/

/-- The schedule is valid (R126). -/
def ScheduleValid (t : Tariff) : Prop :=
  t.count.toNat ≤ 12 ∧
    (∀ i : Fin 12, i.val < t.count.toNat → t.points[i.val].minute.toNat ≤ 1439 ∧ t.points[i.val].bin.toNat ≤ 3) ∧
    ∀ i j : Fin 12, i < j → j.val < t.count.toNat → t.points[i.val].minute.toNat < t.points[j.val].minute.toNat

/-- The point in force at a minute (R131): a point in use, the one with the greatest minute not above it, or the last one
when every minute is above it. -/
def InForce (t : Tariff) (minute : Nat) (i : Fin 12) : Prop :=
  i.val < t.count.toNat ∧
    ((t.points[i.val].minute.toNat ≤ minute ∧
        ∀ j : Fin 12, j.val < t.count.toNat → t.points[j.val].minute.toNat ≤ minute →
          t.points[j.val].minute.toNat ≤ t.points[i.val].minute.toNat) ∨
      ((∀ j : Fin 12, j.val < t.count.toNat → minute < t.points[j.val].minute.toNat) ∧
        i.val + 1 = t.count.toNat))

/-- The TARIFF notice of a write of the bin, offered only when its value changes (R134). -/
def tariffNotice (new old : Fin 4) (cause : Byte) (q : Notices) : Notices :=
  if new = old then q else q.offer .tariff (byteOf new.val) cause (byteOf old.val)

/-! ### The window -/

/-- The bytes of the record that a space and an index name (R177, R185 to R187). -/
inductive RecordAt (s : State) : Nat → Nat → List Byte → Prop where
  | entry (e : Fin 64) : RecordAt s 0 e.val (entryBytes (s.entry e) (decide (e ∈ s.table.held)))
  | input (n : Fin 16) : RecordAt s 1 n.val (inputBytes (s.input n))
  | trip (k : Fin 8) : RecordAt s 2 k.val (tripBytes (s.trip k))
  | header (id : BankId) : (s.capture.bank id).state = .opened →
      RecordAt s 3 0 (headerBytes id (s.capture.bank id).header)
  | copy (id : BankId) (p : Fin 64) : (s.capture.bank id).state = .opened →
      RecordAt s 3 (p.val + 1) (copyBytes (s.capture.bank id).copies[p.val])
  | point (i : Fin 12) : RecordAt s 4 i.val (pointBytes s.tariff.points[i.val])
  | count : RecordAt s 4 12 [s.tariff.count]

/-- The addressed byte is present, in a record of these bytes (R177). -/
def Present (s : State) (bytes : List Byte) : Prop :=
  RecordAt s s.window.space.toNat s.window.index.toNat bytes ∧ s.window.offset.toNat < bytes.length

/-- The addressed byte belongs to this writable part (R177). -/
def InPart (w : Window) : WindowPart → Prop
  | .rawValue e => w.space.toNat = 0 ∧ w.index.toNat = e.val ∧ w.offset.toNat ≤ 5
  | .config n => w.space.toNat = 1 ∧ w.index.toNat = n.val ∧ w.offset.toNat ≤ 8
  | .point i => w.space.toNat = 4 ∧ w.index.toNat = i.val ∧ w.offset.toNat ≤ 2
  | .count => w.space.toNat = 4 ∧ w.index.toNat = 12 ∧ w.offset.toNat = 0

/-- The addressed byte is the member byte of this entry (R177). -/
def AtMember (w : Window) (e : Fin 64) : Prop := w.space.toNat = 0 ∧ w.index.toNat = e.val ∧ w.offset.toNat = 7

/-- The offset pointer after a byte of a record of this length is served or written (R179, R181). -/
def movedOffset (length : Nat) (offset : Byte) : Byte := if offset.toNat + 1 = length then 0 else offset + 1

/-- The bytes of a part as a write to WIN_DATA leaves them: those of the open buffer, or else the stored bytes of the part,
with the byte written at the offset (R181). -/
def collected (w : Window) (stored : List Byte) (v : Byte) : List Byte :=
  (match w.buffer with
   | some b => b.bytes
   | none => stored).set w.offset.toNat v

/-- The window after a write to WIN_DATA that commits a part: latch invalid, buffer closed, offset moved (R181). -/
def committedWindow (w : Window) (length : Nat) (refused : Bool) : Window :=
  { w with latch := none, buffer := none, offset := movedOffset length w.offset, refused := w.refused || refused }

/-! ### Registers and records -/

/-- The weight of a flag presented at a bit position (R175, R185). -/
def bitAt (position : Nat) (flag : Bool) : Nat := if flag then 2 ^ position else 0

/-- A read of the register at this offset returns this number. -/
def Reads (s : State) (offset : Offset) (n : Nat) : Prop := readRegister s offset = some (BitVec.ofNat 8 n)

/-- What a read of each register returns as the state stands (R124, R166, R173 to R175). WIN_DATA is left to R179. -/
structure RegistersRead (s : State) : Prop where
  cmdCode : readRegister s 0x00 = some (s.slot.lastCode.getD 0)
  slotStatus : Reads s 0x02
    (s.slot.state.code.toNat + bitAt 4 s.slot.refusedBusy + bitAt 5 s.slot.cancelLate)
  cmdResult : readRegister s 0x03 = some s.slot.result.code
  operands : ∀ (k : Fin 9) (offset : Offset), offset.toNat = 4 + k.val →
    readRegister s offset = some s.slot.operands[k.val]
  emptyHead : s.notices.queue = [] → ∀ offset : Offset, 0x0D ≤ offset.toNat → offset.toNat ≤ 0x11 → Reads s offset 0
  head : ∀ n rest, s.notices.queue = n :: rest →
    readRegister s 0x0D = some n.kind.code ∧ readRegister s 0x0E = some n.subject ∧
      readRegister s 0x0F = some n.sequence ∧ readRegister s 0x10 = some n.data0 ∧ readRegister s 0x11 = some n.data1
  noticeCount : Reads s 0x13 s.notices.queue.length
  noticeLost : Reads s 0x14 s.notices.lost
  intEnable : Reads s 0x15 (bitAt 0 s.notices.cmdIe + bitAt 1 s.notices.noticeIe)
  intStatus : Reads s 0x16 (bitAt 0 s.slot.cmdDone + bitAt 1 (decide (s.notices.queue ≠ [])))
  capEnable : Reads s 0x17 (bitAt 0 s.capture.capEnable)
  schedControl : Reads s 0x18 (bitAt 0 s.tariff.enable + bitAt 1 s.tariff.invalid)
  captureStatus : Reads s 0x19
    (bitAt 0 (decide (s.capture.phase ≠ .idle)) + bitAt 1 (decide (s.capture.phase = .draining)))
  listLength : Reads s 0x1A s.capture.list.length
  copies : Reads s 0x1B s.capture.copiesMade
  bankStates : Reads s 0x1C (s.capture.bankA.state.code.toNat + 4 * s.capture.bankB.state.code.toNat)
  currentBin : Reads s 0x1D s.tariff.bin.val
  time : Reads s 0x1E (s.tariff.day.toNat / 256) ∧ Reads s 0x1F s.tariff.hold.day.toNat ∧
    Reads s 0x20 (s.tariff.hold.minute / 256) ∧ Reads s 0x21 s.tariff.hold.minute ∧ Reads s 0x22 s.tariff.hold.second
  pointers : readRegister s 0x23 = some s.window.space ∧ readRegister s 0x24 = some s.window.index ∧
    readRegister s 0x25 = some s.window.offset
  winStatus : Reads s 0x27
    (bitAt 0 s.window.refused + bitAt 1 s.window.fault + bitAt 2 (decide (s.table.deferred ≠ none)) +
      bitAt 3 (decide (s.window.latch ≠ none)) + bitAt 4 (decide (s.window.buffer ≠ none)))
  others : ∀ offset : Offset, offset.toNat = 0x01 ∨ offset.toNat = 0x12 ∨ 0x28 ≤ offset.toNat → Reads s offset 0

/-- The rows that are a write access, with the code, the value and the offset of those that carry one (R173, R174). The
two read accesses are WIN_DATA_READ and TIME_DAY_HI_READ. -/
def writeAccesses (offset : Offset) (v : Byte) : List Instr :=
  codeRows.map Prod.fst ++
    [.undefinedCommandCode v, .cancel v, .noticePop v, .clearCmdDone, .clearWinRefused, .clearWinFault, .enableAttempt,
     .clearScheduleEnable, .winSpaceWrite v, .winIndexWrite v, .winOffsetWrite v, .winDataWrite v,
     .registerWrite offset v]

/-- Packed BCD and the bytes of each record, and the switch point that any three bytes spell: the named bits, the others
ignored (R185 to R187). A zeroed bank header is left out: it has no source. -/
structure RecordLayouts : Prop where
  packed12 : ∀ d : Vector Nibble 12, bcdBytes d =
    [d[11] ++ d[10], d[9] ++ d[8], d[7] ++ d[6], d[5] ++ d[4], d[3] ++ d[2], d[1] ++ d[0]]
  packed8 : ∀ d : Vector Nibble 8, bcdBytes d = [d[7] ++ d[6], d[5] ++ d[4], d[3] ++ d[2], d[1] ++ d[0]]
  packed4 : ∀ d : Vector Nibble 4, bcdBytes d = [d[3] ++ d[2], d[1] ++ d[0]]
  entry : ∀ (en : Entry) (inUpdate : Bool), entryBytes en inUpdate =
    bcdBytes en.digits ++
      [BitVec.ofNat 8 en.check.val,
       BitVec.ofNat 8 (bitAt 0 en.wrapped + bitAt 1 en.borrowed + bitAt 2 en.damaged + bitAt 3 en.member +
         bitAt 4 inUpdate)] ++
      bcdBytes (decimalDigits 12 (en.suspense.getD 0))
  copy : ∀ c : CopyRecord, copyBytes c =
    [BitVec.ofNat 8 c.index.val, BitVec.ofNat 8 (bitAt 0 c.wrapped + bitAt 1 c.borrowed + bitAt 2 c.damaged)] ++
      bcdBytes c.digits ++ bcdBytes (decimalDigits 12 (c.suspense.getD 0))
  config : ∀ c : InputConfig, configBytes c =
    [c.mode.code, c.edge.code, c.sense.code] ++ bcdBytes c.weight ++
      [c.lockout, BitVec.ofNat 8 c.base.val, BitVec.ofNat 8 (bitAt 0 c.tariffed),
       match c.link with
       | none => 0x00
       | some k => BitVec.ofNat 8 (0x80 + k.val)]
  input : ∀ i : Input, inputBytes i =
    configBytes i.config ++
      [i.state.code, BitVec.ofNat 8 i.queue.length, BitVec.ofNat 8 (i.queue.map Group.count).sum,
       BitVec.ofNat 8 (bitAt 0 i.inFlight), BitVec.ofNat 8 i.rejects, BitVec.ofNat 8 (i.dropped / 256),
       BitVec.ofNat 8 i.dropped]
  trip : ∀ t : TripCounter, tripBytes t =
    [t.state.code] ++ bcdBytes (decimalDigits 8 t.remaining) ++ bcdBytes (decimalDigits 8 t.prewarn) ++
      bcdBytes (decimalDigits 8 t.overshoot)
  header : ∀ (id : BankId) (h : BankHeader) (source : TriggerSource), h.source = some source → headerBytes id h =
    [id.code, BitVec.ofNat 8 (h.sequence.toNat / 256), BitVec.ofNat 8 h.sequence.toNat, source.code,
     BitVec.ofNat 8 h.bin.val, BitVec.ofNat 8 (h.day.toNat / 256), BitVec.ofNat 8 h.day.toNat,
     BitVec.ofNat 8 (h.minute / 256), BitVec.ofNat 8 h.minute, BitVec.ofNat 8 h.second, BitVec.ofNat 8 h.listLength,
     BitVec.ofNat 8 h.copiesMade, BitVec.ofNat 8 h.damagedCopies]
  point : ∀ p : SwitchPoint, pointBytes p =
    [BitVec.ofNat 8 (p.minute.toNat / 256), BitVec.ofNat 8 p.minute.toNat,
     BitVec.ofNat 8 (p.bin.toNat + bitAt 7 p.capture)]
  pointRead : ∀ b₀ b₁ b₂ : Byte,
    (decodePoint [b₀, b₁, b₂]).minute.toNat = 256 * (b₀.toNat % 8) + b₁.toNat ∧
      (decodePoint [b₀, b₁, b₂]).bin.toNat = b₂.toNat % 8 ∧
      ((decodePoint [b₀, b₁, b₂]).capture = true ↔ 128 ≤ b₂.toNat)

/-- The codes of the fields of records and status registers, of results and of notices (R175, R186 to R189). -/
structure FieldCodes : Prop where
  result : Result.code .ok = 0x00 ∧ Result.code .okWrapped = 0x01 ∧ Result.code .okBorrowed = 0x02 ∧
    Result.code .badCommand = 0x10 ∧ Result.code .badIndex = 0x11 ∧ Result.code .badDigit = 0x12 ∧
    Result.code .badOperand = 0x13 ∧ Result.code .damaged = 0x20 ∧ Result.code .notDamaged = 0x21 ∧
    Result.code .noBank = 0x30 ∧ Result.code .bankOpen = 0x31 ∧ Result.code .capturing = 0x32 ∧
    Result.code .cancelled = 0x40
  notice : NoticeKind.code .trip = 0x01 ∧ NoticeKind.code .prewarn = 0x02 ∧ NoticeKind.code .overrun = 0x03 ∧
    NoticeKind.code .wrap = 0x04 ∧ NoticeKind.code .borrow = 0x05 ∧ NoticeKind.code .damaged = 0x06 ∧
    NoticeKind.code .captureDone = 0x07 ∧ NoticeKind.code .captureRefused = 0x08 ∧
    NoticeKind.code .bankOverwritten = 0x09 ∧ NoticeKind.code .tariff = 0x0A ∧ NoticeKind.code .lost = 0x0B
  operation : OpKind.code .apply = 1 ∧ OpKind.code .copy = 2 ∧ OpKind.code .preset = 3 ∧ OpKind.code .add = 4 ∧
    OpKind.code .subtract = 5 ∧ OpKind.code .transfer = 6 ∧ OpKind.code .repair = 7
  slot : SlotState.code .idle = 0 ∧ (∀ c, SlotState.code (.waiting c) = 1) ∧ ∀ c, SlotState.code (.running c) = 2
  bankState : BankState.code .free = 0 ∧ BankState.code .filling = 1 ∧ BankState.code .complete = 2 ∧
    BankState.code .opened = 3
  bank : BankId.code .a = 0 ∧ BankId.code .b = 1
  source : TriggerSource.code .host = 1 ∧ TriggerSource.code .line = 2 ∧ TriggerSource.code .schedule = 3
  trip : TripState.code .idle = 0 ∧ TripState.code .armed = 1 ∧ TripState.code .prewarn = 2 ∧
    TripState.code .tripped = 3
  input : InputState.code .off = 0 ∧ InputState.code .active = 1 ∧ InputState.code .overrun = 2
  config : InputMode.code .off = 0x00 ∧ InputMode.code .count = 0x01 ∧ EdgeSelect.code .rise = 0x01 ∧
    EdgeSelect.code .fall = 0x02 ∧ EdgeSelect.code .both = 0x03 ∧ Sense.code .add = 0x00 ∧ Sense.code .subtract = 0x01

/-! ### Whole-machine rules -/

/-- The completions of the operations that write a value, a suspense or a flag of an entry (R15, R46). -/
def tableCompletions : List Instr :=
  [.applyCompletion, .copyCompletion, .presetCompletion, .addCompletion, .subtractCompletion, .transferCompletion,
   .repairCompletion, .clearFlagsCompletion]

/-- The row of the completion that ends this operation (R48). -/
def completionOf : Work → Instr
  | .apply _ _ => .applyCompletion
  | .copy _ _ => .copyCompletion
  | .host (.preset _ _) => .presetCompletion
  | .host (.add _ _) => .addCompletion
  | .host (.subtract _ _) => .subtractCompletion
  | .host (.transfer _ _) => .transferCompletion
  | .host (.repair _ _ _) => .repairCompletion
  | .host (.clearFlags _) => .clearFlagsCompletion
  | .host (.armTrip _ _ _) => .armTripCompletion
  | .host (.disarmTrip _) => .disarmTripCompletion

/-- The completions of the two trip commands. -/
def tripCompletions : List Instr := [.armTripCompletion, .disarmTripCompletion]

/-- The three grants. -/
def grants : List Instr := [.applyGrant, .copyGrant, .hostGrant]

/-- The values of a cold reset, block by block (R21, R44, R71, R100, R119, R137, R160, R172, R176). -/
structure ColdValues (s : State) : Prop where
  entries : ∀ e, s.entry e =
    { digits := Vector.replicate 12 0, check := 0, wrapped := false, borrowed := false, damaged := false,
      member := false, suspense := none }
  claims : s.table.held = [] ∧ s.table.deferred = none
  inputs : ∀ n, s.input n =
    { config := { mode := .off, edge := .rise, sense := .add, weight := #v[1, 0, 0, 0], lockout := 0, base := 0,
                  tariffed := false, link := none },
      state := .off, queue := [], inFlight := false, rejects := 0, dropped := 0, lockout := false,
      level := (s.input n).level }
  engine : s.engine = { op := none, hostWait := 0 }
  trips : ∀ k, s.trip k = { state := .idle, remaining := 0, prewarn := 0, overshoot := 0 }
  capture : s.capture.epoch = false ∧ s.capture.phase = .idle ∧ s.capture.list = [] ∧ s.capture.copiesMade = 0 ∧
    s.capture.sequence = 0 ∧ s.capture.lastChosen = none ∧ s.capture.capEnable = false ∧ s.capture.capLockout = false ∧
    ∀ id, s.capture.bank id =
      { state := .free, header := BankHeader.zero, copies := Vector.replicate 64 CopyRecord.zero }
  tariff : s.tariff =
    { phase := 0, second := 0, minute := 0, day := 0, bin := 0, count := 0,
      points := Vector.replicate 12 { minute := 0, bin := 0, capture := false }, enable := false, invalid := false,
      hold := { day := 0, minute := 0, second := 0 } }
  slot : s.slot =
    { state := .idle, lastCode := none, result := .ok, cmdDone := false, refusedBusy := false, cancelLate := false,
      operands := Vector.replicate 9 0 }
  notices : s.notices = { queue := [], lost := 0, nextSeq := 0, noticeIe := false, cmdIe := false }
  window : s.window =
    { space := 0, index := 0, offset := 0, latch := none, buffer := none, refused := false, fault := false,
      readData := none }

end Sys2Proof.Safety
end

