-- ==== Sys2Proof/WellFormed.lean ====
section
/-! DEFINITION. WellFormed.lean: which terms of Instr are the row they name. A byte in UNDEFINED_COMMAND_CODE names no
command, and a REGISTER_WRITE is no write that has a row of its own. -/

namespace Sys2Proof

/-- A write to this register, with this value, that the opcode table lists under a row of its own: CMD_CODE, CANCEL,
NOTICE_POP, SCHED_CONTROL, the window's pointers and data port, INT_STATUS with the CMD_DONE bit one, and WIN_STATUS
with exactly one flag bit one (R174, R175). -/
def writeHasOwnRow (offset : Offset) (value : Byte) : Bool :=
  match offset.toNat with
  | 0x00 | 0x01 | 0x12 | 0x18 | 0x23 | 0x24 | 0x25 | 0x26 => true
  | 0x16 => value.getLsbD 0
  | 0x27 => value.getLsbD 0 != value.getLsbD 1
  | _ => false

/-- The checks on a command's operands. Every other operand is in range by its type. -/
def WellFormed : Instr → Bool
  | .undefinedCommandCode code => (decodeCommand code).isNone
  | .registerWrite offset value => !writeHasOwnRow offset value
  | .preset | .add | .subtract | .transfer | .repair | .clearFlags | .armTrip | .disarmTrip => true
  | .capture | .openBank | .closeBank | .setTariff | .setTime | .resetInput => true
  | .cancel _ | .applyGrant | .copyGrant | .hostGrant => true
  | .applyCompletion | .copyCompletion | .presetCompletion | .addCompletion | .subtractCompletion => true
  | .transferCompletion | .repairCompletion | .clearFlagsCompletion => true
  | .armTripCompletion | .disarmTripCompletion => true
  | .inputEdge _ _ | .lockoutExpiry _ | .capEdge _ | .capLockoutExpiry => true
  | .timebaseEdge | .secondExpiry | .minuteExpiry => true
  | .noticePop _ | .clearCmdDone | .clearWinRefused | .clearWinFault => true
  | .enableAttempt | .clearScheduleEnable | .timeDayHiRead => true
  | .winSpaceWrite _ | .winIndexWrite _ | .winOffsetWrite _ | .winDataRead | .winDataWrite _ => true
  | .warmReset _ | .warmResetEnd | .coldReset | .coldResetEnd => true

end Sys2Proof
end

