-- ==== Sys2Proof/Certificates/Slice0/Obligations.lean ====
section
/-! DEFINITION. Certificates/Slice0/Obligations.lean: the statements for the provers. In each, `exec c s = .next t` says
that the command completes, and `t` written as an update of `s` says that nothing else changes. -/

open Sys2Proof Sys2Proof.Machine Sys2Proof.Safety

/-! ## The machine as a whole -/

/-- Every command answers a next state, and leaves the queue of waiting commands alone. -/
def Obligations.EveryCommandAnswersNext : Prop :=
  ∀ (c : Instr) (s : State), ∃ t, exec c s = .next t ∧ t.pending = s.pending

/-- A step takes the command at the front of the queue and runs it with the queue's rest; with no command waiting the
block idles (the model's choice, log entry 3). -/
def Obligations.StepRunsTheFrontCommand : Prop :=
  (∀ (c : Instr) (rest : List Instr) (s : State),
      step { s with pending := c :: rest } = exec c { s with pending := rest }) ∧
    ∀ s : State, s.pending = [] → step s = .next s

/-- The state after reset holds the values of a cold reset (R21, R44, R71, R100, R119, R137, R160, R172, R176); that the
part runs and its lines are low there is the model's choice (log entries 1 and 2). -/
def Obligations.ResetHoldsTheColdValues : Prop :=
  ColdValues State.reset ∧ State.reset.Running ∧ (∀ n, (State.reset.input n).level = false) ∧
    State.reset.capture.capLevel = false ∧ State.reset.pending = []

/-- Reset meets every promise of Safety.lean. -/
def Obligations.ResetMeetsEveryPromise : Prop :=
  NoticesBounded State.reset.notices ∧ TariffSound State.reset.tariff ∧ HostWaitBounded State.reset ∧
    AmountsSound State.reset ∧ DamageSound State.reset ∧ OperationSound State.reset ∧ EpochSound State.reset ∧
    CaptureSound State.reset ∧ TripsSound State.reset ∧ WindowSound State.reset.window ∧
    SupplySound State.reset.supply ∧ HeldAtReset State.reset

/-! ## Codes, digits and records -/

/-- The fourteen codes of R189 name the fourteen commands, and no other byte names one; and the codes of results, of
notices and of the fields of records and status registers are those of R175 and R186 to R189. -/
def Obligations.CommandCodesNameTheCommands : Prop :=
  (∀ name, decodeCommand (encodeCommand name) = some name) ∧
    (∀ code name, decodeCommand code = some name → code = encodeCommand name) ∧
    encodeCommand .preset = 0x01 ∧ encodeCommand .add = 0x02 ∧ encodeCommand .subtract = 0x03 ∧
    encodeCommand .transfer = 0x04 ∧ encodeCommand .repair = 0x05 ∧ encodeCommand .clearFlags = 0x06 ∧
    encodeCommand .armTrip = 0x10 ∧ encodeCommand .disarmTrip = 0x11 ∧ encodeCommand .capture = 0x20 ∧
    encodeCommand .openBank = 0x21 ∧ encodeCommand .closeBank = 0x22 ∧ encodeCommand .setTariff = 0x30 ∧
    encodeCommand .setTime = 0x31 ∧ encodeCommand .resetInput = 0x40 ∧ FieldCodes

/-- The nine configuration bytes and the configuration they spell determine each other (R24, R186). -/
def Obligations.ConfigurationBytesRoundTrip : Prop :=
  (∀ c : InputConfig, (configBytes c).length = 9 ∧ decodeConfig (configBytes c) = some c) ∧
    ∀ (bytes : List Byte) (c : InputConfig), bytes.length = 9 → decodeConfig bytes = some c → configBytes c = bytes

/-- Packed BCD fields and switch points survive being written to bytes and read back, and packed bytes being read as digits
(R185, R187), and any three bytes give a point their named bits; the digits the engine writes are decimal and spell the number it computed, and decimal digits are those of
the number they spell (R1, R2). Every record presents the bytes of its layout, a decimal operand lies where R189 puts it,
and digits spell their number with d0 the units. -/
def Obligations.DecimalFieldsRoundTrip : Prop :=
  (∀ ds : Vector Nibble 12, (bcdBytes ds).length = 6 ∧ bcdDigits 12 (bcdBytes ds) = ds) ∧
    (∀ ds : Vector Nibble 8, (bcdBytes ds).length = 4 ∧ bcdDigits 8 (bcdBytes ds) = ds) ∧
    (∀ bytes : List Byte, bytes.length = 6 → bcdBytes (bcdDigits 12 bytes) = bytes) ∧
    (∀ p : SwitchPoint, (pointBytes p).length = 3 ∧ decodePoint (pointBytes p) = p) ∧
    (∀ v : Nat, Decimal (decimalDigits 12 v) ∧ (v ≤ 999999999999 → decimalValue (decimalDigits 12 v) = v)) ∧
    (∀ ds : Vector Nibble 12, Decimal ds →
      decimalValue ds ≤ 999999999999 ∧ decimalDigits 12 (decimalValue ds) = ds) ∧
    (∀ v : Nat, Decimal (decimalDigits 8 v) ∧ (v ≤ 99999999 → decimalValue (decimalDigits 8 v) = v)) ∧
    (∀ (n : Nat) (ds : Vector Nibble n),
      decimalValue ds = ((List.finRange n).map fun i => ds[i.val].toNat * 10 ^ i.val).sum) ∧
    (∀ ops : Vector Byte 9,
      operandDigits ops 1 12 = bcdDigits 12 [ops[1], ops[2], ops[3], ops[4], ops[5], ops[6]] ∧
      operandDigits ops 1 8 = bcdDigits 8 [ops[1], ops[2], ops[3], ops[4]] ∧
      operandDigits ops 5 8 = bcdDigits 8 [ops[5], ops[6], ops[7], ops[8]]) ∧
    RecordLayouts

/-- The check digit of twelve decimal digits (R3): the sum of the digits at even positions has weight 3; any change of one
digit changes the check; an exchange of two adjacent digits changes it unless they are equal or differ by exactly 5. -/
def Obligations.CheckDigitDetectsChanges : Prop :=
  (∀ ds : Vector Nibble 12, Decimal ds →
    let S := 3 * (ds[0].toNat + ds[2].toNat + ds[4].toNat + ds[6].toNat + ds[8].toNat + ds[10].toNat) +
      (ds[1].toNat + ds[3].toNat + ds[5].toNat + ds[7].toNat + ds[9].toNat + ds[11].toNat)
    S ≤ 216 ∧ (checkDigit ds).val = (10 - S % 10) % 10) ∧
  (∀ (ds : Vector Nibble 12) (i : Fin 12) (d : Nibble), Decimal ds → d.toNat ≤ 9 → d ≠ ds[i.val] →
    checkDigit (ds.set i.val d) ≠ checkDigit ds) ∧
  ∀ (ds : Vector Nibble 12) (i : Fin 11), Decimal ds →
    (checkDigit ((ds.set i.val ds[i.val + 1]).set (i.val + 1) ds[i.val]) = checkDigit ds ↔
      ds[i.val] = ds[i.val + 1] ∨ ds[i.val].toNat = ds[i.val + 1].toNat + 5 ∨
        ds[i.val + 1].toNat = ds[i.val].toNat + 5)

/-! ## The command slot -/

/-- A table command whose operands pass validation is taken and waits, with its operands copied (R140 to R142, R189). -/
def Obligations.TableCommandsWait : Prop :=
  ∀ (s : State) (e f : Fin 64), s.Running → s.slot.state = .idle → s.slot.operands[0].toNat = e.val →
    let number := operandDigits s.slot.operands 1 12
    let waits := fun (code : Byte) (c : EngineCommand) =>
      (Host.Outcome.next { s with slot := waitingSlot code c s.slot } : Host.Outcome State Fault Refusal)
    (Decimal number →
      exec .preset s = waits 0x01 (.preset e (decimalValue number)) ∧
      exec .add s = waits 0x02 (.add e (decimalValue number)) ∧
      exec .subtract s = waits 0x03 (.subtract e (decimalValue number)) ∧
      (s.slot.operands[7].toNat = 0 → exec .repair s = waits 0x05 (.repair e (decimalValue number) false)) ∧
      (s.slot.operands[7].toNat = 1 → exec .repair s = waits 0x05 (.repair e (decimalValue number) true))) ∧
    (s.slot.operands[1].toNat = f.val → e ≠ f → exec .transfer s = waits 0x04 (.transfer e f)) ∧
    exec .clearFlags s = waits 0x06 (.clearFlags e)

/-- An ARM_TRIP or DISARM_TRIP whose operands pass validation is taken and waits (R105, R107, R141, R189). -/
def Obligations.TripCommandsWait : Prop :=
  ∀ (s : State) (k : Fin 8), s.Running → s.slot.state = .idle → s.slot.operands[0].toNat = k.val →
    let preset := operandDigits s.slot.operands 1 8
    let prewarn := operandDigits s.slot.operands 5 8
    (Decimal preset → Decimal prewarn → decimalValue preset ≠ 0 →
      (decimalValue prewarn = 0 ∨ decimalValue prewarn < decimalValue preset) →
      exec .armTrip s =
        .next { s with slot := waitingSlot 0x10 (.armTrip k (decimalValue preset) (decimalValue prewarn)) s.slot }) ∧
    exec .disarmTrip s = .next { s with slot := waitingSlot 0x11 (.disarmTrip k) s.slot }

/-- A command that fails validation ends at once with the result of the first failing check, and changes nothing but the
slot (R105, R141, R142). -/
def Obligations.ValidationRefusesByTheFirstCheck : Prop :=
  ∀ (s : State), s.Running → s.slot.state = .idle →
    let ops := s.slot.operands
    let ends := fun (code : Byte) (r : Result) =>
      (Host.Outcome.next { s with slot := endedSlot code r s.slot } : Host.Outcome State Fault Refusal)
    let number := operandDigits ops 1 12
    let preset := operandDigits ops 1 8
    let prewarn := operandDigits ops 5 8
    (∀ code, decodeCommand code = none → exec (.undefinedCommandCode code) s = ends code .badCommand) ∧
    (64 ≤ ops[0].toNat →
      exec .preset s = ends 0x01 .badIndex ∧ exec .add s = ends 0x02 .badIndex ∧
      exec .subtract s = ends 0x03 .badIndex ∧ exec .repair s = ends 0x05 .badIndex ∧
      exec .clearFlags s = ends 0x06 .badIndex) ∧
    (64 ≤ ops[0].toNat ∨ 64 ≤ ops[1].toNat → exec .transfer s = ends 0x04 .badIndex) ∧
    (8 ≤ ops[0].toNat → exec .armTrip s = ends 0x10 .badIndex ∧ exec .disarmTrip s = ends 0x11 .badIndex) ∧
    (16 ≤ ops[0].toNat → exec .resetInput s = ends 0x40 .badIndex) ∧
    (ops[0].toNat < 64 → ¬Decimal number →
      exec .preset s = ends 0x01 .badDigit ∧ exec .add s = ends 0x02 .badDigit ∧
      exec .subtract s = ends 0x03 .badDigit ∧ exec .repair s = ends 0x05 .badDigit) ∧
    (ops[0].toNat < 8 → ¬(Decimal preset ∧ Decimal prewarn) → exec .armTrip s = ends 0x10 .badDigit) ∧
    (ops[0].toNat < 64 → ops[1].toNat = ops[0].toNat → exec .transfer s = ends 0x04 .badOperand) ∧
    (ops[0].toNat < 64 → Decimal number → 2 ≤ ops[7].toNat → exec .repair s = ends 0x05 .badOperand) ∧
    (ops[0].toNat < 8 → Decimal preset → Decimal prewarn →
      (decimalValue preset = 0 ∨ (decimalValue prewarn ≠ 0 ∧ decimalValue preset ≤ decimalValue prewarn)) →
      exec .armTrip s = ends 0x10 .badOperand) ∧
    (4 ≤ ops[0].toNat → exec .setTariff s = ends 0x30 .badOperand) ∧
    (1440 ≤ 256 * ops[2].toNat + ops[3].toNat ∨ 60 ≤ ops[4].toNat → exec .setTime s = ends 0x31 .badOperand)

/-- A code written while the slot holds a command is refused with REFUSED_BUSY and nothing else (R143, R158). -/
def Obligations.CodeRefusedWhileBusy : Prop :=
  ∀ (s : State), s.Running → s.slot.state ≠ .idle →
    (∀ p ∈ codeRows, exec p.1 s = .next { s with slot := { s.slot with refusedBusy := true } }) ∧
    ∀ code, exec (.undefinedCommandCode code) s = .next { s with slot := { s.slot with refusedBusy := true } }

/-- A CANCEL while a command is WAITING removes it (R147). -/
def Obligations.CancelRemovesTheWaitingCommand : Prop :=
  ∀ (s : State) (v : Byte) (c : EngineCommand), s.Running → s.slot.state = .waiting c →
    ∃ t, exec (.cancel v) s = .next t ∧ t.hostRequest = none ∧
      t = { s with
        slot := { s.slot with state := .idle, result := .cancelled, cmdDone := true },
        engine := { s.engine with hostWait := 0 } }

/-- A CANCEL with no command WAITING is late and sets CANCEL_LATE alone (R148). -/
def Obligations.CancelIsLateOtherwise : Prop :=
  ∀ (s : State) (v : Byte), s.Running → (∀ c, s.slot.state ≠ .waiting c) →
    exec (.cancel v) s = .next { s with slot := { s.slot with cancelLate := true } }

/-! ## Commands taken at once -/

/-- A CAPTURE command's trigger, taken in IDLE (R75, R79 to R82, R90 to R94). -/
def Obligations.CaptureCommandTakesTheTrigger : Prop :=
  ∀ s : State, s.Running → s.slot.state = .idle → s.capture.phase = .idle → BanksReady s.capture → OneEpoch s →
    ∃ t id, exec .capture s = .next t ∧ TriggerTaken s t s.notices id .host ∧
      t.slot = endedSlot 0x20 .ok s.slot ∧ t.capture.capEnable = s.capture.capEnable ∧
      t.capture.capLockout = s.capture.capLockout ∧ t.capture.capLevel = s.capture.capLevel ∧
      t.table = s.table ∧ t.inputs = s.inputs ∧ t.engine = s.engine ∧ t.trips = s.trips ∧ t.tariff = s.tariff ∧
      t.window = s.window ∧ t.supply = s.supply ∧ t.pending = s.pending

/-- A trigger that meets a capture in progress is refused, with the report of its source (R76, R83). -/
def Obligations.TriggerRefusedWhileCapturing : Prop :=
  ∀ s : State, s.Running → s.capture.phase ≠ .idle →
    (s.slot.state = .idle → exec .capture s = .next { s with slot := endedSlot 0x20 .capturing s.slot }) ∧
    (s.capture.capLevel = false → s.capture.capEnable = true → s.capture.capLockout = false →
      exec (.capEdge true) s = .next
        { s with
          capture := { s.capture with capLevel := true, capLockout := true },
          notices := s.notices.offer .captureRefused 2 (highByte s.capture.sequence) (lowByte s.capture.sequence) })

/-- OPEN_BANK (R95). -/
def Obligations.OpenBankOpensTheEarlier : Prop :=
  ∀ s : State, s.Running → s.slot.state = .idle →
    ((∃ id, (s.capture.bank id).state = .opened) →
      exec .openBank s = .next { s with slot := endedSlot 0x21 .bankOpen s.slot }) ∧
    ((∀ id, (s.capture.bank id).state ≠ .opened ∧ (s.capture.bank id).state ≠ .complete) →
      exec .openBank s = .next { s with slot := endedSlot 0x21 .noBank s.slot }) ∧
    ∀ id, (∀ j, (s.capture.bank j).state ≠ .opened) → (s.capture.bank id).state = .complete →
      ((s.capture.bank id.other).state = .complete → s.capture.lastChosen = some id.other) →
      exec .openBank s = .next
        { s with
          slot := endedSlot 0x21 .ok s.slot,
          capture := s.capture.setBank id { s.capture.bank id with state := .opened } }

/-- CLOSE_BANK (R96). -/
def Obligations.CloseBankFreesTheOpenBank : Prop :=
  ∀ s : State, s.Running → s.slot.state = .idle →
    (∀ id, (s.capture.bank id).state = .opened → (s.capture.bank id.other).state ≠ .opened →
      exec .closeBank s = .next
        { s with
          slot := endedSlot 0x22 .ok s.slot,
          capture := s.capture.setBank id { s.capture.bank id with state := .free } }) ∧
    ((∀ id, (s.capture.bank id).state ≠ .opened) →
      exec .closeBank s = .next { s with slot := endedSlot 0x22 .noBank s.slot }) ∧
    ∀ id t, (s.capture.bank id).state = .filling ∨ (s.capture.bank id).state = .complete →
      exec .closeBank s = .next t → t.capture.bank id = s.capture.bank id

/-- SET_TARIFF (R132, R134). -/
def Obligations.SetTariffWritesTheBin : Prop :=
  ∀ (s : State) (b : Fin 4), s.Running → s.slot.state = .idle → s.slot.operands[0].toNat = b.val →
    exec .setTariff s = .next
      { s with
        slot := endedSlot 0x30 .ok s.slot,
        tariff := { s.tariff with bin := b },
        notices := tariffNotice b s.tariff.bin 3 s.notices }

/-- SET_TIME (R131, R133, R134): the time and the phase; with the enable set and a valid schedule, the bin of the point in
force, and an unchanged bin when the schedule is empty. -/
def Obligations.SetTimeSetsAndResolves : Prop :=
  ∀ s : State, s.Running → s.slot.state = .idle →
    let ops := s.slot.operands
    let minute := 256 * ops[2].toNat + ops[3].toNat
    let time := { s.tariff with day := ops[0] ++ ops[1], minute := minute, second := ops[4].toNat, phase := 0 }
    minute < 1440 → ops[4].toNat < 60 →
    (s.tariff.enable = false ∨ s.tariff.count.toNat = 0 →
      exec .setTime s = .next { s with slot := endedSlot 0x31 .ok s.slot, tariff := time }) ∧
    ∀ i : Fin 12, ∀ b : Fin 4, s.tariff.enable = true → ScheduleValid s.tariff → InForce s.tariff minute i →
      s.tariff.points[i.val].bin.toNat = b.val →
      exec .setTime s = .next
        { s with
          slot := endedSlot 0x31 .ok s.slot,
          tariff := { time with bin := b },
          notices := tariffNotice b s.tariff.bin 2 s.notices }

/-- RESET_INPUT (R40), with the end of a drain when it discards the last previous-epoch groups (R90, R91). -/
def Obligations.ResetInputDiscardsTheQueue : Prop :=
  ∀ (s : State) (n : Fin 16), s.Running → s.slot.state = .idle → s.slot.operands[0].toNat = n.val →
    let emptied := { s.input n with
      queue := [], rejects := 0, dropped := 0, state := if (s.input n).config.mode = .off then .off else .active }
    let u := { s with slot := endedSlot 0x40 .ok s.slot, inputs := s.inputs.set n.val emptied }
    ((s.capture.phase ≠ .draining ∨ s.previousInFlight = true ∨
        ∃ m, m ≠ n ∧ ∃ g ∈ (s.input m).queue, g.epoch ≠ s.capture.epoch) →
      exec .resetInput s = .next u) ∧
    ∀ id, s.capture.phase = .draining → s.previousInFlight = false →
      (∀ m, m ≠ n → ∀ g ∈ (s.input m).queue, g.epoch = s.capture.epoch) → Filling s.capture id →
      exec .resetInput s = .next
        { u with
          capture := completedUnit s.capture id,
          notices := doneNotice id (s.capture.bank id).header.sequence s.notices }

/-! ## The engine: grants -/

/-- The arbiter names the first request of the five steps of R66, by the eligibility of R63 to R65, while the part runs and
the engine is FREE, and none otherwise (R47, R70). -/
def Obligations.ArbiterFollowsTheGrantOrder : Prop :=
  ∀ s : State,
    (¬s.Running ∨ s.engine.op ≠ none → s.arbiter = none) ∧
    (s.Running → s.engine.op = none →
      (∀ c, HostEligible s c → 8 ≤ s.engine.hostWait → s.arbiter = some (.host c)) ∧
      ((∀ c, HostEligible s c → s.engine.hostWait < 8) →
        (∀ n g, (s.input n).queue.head? = some g → g.epoch ≠ s.capture.epoch → (∀ m, m < n → ¬PreviousHead s m) →
          s.arbiter = some (.apply n g)) ∧
        ((∀ n, ¬PreviousHead s n) →
          (∀ e, CopyEligible s e → s.arbiter = some (.copy s.capture.copiesMade e)) ∧
          ((∀ e, ¬CopyEligible s e) →
            (∀ n g, (s.input n).queue.head? = some g → g.epoch = s.capture.epoch → ¬Gated s g.dest →
              (∀ m, m < n → ¬CurrentHead s m) → s.arbiter = some (.apply n g)) ∧
            ((∀ n, ¬CurrentHead s n) →
              (∀ c, HostEligible s c → s.arbiter = some (.host c)) ∧
              ((∀ c, ¬HostEligible s c) → s.arbiter = none))))))

/-- The grants of an APPLY and of a COPY: the request is taken, its entry verified and held, the operation recorded, and
the host-wait count raised while an eligible host command waits (R37, R47, R55, R61, R67, R85). -/
def Obligations.ApplyAndCopyGrantsBeginTheOperation : Prop :=
  ∀ s : State,
    (∀ n g, s.arbiter = some (.apply n g) → ∃ t found, exec .applyGrant s = .next t ∧
      Verified .apply g.dest (s.entry g.dest) (t.entry g.dest) s.notices t.notices found ∧
      t.engine.op = some { work := .apply n g, found := [found] } ∧ t.table.held = [g.dest] ∧
      (∀ x, x ≠ g.dest → t.entry x = s.entry x) ∧
      t.inputs = s.inputs.set n.val { s.input n with queue := (s.input n).queue.tail, inFlight := true } ∧
      ((∃ c, HostEligible s c) → t.engine.hostWait = s.engine.hostWait + 1) ∧
      ((∀ c, ¬HostEligible s c) → t.engine.hostWait = s.engine.hostWait) ∧
      t.table.deferred = s.table.deferred ∧ t.trips = s.trips ∧ t.capture = s.capture ∧ t.tariff = s.tariff ∧
      t.slot = s.slot ∧ t.window = s.window ∧ t.supply = s.supply ∧ t.pending = s.pending) ∧
    ∀ p e, s.arbiter = some (.copy p e) → ∃ t found, exec .copyGrant s = .next t ∧
      Verified .copy e (s.entry e) (t.entry e) s.notices t.notices found ∧
      t.engine.op = some { work := .copy p e, found := [found] } ∧ t.table.held = [e] ∧
      (∀ x, x ≠ e → t.entry x = s.entry x) ∧
      ((∃ c, HostEligible s c) → t.engine.hostWait = s.engine.hostWait + 1) ∧
      ((∀ c, ¬HostEligible s c) → t.engine.hostWait = s.engine.hostWait) ∧
      t.table.deferred = s.table.deferred ∧ t.inputs = s.inputs ∧ t.trips = s.trips ∧ t.capture = s.capture ∧
      t.tariff = s.tariff ∧ t.slot = s.slot ∧ t.window = s.window ∧ t.supply = s.supply ∧ t.pending = s.pending

/-- The grant of the host request: the slot is RUNNING, the count 0, the entries verified in their order and held
(R9, R12, R13, R47, R67, R145). -/
def Obligations.HostGrantBeginsTheOperation : Prop :=
  ∀ (s : State) (c : EngineCommand), s.arbiter = some (.host c) →
    ∃ t found, exec .hostGrant s = .next t ∧
      t.slot = { s.slot with state := .running c } ∧
      t.engine = { op := some { work := .host c, found := found }, hostWait := 0 } ∧
      (∀ held, VerifiesNone c held → found = [] ∧ t.table.held = held ∧ (∀ x, t.entry x = s.entry x) ∧
        t.notices = s.notices) ∧
      (∀ k e, VerifiesOne c k e → t.table.held = [e] ∧ (∀ x, x ≠ e → t.entry x = s.entry x) ∧
        ∃ f, found = [f] ∧ Verified k e (s.entry e) (t.entry e) s.notices t.notices f) ∧
      (∀ a b, c = .transfer a b → a ≠ b → t.table.held = [a, b] ∧
        (∀ x, x ≠ a → x ≠ b → t.entry x = s.entry x) ∧
        ∃ f g q, found = [f, g] ∧ Verified .transfer a (s.entry a) (t.entry a) s.notices q f ∧
          Verified .transfer b (s.entry b) (t.entry b) q t.notices g) ∧
      t.table.deferred = s.table.deferred ∧ t.inputs = s.inputs ∧ t.trips = s.trips ∧ t.capture = s.capture ∧
      t.tariff = s.tariff ∧ t.window = s.window ∧ t.supply = s.supply ∧ t.pending = s.pending

/-- Along any run of commands through which a host command waits and stays eligible, other requests get at most eight
grants, less the count it began with (R67). -/
def Obligations.HostWaitsAtMostEightGrants : Prop :=
  ∀ (c : EngineCommand) (run : List Instr) (s : State) (k : Nat), s.engine.hostWait ≤ 8 →
    grantsWaited c run s = some k → k + s.engine.hostWait ≤ 8

/-! ## The engine: completions -/

/-- ADD and SUBTRACT on an entry found HEALTHY (R50 to R53, R146, R152). -/
def Obligations.AddSubtractCompletion : Prop :=
  ∀ (s : State) (op : Operation) (e : Fin 64) (a : Nat), s.Running → s.engine.op = some op →
    op.found = [.healthy] →
    let en := s.entry e
    let q := decimalValue en.digits
    (op.work = .host (.add e a) → ∃ t, exec .addCompletion s = .next t ∧
      CompletedHost s t (if q + a ≤ 999999999999 then .ok else .okWrapped)
        (fun x => if x = e then
          written { en with wrapped := en.wrapped || decide (999999999999 < q + a) } (wrappedSum (q + a))
          else s.entry x)
        s.trip (carryNotice .wrap e 4 0 (decide (999999999999 < q + a)) en.wrapped s.notices)) ∧
    (op.work = .host (.subtract e a) → ∃ t, exec .subtractCompletion s = .next t ∧
      CompletedHost s t (if a ≤ q then .ok else .okBorrowed)
        (fun x => if x = e then
          written { en with borrowed := en.borrowed || decide (q < a) } (borrowedDifference q a) else s.entry x)
        s.trip (carryNotice .borrow e 5 0 (decide (q < a)) en.borrowed s.notices))

/-- PRESET on an entry found HEALTHY, and CLEAR_FLAGS on any entry (R151, R155). -/
def Obligations.PresetAndClearFlagsCompletion : Prop :=
  ∀ (s : State) (op : Operation) (e : Fin 64) (v : Nat), s.Running → s.engine.op = some op →
    (op.work = .host (.preset e v) → op.found = [.healthy] → ∃ t, exec .presetCompletion s = .next t ∧
      CompletedHost s t .ok (fun x => if x = e then written (s.entry e) v else s.entry x) s.trip s.notices) ∧
    (op.work = .host (.clearFlags e) → ∃ t, exec .clearFlagsCompletion s = .next t ∧
      CompletedHost s t .ok
        (fun x => if x = e then { s.entry e with wrapped := false, borrowed := false } else s.entry x)
        s.trip s.notices)

/-- TRANSFER between two entries found HEALTHY: the target gains the source's value and the source becomes 0, in one change
(R50, R53, R153). -/
def Obligations.TransferCompletion : Prop :=
  ∀ (s : State) (op : Operation) (a b : Fin 64), s.Running → s.engine.op = some op →
    op.work = .host (.transfer a b) → a ≠ b → op.found = [.healthy, .healthy] →
    let sum := decimalValue (s.entry b).digits + decimalValue (s.entry a).digits
    let out := decide (999999999999 < sum)
    ∃ t, exec .transferCompletion s = .next t ∧
      CompletedHost s t (if sum ≤ 999999999999 then .ok else .okWrapped)
        (fun x => if x = a then written (s.entry a) 0
          else if x = b then written { s.entry b with wrapped := (s.entry b).wrapped || out } (wrappedSum sum)
          else s.entry x)
        s.trip (carryNotice .wrap b 6 0 out (s.entry b).wrapped s.notices)

/-- REPAIR of an entry found DAMAGED, without and with the fold of its suspense (R7, R50, R53, R154). -/
def Obligations.RepairCompletion : Prop :=
  ∀ (s : State) (op : Operation) (e : Fin 64) (v : Nat) (fold : Bool), s.Running → s.engine.op = some op →
    op.work = .host (.repair e v fold) → op.found = [.damaged] →
    let en := s.entry e
    let sum := v + en.suspense.getD 0
    let out := decide (999999999999 < sum)
    let clean := { en with damaged := false, suspense := none }
    (fold = false → ∃ t, exec .repairCompletion s = .next t ∧
      CompletedHost s t .ok (fun x => if x = e then written clean v else s.entry x) s.trip s.notices) ∧
    (fold = true → ∃ t, exec .repairCompletion s = .next t ∧
      CompletedHost s t (if sum ≤ 999999999999 then .ok else .okWrapped)
        (fun x => if x = e then written { clean with wrapped := en.wrapped || out } (wrappedSum sum) else s.entry x)
        s.trip (carryNotice .wrap e 7 0 out en.wrapped s.notices))

/-- An operation refused at its grant writes nothing to any entry, queues nothing, and ends with its result at the
completion, where a deferred value still lands (R53, R60, R146). -/
def Obligations.RefusedOperationsWriteNothing : Prop :=
  ∀ (s : State) (op : Operation), s.Running → s.engine.op = some op →
    let refused := fun (i : Instr) (r : Result) =>
      ∃ t, exec i s = .next t ∧ CompletedHost s t r s.entry s.trip s.notices
    (∀ e v, op.work = .host (.preset e v) → .damaged ∈ op.found → refused .presetCompletion .damaged) ∧
    (∀ e v, op.work = .host (.add e v) → .damaged ∈ op.found → refused .addCompletion .damaged) ∧
    (∀ e v, op.work = .host (.subtract e v) → .damaged ∈ op.found → refused .subtractCompletion .damaged) ∧
    (∀ a b, op.work = .host (.transfer a b) → .damaged ∈ op.found → refused .transferCompletion .damaged) ∧
    (∀ e v fold, op.work = .host (.repair e v fold) → .damaged ∉ op.found →
      refused .repairCompletion .notDamaged)

/-- ARM_TRIP and DISARM_TRIP at their completion (R104, R106, R107). -/
def Obligations.ArmAndDisarmCompletion : Prop :=
  ∀ (s : State) (op : Operation) (k : Fin 8), s.Running → s.engine.op = some op →
    (∀ preset prewarn, op.work = .host (.armTrip k preset prewarn) → ∃ t, exec .armTripCompletion s = .next t ∧
      CompletedHost s t .ok s.entry
        (fun j => if j = k then { state := .armed, remaining := preset, prewarn := prewarn, overshoot := 0 }
          else s.trip j) s.notices ∧
      t.tripLine k = some false) ∧
    (op.work = .host (.disarmTrip k) → ∃ t, exec .disarmTripCompletion s = .next t ∧
      CompletedHost s t .ok s.entry (fun j => if j = k then { s.trip k with state := .idle } else s.trip j)
        s.notices ∧
      t.tripLine k = some false)

/-- APPLY at its completion on the table, its input and the engine: the amount goes to the value of an entry found HEALTHY
and to the suspense of one found DAMAGED (R48, R50, R51, R56, R57). -/
def Obligations.ApplyCarriesTheAmount : Prop :=
  ∀ (s : State) (op : Operation) (n : Fin 16) (g : Group), s.Running → s.engine.op = some op →
    op.work = .apply n g → ∃ t, exec .applyCompletion s = .next t ∧
      (let en := s.entry g.dest
       let amount := g.count * g.weight
       let value := decimalValue en.digits
       let held := en.suspense.getD 0
       (∀ x, x ≠ g.dest → t.entry x = withDeferred s.table.deferred x (s.entry x)) ∧
       (op.found = [.healthy] → g.sense = .add →
         t.entry g.dest = withDeferred s.table.deferred g.dest
           (written { en with wrapped := en.wrapped || decide (999999999999 < value + amount) }
             (wrappedSum (value + amount)))) ∧
       (op.found = [.healthy] → g.sense = .subtract →
         t.entry g.dest = withDeferred s.table.deferred g.dest
           (written { en with borrowed := en.borrowed || decide (value < amount) }
             (borrowedDifference value amount))) ∧
       (op.found = [.damaged] → g.sense = .add →
         t.entry g.dest = withDeferred s.table.deferred g.dest
           { en with wrapped := en.wrapped || decide (999999999999 < held + amount),
                     suspense := some (wrappedSum (held + amount)) }) ∧
       (op.found = [.damaged] → g.sense = .subtract →
         t.entry g.dest = withDeferred s.table.deferred g.dest
           { en with borrowed := en.borrowed || decide (held < amount),
                     suspense := some (borrowedDifference held amount) })) ∧
      t.inputs = s.inputs.set n.val { s.input n with inFlight := false } ∧
      t.table.held = [] ∧ t.table.deferred = none ∧ t.engine = { op := none, hostWait := s.engine.hostWait } ∧
      t.tariff = s.tariff ∧ t.slot = s.slot ∧ t.window = s.window ∧ t.supply = s.supply ∧ t.pending = s.pending

/-- APPLY at its completion on the trip counters: only the linked counter moves, by the amount and the sense, as each state
of the counter rules (R109 to R115). -/
def Obligations.ApplyMovesTheLinkedCounter : Prop :=
  ∀ (s t : State) (op : Operation) (n : Fin 16) (g : Group), s.Running → s.engine.op = some op →
    op.work = .apply n g → exec .applyCompletion s = .next t →
    (g.link = none → t.trips = s.trips) ∧
    ∀ k, g.link = some k →
      (∀ j, j ≠ k → t.trip j = s.trip j) ∧
      (let c := s.trip k
       let a := g.count * g.weight
       (c.state = .idle → t.trip k = c) ∧
       (g.sense = .add → c.state = .armed → a < c.remaining → c.prewarn = 0 ∨ c.prewarn < c.remaining - a →
         t.trip k = { c with remaining := c.remaining - a }) ∧
       (g.sense = .add → c.state = .armed → a < c.remaining → 0 < c.prewarn → c.remaining - a ≤ c.prewarn →
         t.trip k = { c with state := .prewarn, remaining := c.remaining - a }) ∧
       (g.sense = .add → c.state = .prewarn → a < c.remaining →
         t.trip k = { c with remaining := c.remaining - a }) ∧
       (g.sense = .add → c.state = .armed ∨ c.state = .prewarn → c.remaining ≤ a →
         t.trip k = { c with state := .tripped, remaining := 0, overshoot := a - c.remaining }) ∧
       (g.sense = .add → c.state = .tripped →
         t.trip k = { c with overshoot := min 99999999 (c.overshoot + a) }) ∧
       (g.sense = .subtract → c.state = .armed →
         t.trip k = { c with remaining := min 99999999 (c.remaining + a) }) ∧
       (g.sense = .subtract → c.state = .prewarn → min 99999999 (c.remaining + a) ≤ c.prewarn →
         t.trip k = { c with remaining := min 99999999 (c.remaining + a) }) ∧
       (g.sense = .subtract → c.state = .prewarn → c.prewarn < min 99999999 (c.remaining + a) →
         t.trip k = { c with state := .armed, remaining := min 99999999 (c.remaining + a) }) ∧
       (g.sense = .subtract → c.state = .tripped → t.trip k = { c with overshoot := c.overshoot - a }))

/-- APPLY at its completion queues, in this order, the WRAP or BORROW notice of the entry, the TRIP or PREWARN notice of the
counter, and CAPTURE_DONE when it was the last previous-epoch group of a draining capture (R48, R52, R90, R91, R116). -/
def Obligations.ApplyQueuesItsNoticesInOrder : Prop :=
  ∀ (s t : State) (op : Operation) (n : Fin 16) (g : Group) (found : Condition), s.Running →
    s.engine.op = some op → op.work = .apply n g → op.found = [found] → exec .applyCompletion s = .next t →
    let en := s.entry g.dest
    let a := g.count * g.weight
    let quantity := if found = .damaged then en.suspense.getD 0 else decimalValue en.digits
    let which : Byte := if found = .damaged then 1 else 0
    let q₁ := match g.sense with
      | .add => carryNotice .wrap g.dest 1 which (decide (999999999999 < quantity + a)) en.wrapped s.notices
      | .subtract => carryNotice .borrow g.dest 1 which (decide (quantity < a)) en.borrowed s.notices
    let counts := fun k => (s.trip k).state = .armed ∨ (s.trip k).state = .prewarn
    ∃ q₂,
      (∀ k, g.link = some k → g.sense = .add → counts k → (s.trip k).remaining ≤ a →
        q₂ = q₁.offer .trip (byteOf k.val) (byteOf n.val) (if (s.trip k).remaining = a then 0 else 1)) ∧
      (∀ k, g.link = some k → g.sense = .add → (s.trip k).state = .armed → a < (s.trip k).remaining →
        0 < (s.trip k).prewarn → (s.trip k).remaining - a ≤ (s.trip k).prewarn →
        q₂ = q₁.offer .prewarn (byteOf k.val) (byteOf n.val) 0) ∧
      ((∀ k, g.link = some k → g.sense = .subtract ∨ ¬counts k ∨ (a < (s.trip k).remaining ∧
          ((s.trip k).state = .prewarn ∨ (s.trip k).prewarn = 0 ∨ (s.trip k).prewarn < (s.trip k).remaining - a))) →
        q₂ = q₁) ∧
      (s.capture.phase ≠ .draining ∨ ¬QueuesCurrent s → t.capture = s.capture ∧ t.notices = q₂) ∧
      ∀ id, s.capture.phase = .draining → QueuesCurrent s → Filling s.capture id →
        t.capture = completedUnit s.capture id ∧
          t.notices = doneNotice id (s.capture.bank id).header.sequence q₂

/-- COPY at its completion: the copy record of R86 at its list position, the counts, the phase, and the end of the capture
when it was the last copy and no previous-epoch group is queued (R61, R86, R89 to R91). -/
def Obligations.CopyFillsTheBank : Prop :=
  ∀ (s : State) (op : Operation) (p : Fin 64) (e : Fin 64) (found : Condition) (id : BankId), s.Running →
    s.engine.op = some op → op.work = .copy p.val e → op.found = [found] → Filling s.capture id →
    s.capture.phase = .copying → p.val = s.capture.copiesMade →
    ∃ t, exec .copyCompletion s = .next t ∧
      (let bk := s.capture.bank id
       let en := s.entry e
       let damaged := decide (found = .damaged)
       let record : CopyRecord :=
         { index := e, digits := en.digits, wrapped := en.wrapped, borrowed := en.borrowed, damaged := damaged,
           suspense := if found = .damaged then en.suspense else none }
       let filled : Bank :=
         { state := .filling,
           header := { bk.header with
             copiesMade := bk.header.copiesMade + 1,
             damagedCopies := bk.header.damagedCopies + (if found = .damaged then 1 else 0) },
           copies := bk.copies.set p.val record }
       let unit := { s.capture.setBank id filled with copiesMade := s.capture.copiesMade + 1 }
       (p.val + 1 ≠ s.capture.list.length → t.capture = unit ∧ t.notices = s.notices) ∧
       (p.val + 1 = s.capture.list.length → ¬QueuesCurrent s →
         t.capture = { unit with phase := .draining } ∧ t.notices = s.notices) ∧
       (p.val + 1 = s.capture.list.length → QueuesCurrent s →
         t.capture = completedUnit unit id ∧ t.notices = doneNotice id bk.header.sequence s.notices)) ∧
      (∀ x, t.entry x = withDeferred s.table.deferred x (s.entry x)) ∧ t.table.held = [] ∧
      t.table.deferred = none ∧ t.engine = { op := none, hostWait := s.engine.hostWait } ∧ t.inputs = s.inputs ∧
      t.trips = s.trips ∧ t.tariff = s.tariff ∧ t.slot = s.slot ∧ t.window = s.window ∧ t.supply = s.supply ∧
      t.pending = s.pending

/-! ## Lines and timers -/

/-- A qualified edge whose pulse finds room: it joins the matching tail group, or opens a group with the destination, epoch,
weight, sense and link of the acceptance; the lockout restarts and OVERRUN ends (R29 to R32, R34). -/
def Obligations.AcceptedPulseJoinsOrOpensAGroup : Prop :=
  ∀ (s : State) (n : Fin 16) (level : Bool) (dest : Fin 64), s.Running →
    let i := s.input n
    let c := i.config
    i.level = !level → c.mode = .count → (c.edge = .rise → level = true) → (c.edge = .fall → level = false) →
    i.lockout = false → (c.tariffed = true → dest.val = c.base.val + s.tariff.bin.val) →
    (c.tariffed = false → dest = c.base) →
    let pulse : Group :=
      { dest := dest, epoch := s.capture.epoch, weight := decimalValue c.weight, sense := c.sense, link := c.link,
        count := 1 }
    let accepted := fun (queue : List Group) =>
      (Host.Outcome.next
        { s with
          inputs := s.inputs.set n.val
            { i with queue := queue, state := .active, lockout := decide (c.lockout ≠ 0), level := level } } :
        Host.Outcome State Fault Refusal)
    (∀ front tail, i.queue = front ++ [tail] → { tail with count := 1 } = pulse → tail.count < 63 →
      exec (.inputEdge n level) s = accepted (front ++ [{ tail with count := tail.count + 1 }])) ∧
    (i.queue = [] → exec (.inputEdge n level) s = accepted [pulse]) ∧
    (∀ front tail, i.queue = front ++ [tail] → ({ tail with count := 1 } ≠ pulse ∨ 63 ≤ tail.count) →
      i.queue.length < 4 → exec (.inputEdge n level) s = accepted (i.queue ++ [pulse]))

/-- A qualified edge whose pulse finds four groups and cannot join the last is dropped: the dropped count, the lockout, and
OVERRUN with its notice on the first drop of an episode (R30, R32, R33). -/
def Obligations.DroppedPulseOverruns : Prop :=
  ∀ (s : State) (n : Fin 16) (level : Bool) (dest : Fin 64) (front : List Group) (tail : Group), s.Running →
    let i := s.input n
    let c := i.config
    i.level = !level → c.mode = .count → (c.edge = .rise → level = true) → (c.edge = .fall → level = false) →
    i.lockout = false → (c.tariffed = true → dest.val = c.base.val + s.tariff.bin.val) →
    (c.tariffed = false → dest = c.base) → i.queue = front ++ [tail] → 4 ≤ i.queue.length →
    ({ tail with count := 1 } ≠
      ({ dest := dest, epoch := s.capture.epoch, weight := decimalValue c.weight, sense := c.sense, link := c.link,
         count := 1 } : Group) ∨ 63 ≤ tail.count) →
    let dropped := min 65535 (i.dropped + 1)
    exec (.inputEdge n level) s = .next
      { s with
        inputs := s.inputs.set n.val
          { i with dropped := dropped, state := .overrun, lockout := decide (c.lockout ≠ 0), level := level },
        notices := if i.state = .overrun then s.notices
          else s.notices.offer .overrun (byteOf n.val) (highByte (BitVec.ofNat 16 dropped))
            (lowByte (BitVec.ofNat 16 dropped)) }

/-- An edge that is no transition, that meets a held part, an OFF input or an edge selection that leaves it out changes the
noted level alone; a selected edge during the lockout is rejected; the expiry ends the lockout alone (R27, R29, R30, R43).
That an equal level is no transition, and that the level is noted while the part is held, cold reset included, is the
model's choice (log entry 8). -/
def Obligations.IgnoredAndRejectedEdges : Prop :=
  ∀ (s : State) (n : Fin 16) (level : Bool),
    let i := s.input n
    let follows := fun (j : Input) =>
      (Host.Outcome.next { s with inputs := s.inputs.set n.val j } : Host.Outcome State Fault Refusal)
    (i.level = level → exec (.inputEdge n level) s = .next s) ∧
    (¬s.Running ∨ i.config.mode = .off ∨ (i.config.edge = .rise ∧ level = false) ∨
        (i.config.edge = .fall ∧ level = true) →
      exec (.inputEdge n level) s = follows { i with level := level }) ∧
    (s.Running → i.level = !level → i.config.mode = .count → (i.config.edge = .rise → level = true) →
      (i.config.edge = .fall → level = false) → i.lockout = true →
      exec (.inputEdge n level) s = follows { i with level := level, rejects := min 255 (i.rejects + 1) }) ∧
    exec (.lockoutExpiry n) s = follows { i with lockout := false }

/-- A CAP transition: a fall, a rise while held, disabled or locked out change the noted level alone; an enabled rise in
IDLE starts the lockout and takes a LINE trigger; the expiry ends the lockout alone (R76, R77, R79). That an equal level
is no transition, and that the level is noted while the part is held, cold reset included, is the model's choice (log
entry 8). -/
def Obligations.CapEdgeTriggers : Prop :=
  ∀ s : State,
    let follows := fun (level : Bool) =>
      (Host.Outcome.next { s with capture := { s.capture with capLevel := level } } :
        Host.Outcome State Fault Refusal)
    exec .capLockoutExpiry s = .next { s with capture := { s.capture with capLockout := false } } ∧
    exec (.capEdge false) s = follows false ∧
    (s.capture.capLevel = true ∨ ¬s.Running ∨ s.capture.capEnable = false ∨ s.capture.capLockout = true →
      exec (.capEdge true) s = follows true) ∧
    (s.Running → s.capture.capLevel = false → s.capture.capEnable = true → s.capture.capLockout = false →
      s.capture.phase = .idle → BanksReady s.capture → OneEpoch s →
      ∃ t id, exec (.capEdge true) s = .next t ∧ TriggerTaken s t s.notices id .line ∧
        t.capture.capEnable = true ∧ t.capture.capLockout = true ∧ t.capture.capLevel = true ∧
        t.table = s.table ∧ t.inputs = s.inputs ∧ t.engine = s.engine ∧ t.trips = s.trips ∧ t.tariff = s.tariff ∧
        t.slot = s.slot ∧ t.window = s.window ∧ t.supply = s.supply ∧ t.pending = s.pending)

/-- A timebase edge advances the phase, the second at 32 768 edges, and the minute at 60 seconds; a second expiry advances
the second, the sixtieth being the minute expiry; in cold reset none leaves a trace (R121, R136, R191). That the row
SECOND_EXPIRY, at a phase before the last, stands for the edges left of its second is the model's choice (log entry 6). -/
def Obligations.TimebaseCounts : Prop :=
  ∀ s : State,
    (s.supply.hold = .cold →
      exec .timebaseEdge s = .next s ∧ exec .secondExpiry s = .next s ∧ exec .minuteExpiry s = .next s) ∧
    (s.supply.hold ≠ .cold →
      (s.tariff.phase < 32767 →
        exec .timebaseEdge s = .next { s with tariff := { s.tariff with phase := s.tariff.phase + 1 } }) ∧
      (s.tariff.phase = 32767 → exec .timebaseEdge s = exec .secondExpiry s) ∧
      (s.tariff.second < 59 →
        exec .secondExpiry s =
          .next { s with tariff := { s.tariff with phase := 0, second := s.tariff.second + 1 } }) ∧
      (s.tariff.second = 59 → exec .secondExpiry s = exec .minuteExpiry s))

/-- A second expiry is the timebase edges that are left of its second, and a minute expiry those that are left of its
minute, taken one after another (R121, R122; that these rows stand for those edges is the model's choice, log entry 6). -/
def Obligations.ExpiriesAreRunsOfTimebaseEdges : Prop :=
  let edges : Nat → Host.Outcome State Fault Refusal → Host.Outcome State Fault Refusal := fun k =>
    Nat.iterate (fun o => match o with | .next u => exec .timebaseEdge u | o => o) k
  ∀ s : State, s.tariff.phase < 32768 → s.tariff.second < 60 → s.tariff.minute < 1440 →
    exec .secondExpiry s = edges (32768 - s.tariff.phase) (.next s) ∧
    exec .minuteExpiry s = edges ((60 - s.tariff.second) * 32768 - s.tariff.phase) (.next s)

/-- A minute expiry: the time of day; with the enable set and a point in use at the new minute, that point's bin with its
notice, and a flagged point's trigger, taken or refused while the part runs (R78, R122, R129, R130, R136). That the row
MINUTE_EXPIRY, before the last edge of its minute, stands for the edges left of it is the model's choice (log entry 6). -/
def Obligations.MinuteExpirySwitches : Prop :=
  ∀ s : State, s.supply.hold ≠ .cold → s.tariff.minute < 1440 →
    let time := { s.tariff with
      phase := 0, second := 0, minute := if s.tariff.minute = 1439 then 0 else s.tariff.minute + 1,
      day := if s.tariff.minute = 1439 then s.tariff.day + 1 else s.tariff.day }
    let matching := fun (i : Fin 12) =>
      i.val < s.tariff.count.toNat ∧ s.tariff.points[i.val].minute.toNat = time.minute
    (s.tariff.enable = false ∨ (s.tariff.count.toNat ≤ 12 ∧ ∀ i, ¬matching i) →
      exec .minuteExpiry s = .next { s with tariff := time }) ∧
    ∀ (i : Fin 12) (b : Fin 4), s.tariff.enable = true → ScheduleValid s.tariff → matching i →
      s.tariff.points[i.val].bin.toNat = b.val →
      let told := tariffNotice b s.tariff.bin 1 s.notices
      (¬s.Running → exec .minuteExpiry s = .next { s with tariff := { time with bin := b } }) ∧
      (s.Running → s.tariff.points[i.val].capture = false →
        exec .minuteExpiry s = .next { s with tariff := { time with bin := b }, notices := told }) ∧
      (s.Running → s.tariff.points[i.val].capture = true → s.capture.phase ≠ .idle →
        exec .minuteExpiry s = .next
          { s with
            tariff := { time with bin := b },
            notices := told.offer .captureRefused 3 (highByte s.capture.sequence) (lowByte s.capture.sequence) }) ∧
      (s.Running → s.tariff.points[i.val].capture = true → s.capture.phase = .idle → BanksReady s.capture →
        OneEpoch s →
        ∃ t id, exec .minuteExpiry s = .next t ∧ TriggerTaken s t told id .schedule ∧
          t.tariff = { time with bin := b } ∧ t.capture.capEnable = s.capture.capEnable ∧
          t.capture.capLockout = s.capture.capLockout ∧ t.capture.capLevel = s.capture.capLevel ∧
          t.table = s.table ∧ t.inputs = s.inputs ∧ t.engine = s.engine ∧ t.trips = s.trips ∧ t.slot = s.slot ∧
          t.window = s.window ∧ t.supply = s.supply ∧ t.pending = s.pending)

/-! ## Notices and lines out -/

/-- A notice is stored at the tail with the next sequence while there is room, and counted as lost otherwise (R163 to
R165). -/
def Obligations.NoticeIsStoredOrCounted : Prop :=
  ∀ (q : Notices) (kind : NoticeKind) (subject d0 d1 : Byte),
    (q.queue.length < 16 → q.offer kind subject d0 d1 =
      { q with
        queue := q.queue ++
          [{ kind := kind, subject := subject, sequence := q.nextSeq, data0 := d0, data1 := d1 }],
        nextSeq := q.nextSeq + 1 }) ∧
    (16 ≤ q.queue.length → q.lost < 255 → q.offer kind subject d0 d1 = { q with lost := q.lost + 1 }) ∧
    (16 ≤ q.queue.length → q.lost = 255 → q.offer kind subject d0 d1 = q)

/-- A pop (R167). -/
def Obligations.PopRemovesTheHead : Prop :=
  ∀ (s : State) (v : Byte), s.Running →
    (s.notices.queue = [] → exec (.noticePop v) s = .next s) ∧
    (∀ head rest, s.notices.queue = head :: rest → s.notices.lost = 0 →
      exec (.noticePop v) s = .next { s with notices := { s.notices with queue := rest } }) ∧
    (∀ head rest, s.notices.queue = head :: rest → s.notices.queue.length = 16 → 0 < s.notices.lost →
      ∃ t, exec (.noticePop v) s = .next t ∧ t.notices.queue.length = 16 ∧
        t = { s with notices := { s.notices with
          queue := rest ++ [{ kind := .lost, subject := 0, sequence := s.notices.nextSeq, data0 := 0,
                              data1 := BitVec.ofNat 8 s.notices.lost }],
          nextSeq := s.notices.nextSeq + 1, lost := 0 } })

/-- The IRQ line follows its two terms, each TRIP line its counter and a read of each register the state while the part
runs; held in a reset, no line is driven, no read returns a value, and no access, whichever its row, is taken (R104,
R118, R159, R166, R169, R171, R173 to R175, R191). -/
def Obligations.OutputLinesFollowTheState : Prop :=
  ∀ s : State,
    (s.irqAsserted = true ↔ s.Running ∧
      ((s.notices.queue ≠ [] ∧ s.notices.noticeIe = true) ∨ (s.slot.cmdDone = true ∧ s.notices.cmdIe = true))) ∧
    (∀ k, (¬s.Running → s.tripLine k = none) ∧
      (s.Running → (s.tripLine k = some true ↔ (s.trip k).state = .tripped) ∧
        (s.tripLine k = some false ↔ (s.trip k).state ≠ .tripped))) ∧
    (s.Running → RegistersRead s) ∧
    (¬s.Running →
      (∀ offset, readRegister s offset = none) ∧
      exec .winDataRead s = .next { s with window := { s.window with readData := none } } ∧
      exec .timeDayHiRead s = .next { s with window := { s.window with readData := none } } ∧
      ∀ offset v, ∀ c ∈ writeAccesses offset v, exec c s = .next s)

/-! ## The schedule and the time hold -/

/-- Writes of the schedule enable: an enable attempt on a valid and on an invalid schedule, a one while it is set, and a
zero (R126, R128, R131). -/
def Obligations.ScheduleEnableValidatesAndResolves : Prop :=
  ∀ s : State, s.Running →
    exec .clearScheduleEnable s = .next { s with tariff := { s.tariff with enable := false } } ∧
    (s.tariff.enable = true → exec .enableAttempt s = .next s) ∧
    (s.tariff.enable = false → ¬ScheduleValid s.tariff →
      exec .enableAttempt s = .next { s with tariff := { s.tariff with invalid := true } }) ∧
    (s.tariff.enable = false → s.tariff.count.toNat = 0 →
      exec .enableAttempt s = .next { s with tariff := { s.tariff with enable := true, invalid := false } }) ∧
    ∀ i : Fin 12, ∀ b : Fin 4, s.tariff.enable = false → ScheduleValid s.tariff →
      InForce s.tariff s.tariff.minute i → s.tariff.points[i.val].bin.toNat = b.val →
      exec .enableAttempt s = .next
        { s with
          tariff := { s.tariff with enable := true, invalid := false, bin := b },
          notices := tariffNotice b s.tariff.bin 2 s.notices }

/-- A read of TIME_DAY_HI loads the hold and returns its first byte; the other four time bytes read the hold (R124). -/
def Obligations.TimeDayHiReadLoadsTheHold : Prop :=
  ∀ s : State, s.Running →
    ∃ t, exec .timeDayHiRead s = .next t ∧
      t = { s with
        tariff := { s.tariff with
          hold := { day := s.tariff.day, minute := s.tariff.minute, second := s.tariff.second } },
        window := { s.window with readData := some (s.tariff.day.extractLsb' 8 8) } } ∧
      readRegister s 0x1E = some (s.tariff.day.extractLsb' 8 8) ∧
      readRegister t 0x1F = some (s.tariff.day.extractLsb' 0 8) ∧
      readRegister t 0x20 = some (BitVec.ofNat 8 (s.tariff.minute / 256)) ∧
      readRegister t 0x21 = some (BitVec.ofNat 8 s.tariff.minute) ∧
      readRegister t 0x22 = some (BitVec.ofNat 8 s.tariff.second)

/-! ## The window -/

/-- Writes to the three pointers (R178). -/
def Obligations.PointerWritesStoreAndInvalidate : Prop :=
  ∀ (s : State) (v : Byte), s.Running →
    exec (.winSpaceWrite v) s =
      .next { s with window := { s.window with space := v, latch := none, buffer := none } } ∧
    exec (.winIndexWrite v) s =
      .next { s with window := { s.window with index := v, latch := none, buffer := none } } ∧
    exec (.winOffsetWrite v) s = .next { s with window := { s.window with offset := v, latch := none } } ∧
    readRegister s 0x23 = some s.window.space ∧ readRegister s 0x24 = some s.window.index ∧
    readRegister s 0x25 = some s.window.offset

/-- A read of WIN_DATA: from the latch, from a fresh load of the whole addressed record, or 0 with WIN_FAULT; the byte is
that of a read of register 0x26, and a loaded entry carries IN_UPDATE exactly when it is held (R17, R177, R179, R180). -/
def Obligations.WinDataReadServesTheLatch : Prop :=
  ∀ s : State, s.Running →
    let w := s.window
    let served := fun (l : Latch) =>
      (Host.Outcome.next { s with window :=
        { w with
          readData := some (l.bytes.getD w.offset.toNat 0),
          offset := movedOffset l.bytes.length w.offset,
          latch := if w.offset.toNat + 1 = l.bytes.length then none else some l } } :
        Host.Outcome State Fault Refusal)
    (∀ l, w.latch = some l → w.offset.toNat < l.bytes.length → exec .winDataRead s = served l) ∧
    (w.latch = none → ¬(s.capture.bankA.state = .opened ∧ s.capture.bankB.state = .opened) →
      (∀ bytes, Present s bytes →
        exec .winDataRead s = served { space := w.space, index := w.index, bytes := bytes }) ∧
      ((∀ bytes, ¬Present s bytes) →
        exec .winDataRead s = .next { s with window := { w with readData := some 0, fault := true } })) ∧
    (∀ t, exec .winDataRead s = .next t → t.window.readData = readRegister s 0x26) ∧
    (∀ e : Fin 64, w.latch = none → w.space.toNat = 0 → w.index.toNat = e.val → w.offset.toNat = 7 →
      readRegister s 0x26 = some (BitVec.ofNat 8 (bitAt 0 (s.entry e).wrapped + bitAt 1 (s.entry e).borrowed +
        bitAt 2 (s.entry e).damaged + bitAt 3 (s.entry e).member + bitAt 4 (decide (e ∈ s.table.held)))))

/-- A write to WIN_DATA that commits no part: refused while a commit is pending, a fault on an absent byte, ignored on a
read-only byte, MEMBER set or cleared at once, or collected in the buffer (R19, R177, R181, R183). -/
def Obligations.WinDataWriteCollects : Prop :=
  ∀ (s : State) (v : Byte), s.Running →
    ¬(s.capture.bankA.state = .opened ∧ s.capture.bankB.state = .opened) →
    let w := s.window
    let moved := fun (length : Nat) => { w with latch := none, offset := movedOffset length w.offset }
    (s.table.deferred ≠ none →
      exec (.winDataWrite v) s = .next { s with window := { w with refused := true } }) ∧
    (s.table.deferred = none → (∀ bytes, ¬Present s bytes) →
      exec (.winDataWrite v) s = .next { s with window := { w with latch := none, fault := true } }) ∧
    ∀ bytes, s.table.deferred = none → Present s bytes →
      ((∀ e, ¬AtMember w e) → (∀ part, ¬InPart w part) →
        exec (.winDataWrite v) s = .next { s with window := moved bytes.length }) ∧
      (∀ e, AtMember w e →
        exec (.winDataWrite v) s = .next
          { s with
            table := { s.table with entries := s.table.entries.set e.val { s.entry e with member := v.getLsbD 3 } },
            window := moved bytes.length }) ∧
      (∀ part, InPart w part → w.offset.toNat ≠ part.commitOffset →
        exec (.winDataWrite v) s = .next
          { s with window :=
            { moved bytes.length with
              buffer := some (match w.buffer with
                | some b => { b with bytes := collected w [] v }
                | none =>
                  { space := w.space, index := w.index,
                    bytes := collected w (bytes.take (part.commitOffset + 1)) v }) } })

/-- The commit of a configuration (R24 to R26): taken as a whole by an OFF input, turning a counting input OFF and doing
nothing else to it, or refused. -/
def Obligations.ConfigurationCommit : Prop :=
  ∀ (s : State) (v : Byte) (n : Fin 16), s.Running → s.table.deferred = none → s.window.space.toNat = 1 →
    s.window.index.toNat = n.val → s.window.offset.toNat = 8 →
    let i := s.input n
    let bytes := collected s.window (configBytes i.config) v
    let refused : Host.Outcome State Fault Refusal := .next { s with window := committedWindow s.window 16 true }
    let taken := fun (j : Input) =>
      (Host.Outcome.next { s with inputs := s.inputs.set n.val j, window := committedWindow s.window 16 false } :
        Host.Outcome State Fault Refusal)
    (decodeConfig bytes = none → exec (.winDataWrite v) s = refused) ∧
    ∀ c, decodeConfig bytes = some c →
      (i.config.mode = .off → c.mode = .off → exec (.winDataWrite v) s = taken { i with config := c }) ∧
      (i.config.mode = .off → c.mode = .count → Decimal c.weight → decimalValue c.weight ≠ 0 →
        (c.tariffed = true → c.base.val ≤ 60) →
        exec (.winDataWrite v) s = taken { i with config := c, state := .active, lockout := false }) ∧
      (i.config.mode = .off → c.mode = .count →
        (¬Decimal c.weight ∨ decimalValue c.weight = 0 ∨ (c.tariffed = true ∧ 60 < c.base.val)) →
        exec (.winDataWrite v) s = refused) ∧
      (i.config.mode = .count → c.mode = .off →
        exec (.winDataWrite v) s =
          taken { i with config := { i.config with mode := .off }, state := .off, lockout := false }) ∧
      (i.config.mode = .count → c.mode = .count → exec (.winDataWrite v) s = refused)

/-- The commits of a raw value, of a switch point and of the count: a raw value lands or, on a held entry, is deferred; a
schedule commit is taken only while the enable is clear (R18, R127, R182). -/
def Obligations.RawValueAndScheduleCommits : Prop :=
  ∀ (s : State) (v : Byte), s.Running → s.table.deferred = none →
    let w := s.window
    let space := w.space.toNat
    let index := w.index.toNat
    let offset := w.offset.toNat
    (∀ e : Fin 64, space = 0 → index = e.val → offset = 5 →
      let digits := bcdDigits 12 (collected w (bcdBytes (s.entry e).digits) v)
      (e ∉ s.table.held → exec (.winDataWrite v) s = .next
        { s with
          table := { s.table with entries := s.table.entries.set e.val { s.entry e with digits := digits } },
          window := committedWindow w 14 false }) ∧
      (e ∈ s.table.held → exec (.winDataWrite v) s = .next
        { s with
          table := { s.table with deferred := some { entry := e, digits := digits } },
          window := committedWindow w 14 false })) ∧
    (∀ i : Fin 12, space = 4 → index = i.val → offset = 2 →
      (s.tariff.enable = true → exec (.winDataWrite v) s = .next { s with window := committedWindow w 3 true }) ∧
      (s.tariff.enable = false → exec (.winDataWrite v) s = .next
        { s with
          tariff := { s.tariff with
            points :=
              s.tariff.points.set i.val (decodePoint (collected w (pointBytes s.tariff.points[i.val]) v)) },
          window := committedWindow w 3 false })) ∧
    (space = 4 → index = 12 → offset = 0 → w.buffer = none →
      (s.tariff.enable = true → exec (.winDataWrite v) s = .next { s with window := committedWindow w 1 true }) ∧
      (s.tariff.enable = false → exec (.winDataWrite v) s = .next
        { s with tariff := { s.tariff with count := v }, window := committedWindow w 1 false }))

/-- The writes to the registers that have no row of their own, and the three write-one-to-clear rows (R77, R140, R150, R169,
R174, R175, R184). -/
def Obligations.RegisterWritesReachTheirRegister : Prop :=
  ∀ (s : State) (v : Byte), s.Running →
    (∀ (k : Fin 9) (offset : Offset), offset.toNat = 4 + k.val → exec (.registerWrite offset v) s =
      .next { s with slot := { s.slot with operands := s.slot.operands.set k.val v } }) ∧
    exec (.registerWrite 0x15 v) s =
      .next { s with notices := { s.notices with cmdIe := v.getLsbD 0, noticeIe := v.getLsbD 1 } } ∧
    exec (.registerWrite 0x17 v) s = .next { s with capture := { s.capture with capEnable := v.getLsbD 0 } } ∧
    (v.getLsbD 0 = false → exec (.registerWrite 0x16 v) s = .next s) ∧
    (v.getLsbD 0 = false → v.getLsbD 1 = false → exec (.registerWrite 0x27 v) s = .next s) ∧
    (v.getLsbD 0 = true → v.getLsbD 1 = true → exec (.registerWrite 0x27 v) s =
      .next { s with window := { s.window with refused := false, fault := false } }) ∧
    (∀ offset : Offset, 0x28 ≤ offset.toNat ∨ (0x0D ≤ offset.toNat ∧ offset.toNat ≤ 0x11) ∨ offset.toNat = 0x02 ∨
        offset.toNat = 0x03 ∨ offset.toNat = 0x13 ∨ offset.toNat = 0x14 ∨
        (0x19 ≤ offset.toNat ∧ offset.toNat ≤ 0x22) →
      exec (.registerWrite offset v) s = .next s) ∧
    exec .clearCmdDone s = .next { s with slot := { s.slot with cmdDone := false } } ∧
    exec .clearWinRefused s = .next { s with window := { s.window with refused := false } } ∧
    exec .clearWinFault s = .next { s with window := { s.window with fault := false } }

/-! ## Resets -/

/-- A warm reset of a running part keeps the backup domain and gives the main domain its reset values; the end of a warm
reset, whatever changed meanwhile, lets the part run (R20, R43, R70, R99, R118, R136, R159, R171, R176, R191). A part held
in either reset stays held at a cause of warm reset, and a part held in cold reset at the end of the causes, nothing but
the supply levels changing (R191). Which levels each of the two rows notes is the model's choice (log entry 13). -/
def Obligations.WarmResetKeepsTheBackupDomain : Prop :=
  (∀ (s : State) (cause : WarmCause), s.Running →
    ∃ t, exec (.warmReset cause) s = .next t ∧
      (∀ e, t.entry e = s.entry e) ∧ t.trips = s.trips ∧ t.capture.sequence = s.capture.sequence ∧
      (∀ n, (t.input n).config = s.inputs[n.val].config) ∧
      t.tariff = { s.tariff with invalid := false, hold := { day := 0, minute := 0, second := 0 } } ∧
      (∀ n, t.input n =
        { config := (s.input n).config, state := if (s.input n).config.mode = .off then .off else .active,
          queue := [], inFlight := false, rejects := 0, dropped := 0, lockout := false,
          level := (s.input n).level }) ∧
      t.table.held = [] ∧ t.table.deferred = none ∧ t.engine = { op := none, hostWait := 0 } ∧
      t.capture.epoch = false ∧ t.capture.phase = .idle ∧ t.capture.list = [] ∧ t.capture.copiesMade = 0 ∧
      t.capture.lastChosen = none ∧ t.capture.capEnable = false ∧ t.capture.capLockout = false ∧
      t.capture.capLevel = s.capture.capLevel ∧ t.capture.bankA = Bank.afterReset ∧
      t.capture.bankB = Bank.afterReset ∧
      t.slot = { state := .idle, lastCode := none, result := .ok, cmdDone := false, refusedBusy := false,
                 cancelLate := false, operands := Vector.replicate 9 0 } ∧
      t.notices = { queue := [], lost := 0, nextSeq := 0, noticeIe := false, cmdIe := false } ∧
      t.window = { space := 0, index := 0, offset := 0, latch := none, buffer := none, refused := false,
                   fault := false, readData := none } ∧
      t.supply = { hold := .warm, resetLow := s.supply.resetLow || decide (cause = .resetLine),
                   mainAbsent := s.supply.mainAbsent || decide (cause = .mainSupply) } ∧ t.pending = s.pending) ∧
    ∀ s : State,
      (¬s.Running → ∀ cause : WarmCause, exec (.warmReset cause) s = .next
        { s with supply := { s.supply with
          resetLow := s.supply.resetLow || decide (cause = .resetLine),
          mainAbsent := s.supply.mainAbsent || decide (cause = .mainSupply) } }) ∧
      (s.supply.hold = .warm → exec .warmResetEnd s =
        .next { s with supply := { hold := .running, resetLow := false, mainAbsent := false } }) ∧
      (s.supply.hold ≠ .warm → exec .warmResetEnd s =
        .next { s with supply := { s.supply with resetLow := false, mainAbsent := false } })

/-- A cold reset gives every block its cold values whatever the part was doing; when it ends, whatever levels changed
meanwhile, the part is held in warm reset if RESET# is low or the main supply absent and otherwise runs, and nothing else
changes (R21, R44, R71, R100, R119, R137, R160, R172, R191). That COLD_RESET_END changes nothing in a part not held in
cold reset is the model's choice (log entry 5). -/
def Obligations.ColdResetGivesTheColdValues : Prop :=
  (∀ s : State,
    ∃ t, exec .coldReset s = .next t ∧ ColdValues t ∧ t.supply = { s.supply with hold := .cold } ∧
      (∀ n, (t.input n).level = (s.input n).level) ∧ t.capture.capLevel = s.capture.capLevel ∧
      t.pending = s.pending) ∧
    ∀ s : State,
      (s.supply.hold = .cold → exec .coldResetEnd s = .next
        { s with supply := { s.supply with
          hold := if s.supply.resetLow = true ∨ s.supply.mainAbsent = true then .warm else .running } }) ∧
      (s.supply.hold ≠ .cold → exec .coldResetEnd s = .next s)

/-! ## Promises that every step keeps -/

/-- The Notice Queue stays within its bounds (R165), the time of day within its ranges with a valid schedule in force (R120,
R127), the latch and buffer within their record (R176, R178), a running part has its supply (R191), and a held part keeps
its reset values (R99, R159, R171, R191). -/
def Obligations.StepKeepsTheBlockPromises : Prop :=
  Kept (fun s => NoticesBounded s.notices) ∧ Kept (fun s => TariffSound s.tariff) ∧
    Kept (fun s => WindowSound s.window) ∧ Kept (fun s => SupplySound s.supply) ∧ Kept HeldAtReset

/-- The state shows the operation in flight as R13, R18, R28, R45 and R139 say, DAMAGED and the suspense go together (R7),
and the host-wait count stays within its bound (R67). -/
def Obligations.StepKeepsTheOperationPromises : Prop :=
  Kept OperationSound ∧ Kept (fun s => OperationSound s ∧ DamageSound s) ∧
    Kept (fun s => OperationSound s ∧ HostWaitBounded s)

/-- Previous-epoch groups stand ahead and exist only while CAPTURING (R35, R90); the capture unit and the bank it fills stay
as R74, R81, R82, R85 to R87 and R89 say; and an OPEN bank keeps its contents (R92). -/
def Obligations.StepKeepsTheCapturePromises : Prop :=
  Kept EpochSound ∧ Kept CaptureSound ∧
    ∀ (s t : State) (id : BankId), CaptureSound s → step s = .next t → (s.capture.bank id).state = .opened →
      t.Running →
      ((t.capture.bank id).state = .opened ∨ (t.capture.bank id).state = .free) ∧
        (t.capture.bank id).header = (s.capture.bank id).header ∧
        (t.capture.bank id).copies = (s.capture.bank id).copies

/-- Groups, counts and suspenses stay in their ranges (R28, R35, R54), and each counter's fields in the relation of its
state (R102, R103). -/
def Obligations.StepKeepsTheAmountAndTripPromises : Prop :=
  Kept AmountsSound ∧ Kept fun s => AmountsSound s ∧ TripsSound s

/-- What can change a total and a counter (R4, R6, R7, R14, R22, R102): the value changes only at the completion of an engine
operation, at a write to WIN_DATA and at a cold reset; the check digit and the out-of-range flags not even at that write;
DAMAGED and the suspense also at a grant; MEMBER only at a write to WIN_DATA and a cold reset; a counter only at the
completion of an APPLY, an ARM_TRIP or a DISARM_TRIP and at a cold reset. While an operation is in flight, a held entry
changes in nothing but MEMBER except at the completion of that operation and at a cold reset (R14, R18, R19). -/
def Obligations.TotalsChangeOnlyByTheirEvents : Prop :=
  ∀ (c : Instr) (s t : State) (e : Fin 64) (k : Fin 8), WellFormed c = true → exec c s = .next t →
    let a := s.entry e
    let b := t.entry e
    (b.digits ≠ a.digits →
      c ∈ tableCompletions ∨ c ∈ tripCompletions ∨ c = .coldReset ∨ ∃ v, c = .winDataWrite v) ∧
    (b.check ≠ a.check ∨ b.wrapped ≠ a.wrapped ∨ b.borrowed ≠ a.borrowed →
      c ∈ tableCompletions ∨ c = .coldReset) ∧
    (b.damaged ≠ a.damaged ∨ b.suspense ≠ a.suspense → c ∈ tableCompletions ∨ c ∈ grants ∨ c = .coldReset) ∧
    (b.member ≠ a.member → c = .coldReset ∨ ∃ v, c = .winDataWrite v) ∧
    (t.trip k ≠ s.trip k → c = .applyCompletion ∨ c ∈ tripCompletions ∨ c = .coldReset) ∧
    ∀ op, s.engine.op = some op → e ∈ s.table.held → c ≠ completionOf op.work → c ≠ .coldReset →
      b = { a with member := b.member }
end

