-- ==== Sys2Proof/Laws/State.lean ====
section
/-! SUPPORT. Laws/State.lean: reading a record after writing one, and the blocks an update leaves alone. -/

namespace Sys2Proof.Machine

/-! ## Entries -/

@[simp] theorem entry_setEntry (s : State) (e e' : Fin 64) (en : Entry) :
    (s.setEntry e en).entry e' = if e = e' then en else s.entry e' := by
  simp only [State.setEntry, State.entry, Vector.getElem_set, Fin.val_inj]

@[simp] theorem setEntry_frame (s : State) (e : Fin 64) (en : Entry) :
    (s.setEntry e en).table.held = s.table.held ∧ (s.setEntry e en).table.deferred = s.table.deferred ∧
      (s.setEntry e en).inputs = s.inputs ∧ (s.setEntry e en).engine = s.engine ∧
      (s.setEntry e en).trips = s.trips ∧ (s.setEntry e en).capture = s.capture ∧
      (s.setEntry e en).tariff = s.tariff ∧ (s.setEntry e en).slot = s.slot ∧
      (s.setEntry e en).notices = s.notices ∧ (s.setEntry e en).window = s.window ∧
      (s.setEntry e en).supply = s.supply ∧ (s.setEntry e en).pending = s.pending := by
  simp [State.setEntry]

/-- An update of the other blocks keeps every entry. -/
theorem entry_congr {s t : State} (h : t.table.entries = s.table.entries) (e : Fin 64) : t.entry e = s.entry e := by
  simp [State.entry, h]

/-! ## Inputs -/

@[simp] theorem input_setInput (s : State) (n m : Fin 16) (i : Input) :
    (s.setInput n i).input m = if n = m then i else s.input m := by
  simp only [State.setInput, State.input, Vector.getElem_set, Fin.val_inj]

@[simp] theorem setInput_frame (s : State) (n : Fin 16) (i : Input) :
    (s.setInput n i).table = s.table ∧ (s.setInput n i).engine = s.engine ∧ (s.setInput n i).trips = s.trips ∧
      (s.setInput n i).capture = s.capture ∧ (s.setInput n i).tariff = s.tariff ∧ (s.setInput n i).slot = s.slot ∧
      (s.setInput n i).notices = s.notices ∧ (s.setInput n i).window = s.window ∧
      (s.setInput n i).supply = s.supply ∧ (s.setInput n i).pending = s.pending := by
  simp [State.setInput]

/-- An update of the other blocks keeps every input. -/
theorem input_congr {s t : State} (h : t.inputs = s.inputs) (n : Fin 16) : t.input n = s.input n := by
  simp [State.input, h]

@[simp] theorem setInput_input (s : State) (n : Fin 16) : s.setInput n (s.input n) = s := by
  simp [State.setInput, State.input]

/-! ## Trip counters -/

@[simp] theorem trip_setTrip (s : State) (k k' : Fin 8) (t : TripCounter) :
    (s.setTrip k t).trip k' = if k = k' then t else s.trip k' := by
  simp only [State.setTrip, State.trip, Vector.getElem_set, Fin.val_inj]

@[simp] theorem setTrip_frame (s : State) (k : Fin 8) (t : TripCounter) :
    (s.setTrip k t).table = s.table ∧ (s.setTrip k t).inputs = s.inputs ∧ (s.setTrip k t).engine = s.engine ∧
      (s.setTrip k t).capture = s.capture ∧ (s.setTrip k t).tariff = s.tariff ∧ (s.setTrip k t).slot = s.slot ∧
      (s.setTrip k t).notices = s.notices ∧ (s.setTrip k t).window = s.window ∧
      (s.setTrip k t).supply = s.supply ∧ (s.setTrip k t).pending = s.pending := by
  simp [State.setTrip]

/-- An update of the other blocks keeps every counter. -/
theorem trip_congr {s t : State} (h : t.trips = s.trips) (k : Fin 8) : t.trip k = s.trip k := by
  simp [State.trip, h]

/-! ## The capture unit and the window -/

@[simp] theorem setCapture_capture (s : State) (c : CaptureUnit) : (s.setCapture c).capture = c := rfl

@[simp] theorem setCapture_frame (s : State) (c : CaptureUnit) :
    (s.setCapture c).table = s.table ∧ (s.setCapture c).inputs = s.inputs ∧ (s.setCapture c).engine = s.engine ∧
      (s.setCapture c).trips = s.trips ∧ (s.setCapture c).tariff = s.tariff ∧ (s.setCapture c).slot = s.slot ∧
      (s.setCapture c).notices = s.notices ∧ (s.setCapture c).window = s.window ∧
      (s.setCapture c).supply = s.supply ∧ (s.setCapture c).pending = s.pending := by
  simp [State.setCapture]

@[simp] theorem setWindow_window (s : State) (w : Window) : (s.setWindow w).window = w := rfl

@[simp] theorem setWindow_frame (s : State) (w : Window) :
    (s.setWindow w).table = s.table ∧ (s.setWindow w).inputs = s.inputs ∧ (s.setWindow w).engine = s.engine ∧
      (s.setWindow w).trips = s.trips ∧ (s.setWindow w).capture = s.capture ∧ (s.setWindow w).tariff = s.tariff ∧
      (s.setWindow w).slot = s.slot ∧ (s.setWindow w).notices = s.notices ∧
      (s.setWindow w).supply = s.supply ∧ (s.setWindow w).pending = s.pending := by
  simp [State.setWindow]

@[simp] theorem bank_setBank (c : CaptureUnit) (i j : BankId) (bk : Bank) :
    (c.setBank i bk).bank j = if i = j then bk else c.bank j := by
  cases i <;> cases j <;> rfl

@[simp] theorem setBank_frame (c : CaptureUnit) (i : BankId) (bk : Bank) :
    (c.setBank i bk).epoch = c.epoch ∧ (c.setBank i bk).phase = c.phase ∧ (c.setBank i bk).list = c.list ∧
      (c.setBank i bk).copiesMade = c.copiesMade ∧ (c.setBank i bk).sequence = c.sequence ∧
      (c.setBank i bk).lastChosen = c.lastChosen ∧ (c.setBank i bk).capEnable = c.capEnable ∧
      (c.setBank i bk).capLockout = c.capLockout ∧ (c.setBank i bk).capLevel = c.capLevel := by
  cases i <;> simp [CaptureUnit.setBank]

@[simp] theorem bank_a (c : CaptureUnit) : c.bank .a = c.bankA := rfl
@[simp] theorem bank_b (c : CaptureUnit) : c.bank .b = c.bankB := rfl

@[simp] theorem other_ne (id : BankId) : id.other ≠ id := by cases id <;> decide
@[simp] theorem ne_other (id : BankId) : id ≠ id.other := by cases id <;> decide
@[simp] theorem other_other (id : BankId) : id.other.other = id := by cases id <;> rfl

/-- The two banks are a bank and the other one. -/
theorem eq_or_other (i j : BankId) : j = i ∨ j = i.other := by cases i <;> cases j <;> decide

end Sys2Proof.Machine
end

