-- ==== Sys2Proof/Laws/Ops.lean ====
section
/-! SUPPORT. Laws/Ops.lean: what each shared operation can do, said once. -/

namespace Sys2Proof.Machine

/-! ## Held and running -/

theorem whenRunning_of_running {s : State} (h : s.Running) (f : State → State) : whenRunning f s = f s := if_pos h

theorem whenRunning_of_held {s : State} (h : ¬s.Running) (f : State → State) : whenRunning f s = s := if_neg h

theorem readAccess_of_running {s : State} (h : s.Running) (f : State → State) : readAccess f s = f s := if_pos h

/-- An event either reaches a running part or leaves a held part as it was. -/
theorem whenRunning_cases (f : State → State) (s : State) :
    (s.Running ∧ whenRunning f s = f s) ∨ (¬s.Running ∧ whenRunning f s = s) := by
  by_cases h : s.Running
  · exact .inl ⟨h, whenRunning_of_running h f⟩
  · exact .inr ⟨h, whenRunning_of_held h f⟩

/-! ## Notices -/

/-- Offering a notice changes the Notice Queue of a running part and nothing else. -/
theorem offer_eq (kind : NoticeKind) (subject d0 d1 : Byte) (s : State) :
    offer kind subject d0 d1 s =
      { s with notices := if s.Running then s.notices.offer kind subject d0 d1 else s.notices } := by
  by_cases h : s.Running
  · rw [if_pos h]; exact if_pos h
  · rw [if_neg h]; exact if_neg h

theorem offer_of_running {s : State} (h : s.Running) (kind : NoticeKind) (subject d0 d1 : Byte) :
    offer kind subject d0 d1 s = { s with notices := s.notices.offer kind subject d0 d1 } := if_pos h

theorem offer_of_held {s : State} (h : ¬s.Running) (kind : NoticeKind) (subject d0 d1 : Byte) :
    offer kind subject d0 d1 s = s := if_neg h

/-- The blocks an offer leaves alone. -/
@[simp] theorem offer_frame (kind : NoticeKind) (subject d0 d1 : Byte) (s : State) :
    (offer kind subject d0 d1 s).table = s.table ∧ (offer kind subject d0 d1 s).inputs = s.inputs ∧
      (offer kind subject d0 d1 s).engine = s.engine ∧ (offer kind subject d0 d1 s).trips = s.trips ∧
      (offer kind subject d0 d1 s).capture = s.capture ∧ (offer kind subject d0 d1 s).tariff = s.tariff ∧
      (offer kind subject d0 d1 s).slot = s.slot ∧ (offer kind subject d0 d1 s).window = s.window ∧
      (offer kind subject d0 d1 s).supply = s.supply ∧ (offer kind subject d0 d1 s).pending = s.pending := by
  rw [offer_eq]; simp

@[simp] theorem entry_offer (kind : NoticeKind) (subject d0 d1 : Byte) (s : State) (e : Fin 64) :
    (offer kind subject d0 d1 s).entry e = s.entry e := entry_congr (by simp) e

@[simp] theorem input_offer (kind : NoticeKind) (subject d0 d1 : Byte) (s : State) (n : Fin 16) :
    (offer kind subject d0 d1 s).input n = s.input n := input_congr (by simp) n

@[simp] theorem trip_offer (kind : NoticeKind) (subject d0 d1 : Byte) (s : State) (k : Fin 8) :
    (offer kind subject d0 d1 s).trip k = s.trip k := trip_congr (by simp) k

/-- Any number of notices offered to a queue, one after another. -/
inductive Offered (q : Notices) : Notices → Prop where
  | none : Offered q q
  | more {r : Notices} (kind : NoticeKind) (subject d0 d1 : Byte) :
      Offered q r → Offered q (r.offer kind subject d0 d1)

theorem Offered.trans {p q r : Notices} (h : Offered p q) (h' : Offered q r) : Offered p r := by
  induction h' with
  | none => exact h
  | more k a b c _ ih => exact .more k a b c ih

/-- An offer changes the Notice Queue only, and by offering. -/
theorem offer_offered (kind : NoticeKind) (subject d0 d1 : Byte) (s : State) :
    ∃ q, Offered s.notices q ∧ offer kind subject d0 d1 s = { s with notices := q } := by
  rw [offer_eq]
  split
  · exact ⟨_, .more _ _ _ _ .none, rfl⟩
  · exact ⟨_, .none, rfl⟩

/-- An offer stores the notice with the next sequence, or only raises the lost count (R164, R165). -/
theorem Notices.offer_cases (q : Notices) (kind : NoticeKind) (subject d0 d1 : Byte) :
    (q.queue.length < 16 ∧ ∃ n, (q.offer kind subject d0 d1).queue = q.queue ++ [n] ∧
        (q.offer kind subject d0 d1).lost = q.lost ∧ (q.offer kind subject d0 d1).nextSeq = q.nextSeq + 1) ∨
      (16 ≤ q.queue.length ∧ (q.offer kind subject d0 d1).queue = q.queue ∧
        (q.offer kind subject d0 d1).lost = min 255 (q.lost + 1) ∧
        (q.offer kind subject d0 d1).nextSeq = q.nextSeq) := by
  by_cases h : q.queue.length < 16
  · exact .inl ⟨h, _, by simp [Notices.offer, h]; rfl, by simp [Notices.offer, h], by simp [Notices.offer, h]⟩
  · exact .inr ⟨by omega, by simp [Notices.offer, h], by simp [Notices.offer, h], by simp [Notices.offer, h]⟩

@[simp] theorem Notices.offer_enables (q : Notices) (kind : NoticeKind) (subject d0 d1 : Byte) :
    (q.offer kind subject d0 d1).noticeIe = q.noticeIe ∧ (q.offer kind subject d0 d1).cmdIe = q.cmdIe := by
  by_cases h : q.queue.length < 16 <;> simp [Notices.offer, h]

end Sys2Proof.Machine
end

