-- ==== Sys2Proof/Laws/Capture.lean ====
section
/-! SUPPORT. Laws/Capture.lean: what the taking of a trigger, the completion of a capture and the end of a drain can do. -/

namespace Sys2Proof.Machine

open Sys2Proof.Safety

/-! ## Banks -/

/-- The bank the part chooses is the one R93 names. -/
theorem choose_chosen (c : CaptureUnit) (h : BanksReady c) : Chosen c c.choose := by
  obtain ⟨h1, h2, h3, h4⟩ := h
  unfold Chosen CaptureUnit.choose
  cases ha : c.bankA.state <;> cases hb : c.bankB.state <;> simp_all
  all_goals (cases hl : c.lastChosen with
    | none => simp_all [BankId.other]
    | some id => cases id <;> simp_all [BankId.other])

theorem fillingBank_of (c : CaptureUnit) (id : BankId) (h : Filling c id) : c.fillingBank = some id := by
  obtain ⟨h1, h2⟩ := h
  cases id <;> simp_all [CaptureUnit.fillingBank, BankId.other]

/-- At most one bank OPEN: the open bank is the one whose state is OPEN (R92). -/
theorem openBank_iff (c : CaptureUnit) (h : ¬(c.bankA.state = .opened ∧ c.bankB.state = .opened)) (id : BankId) :
    c.openBank = some id ↔ (c.bank id).state = .opened := by
  unfold CaptureUnit.openBank
  by_cases ha : c.bankA.state = .opened <;> by_cases hb : c.bankB.state = .opened
  · exact absurd ⟨ha, hb⟩ h
  all_goals cases id <;> simp_all [CaptureUnit.bank]

/-- Reading a bank of a unit whose other fields have been replaced. -/
theorem bank_with (c : CaptureUnit) (id j : BankId) (bk : Bank) (epoch : Bool) (phase : CapturePhase)
    (list : List (Fin 64)) (copiesMade : Nat) (sequence : BitVec 16) (lastChosen : Option BankId) :
    ({ c.setBank id bk with
        epoch := epoch, phase := phase, list := list, copiesMade := copiesMade, sequence := sequence,
        lastChosen := lastChosen } : CaptureUnit).bank j =
      if id = j then bk else c.bank j := by
  cases id <;> cases j <;> rfl

/-! ## Previous-epoch groups (R90) -/

theorem previousExists_false (s : State) :
    s.previousExists = false ↔
      s.previousInFlight = false ∧ ∀ n, ∀ g ∈ (s.input n).queue, g.epoch = s.capture.epoch := by
  simp [State.previousExists, allInputs, State.previousEpoch]

/-! ## The completion of a capture -/

theorem completeCapture_of_filling (s : State) (id : BankId) (hr : s.Running) (h : Filling s.capture id) :
    completeCapture s =
      { s with
        capture := completedUnit s.capture id,
        notices := doneNotice id (s.capture.bank id).header.sequence s.notices } := by
  simp only [completeCapture, fillingBank_of _ _ h]
  rw [offer_of_running (by exact hr)]
  rfl

/-- A completion of a capture changes the capture unit and the Notice Queue only. -/
theorem completeCapture_frame (s : State) :
    ∃ c q, Offered s.notices q ∧ completeCapture s = { s with capture := c, notices := q } := by
  simp only [completeCapture]
  cases s.capture.fillingBank with
  | none => exact ⟨_, _, .none, rfl⟩
  | some id =>
    obtain ⟨q, hq, h⟩ := offer_offered .captureDone id.code (highByte (s.capture.bank id).header.sequence)
      (lowByte (s.capture.bank id).header.sequence)
      (s.setCapture { s.capture.setBank id { s.capture.bank id with state := .complete } with phase := .idle })
    exact ⟨_, q, hq, h⟩

/-- The end of a drain comes only in DRAINING with no previous-epoch group left (R90). -/
theorem checkDrain_of_not {s : State} (h : s.capture.phase ≠ .draining ∨ s.previousExists = true) :
    checkDrain s = s := by
  unfold checkDrain
  rw [if_neg]
  rintro ⟨a, b⟩
  rcases h with h | h
  · exact h a
  · rw [b] at h; cases h

theorem checkDrain_of_drained {s : State} (h : s.capture.phase = .draining) (h2 : s.previousExists = false) :
    checkDrain s = completeCapture s := by
  unfold checkDrain; rw [if_pos ⟨h, h2⟩]

/-- The check for the end of a drain changes the capture unit and the Notice Queue only. -/
theorem checkDrain_frame (s : State) :
    ∃ c q, Offered s.notices q ∧ checkDrain s = { s with capture := c, notices := q } := by
  unfold checkDrain
  split
  · exact completeCapture_frame s
  · exact ⟨_, _, .none, rfl⟩

/-! ## Triggers -/

theorem mem_members (s : State) (e : Fin 64) : e ∈ s.members ↔ (s.entry e).member = true := by
  simp [State.members, allEntries]

theorem members_ascending (s : State) : s.members.Pairwise (· < ·) := (List.pairwise_lt_finRange 64).filter _

/-- The notice of an overwritten bank changes the Notice Queue of a running part only. -/
theorem offerOverwritten_eq (id : BankId) (s : State) :
    offerOverwritten id s =
      { s with
        notices := if s.Running then overwrittenNotice id (s.capture.bank id) s.notices else s.notices } := by
  unfold offerOverwritten overwrittenNotice
  by_cases h : (s.capture.bank id).state = .complete
  · simp only [h, if_true]; rw [offer_eq]
  · simp [h]

/-- Taking a trigger changes the capture unit and the Notice Queue only. -/
theorem takeTrigger_frame (source : TriggerSource) (s : State) :
    ∃ c q, Offered s.notices q ∧ takeTrigger source s = { s with capture := c, notices := q } := by
  obtain ⟨c, q, hq, h⟩ := checkDrain_frame ((offerOverwritten s.capture.choose s).setCapture (s.triggered source))
  refine ⟨c, q, Offered.trans ?_ hq, ?_⟩
  · rw [offerOverwritten_eq]
    show Offered s.notices (if s.Running then _ else _)
    split
    · unfold overwrittenNotice
      split
      · exact .more _ _ _ _ .none
      · exact .none
    · exact .none
  · rw [takeTrigger, h, offerOverwritten_eq]
    rfl

/-- A LINE or SCHEDULE trigger, taken or refused, changes the capture unit and the Notice Queue only. -/
theorem trigger_frame (source : TriggerSource) (s : State) :
    ∃ c q, Offered s.notices q ∧ trigger source s = { s with capture := c, notices := q } := by
  unfold trigger
  split
  · exact takeTrigger_frame source s
  · obtain ⟨q, hq, h⟩ := offer_offered .captureRefused source.code (highByte s.capture.sequence)
      (lowByte s.capture.sequence) s
    exact ⟨_, q, hq, h⟩

/-- A trigger meeting a capture in progress is refused with its report (R83). -/
theorem trigger_of_capturing {s : State} (source : TriggerSource) (h : s.capture.phase ≠ .idle) :
    trigger source s =
      offer .captureRefused source.code (highByte s.capture.sequence) (lowByte s.capture.sequence) s := if_neg h

/-- All that the taking of a trigger does, in a running part whose banks are ready and whose groups are of one epoch
(R79 to R82, R90 to R94). -/
theorem takeTrigger_spec (s : State) (src : TriggerSource) (hr : s.Running)
    (hb : BanksReady s.capture) (ho : OneEpoch s) :
    ∃ t id, takeTrigger src s = t ∧ TriggerTaken s t s.notices id src ∧
      t = { s with capture := t.capture, notices := t.notices } ∧ t.capture.capEnable = s.capture.capEnable ∧
      t.capture.capLockout = s.capture.capLockout ∧ t.capture.capLevel = s.capture.capLevel := by
  have hc := choose_chosen _ hb
  generalize hid : s.capture.choose = id at hc
  have hne : (s.capture.bank id.other).state ≠ .filling := by
    cases id <;> simp [BankId.other, hb.1, hb.2.1]
  let u : State :=
    { s with notices := overwrittenNotice id (s.capture.bank id) s.notices, capture := s.triggered src }
  have hu : takeTrigger src s = checkDrain u := by
    simp only [takeTrigger, hid]
    rw [offerOverwritten_eq, if_pos hr]; rfl
  have hub : ∀ j, u.capture.bank j =
      if id = j then
        { state := .filling, header := s.triggerHeader src, copies := Vector.replicate 64 CopyRecord.zero }
      else s.capture.bank j := by
    intro j
    simp only [u, State.triggered, hid]
    exact bank_with ..
  have hprev : u.previousExists = false ↔ NoGroups s := by
    rw [previousExists_false]
    have e1 : u.capture.epoch = !s.capture.epoch := rfl
    have hf : ∀ op, s.engine.op = some op → ∀ n g, op.work = .apply n g → g.epoch = s.capture.epoch := by
      intro op h n g hw
      have := ho.2
      simpa [State.previousInFlight, h, hw, State.previousEpoch] using this
    constructor
    · rintro ⟨h1, h2⟩
      constructor
      · intro n
        by_contra hq
        obtain ⟨g, hg⟩ := List.exists_mem_of_ne_nil _ hq
        have a := h2 n g hg
        have b := ho.1 n g hg
        rw [e1, b] at a
        simp at a
      · intro op n g h hw
        have a := hf op h n g hw
        simp only [State.previousInFlight, u, h, hw, State.previousEpoch] at h1
        have : (s.triggered src).epoch = !s.capture.epoch := rfl
        rw [this, a] at h1
        simp at h1
    · rintro ⟨h1, h2⟩
      constructor
      · simp only [State.previousInFlight, u]
        split
        · rename_i op h
          split
          · rename_i n g hw
            exact absurd hw (h2 op n g h)
          · rfl
        · rfl
      · intro n g hg
        have : (u.input n).queue = [] := h1 n
        rw [this] at hg; simp at hg
  have hl : u.capture.list = s.members := rfl
  have hp : u.capture.phase = if s.members.isEmpty then .draining else .copying := rfl
  by_cases hend : s.members = [] ∧ NoGroups s
  · have hph : u.capture.phase = .draining := by rw [hp, hend.1]; rfl
    have hf : Filling u.capture id := by
      refine ⟨by rw [hub]; simp, by rw [hub]; simp [hne]⟩
    have ht : takeTrigger src s =
        { u with
          capture := completedUnit u.capture id,
          notices := doneNotice id (u.capture.bank id).header.sequence u.notices } := by
      rw [hu, checkDrain, if_pos ⟨hph, hprev.2 hend.2⟩]
      exact completeCapture_of_filling u id hr hf
    have hcb : ∀ j, (completedUnit u.capture id).bank j =
        if id = j then { u.capture.bank id with state := .complete } else u.capture.bank j := by
      intro j; cases id <;> cases j <;> rfl
    have hcs : (completedUnit u.capture id).list = u.capture.list ∧
        (completedUnit u.capture id).epoch = u.capture.epoch ∧
        (completedUnit u.capture id).sequence = u.capture.sequence ∧
        (completedUnit u.capture id).copiesMade = u.capture.copiesMade ∧
        (completedUnit u.capture id).lastChosen = u.capture.lastChosen ∧
        (completedUnit u.capture id).capEnable = u.capture.capEnable ∧
        (completedUnit u.capture id).capLockout = u.capture.capLockout ∧
        (completedUnit u.capture id).capLevel = u.capture.capLevel := by
      cases id <;> exact ⟨rfl, rfl, rfl, rfl, rfl, rfl, rfl, rfl⟩
    have hcu : u.capture.lastChosen = some id ∧ u.capture.capEnable = s.capture.capEnable ∧
        u.capture.capLockout = s.capture.capLockout ∧ u.capture.capLevel = s.capture.capLevel := by
      simp only [u, State.triggered, hid]; cases id <;> simp [CaptureUnit.setBank]
    refine ⟨_, id, rfl, ?_, ?_, ?_, ?_, ?_⟩ <;> rw [ht]
    · refine ⟨⟨hc, ?_⟩, ?_, ?_, ?_, ?_, ?_, ?_, ?_, ?_, ?_, ?_, ?_⟩ <;> try simp only [hcs, hcb, hcu, hl, hub]
      · rfl
      · rfl
      · intro e; exact mem_members s e
      · exact members_ascending s
      · rfl
      · simp [State.triggerHeader, u]
      · simp
      · simp
      · intro h; exact absurd hend.1 h
      · intro _ h; exact absurd hend.2 h
      · intro _ _; exact ⟨rfl, by simp, by simp [u, State.triggerHeader]⟩
    · simp only [hcs, hcu]
    · simp only [hcs, hcu]
    · simp only [hcs, hcu]
  · have ht : takeTrigger src s = u := by
      rw [hu, checkDrain, if_neg]
      rintro ⟨h1, h2⟩
      apply hend
      refine ⟨?_, hprev.1 h2⟩
      rw [hp] at h1
      by_contra h
      have : s.members.isEmpty = false := by simpa using h
      rw [this] at h1; simp at h1
    have hcu : u.capture.lastChosen = some id ∧ u.capture.capEnable = s.capture.capEnable ∧
        u.capture.capLockout = s.capture.capLockout ∧ u.capture.capLevel = s.capture.capLevel := by
      simp only [u, State.triggered, hid]; cases id <;> simp [CaptureUnit.setBank]
    refine ⟨_, id, rfl, ?_, ?_, ?_, ?_, ?_⟩ <;> rw [ht]
    · refine ⟨⟨hc, hcu.1⟩, ?_, ?_, ?_, ?_, ?_, ?_, ?_, ?_, ?_, ?_, ?_⟩ <;> try simp only [hcu, hl, hub]
      · rfl
      · rfl
      · intro e; exact mem_members s e
      · exact members_ascending s
      · rfl
      · simp [State.triggerHeader, u]
      · simp
      · simp
      · intro h; refine ⟨?_, by simp, rfl⟩
        rw [hp]
        have : s.members.isEmpty = false := by simpa using h
        simp [this]
      · intro h1 _; refine ⟨?_, by simp, rfl⟩; rw [hp, h1]; rfl
      · intro h1 h2; exact absurd ⟨h1, h2⟩ hend
    · exact hcu.2.1
    · exact hcu.2.2.1
    · exact hcu.2.2.2

end Sys2Proof.Machine
end

