-- ==== Sys2Proof/Laws/Digits.lean ====
section
/-! SUPPORT. Laws/Digits.lean: decimal digits and the numbers they spell, the check digit, and the arithmetic of totals
in the words of the statements. -/

namespace Sys2Proof.Machine

open Sys2Proof.Safety

/-! ## Digits -/

theorem allDecimal_iff {n : Nat} (ds : Vector Nibble n) : allDecimal ds = true ↔ Decimal ds := by
  simp only [allDecimal, List.all_eq_true, isDecimal, decide_eq_true_eq, Decimal]
  constructor
  · intro h i
    exact h _ (by simp)
  · intro h x hx
    rw [Vector.mem_toList_iff, Vector.mem_iff_getElem] at hx
    obtain ⟨i, hi, rfl⟩ := hx
    exact h ⟨i, hi⟩

/-- A list of decimal digits spells a number below ten to its length. -/
theorem decimalOf_lt : ∀ l : List Nibble, (∀ d ∈ l, d.toNat ≤ 9) → decimalOf l < 10 ^ l.length
  | [], _ => by simp [decimalOf]
  | d :: l, h => by
    have h1 := h d (by simp)
    have h2 := decimalOf_lt l (fun x hx => h x (by simp [hx]))
    simp only [decimalOf, List.length_cons, Nat.pow_succ]; omega

/-- Decimal digits spell a number of as many digits. -/
theorem decimalValue_lt {n : Nat} (ds : Vector Nibble n) (h : Decimal ds) : decimalValue ds < 10 ^ n := by
  have hall : ∀ d ∈ ds.toList, d.toNat ≤ 9 := by
    have := (allDecimal_iff ds).2 h
    simp only [allDecimal, isDecimal, List.all_eq_true, decide_eq_true_eq] at this
    exact this
  simpa [decimalValue] using decimalOf_lt _ hall

/-- The digits of a number are decimal. -/
theorem decimalDigits_decimal (n v : Nat) : Decimal (decimalDigits n v) := by
  intro i; simp [decimalDigits]; omega

/-- The digits of a number, one at a time. -/
theorem decimalDigits_list : ∀ n v : Nat,
    (decimalDigits (n + 1) v).toList = BitVec.ofNat 4 (v % 10) :: (decimalDigits n (v / 10)).toList := by
  intro n v
  have key : ∀ k w : Nat,
      (decimalDigits k w).toList = List.ofFn fun i : Fin k => BitVec.ofNat 4 (w / 10 ^ i.val % 10) := by
    intro k w; simp [decimalDigits, Vector.ofFn, Vector.toList]
  rw [key, key, List.ofFn_succ]
  simp only [Fin.val_zero, pow_zero, Nat.div_one, Fin.val_succ, Nat.pow_succ]
  congr 2
  funext i
  rw [Nat.mul_comm, Nat.div_div_eq_div_mul]

/-- A two-byte binary field is 256 times its high byte plus its low byte. -/
theorem wordOf_toNat (h l : Byte) : (wordOf h l).toNat = 256 * h.toNat + l.toNat := by
  simp only [wordOf, BitVec.toNat_append]
  rw [← Nat.shiftLeft_add_eq_or_of_lt (by omega), Nat.shiftLeft_eq]; omega

/-! ## The check digit -/

/-- The weighted digit sum, written out (R3). -/
theorem weightedSum_eq (ds : Vector Nibble 12) :
    weightedSum ds.toList =
      3 * (ds[0].toNat + ds[2].toNat + ds[4].toNat + ds[6].toNat + ds[8].toNat + ds[10].toNat) +
        (ds[1].toNat + ds[3].toNat + ds[5].toNat + ds[7].toNat + ds[9].toNat + ds[11].toNat) := by
  obtain ⟨⟨l⟩, h⟩ := ds
  match l, h with
  | [a0, a1, a2, a3, a4, a5, a6, a7, a8, a9, a10, a11], _ => simp [weightedSum]; omega

theorem checkDigit_val (ds : Vector Nibble 12) : (checkDigit ds).val = (10 - weightedSum ds.toList % 10) % 10 := by
  simp [checkDigit, Fin.ofNat]

/-! ## Arithmetic -/

theorem addTotal_eq (q a : Nat) :
    addTotal q a = { result := wrappedSum (q + a), wrapped := decide (999999999999 < q + a), borrowed := false } := by
  simp only [addTotal, wrappedSum, Config.totalModulus]
  by_cases h : q + a < 1000000000000
  · have h1 : q + a ≤ 999999999999 := by omega
    have h2 : ¬999999999999 < q + a := by omega
    simp [h, h1, h2]
  · have h1 : ¬q + a ≤ 999999999999 := by omega
    have h2 : 999999999999 < q + a := by omega
    simp [h, h1, h2]

theorem subtractTotal_eq (q a : Nat) :
    subtractTotal q a = { result := borrowedDifference q a, wrapped := false, borrowed := decide (q < a) } := by
  simp only [subtractTotal, borrowedDifference, Config.totalModulus]
  by_cases h : a ≤ q
  · have h2 : ¬q < a := by omega
    simp [h, h2]
  · have h2 : q < a := by omega
    simp [h, h2]

/-- The result of an addition that no wrap or one wrap brings into range. -/
theorem outcome_addTotal (q a : Nat) :
    (addTotal q a).outcome.result = if q + a ≤ 999999999999 then .ok else .okWrapped := by
  rw [addTotal_eq]
  simp only [Carry.outcome]
  by_cases h : q + a ≤ 999999999999
  · have : ¬999999999999 < q + a := by omega
    simp [h, this, HostOutcome.result]
  · have : 999999999999 < q + a := by omega
    simp [h, this, HostOutcome.result]

/-- The result of a subtraction. -/
theorem outcome_subtractTotal (q a : Nat) :
    (subtractTotal q a).outcome.result = if a ≤ q then .ok else .okBorrowed := by
  rw [subtractTotal_eq]
  simp only [Carry.outcome]
  by_cases h : a ≤ q
  · have : ¬q < a := by omega
    simp [h, this, HostOutcome.result]
  · have : q < a := by omega
    simp [h, this, HostOutcome.result]

/-- The arithmetic of an amount sets one flag at most, and leaves a twelve-digit quantity when both its terms fit. -/
theorem carryAmount_spec (sense : Sense) (q a : Nat) :
    ¬((carryAmount sense q a).wrapped = true ∧ (carryAmount sense q a).borrowed = true) ∧
      (q ≤ 999999999999 → a ≤ 999999999999 → (carryAmount sense q a).result ≤ 999999999999) := by
  cases sense
  · simp only [carryAmount, addTotal_eq, wrappedSum]
    exact ⟨by simp, fun _ _ => by split <;> omega⟩
  · simp only [carryAmount, subtractTotal_eq, borrowedDifference]
    exact ⟨by simp, fun _ _ => by split <;> omega⟩

end Sys2Proof.Machine
end

