-- ==== Sys2Proof/Laws/Arbiter.lean ====
section
/-! SUPPORT. Laws/Arbiter.lean: eligibility and the search for the lowest-numbered request, in the words of the
statements, and what verification and the start of an operation can do. -/

namespace Sys2Proof.Machine

open Sys2Proof.Safety

/-! ## Eligibility (R63 to R65) -/

theorem gated_iff (s : State) (e : Fin 64) : s.gated e = true ↔ Gated s e := by
  simp only [State.gated, State.uncopied, Gated]
  cases h : s.capture.phase <;> simp

theorem eligibleHost_iff (s : State) (c : EngineCommand) : s.eligibleHost = some c ↔ HostEligible s c := by
  simp only [State.eligibleHost, State.hostRequest, HostEligible]
  cases h : s.slot.state with
  | waiting d =>
    simp only [Option.ite_none_left_eq_some, SlotState.waiting.injEq]
    constructor
    · rintro ⟨h1, h2⟩
      injection h2 with h2; subst h2
      refine ⟨rfl, fun e he hg => h1 ?_⟩
      rw [List.any_eq_true]; exact ⟨e, he, (gated_iff s e).2 hg⟩
    · rintro ⟨rfl, h2⟩
      refine ⟨?_, rfl⟩
      rw [List.any_eq_true]; rintro ⟨e, he, hg⟩; exact h2 e he ((gated_iff s e).1 hg)
  | idle => simp
  | running d => simp

theorem awaited_iff (s : State) (e : Fin 64) :
    s.awaited e = true ↔ ∃ n, ∃ g ∈ (s.input n).queue, g.epoch ≠ s.capture.epoch ∧ g.dest = e := by
  simp [State.awaited, allInputs, State.previousEpoch]

theorem eligibleCopy_iff (s : State) (w : Work) :
    s.eligibleCopy = some w ↔ ∃ e, CopyEligible s e ∧ w = .copy s.capture.copiesMade e := by
  simp only [State.eligibleCopy, State.nextCopy, CopyEligible]
  cases h : s.capture.phase with
  | copying =>
    simp only []
    cases hl : s.capture.list[s.capture.copiesMade]? with
    | none => simp
    | some e =>
      simp only [Option.ite_none_left_eq_some, Option.some.injEq]
      constructor
      · rintro ⟨h1, rfl⟩
        refine ⟨e, ⟨trivial, rfl, ?_⟩, rfl⟩
        intro n g hg he hd
        exact h1 ((awaited_iff s e).2 ⟨n, g, hg, he, hd⟩)
      · rintro ⟨e', ⟨_, rfl, h3⟩, rfl⟩
        refine ⟨?_, rfl⟩
        rw [awaited_iff]
        rintro ⟨n, g, hg, he, hd⟩; exact h3 n g hg he hd
  | idle => simp
  | draining => simp

/-! ## The lowest-numbered request (R66) -/

/-- Searching the numbers in order finds the lowest one with an answer. -/
theorem findSome_finRange {α : Type} {k : Nat} (f : Fin k → Option α) (n : Fin k) (a : α) (h : f n = some a)
    (hl : ∀ m, m < n → f m = none) : (List.finRange k).findSome? f = some a := by
  rw [List.findSome?_eq_some_iff]
  refine ⟨(List.finRange k).take n.val, n, (List.finRange k).drop (n.val+1), ?_, h, ?_⟩
  · conv_lhs => rw [← List.take_append_drop n.val (List.finRange k)]
    congr 1
    rw [List.drop_eq_getElem_cons (by simp)]
    simp
  · intro x hx
    rw [List.mem_take_iff_getElem] at hx
    obtain ⟨i, hi, rfl⟩ := hx
    apply hl
    simp at hi ⊢
    rw [Fin.lt_def]; simp; omega

theorem findSome_none {α : Type} {k : Nat} (f : Fin k → Option α) (hl : ∀ m, f m = none) :
    (List.finRange k).findSome? f = none := by
  simp [List.findSome?_eq_none_iff, hl]

theorem previousHead_none (s : State) (m : Fin 16) (h : ¬ PreviousHead s m) : (match s.headGroup m with
    | some g => if s.previousEpoch g then some (Work.apply m g) else none
    | none => none) = none := by
  simp only [PreviousHead] at h
  simp only [State.headGroup]
  cases hq : (s.input m).queue.head? with
  | none => rfl
  | some g =>
    have : ¬ s.previousEpoch g = true := by
      intro hp; apply h; refine ⟨g, hq, ?_⟩; simpa [State.previousEpoch] using hp
    simp [this]

theorem currentHead_none (s : State) (m : Fin 16) (h : ¬ CurrentHead s m) : (match s.headGroup m with
    | some g => if !s.previousEpoch g && !s.gated g.dest then some (Work.apply m g) else none
    | none => none) = none := by
  simp only [CurrentHead] at h
  simp only [State.headGroup]
  cases hq : (s.input m).queue.head? with
  | none => rfl
  | some g =>
    simp only []
    rw [if_neg]
    intro hp
    simp only [Bool.and_eq_true, Bool.not_eq_true'] at hp
    apply h
    refine ⟨g, hq, by simpa [State.previousEpoch] using hp.1, ?_⟩
    rw [← gated_iff, hp.2]; simp

theorem previousApply_none (s : State) (h : ∀ n, ¬PreviousHead s n) : s.previousApply = none :=
  findSome_none _ fun m => previousHead_none s m (h m)

theorem currentApply_none (s : State) (h : ∀ n, ¬CurrentHead s n) : s.currentApply = none :=
  findSome_none _ fun m => currentHead_none s m (h m)

theorem eligibleCopy_none (s : State) (h : ∀ e, ¬CopyEligible s e) : s.eligibleCopy = none := by
  cases hc : s.eligibleCopy with
  | none => rfl
  | some w => obtain ⟨e, he, _⟩ := (eligibleCopy_iff s w).1 hc; exact absurd he (h e)

/-- The arbiter grants only in a running part whose engine is FREE (R47, R70). -/
theorem arbiter_running {s : State} {w : Work} (h : s.arbiter = some w) : s.Running ∧ s.engine.op = none := by
  simp only [State.arbiter] at h
  by_contra hc
  rw [if_neg hc] at h; simp at h

/-- The host-wait count rises at a grant to another request while an eligible host command waits, and only then (R67). -/
theorem hostWaitAfter_eq (s : State) : ((∃ c, HostEligible s c) → s.hostWaitAfter = s.engine.hostWait + 1) ∧
      ((∀ c, ¬HostEligible s c) → s.hostWaitAfter = s.engine.hostWait) := by
  simp only [State.hostWaitAfter]
  constructor
  · rintro ⟨c, hc⟩; rw [(eligibleHost_iff s c).2 hc]; rfl
  · intro h
    cases he : s.eligibleHost with
    | none => rfl
    | some c => exact absurd ((eligibleHost_iff s c).1 he) (h c)

/-! ## Verification (R9 to R12) -/

/-- All that the verification of one entry can do in a running part (R10, R11). -/
theorem verify_spec (k : OpKind) (e : Fin 64) (s : State) (hr : s.Running) :
    Verified k e (s.entry e) ((verify k e s).2.entry e) s.notices (verify k e s).2.notices (verify k e s).1 ∧
    (∀ x, x ≠ e → (verify k e s).2.entry x = s.entry x) ∧
    (verify k e s).2 = 
      { s with
        table := { s.table with entries := (verify k e s).2.table.entries }, notices := (verify k e s).2.notices } := by
  have hmark : ∀ cause, markDamaged k e cause s =
      { s.setEntry e { s.entry e with damaged := true, suspense := some 0 } with
        notices := s.notices.offer .damaged (byteOf e.val) cause.code k.code } := by
    intro cause
    simp only [markDamaged]; rw [offer_of_running (by exact hr)]; rfl
  have hme : ∀ cause x, (markDamaged k e cause s).entry x =
      if e = x then { s.entry e with damaged := true, suspense := some 0 } else s.entry x := by
    intro cause x; rw [hmark]; exact entry_setEntry s e x _
  by_cases hd : (s.entry e).damaged = true
  · have : verify k e s = (.damaged, s) := by simp [verify, hd]
    rw [this]
    refine ⟨⟨fun _ => ⟨rfl, rfl, rfl⟩, ?_, ?_, ?_⟩, fun _ _ => rfl, rfl⟩ <;>
      (intro h; rw [hd] at h; simp at h)
  · have hd' : (s.entry e).damaged = false := by simpa using hd
    by_cases hdec : allDecimal (s.entry e).digits = true
    · by_cases hck : (s.entry e).check = checkDigit (s.entry e).digits
      · have : verify k e s = (.healthy, s) := by simp [verify, hd, examine, hdec, hck]
        rw [this]
        have hdec' := hdec
        refine ⟨⟨fun h => absurd h hd, fun _ _ _ => ⟨rfl, rfl, rfl⟩, fun _ _ h => absurd hck h, ?_⟩, fun _ _ => rfl, rfl⟩
        intro _ h
        exfalso; apply h
        simp only [allDecimal, List.all_eq_true, isDecimal, decide_eq_true_eq] at hdec
        intro i; apply hdec; simp
      · have : verify k e s = (.damaged, markDamaged k e .check s) := by simp [verify, hd, examine, hdec, hck]
        rw [this]
        refine ⟨⟨fun h => absurd h hd, fun _ _ h => absurd h hck, fun _ _ _ => ⟨rfl, ?_, ?_⟩, ?_⟩, ?_, ?_⟩
        · simp only [hme, if_true]
        · rw [hmark]; rfl
        · intro _ h
          exfalso; apply h
          simp only [allDecimal, List.all_eq_true, isDecimal, decide_eq_true_eq] at hdec
          intro i; apply hdec; simp
        · intro x hx; simp only [hme, if_neg (Ne.symm hx)]
        · rw [hmark]; rfl
    · have hnd : ¬ Decimal (s.entry e).digits := by
        intro h; apply hdec
        simp only [allDecimal, List.all_eq_true, isDecimal, decide_eq_true_eq]
        intro x hx
        rw [Vector.mem_toList_iff, Vector.mem_iff_getElem] at hx
        obtain ⟨i, hi, rfl⟩ := hx
        exact h ⟨i, hi⟩
      have : verify k e s = (.damaged, markDamaged k e .digit s) := by simp [verify, hd, examine, hdec]
      rw [this]
      refine ⟨⟨fun h => absurd h hd, fun _ h => absurd h hnd, fun _ h => absurd h hnd, fun _ _ => ⟨rfl, ?_, ?_⟩⟩, ?_, ?_⟩
      · simp only [hme, if_true]
      · rw [hmark]; rfl
      · intro x hx; simp only [hme, if_neg (Ne.symm hx)]
      · rw [hmark]; rfl

/-- Verification changes entries and the Notice Queue only. -/
theorem verify_frame (k : OpKind) (e : Fin 64) (s : State) :
    ∃ E q, Offered s.notices q ∧
      (verify k e s).2 = { s with table := { s.table with entries := E }, notices := q } := by
  unfold verify markDamaged
  split
  · exact ⟨_, _, .none, rfl⟩
  · split
    · exact ⟨_, _, .none, rfl⟩
    · rename_i cause _
      obtain ⟨q, hq, h⟩ := offer_offered .damaged (byteOf e.val) cause.code k.code
        (s.setEntry e { s.entry e with damaged := true, suspense := some 0 })
      exact ⟨_, q, hq, h⟩

/-- Verification of a list of entries changes entries and the Notice Queue only. -/
theorem verifyAll_frame : ∀ (l : List (OpKind × Fin 64)) (s : State),
    ∃ E q, Offered s.notices q ∧
      (verifyAll l s).2 = { s with table := { s.table with entries := E }, notices := q }
  | [], s => ⟨_, _, .none, rfl⟩
  | (k, e) :: rest, s => by
    obtain ⟨E, q, hq, h⟩ := verify_frame k e s
    obtain ⟨E', q', hq', h'⟩ := verifyAll_frame rest (verify k e s).2
    refine ⟨E', q', hq.trans ?_, ?_⟩
    · rw [h] at hq'; exact hq'
    · show (verifyAll rest (verify k e s).2).2 = _
      rw [h', h]

/-- A verification leaves the digits, the check digit, the two flags and MEMBER of every entry (R10, R11). -/
theorem verify_entry (k : OpKind) (e : Fin 64) (s : State) (x : Fin 64) :
    (verify k e s).2.entry x = s.entry x ∨
      (s.entry x).damaged = false ∧ x = e ∧
        (verify k e s).2.entry x = { s.entry x with damaged := true, suspense := some 0 } := by
  unfold verify
  by_cases hd : (s.entry e).damaged
  · simp [hd]
  · simp only [hd]
    cases examine (s.entry e) with
    | none => simp
    | some c =>
      by_cases hx : e = x
      · subst hx; right; simpa [markDamaged] using hd
      · left; simp [markDamaged, hx]

/-- The start of an operation changes entries, holds, the operation in flight and the Notice Queue only (R47). -/
theorem beginOperation_frame (w : Work) (s : State) :
    ∃ E q, Offered s.notices q ∧ beginOperation w s =
      { s with
        table := { s.table with entries := E, held := w.targets },
        engine := { s.engine with op := some { work := w, found := (verifyAll w.verified s).1 } }, notices := q } := by
  obtain ⟨E, q, hq, h⟩ := verifyAll_frame w.verified s
  refine ⟨E, q, hq, ?_⟩
  simp only [beginOperation, h]

end Sys2Proof.Machine
end

