-- ==== Sys2Proof/Laws/Completion.lean ====
section
/-! SUPPORT. Laws/Completion.lean: what the shared parts of a completion can do: the deferred value and the release, the
arithmetic written to an entry, the end of a host operation, the movement of a linked counter. -/

namespace Sys2Proof.Machine

open Sys2Proof.Safety

/-! ## The release (R18, R48) -/

/-- At the release a deferred value lands on its entry, and no other entry changes (R18). -/
theorem release_entry (s : State) (x : Fin 64) : (release s).entry x = withDeferred s.table.deferred x (s.entry x) := by
  have h0 : (release s).entry x = (landDeferred s).entry x := rfl
  rw [h0]
  simp only [withDeferred]
  cases h : s.table.deferred with
  | none => simp only [landDeferred, h]
  | some d =>
    have h1 : landDeferred s =
        { s.setEntry d.entry { s.entry d.entry with digits := d.digits } with
          table :=
            { (s.setEntry d.entry { s.entry d.entry with digits := d.digits }).table with deferred := none } } := by
      simp only [landDeferred, h]
    rw [h1]
    refine (entry_setEntry s d.entry x _).trans ?_
    by_cases hx : d.entry = x
    · subst hx; simp
    · simp [hx]

/-- The release changes the table and the engine only: holds gone, deferred value gone, engine FREE (R48). -/
theorem release_eq (s : State) :
    release s =
      { s with
        table := { s.table with entries := (release s).table.entries, held := [], deferred := none },
        engine := { s.engine with op := none } } := by
  simp only [release, landDeferred]
  cases h : s.table.deferred with
  | none => simp [← h]
  | some d => simp [State.setEntry]

/-- A release, with the entries it leaves left open. -/
theorem release_exists (s : State) :
    ∃ E, release s =
      { s with table := { entries := E, held := [], deferred := none }, engine := { s.engine with op := none } } :=
  ⟨_, release_eq s⟩

/-- The blocks a release leaves alone, and what it leaves in the others. -/
theorem release_frame (s : State) :
    (release s).table.held = [] ∧ (release s).table.deferred = none ∧ (release s).inputs = s.inputs ∧
      (release s).engine = { op := none, hostWait := s.engine.hostWait } ∧ (release s).trips = s.trips ∧
      (release s).capture = s.capture ∧ (release s).tariff = s.tariff ∧ (release s).slot = s.slot ∧
      (release s).notices = s.notices ∧ (release s).window = s.window ∧ (release s).supply = s.supply ∧
      (release s).pending = s.pending := by
  rw [release_eq]; simp

/-! ## Arithmetic written to an entry (R50 to R52) -/

theorem carryNotice_false (k : NoticeKind) (e : Fin 64) (op quantity : Byte) (before : Bool) (q : Notices) :
    carryNotice k e op quantity false before q = q := by simp [carryNotice]

/-- The notices of an arithmetic result in a running part (R52). -/
theorem offerCarry_of_running {u : State} (hr : u.Running) (k : OpKind) (e : Fin 64) (q : Quantity) (b : Entry)
    (c : Carry) (hx : ¬(c.wrapped = true ∧ c.borrowed = true)) :
    offerCarry k e q b c u =
      { u with
        notices := carryNotice .borrow e k.code q.code c.borrowed b.borrowed
          (carryNotice .wrap e k.code q.code c.wrapped b.wrapped u.notices) } := by
  simp only [offerCarry, carryNotice]
  cases hw : c.wrapped <;> cases hb : c.borrowed <;> cases b.wrapped <;> cases b.borrowed <;> simp_all
  all_goals rw [offer_of_running (by exact hr)]

/-- The notices of an arithmetic result change the Notice Queue only. -/
theorem offerCarry_frame (k : OpKind) (e : Fin 64) (q : Quantity) (b : Entry) (c : Carry) (u : State) :
    ∃ N, Offered u.notices N ∧ offerCarry k e q b c u = { u with notices := N } := by
  unfold offerCarry
  split
  · exact offer_offered ..
  · split
    · exact offer_offered ..
    · exact ⟨_, .none, rfl⟩

/-- A result carried to a value: the digits, their check digit, the flag and its notice. -/
theorem carryToValue_of_running {u : State} (hr : u.Running) (k : OpKind) (e : Fin 64) (c : Carry)
    (hx : ¬(c.wrapped = true ∧ c.borrowed = true)) :
    carryToValue k e c u =
      { u.setEntry e
          { written (u.entry e) c.result with
            wrapped := (u.entry e).wrapped || c.wrapped, borrowed := (u.entry e).borrowed || c.borrowed } with
        notices := carryNotice .borrow e k.code 0 c.borrowed (u.entry e).borrowed
          (carryNotice .wrap e k.code 0 c.wrapped (u.entry e).wrapped u.notices) } := by
  simp only [carryToValue]
  rw [offerCarry_of_running (by exact hr) _ _ _ _ _ hx]
  rfl

/-- A result carried to a suspense: the amount, the flag and its notice. -/
theorem carryToSuspense_of_running {u : State} (hr : u.Running) (k : OpKind) (e : Fin 64) (c : Carry)
    (hx : ¬(c.wrapped = true ∧ c.borrowed = true)) :
    carryToSuspense k e c u =
      { u.setEntry e
          { u.entry e with
            suspense := some c.result, wrapped := (u.entry e).wrapped || c.wrapped,
            borrowed := (u.entry e).borrowed || c.borrowed } with
        notices := carryNotice .borrow e k.code 1 c.borrowed (u.entry e).borrowed
          (carryNotice .wrap e k.code 1 c.wrapped (u.entry e).wrapped u.notices) } := by
  simp only [carryToSuspense]
  rw [offerCarry_of_running (by exact hr) _ _ _ _ _ hx]
  rfl

/-- The effect of an APPLY's amount on its entry and on the notices of a running part (R50 to R52, R56, R57). -/
theorem applyAmount_of_running (g : Group) (fd : Bool) (s : State) (hr : s.Running) :
    applyAmount g fd s =
      let en := s.entry g.dest
      let quantity := if fd then en.suspense.getD 0 else decimalValue en.digits
      let c := carryAmount g.sense quantity g.amount
      { s.setEntry g.dest
          (if fd then
            { en with suspense := some c.result, wrapped := en.wrapped || c.wrapped,
                      borrowed := en.borrowed || c.borrowed }
          else
            { written en c.result with wrapped := en.wrapped || c.wrapped, borrowed := en.borrowed || c.borrowed })
        with
        notices := match g.sense with
          | .add =>
            carryNotice .wrap g.dest 1 (if fd then 1 else 0) (decide (999999999999 < quantity + g.amount)) en.wrapped
              s.notices
          | .subtract =>
            carryNotice .borrow g.dest 1 (if fd then 1 else 0) (decide (quantity < g.amount)) en.borrowed
              s.notices } := by
  cases fd <;> simp only [applyAmount, if_true, if_false, Bool.false_eq_true, Entry.value] <;>
    cases g.sense <;> simp only [carryAmount]
  · rw [carryToValue_of_running (by exact hr) _ _ _ (by rw [addTotal_eq]; simp)]
    simp only [addTotal_eq, carryNotice_false, OpKind.code, Bool.or_false]
  · rw [carryToValue_of_running (by exact hr) _ _ _ (by rw [subtractTotal_eq]; simp)]
    simp only [subtractTotal_eq, carryNotice_false, OpKind.code, Bool.or_false]
  · rw [carryToSuspense_of_running (by exact hr) _ _ _ (by rw [addTotal_eq]; simp)]
    simp only [addTotal_eq, carryNotice_false, OpKind.code, Bool.or_false]
  · rw [carryToSuspense_of_running (by exact hr) _ _ _ (by rw [subtractTotal_eq]; simp)]
    simp only [subtractTotal_eq, carryNotice_false, OpKind.code, Bool.or_false]

/-- The effect of an APPLY's amount changes one entry and the Notice Queue only. -/
theorem applyAmount_frame (g : Group) (fd : Bool) (s : State) :
    ∃ en q, Offered s.notices q ∧ applyAmount g fd s = { s.setEntry g.dest en with notices := q } := by
  unfold applyAmount carryToSuspense carryToValue
  split
  · obtain ⟨q, hq, h⟩ := offerCarry_frame .apply g.dest .suspense (s.entry g.dest)
      (carryAmount g.sense ((s.entry g.dest).suspense.getD 0) g.amount)
      (s.setEntry g.dest ({ s.entry g.dest with
        suspense := some (carryAmount g.sense ((s.entry g.dest).suspense.getD 0) g.amount).result }.withFlags
          (carryAmount g.sense ((s.entry g.dest).suspense.getD 0) g.amount)))
    exact ⟨_, q, hq, h⟩
  · obtain ⟨q, hq, h⟩ := offerCarry_frame .apply g.dest .value (s.entry g.dest)
      (carryAmount g.sense (s.entry g.dest).value g.amount)
      (s.setEntry g.dest (((s.entry g.dest).withValue
        (carryAmount g.sense (s.entry g.dest).value g.amount).result).withFlags
          (carryAmount g.sense (s.entry g.dest).value g.amount)))
    exact ⟨_, q, hq, h⟩

/-! ## The end of a host operation (R48, R53, R146) -/

/-- An effect that touches entries, counters and notices only. -/
structure OnlyEntriesTripsNotices (s u : State) : Prop where
  eq : u =
    { s with table := { s.table with entries := u.table.entries }, trips := u.trips, notices := u.notices }

/-- All that the completion of a host operation does, from what its effect leaves. -/
theorem completeHost_spec {effect : EngineCommand → Bool → State → Option (HostOutcome × State)} {s : State}
    {op : Operation} {c : EngineCommand} {out : HostOutcome} {u : State} (hr : s.Running)
    (hop : s.engine.op = some op) (hw : op.work = .host c) (he : effect c op.foundDamaged s = some (out, u))
    (hu : OnlyEntriesTripsNotices s u) :
    ∃ t, Host.Outcome.next (whenRunning (completeHost effect) s) = (.next t : Host.Outcome State Fault Refusal) ∧
      CompletedHost s t out.result u.entry u.trip u.notices := by
  refine ⟨_, rfl, ?_⟩
  rw [whenRunning_of_running hr]
  simp only [completeHost, hop, hw, he]
  have hu := hu.eq
  have hrel := release_eq u
  refine ⟨?_, ?_, ?_, ?_, ?_, ?_, ?_⟩
  · intro x
    show (release u).entry x = _
    rw [release_entry]; rw [hu]
  · intro k
    show (release u).trip k = _
    rw [hrel]; rfl
  · show (release u).notices = _
    rw [hrel]
  · show ({ (release u).slot with state := .idle, result := out.result, cmdDone := true } : Slot) = _
    rw [hrel, hu]
  · show (release u).table.held = [] ∧ (release u).table.deferred = none
    rw [hrel]; exact ⟨rfl, rfl⟩
  · show (release u).engine = _
    rw [hrel, hu]
  · show (release u).inputs = _ ∧ (release u).capture = _ ∧ (release u).tariff = _ ∧ (release u).window = _ ∧
      (release u).supply = _ ∧ (release u).pending = _
    rw [hrel, hu]; exact ⟨rfl, rfl, rfl, rfl, rfl, rfl⟩

/-! ## A completion of another kind than the operation in flight (log entry 5) -/

theorem completeApply_of_other {s : State} {op : Operation} (h : s.engine.op = some op)
    (hw : ∀ n g, op.work ≠ .apply n g) : completeApply s = s := by
  unfold completeApply; rw [h]
  cases hop : op.work with
  | apply n g => exact absurd hop (hw n g)
  | copy p e => simp [hop]
  | host c => simp [hop]

theorem completeCopy_of_other {s : State} {op : Operation} (h : s.engine.op = some op)
    (hw : ∀ p e, op.work ≠ .copy p e) : completeCopy s = s := by
  unfold completeCopy; rw [h]
  cases hop : op.work with
  | apply n g => simp [hop]
  | copy p e => exact absurd hop (hw p e)
  | host c => simp [hop]

theorem completeHost_of_other {effect : EngineCommand → Bool → State → Option (HostOutcome × State)} {s : State}
    {op : Operation} (h : s.engine.op = some op)
    (hw : ∀ c, op.work = .host c → effect c op.foundDamaged s = none) : completeHost effect s = s := by
  unfold completeHost; rw [h]
  cases hop : op.work with
  | apply n g => simp [hop]
  | copy p e => simp [hop]
  | host c => simp [hop, hw c hop]


/-- A completion with no operation of its kind in flight changes nothing (log entry 5). -/
theorem completeHost_cases (effect : EngineCommand → Bool → State → Option (HostOutcome × State)) (s : State) :
    completeHost effect s = s ∨
      ∃ op c r, s.engine.op = some op ∧ op.work = .host c ∧ effect c op.foundDamaged s = some r ∧
        completeHost effect s = endCommand r.1.result (release r.2) := by
  unfold completeHost
  cases hop : s.engine.op with
  | none => exact .inl rfl
  | some op =>
    cases hw : op.work with
    | apply n g => exact .inl (by simp [hw])
    | copy p e => exact .inl (by simp [hw])
    | host c =>
      simp only [hw]
      cases he : effect c op.foundDamaged s with
      | none => exact .inl rfl
      | some r => exact .inr ⟨op, c, r, rfl, hw, he, rfl⟩

/-! ## The linked counter (R109, R116) -/

/-- The Notice Queue after the notice of a movement. -/
def tripNotice (n : Fin 16) (k : Fin 8) (ev : TripEvent) (q : Notices) : Notices :=
  match ev with
  | .none => q
  | .prewarn => q.offer .prewarn (byteOf k.val) (byteOf n.val) 0
  | .trip overshot => q.offer .trip (byteOf k.val) (byteOf n.val) (if overshot then 1 else 0)

/-- An APPLY's movement of its linked counter, in a running part. -/
theorem moveLinked_of_running (n : Fin 16) (g : Group) (s : State) (hr : s.Running) :
    moveLinked n g s =
      match g.link with
      | none => s
      | some k =>
        { s with
          trips := s.trips.set k.val ((s.trip k).move g.sense g.amount).1,
          notices := tripNotice n k ((s.trip k).move g.sense g.amount).2 s.notices } := by
  unfold moveLinked
  cases g.link with
  | none => rfl
  | some k =>
    simp only
    generalize (s.trip k).move g.sense g.amount = m
    obtain ⟨tc, ev⟩ := m
    cases ev <;> simp only [offerTrip, tripNotice]
    · rfl
    · rw [offer_of_running (by exact hr)]; rfl
    · rw [offer_of_running (by exact hr)]; rfl

/-- The movement of a linked counter changes the counters and the Notice Queue only. -/
theorem moveLinked_frame (n : Fin 16) (g : Group) (s : State) :
    ∃ q, Offered s.notices q ∧ moveLinked n g s =
      { s with
        trips := match g.link with
          | none => s.trips
          | some k => s.trips.set k.val ((s.trip k).move g.sense g.amount).1,
        notices := q } := by
  unfold moveLinked
  cases g.link with
  | none => exact ⟨_, .none, rfl⟩
  | some k =>
    simp only
    cases ((s.trip k).move g.sense g.amount).2 with
    | none => exact ⟨_, .none, rfl⟩
    | prewarn => exact offer_offered _ _ _ _ (s.setTrip k _)
    | trip o => exact offer_offered _ _ _ _ (s.setTrip k _)

end Sys2Proof.Machine
end

