-- ==== Sys2Proof/Laws/Lines.lean ====
section
/-! SUPPORT. Laws/Lines.lean: what an edge on a count input can do. -/

namespace Sys2Proof.Machine

open Sys2Proof.Safety

theorem selects_of (es : EdgeSelect) (l : Bool) (h1 : es = .rise → l = true) (h2 : es = .fall → l = false) :
    es.selects l = true := by
  cases es <;> simp_all [EdgeSelect.selects]

/-- The destination of a pulse (R31). -/
theorem destination_eq (c : InputConfig) (bin : Fin 4) (dest : Fin 64)
    (h1 : c.tariffed = true → dest.val = c.base.val + bin.val) (h2 : c.tariffed = false → dest = c.base) :
    c.destination bin = dest := by
  unfold InputConfig.destination
  cases ht : c.tariffed
  · simp [h2 ht]
  · have := h1 ht
    simp only [if_true]
    rw [← this]
    apply Fin.ext; simp [Fin.ofNat]

/-- A pulse joins a group that is that pulse but for its count, while the count is below 63 (R32). -/
theorem accepts_iff (g p : Group) (hp : p.count = 1) :
    g.accepts p = true ↔ { g with count := 1 } = p ∧ g.count < 63 := by
  have key : { g with count := 1 } = p ↔
      g.dest = p.dest ∧ g.epoch = p.epoch ∧ g.weight = p.weight ∧ g.sense = p.sense ∧ g.link = p.link := by
    cases g; cases p; simp at hp; simp [hp]
  rw [key]
  simp [Group.accepts]
  tauto

theorem setInput_setInput (s : State) (n : Fin 16) (a b : Input) : (s.setInput n a).setInput n b = s.setInput n b := by
  simp [State.setInput]

/-- The input whose line has gone to a level. -/
theorem input_setLevel (n : Fin 16) (level : Bool) (s : State) :
    (setLevel n level s).input n = { s.input n with level := level } := by simp [setLevel]

/-- A selected transition of a counting input outside its lockout is a qualified edge (R29, R30). -/
theorem inputEdge_qualified (s : State) (n : Fin 16) (level : Bool) (hr : s.Running)
    (hl : (s.input n).level = !level) (hm : (s.input n).config.mode = .count)
    (h1 : (s.input n).config.edge = .rise → level = true) (h2 : (s.input n).config.edge = .fall → level = false)
    (h3 : (s.input n).lockout = false) :
    inputEdge n level s = qualifiedEdge n (setLevel n level s) := by
  unfold inputEdge
  rw [if_neg (by rw [hl]; cases level <;> decide), whenRunning_of_running (by exact hr)]
  simp only [handleEdge, input_setLevel, hm, h3, selects_of _ _ h1 h2]
  simp

/-- A qualified edge changes its own input and the Notice Queue only. -/
theorem qualifiedEdge_frame (n : Fin 16) (s : State) :
    ∃ i q, Offered s.notices q ∧ qualifiedEdge n s = { s.setInput n i with notices := q } := by
  unfold qualifiedEdge
  simp only
  split
  · exact ⟨_, _, .none, rfl⟩
  · split
    · exact ⟨_, _, .none, rfl⟩
    · obtain ⟨q, hq, h⟩ := offer_offered .overrun (byteOf n.val)
        (highByte (BitVec.ofNat 16 (min Config.droppedMax ((s.input n).dropped + 1))))
        (lowByte (BitVec.ofNat 16 (min Config.droppedMax ((s.input n).dropped + 1)))) (s.setInput n _)
      exact ⟨_, q, hq, h⟩

/-- An edge on a line changes its own input and the Notice Queue only. -/
theorem inputEdge_frame (n : Fin 16) (level : Bool) (s : State) :
    ∃ i q, Offered s.notices q ∧ inputEdge n level s = { s.setInput n i with notices := q } := by
  unfold inputEdge
  split
  · exact ⟨s.input n, s.notices, .none, (setInput_input s n).symm⟩
  · unfold whenRunning
    split
    · unfold handleEdge
      simp only
      split
      · split
        · exact ⟨_, _, .none, setInput_setInput ..⟩
        · obtain ⟨i, q, hq, h⟩ := qualifiedEdge_frame n (setLevel n level s)
          exact ⟨i, q, hq, by rw [h, setLevel, setInput_setInput]⟩
      · exact ⟨_, _, .none, rfl⟩
    · exact ⟨_, _, .none, rfl⟩

end Sys2Proof.Machine
end

