-- ==== Sys2Proof/Laws/Slot.lean ====
section
/-! SUPPORT. Laws/Slot.lean: what a write to CMD_CODE can do. -/

namespace Sys2Proof.Machine

/-- The operands of a command's own code are validated as that command's. -/
theorem validate_encodeCommand (n : CommandName) (ops : Vector Byte 9) :
    validate (encodeCommand n) ops = validateOperands n ops := by
  cases n <;> rfl

/-- A code that names no command fails validation. -/
theorem validate_of_undefined {code : Byte} (h : decodeCommand code = none) (ops : Vector Byte 9) :
    validate code ops = .error .badCommand := by
  simp [validate, h]

/-- A code whose command passes validation, written to an IDLE slot, is taken and handed on (R141). -/
theorem codeCommand_of_ok {s : State} (hr : s.Running) (hi : s.slot.state = .idle) {code : Byte} {c : Command}
    (h : validate code s.slot.operands = .ok c) : codeCommand code s = .next (handOn c (beginTaking code s)) := by
  simp [codeCommand, whenRunning_of_running hr, writeCode, hi, h]

/-- A code whose command fails validation, written to an IDLE slot, ends with the first failing check (R141, R142). -/
theorem codeCommand_of_error {s : State} (hr : s.Running) (hi : s.slot.state = .idle) {code : Byte} {r : Result}
    (h : validate code s.slot.operands = .error r) :
    codeCommand code s = .next (endCommand r (beginTaking code s)) := by
  simp [codeCommand, whenRunning_of_running hr, writeCode, hi, h]

/-- The end of a command changes the slot only. -/
theorem endCommand_eq (r : Result) (s : State) :
    endCommand r s = { s with slot := { s.slot with state := .idle, result := r, cmdDone := true } } := rfl

end Sys2Proof.Machine
end

