-- ==== Sys2Proof/Laws/Tariff.lean ====
section
/-! SUPPORT. Laws/Tariff.lean: the schedule in the words of the statements (valid, matching, in force), and what the
operations over the current bin can do. -/

namespace Sys2Proof.Machine

open Sys2Proof.Safety

/-! ## The points in use -/

theorem inUse_length (t : Tariff) : t.inUse.length = min t.count.toNat 12 := by simp [Tariff.inUse]

theorem inUse_getElem (t : Tariff) (i : Nat) (h : i < t.inUse.length) :
    t.inUse[i] = t.points[i]'(by simp [Tariff.inUse] at h; omega) := by
  simp [Tariff.inUse]

theorem mem_inUse (t : Tariff) (p : SwitchPoint) :
    p ∈ t.inUse ↔ ∃ i : Fin 12, i.val < t.count.toNat ∧ t.points[i.val] = p := by
  constructor
  · intro hp
    obtain ⟨i, hi, rfl⟩ := List.mem_iff_getElem.1 hp
    rw [inUse_length] at hi
    exact ⟨⟨i, by omega⟩, by simp only []; omega, by rw [inUse_getElem]⟩
  · rintro ⟨i, hi, rfl⟩
    rw [← inUse_getElem t i.val (by rw [inUse_length]; omega)]; exact List.getElem_mem _

theorem ascending_iff (l : List SwitchPoint) :
    ascending l = true ↔ l.Pairwise fun p q => p.minute.toNat < q.minute.toNat := by
  induction l with
  | nil => simp [ascending]
  | cons p l ih =>
    cases l with
    | nil => simp [ascending]
    | cons q r =>
      simp only [ascending, Bool.and_eq_true, decide_eq_true_eq, ih, List.pairwise_cons]
      constructor
      · rintro ⟨h1, h2, h3⟩
        refine ⟨?_, h2, h3⟩
        intro x hx
        rcases List.mem_cons.1 hx with rfl | hx
        · exact h1
        · exact Nat.lt_trans h1 (h2 x hx)
      · rintro ⟨h1, h2⟩
        exact ⟨h1 q (by simp), h2⟩

/-- The part's own test of the schedule is the validity of R126. -/
theorem valid_iff (t : Tariff) : t.valid = true ↔ ScheduleValid t := by
  simp only [Tariff.valid, Bool.and_eq_true, decide_eq_true_eq, ScheduleValid, ascending_iff, List.all_eq_true,
    Config.schedulePoints, Config.minutesPerDay]
  rw [and_assoc]
  refine and_congr_right fun hc => and_congr ?_ ?_
  · constructor
    · intro h i hi
      have := h t.points[i.val] (by rw [← inUse_getElem t i.val (by rw [inUse_length]; omega)]; exact List.getElem_mem _)
      omega
    · intro h p hp
      obtain ⟨i, hi, rfl⟩ := List.mem_iff_getElem.1 hp
      rw [inUse_length] at hi
      have := h ⟨i, by omega⟩ (by simp; omega)
      rw [inUse_getElem]
      exact ⟨Nat.lt_succ_of_le this.1, Nat.lt_succ_of_le this.2⟩
  · rw [List.pairwise_iff_getElem]
    constructor
    · intro h i j hij hj
      have := h i.val j.val (by rw [inUse_length]; omega) (by rw [inUse_length]; omega) hij
      rwa [inUse_getElem, inUse_getElem] at this
    · intro h i j hi hj hij
      rw [inUse_length] at hi hj
      rw [inUse_getElem, inUse_getElem]
      exact h ⟨i, by omega⟩ ⟨j, by omega⟩ hij (by simp; omega)

/-! ## The point in force (R131) -/

/-- The best point not above a minute in a list: none when every minute is above it. -/
def bestPoint (m : Nat) (o : Option SwitchPoint) (l : List SwitchPoint) : Prop :=
  match o with
  | none => ∀ q ∈ l, m < q.minute.toNat
  | some p => p ∈ l ∧ p.minute.toNat ≤ m ∧ ∀ q ∈ l, q.minute.toNat ≤ m → q.minute.toNat ≤ p.minute.toNat

/-- Folding the later point over a list keeps the best one. -/
theorem foldl_laterPoint (m : Nat) (l done : List SwitchPoint) (o : Option SwitchPoint) (h : bestPoint m o done) :
    bestPoint m (l.foldl (laterPoint m) o) (done ++ l) := by
  induction l generalizing done o with
  | nil => simpa using h
  | cons p l ih =>
    have : bestPoint m (laterPoint m o p) (done ++ [p]) := by
      unfold laterPoint
      cases o with
      | none =>
        simp only [bestPoint] at h
        by_cases hp : p.minute.toNat ≤ m
        · simp only [if_pos hp, bestPoint]
          refine ⟨by simp, hp, fun q hq hqm => ?_⟩
          rcases List.mem_append.1 hq with hq | hq
          · have := h q hq; omega
          · simp at hq; simp [hq]
        · simp only [if_neg hp, bestPoint]
          intro q hq
          rcases List.mem_append.1 hq with hq | hq
          · exact h q hq
          · simp at hq; subst hq; omega
      | some b =>
        obtain ⟨h1, h2, h3⟩ := h
        by_cases hp : p.minute.toNat ≤ m
        · simp only [if_pos hp]
          by_cases hb : b.minute.toNat < p.minute.toNat
          · simp only [if_pos hb, bestPoint]
            refine ⟨by simp, hp, fun q hq hqm => ?_⟩
            rcases List.mem_append.1 hq with hq | hq
            · have := h3 q hq hqm; omega
            · simp at hq; simp [hq]
          · simp only [if_neg hb, bestPoint]
            refine ⟨by simp [h1], h2, fun q hq hqm => ?_⟩
            rcases List.mem_append.1 hq with hq | hq
            · exact h3 q hq hqm
            · simp at hq; subst hq; omega
        · simp only [if_neg hp, bestPoint]
          refine ⟨by simp [h1], h2, fun q hq hqm => ?_⟩
          rcases List.mem_append.1 hq with hq | hq
          · exact h3 q hq hqm
          · simp at hq; subst hq; omega
    have := ih (done ++ [p]) _ this
    simpa using this

/-- The point in force of a valid schedule is the one the part finds. -/
theorem pointInForce_of_inForce (t : Tariff) (m : Nat) (i : Fin 12) (hv : ScheduleValid t) (h : InForce t m i) :
    t.pointInForce m = some t.points[i.val] := by
  obtain ⟨hc, hin, hasc⟩ := hv
  obtain ⟨hi, h⟩ := h
  have hb := foldl_laterPoint m t.inUse [] none (by simp [bestPoint])
  simp only [List.nil_append] at hb
  have mem : ∀ q ∈ t.inUse, ∃ j : Fin 12, j.val < t.count.toNat ∧ q = t.points[j.val] := fun q hq => by
    obtain ⟨j, hj, rfl⟩ := (mem_inUse t q).1 hq
    exact ⟨j, hj, rfl⟩
  have memi : ∀ j : Fin 12, j.val < t.count.toNat → t.points[j.val] ∈ t.inUse := fun j hj =>
    (mem_inUse t _).2 ⟨j, hj, rfl⟩
  unfold Tariff.pointInForce
  rcases h with ⟨h1, h2⟩ | ⟨h1, h2⟩
  · cases hf : t.inUse.foldl (laterPoint m) none with
    | none =>
      rw [hf] at hb
      have := hb _ (memi i hi)
      omega
    | some p =>
      rw [hf] at hb
      obtain ⟨hb1, hb2, hb3⟩ := hb
      obtain ⟨j, hj, rfl⟩ := mem p hb1
      have a := hb3 _ (memi i hi) h1
      have b := h2 j hj hb2
      have : i = j := by
        rcases lt_trichotomy i j with hij | hij | hij
        · have := hasc i j hij hj; omega
        · exact hij
        · have := hasc j i hij hi; omega
      subst this
      simp
  · cases hf : t.inUse.foldl (laterPoint m) none with
    | none =>
      simp
      rw [List.getLast?_eq_getElem?, inUse_length]
      have : min t.count.toNat 12 - 1 = i.val := by omega
      rw [this, List.getElem?_eq_getElem (by rw [inUse_length]; omega), inUse_getElem]
    | some p =>
      rw [hf] at hb
      obtain ⟨hb1, hb2, hb3⟩ := hb
      obtain ⟨j, hj, rfl⟩ := mem p hb1
      have := h1 j hj
      omega

theorem pointInForce_of_empty (t : Tariff) (m : Nat) (h : t.count.toNat = 0) : t.pointInForce m = none := by
  have : t.inUse = [] := by simp [Tariff.inUse, h]
  simp [Tariff.pointInForce, this]

theorem binOf_eq (p : SwitchPoint) (b : Fin 4) (h : p.bin.toNat = b.val) : p.binOf = b := by
  simp only [SwitchPoint.binOf, h]; ext; simp

/-! ## The bin -/

/-- A write of the bin changes the bin, and the Notice Queue of a running part when the value changes (R134). -/
theorem setBin_eq (b : Fin 4) (c : TariffCause) (s : State) :
    setBin b c s =
      { s with
        tariff := { s.tariff with bin := b },
        notices := if s.Running then tariffNotice b s.tariff.bin c.code s.notices else s.notices } := by
  unfold setBin tariffNotice
  by_cases hb : b = s.tariff.bin
  · simp [hb]
  · simp only [if_neg hb]
    rw [offer_eq]

theorem setBin_of_running {s : State} (hr : s.Running) (b : Fin 4) (c : TariffCause) :
    setBin b c s =
      { s with tariff := { s.tariff with bin := b }, notices := tariffNotice b s.tariff.bin c.code s.notices } := by
  rw [setBin_eq, if_pos hr]

/-- A write of the bin offers at most one notice. -/
theorem setBin_frame (b : Fin 4) (c : TariffCause) (s : State) :
    ∃ q, Offered s.notices q ∧ setBin b c s = { s with tariff := { s.tariff with bin := b }, notices := q } := by
  refine ⟨_, ?_, setBin_eq b c s⟩
  unfold tariffNotice
  split
  · split
    · exact .none
    · exact .more _ _ _ _ .none
  · exact .none

/-- A resolution writes the bin of the point in force, or nothing in an empty schedule. -/
theorem resolveBin_cases (s : State) :
    (s.tariff.pointInForce s.tariff.minute = none ∧ resolveBin s = s) ∨
      ∃ p, s.tariff.pointInForce s.tariff.minute = some p ∧ resolveBin s = setBin p.binOf .resolve s := by
  unfold resolveBin
  cases s.tariff.pointInForce s.tariff.minute with
  | none => exact .inl ⟨rfl, rfl⟩
  | some p => exact .inr ⟨p, rfl, rfl⟩

/-- A resolution changes the bin and the Notice Queue only. -/
theorem resolveBin_frame (s : State) :
    ∃ b q, Offered s.notices q ∧ resolveBin s = { s with tariff := { s.tariff with bin := b }, notices := q } := by
  rcases resolveBin_cases s with ⟨-, h⟩ | ⟨p, -, h⟩
  · exact ⟨s.tariff.bin, s.notices, .none, h⟩
  · obtain ⟨q, hq, h'⟩ := setBin_frame p.binOf .resolve s
    exact ⟨_, q, hq, h.trans h'⟩

/-! ## The minute expiry -/

theorem nextMinute_eq (t : Tariff) (h : t.minute < 1440) :
    t.nextMinute =
      { t with
        phase := 0, second := 0, minute := if t.minute = 1439 then 0 else t.minute + 1,
        day := if t.minute = 1439 then t.day + 1 else t.day } := by
  simp only [Tariff.nextMinute, Config.minutesPerDay]
  by_cases h' : t.minute = 1439
  · simp [h']
  · have : t.minute + 1 < 1440 := by omega
    simp [h', this]

theorem matching_eq_none (t : Tariff) (hc : t.count.toNat ≤ 12)
    (h : ∀ i : Fin 12, ¬(i.val < t.count.toNat ∧ t.points[i.val].minute.toNat = t.minute)) : t.matching = none := by
  simp only [Tariff.matching, List.find?_eq_none]
  intro p hp
  obtain ⟨i, hi, rfl⟩ := List.mem_iff_getElem.1 hp
  rw [inUse_length] at hi
  rw [inUse_getElem]
  have := h ⟨i, by omega⟩
  simp at this ⊢
  exact this (by omega)

/-- In a valid schedule the point that matches is the only one. -/
theorem matching_eq_some (t : Tariff) (hv : ScheduleValid t) (i : Fin 12)
    (h : i.val < t.count.toNat ∧ t.points[i.val].minute.toNat = t.minute) : t.matching = some t.points[i.val] := by
  obtain ⟨hc, hin, hasc⟩ := hv
  cases hm : t.matching with
  | none => 
    simp only [Tariff.matching, List.find?_eq_none] at hm
    have hmem : t.points[i.val] ∈ t.inUse := by
      rw [← inUse_getElem t i.val (by rw [inUse_length]; omega)]; exact List.getElem_mem _
    have := hm _ hmem
    simp [h.2] at this
  | some p =>
    have hmem := List.mem_of_find?_eq_some hm
    have hp := List.find?_some hm
    obtain ⟨j, hj, rfl⟩ := List.mem_iff_getElem.1 hmem
    rw [inUse_length] at hj
    rw [inUse_getElem] at hp ⊢
    simp only [beq_iff_eq] at hp
    rcases lt_trichotomy j i.val with hij | hij | hij
    · have := hasc ⟨j, by omega⟩ i hij h.1; simp only [] at this; omega
    · simp [hij]
    · have := hasc i ⟨j, by omega⟩ hij (by simp only []; omega); simp only [] at this; omega

end Sys2Proof.Machine
end

