-- ==== Sys2Proof/Laws/Window.lean ====
section
/-! SUPPORT. Laws/Window.lean: the addressed record and the parts of a record in the words of the statements, and what a
served byte and a commit can do. -/

namespace Sys2Proof.Machine

open Sys2Proof.Safety

/-! ## Records (R177) -/

/-- The bytes the window finds are those of the record the space and the index name. -/
theorem recordBytes_iff (s : State) (h : ¬(s.capture.bankA.state = .opened ∧ s.capture.bankB.state = .opened))
    (sp ix : Byte) (bytes : List Byte) :
    s.recordBytes sp ix = some bytes ↔ RecordAt s sp.toNat ix.toNat bytes := by
  constructor
  · intro hh
    unfold State.recordBytes at hh
    split at hh
    · rename_i hs; rw [hs]
      split at hh
      · rename_i hi
        injection hh with hh
        subst hh
        have := RecordAt.entry (s := s) ⟨ix.toNat, hi⟩
        simpa using this
      · cases hh
    · rename_i hs; rw [hs]
      split at hh
      · rename_i hi
        injection hh with hh
        subst hh
        exact RecordAt.input ⟨ix.toNat, hi⟩
      · cases hh
    · rename_i hs; rw [hs]
      split at hh
      · rename_i hi
        injection hh with hh
        subst hh
        exact RecordAt.trip ⟨ix.toNat, hi⟩
      · cases hh
    · rename_i hs; rw [hs]
      split at hh
      · cases hh
      · rename_i id hid
        rw [openBank_iff _ h] at hid
        split at hh
        · rename_i hi; injection hh with hh; subst hh; rw [hi]; exact RecordAt.header id hid
        · rename_i h0
          split at hh
          · rename_i hi; injection hh with hh; subst hh
            have := RecordAt.copy (s := s) id ⟨ix.toNat - 1, hi⟩ hid
            rwa [show (⟨ix.toNat - 1, hi⟩ : Fin 64).val + 1 = ix.toNat from by show ix.toNat - 1 + 1 = _; omega] at this
          · cases hh
    · rename_i hs; rw [hs]
      split at hh
      · rename_i hi
        injection hh with hh
        subst hh
        exact RecordAt.point ⟨ix.toNat, hi⟩
      · split at hh
        · rename_i h12; injection hh with hh; subst hh; rw [h12]; exact RecordAt.count
        · cases hh
    · cases hh
  · intro hh
    generalize hsp : sp.toNat = a at hh
    generalize hix : ix.toNat = b at hh
    cases hh <;> unfold State.recordBytes <;> simp only [hsp, hix]
    · rename_i e; simp
    · rename_i e; simp
    · rename_i e; simp
    · rename_i id hid; rw [(openBank_iff _ h id).2 hid]; simp
    · rename_i id p hid; rw [(openBank_iff _ h id).2 hid]; simp
    · rename_i e; simp
    · simp

theorem addressed_iff (s : State) (h : ¬(s.capture.bankA.state = .opened ∧ s.capture.bankB.state = .opened))
    (bytes : List Byte) : s.addressed = some bytes ↔ Present s bytes := by
  unfold State.addressed Present
  rw [← recordBytes_iff s h]
  cases s.recordBytes s.window.space s.window.index with
  | none => simp
  | some b =>
    simp only [Option.some.injEq]
    constructor
    · intro hh; split at hh
      · injection hh with hh; subst hh; exact ⟨rfl, by assumption⟩
      · cases hh
    · rintro ⟨rfl, h2⟩; rw [if_pos h2]

theorem addressed_none (s : State) (h : ¬(s.capture.bankA.state = .opened ∧ s.capture.bankB.state = .opened))
    (hh : ∀ b, ¬Present s b) : s.addressed = none := by
  cases ha : s.addressed with
  | none => rfl
  | some b => exact absurd ((addressed_iff s h b).1 ha) (hh b)

theorem length_configBytes (c : InputConfig) : (configBytes c).length = 9 := by simp [configBytes, bcdBytes]

theorem length_inputBytes (i : Input) : (inputBytes i).length = 16 := by
  simp [inputBytes, length_configBytes, wordBytes]

theorem length_entryBytes (en : Entry) (inUpdate : Bool) : (entryBytes en inUpdate).length = 14 := by
  simp [entryBytes, bcdBytes, suspenseBytes, bcdNumber]

theorem length_pointBytes (p : SwitchPoint) : (pointBytes p).length = 3 := by simp [pointBytes]

/-! ## Reads (R179) -/

/-- A byte served from a latch that holds it. -/
theorem serve_eq (s : State) (l : Latch) (h : s.window.offset.toNat < l.bytes.length) :
    serve l s =
      { s with window :=
        { s.window with
          readData := some (l.bytes.getD s.window.offset.toNat 0),
          offset := movedOffset l.bytes.length s.window.offset,
          latch := if s.window.offset.toNat + 1 = l.bytes.length then none else some l } } := by
  by_cases h2 : s.window.offset.toNat + 1 = l.bytes.length
  · have : l.bytes.length ≤ s.window.offset.toNat + 1 := by omega
    simp only [serve, State.setWindow, movedOffset, h2, this, decide_true, if_true]
    simp
  · have : ¬ l.bytes.length ≤ s.window.offset.toNat + 1 := by omega
    simp only [serve, State.setWindow, movedOffset, h2, this]
    simp

/-- A read of WIN_DATA always returns a byte, the one `servedByte` gives. -/
theorem readData_readData (s : State) : (readData s).window.readData = some s.servedByte := by
  unfold State.servedByte
  cases h : (readData s).window.readData with
  | some b => rfl
  | none =>
    exfalso; revert h; unfold readData
    split
    · simp [serve, State.setWindow]
    · split <;> simp [serve, State.setWindow]

/-- A read of a running part returns the byte of its register. -/
theorem readRegister_of_running {s : State} (h : s.Running) (offset : Offset) :
    readRegister s offset = some (registerByte s offset) := if_pos h

/-- A read of a held part returns no value. -/
theorem readRegister_of_held {s : State} (h : ¬s.Running) (offset : Offset) : readRegister s offset = none := if_neg h

/-- A read of WIN_DATA changes the window only. -/
theorem readData_frame (s : State) : ∃ w, readData s = { s with window := w } := by
  unfold readData
  split
  · exact ⟨_, rfl⟩
  · split <;> exact ⟨_, rfl⟩

/-! ## Writes (R181) -/

theorem nextOffset_eq (len : Nat) (o : Byte) (h : o.toNat < len) : nextOffset len o = movedOffset len o := by
  unfold nextOffset movedOffset
  by_cases h2 : o.toNat + 1 = len
  · rw [if_pos (by omega), if_pos h2]
  · rw [if_neg (by omega), if_neg h2]

theorem memberAt_iff (w : Window) (e : Fin 64) : memberAt w.space w.index w.offset = some e ↔ AtMember w e := by
  unfold memberAt AtMember
  split
  · rename_i h
    simp only [Option.some.injEq, Fin.ext_iff]
    constructor
    · intro hh; exact ⟨h.1, hh, h.2.2⟩
    · intro hh; exact hh.2.1
  · rename_i h
    simp only [reduceCtorEq, false_iff]
    rintro ⟨a, b, c⟩
    exact h ⟨a, by rw [b]; exact e.isLt, c⟩

theorem memberAt_none (w : Window) (h : ∀ e, ¬ AtMember w e) : memberAt w.space w.index w.offset = none := by
  cases hh : memberAt w.space w.index w.offset with
  | none => rfl
  | some e => exact absurd ((memberAt_iff w e).1 hh) (h e)

theorem partAt_iff (w : Window) (p : WindowPart) : partAt w.space w.index w.offset = some p ↔ InPart w p := by
  unfold partAt InPart
  split
  · rename_i hs
    split
    · rename_i h
      cases p <;> simp [hs, Fin.ext_iff] <;> omega
    · rename_i h
      cases p <;> simp [hs] <;> intro h1 <;> omega
  · rename_i hs
    split
    · rename_i h
      cases p <;> simp [hs, Fin.ext_iff] <;> omega
    · rename_i h
      cases p <;> simp [hs] <;> intro h1 <;> omega
  · rename_i hs
    split
    · rename_i h
      split
      · rename_i h
        cases p <;> simp [hs, Fin.ext_iff] <;> omega
      · rename_i h
        cases p <;> simp [hs, Fin.ext_iff] <;> omega
    · rename_i h
      split
      · rename_i h
        cases p <;> simp [hs, Fin.ext_iff] <;> omega
      · rename_i h
        cases p <;> simp [hs, Fin.ext_iff] <;> omega
  · rename_i h0 h1 h2
    cases p <;> simp only [reduceCtorEq, false_iff] <;> rintro ⟨hh, -⟩ <;>
      first | exact h0 hh | exact h1 hh | exact h2 hh

theorem partAt_none (w : Window) (h : ∀ e, ¬ InPart w e) : partAt w.space w.index w.offset = none := by
  cases hh : partAt w.space w.index w.offset with
  | none => rfl
  | some e => exact absurd ((partAt_iff w e).1 hh) (h e)

/-- The member byte belongs to no part. -/
theorem memberAt_of_inPart (w : Window) (p : WindowPart) (h : InPart w p) :
    memberAt w.space w.index w.offset = none := by
  apply memberAt_none
  rintro e ⟨a, b, c⟩
  cases p <;> simp [InPart] at h <;> omega

/-- A write to WIN_DATA at the commit byte of a part: the owner takes or refuses the collected bytes, then the window
closes its buffer and moves its offset (R181, R182). -/
theorem writeData_commit (s : State) (v : Byte) (hd : s.table.deferred = none) (p : WindowPart)
    (hp : InPart s.window p) (ho : s.window.offset.toNat = p.commitOffset) (bytes : List Byte)
    (hb : s.addressed = some bytes) (hl : s.window.offset.toNat < bytes.length) :
    writeData v s =
      let s' := commitPart p (collected s.window (bytes.take (p.commitOffset + 1)) v)
        (s.setWindow { s.window with latch := none, buffer := none })
      s'.setWindow { s'.window with offset := movedOffset bytes.length s.window.offset } := by
  have hpc : s.pendingCommit = false := by simp [State.pendingCommit, hd]
  simp only [writeData, hpc, Bool.false_eq_true, if_false, hb]
  rw [nextOffset_eq _ _ hl]
  have h1 := memberAt_of_inPart s.window p hp
  have h2 := (partAt_iff s.window p).2 hp
  simp only [writePresent, setWindow_window, h1, h2, writePart, ho, if_true]
  have : ((({ s.window with latch := none } : Window).openBuffer p bytes).bytes).set p.commitOffset v =
      collected s.window (bytes.take (p.commitOffset + 1)) v := by
    simp only [Window.openBuffer, collected, ho]; cases s.window.buffer <;> rfl
  rw [this]; rfl

end Sys2Proof.Machine
end

