-- ==== Sys2Proof/Laws/Rows.lean ====
section
/-! SUPPORT. Laws/Rows.lean: the blocks that each group of rows can change. Every equation names all of them: a block it
does not name is left as it was. -/

namespace Sys2Proof.Machine

open Sys2Proof.Safety

/-! ## Code writes and CANCEL -/

/-- A validated command changes the inputs, the capture unit, the tariff selector, the slot and the Notice Queue only. -/
theorem handOn_frame (c : Command) (s : State) :
    ∃ I C T S q, Offered s.notices q ∧
      handOn c s = { s with inputs := I, capture := C, tariff := T, slot := S, notices := q } := by
  cases c with
  | engine ec => exact ⟨_, _, _, _, _, .none, rfl⟩
  | capture =>
    simp only [handOn, captureCommand]
    split
    · obtain ⟨c, q, hq, h⟩ := takeTrigger_frame .host s
      exact ⟨_, c, _, _, q, hq, by simp only [h]; rfl⟩
    · exact ⟨_, _, _, _, _, .none, rfl⟩
  | openBank =>
    simp only [handOn, openBankCommand]
    split
    · exact ⟨_, _, _, _, _, .none, rfl⟩
    · split <;> exact ⟨_, _, _, _, _, .none, rfl⟩
  | closeBank =>
    simp only [handOn, closeBankCommand]
    split <;> exact ⟨_, _, _, _, _, .none, rfl⟩
  | setTariff b =>
    obtain ⟨q, hq, h⟩ := setBin_frame b .host s
    exact ⟨_, _, _, _, q, hq, by simp only [handOn, h]; rfl⟩
  | setTime day minute second =>
    simp only [handOn, setTimeCommand]
    split
    · obtain ⟨b, q, hq, h⟩ := resolveBin_frame
        { s with tariff := { s.tariff with day := day, minute := minute, second := second, phase := 0 } }
      exact ⟨_, _, _, _, q, hq, by rw [h]; rfl⟩
    · exact ⟨_, _, _, _, _, .none, rfl⟩
  | resetInput n =>
    obtain ⟨c, q, hq, h⟩ := checkDrain_frame (s.setInput n
      { s.input n with
        queue := [], rejects := 0, dropped := 0, state := if (s.input n).config.mode = .off then .off else .active })
    exact ⟨_, c, _, _, q, hq, by simp only [handOn, resetInputCommand, h]; rfl⟩

/-- A write to CMD_CODE changes the inputs, the capture unit, the tariff selector, the slot and the Notice Queue only. -/
theorem writeCode_frame (code : Byte) (s : State) :
    ∃ I C T S q, Offered s.notices q ∧
      writeCode code s = { s with inputs := I, capture := C, tariff := T, slot := S, notices := q } := by
  unfold writeCode
  split
  · split
    · exact handOn_frame _ (beginTaking code s)
    · exact ⟨_, _, _, _, _, .none, rfl⟩
  · exact ⟨_, _, _, _, _, .none, rfl⟩

/-- A write to CANCEL changes the slot and the host-wait count only. -/
theorem writeCancel_frame (s : State) :
    ∃ S w, writeCancel s = { s with slot := S, engine := { s.engine with hostWait := w } } := by
  unfold writeCancel
  split <;> exact ⟨_, _, rfl⟩

/-! ## Grants -/

/-- An APPLY grant that the arbiter does not make changes nothing; one that it makes begins the operation. -/
theorem grantApply_cases (s : State) :
    grantApply s = s ∨
      ∃ n g E q, s.arbiter = some (.apply n g) ∧ Offered s.notices q ∧
        grantApply s =
          { s with
            table := { s.table with entries := E, held := [g.dest] },
            inputs := s.inputs.set n.val { s.input n with queue := (s.input n).queue.tail, inFlight := true },
            engine :=
              { op := some { work := .apply n g, found := [(verify .apply g.dest (claimHead n (countHostWait s))).1] },
                hostWait := s.hostWaitAfter },
            notices := q } := by
  unfold grantApply
  split
  · rename_i n g ha
    obtain ⟨E, q, hq, h⟩ := beginOperation_frame (.apply n g) (claimHead n (countHostWait s))
    exact .inr ⟨n, g, E, q, ha, hq, by rw [h]; rfl⟩
  · exact .inl rfl

/-- A COPY grant that the arbiter does not make changes nothing; one that it makes begins the operation. -/
theorem grantCopy_cases (s : State) :
    grantCopy s = s ∨
      ∃ p e E q, s.arbiter = some (.copy p e) ∧ Offered s.notices q ∧
        grantCopy s =
          { s with
            table := { s.table with entries := E, held := [e] },
            engine :=
              { op := some { work := .copy p e, found := [(verify .copy e (countHostWait s)).1] },
                hostWait := s.hostWaitAfter },
            notices := q } := by
  unfold grantCopy
  split
  · rename_i p e ha
    obtain ⟨E, q, hq, h⟩ := beginOperation_frame (.copy p e) (countHostWait s)
    exact .inr ⟨p, e, E, q, ha, hq, by rw [h]; rfl⟩
  · exact .inl rfl

/-- A host grant that the arbiter does not make changes nothing; one that it makes begins the operation. -/
theorem grantHost_cases (s : State) :
    grantHost s = s ∨
      ∃ c E q, s.arbiter = some (.host c) ∧ Offered s.notices q ∧
        grantHost s =
          { s with
            table := { s.table with entries := E, held := c.targets },
            engine :=
              { op := some { work := .host c, found := (verifyAll (Work.host c).verified (startHost c s)).1 },
                hostWait := 0 },
            slot := { s.slot with state := .running c }, notices := q } := by
  unfold grantHost
  split
  · rename_i c ha
    obtain ⟨E, q, hq, h⟩ := beginOperation_frame (.host c) (startHost c s)
    exact .inr ⟨c, E, q, ha, hq, by rw [h]; rfl⟩
  · exact .inl rfl

/-! ## Completions -/

/-- An effect of a host operation: it touches entries, counters and the Notice Queue only, and offers notices to it. -/
def TouchesOnly (s u : State) : Prop :=
  ∃ E T q, Offered s.notices q ∧
    u = { s with table := { s.table with entries := E }, trips := T, notices := q }

theorem carryToValue_touches (k : OpKind) (e : Fin 64) (c : Carry) (s u : State) (h : TouchesOnly s u) :
    TouchesOnly s (carryToValue k e c u) := by
  obtain ⟨E, T, q, hq, rfl⟩ := h
  obtain ⟨N, hN, h⟩ := offerCarry_frame k e .value
    (State.entry { s with table := { s.table with entries := E }, trips := T, notices := q } e) c
    (State.setEntry { s with table := { s.table with entries := E }, trips := T, notices := q } e
      (((State.entry { s with table := { s.table with entries := E }, trips := T, notices := q } e).withValue
        c.result).withFlags c))
  exact ⟨_, _, N, hq.trans hN, by unfold carryToValue; rw [h]; rfl⟩

theorem setEntry_touches (s : State) (e : Fin 64) (en : Entry) : TouchesOnly s (s.setEntry e en) :=
  ⟨_, _, _, .none, rfl⟩

theorem presetEffect_touches {c : EngineCommand} {d : Bool} {s : State} {r : HostOutcome × State}
    (h : presetEffect c d s = some r) : TouchesOnly s r.2 := by
  cases c <;> simp only [presetEffect, Option.some.injEq, reduceCtorEq] at h
  subst h
  split
  · exact ⟨_, _, _, .none, rfl⟩
  · exact setEntry_touches ..

theorem addEffect_touches {c : EngineCommand} {d : Bool} {s : State} {r : HostOutcome × State}
    (h : addEffect c d s = some r) : TouchesOnly s r.2 := by
  cases c <;> simp only [addEffect, Option.some.injEq, reduceCtorEq] at h
  subst h
  split
  · exact ⟨_, _, _, .none, rfl⟩
  · exact carryToValue_touches _ _ _ _ _ ⟨_, _, _, .none, rfl⟩

theorem subtractEffect_touches {c : EngineCommand} {d : Bool} {s : State} {r : HostOutcome × State}
    (h : subtractEffect c d s = some r) : TouchesOnly s r.2 := by
  cases c <;> simp only [subtractEffect, Option.some.injEq, reduceCtorEq] at h
  subst h
  split
  · exact ⟨_, _, _, .none, rfl⟩
  · exact carryToValue_touches _ _ _ _ _ ⟨_, _, _, .none, rfl⟩

theorem transferEffect_touches {c : EngineCommand} {d : Bool} {s : State} {r : HostOutcome × State}
    (h : transferEffect c d s = some r) : TouchesOnly s r.2 := by
  cases c <;> simp only [transferEffect, Option.some.injEq, reduceCtorEq] at h
  subst h
  split
  · exact ⟨_, _, _, .none, rfl⟩
  · exact carryToValue_touches _ _ _ _ _ (setEntry_touches ..)

theorem repairEffect_touches {c : EngineCommand} {d : Bool} {s : State} {r : HostOutcome × State}
    (h : repairEffect c d s = some r) : TouchesOnly s r.2 := by
  cases c <;> simp only [repairEffect, Option.some.injEq, reduceCtorEq] at h
  subst h
  split
  · exact carryToValue_touches _ _ _ _ _ (setEntry_touches ..)
  · exact ⟨_, _, _, .none, rfl⟩

theorem clearFlagsEffect_touches {c : EngineCommand} {d : Bool} {s : State} {r : HostOutcome × State}
    (h : clearFlagsEffect c d s = some r) : TouchesOnly s r.2 := by
  cases c <;> simp only [clearFlagsEffect, Option.some.injEq, reduceCtorEq] at h
  subst h
  exact setEntry_touches ..

theorem armTripEffect_touches {c : EngineCommand} {d : Bool} {s : State} {r : HostOutcome × State}
    (h : armTripEffect c d s = some r) : TouchesOnly s r.2 := by
  cases c <;> simp only [armTripEffect, Option.some.injEq, reduceCtorEq] at h
  subst h
  exact ⟨_, _, _, .none, rfl⟩

theorem disarmTripEffect_touches {c : EngineCommand} {d : Bool} {s : State} {r : HostOutcome × State}
    (h : disarmTripEffect c d s = some r) : TouchesOnly s r.2 := by
  cases c <;> simp only [disarmTripEffect, Option.some.injEq, reduceCtorEq] at h
  subst h
  exact ⟨_, _, _, .none, rfl⟩

/-- The completion of a host operation changes the table, the counters, the engine, the slot and the Notice Queue only. -/
theorem completeHost_frame {effect : EngineCommand → Bool → State → Option (HostOutcome × State)}
    (he : ∀ {c d s r}, effect c d s = some r → TouchesOnly s r.2) (s : State) :
    completeHost effect s = s ∨
      ∃ op c r E T q, s.engine.op = some op ∧ op.work = .host c ∧ Offered s.notices q ∧
        completeHost effect s =
          { s with
            table := { entries := E, held := [], deferred := none },
            trips := T,
            engine := { op := none, hostWait := s.engine.hostWait },
            slot := { s.slot with state := .idle, result := r, cmdDone := true }, notices := q } := by
  rcases completeHost_cases effect s with h | ⟨op, c, r, hop, hw, hr, h⟩
  · exact .inl h
  · obtain ⟨E, T, q, hq, hu⟩ := he hr
    obtain ⟨E', h2⟩ := release_exists r.2
    refine .inr ⟨op, c, r.1.result, E', T, q, hop, hw, hq, ?_⟩
    rw [h, endCommand_eq, h2, hu]

/-- The completion of an APPLY changes the table, its input, the counters, the capture unit, the engine and the Notice
Queue only. -/
theorem completeApply_frame (s : State) :
    completeApply s = s ∨
      ∃ op n g E C q, s.engine.op = some op ∧ op.work = .apply n g ∧ Offered s.notices q ∧
        completeApply s =
          { s with
            table := { entries := E, held := [], deferred := none },
            inputs := s.inputs.set n.val { s.input n with inFlight := false },
            trips := match g.link with
              | none => s.trips
              | some k => s.trips.set k.val ((s.trip k).move g.sense g.amount).1,
            engine := { op := none, hostWait := s.engine.hostWait }, capture := C, notices := q } := by
  unfold completeApply
  cases hop : s.engine.op with
  | none => exact .inl rfl
  | some op =>
    cases hw : op.work with
    | copy p e => exact .inl (by simp [hw])
    | host c => exact .inl (by simp [hw])
    | apply n g =>
      right
      simp only [hw]
      obtain ⟨en, q1, hq1, h1⟩ := applyAmount_frame g op.foundDamaged s
      generalize applyAmount g op.foundDamaged s = A at h1
      obtain ⟨E, h2⟩ := release_exists A
      generalize release A = R at h2
      obtain ⟨q3, hq3, h3⟩ := moveLinked_frame n g R
      generalize moveLinked n g R = M at h3
      obtain ⟨C, q4, hq4, h4⟩ := checkDrain_frame (clearInFlight n M)
      refine ⟨op, n, g, E, C, q4, rfl, hw, ?_, ?_⟩
      · have e1 : (clearInFlight n M).notices = q3 := by rw [h3]; rfl
        have e2 : R.notices = q1 := by rw [h2, h1]
        rw [e1] at hq4; rw [e2] at hq3
        exact (hq1.trans hq3).trans hq4
      · rw [h4]
        have ht : R.trip = s.trip := by funext k; simp only [State.trip, h2, h1]; rfl
        have hi : R.input n = s.input n := by simp only [State.input, h2, h1]; rfl
        have htr : R.trips = s.trips := by rw [h2, h1]; rfl
        simp only [clearInFlight, State.setInput, State.input] at hi ⊢
        simp only [h3, ht, htr, hi]
        simp only [h2, h1]
        rfl

/-- The completion of a COPY changes the table, the capture unit, the engine and the Notice Queue only. -/
theorem completeCopy_frame (s : State) :
    completeCopy s = s ∨
      ∃ op p e E C q, s.engine.op = some op ∧ op.work = .copy p e ∧ Offered s.notices q ∧
        completeCopy s =
          { s with
            table := { entries := E, held := [], deferred := none },
            engine := { op := none, hostWait := s.engine.hostWait }, capture := C, notices := q } := by
  unfold completeCopy
  cases hop : s.engine.op with
  | none => exact .inl rfl
  | some op =>
    cases hw : op.work with
    | apply n g => exact .inl (by simp [hw])
    | host c => exact .inl (by simp [hw])
    | copy p e =>
      right
      simp only [hw]
      obtain ⟨E, h2⟩ := release_exists (s.setCapture (s.capture.takeCopy p (copyOf e (s.entry e) op.foundDamaged)))
      generalize release (s.setCapture (s.capture.takeCopy p (copyOf e (s.entry e) op.foundDamaged))) = R at h2
      obtain ⟨C, q, hq, h⟩ := checkDrain_frame R
      refine ⟨op, p, e, E, C, q, rfl, hw, ?_, ?_⟩
      · rw [h2] at hq; exact hq
      · rw [h]; simp only [h2]; rfl

/-! ## Time and schedule -/

/-- A minute expiry changes the capture unit, the tariff selector and the Notice Queue only. -/
theorem minuteExpiry_frame (s : State) :
    ∃ C b q, Offered s.notices q ∧
      minuteExpiry s = { s with capture := C, tariff := { s.tariff.nextMinute with bin := b }, notices := q } := by
  unfold minuteExpiry
  simp only
  split
  · rename_i p hp
    split
    · simp only [switchTo]
      obtain ⟨q, hq, h⟩ := setBin_frame p.binOf .schedule { s with tariff := s.tariff.nextMinute }
      rw [h]
      split
      · unfold whenRunning
        split
        · obtain ⟨c, q', hq', h'⟩ := trigger_frame .schedule
            { s with tariff := { s.tariff.nextMinute with bin := p.binOf }, notices := q }
          exact ⟨c, _, q', hq.trans hq', h'⟩
        · exact ⟨_, _, q, hq, rfl⟩
      · exact ⟨_, _, q, hq, rfl⟩
    · exact ⟨_, _, _, .none, rfl⟩
  · exact ⟨_, _, _, .none, rfl⟩

/-- A write of one to the schedule enable changes the tariff selector and the Notice Queue only. -/
theorem enableSchedule_frame (s : State) :
    enableSchedule s = s ∨
      (s.tariff.valid = false ∧ enableSchedule s = { s with tariff := { s.tariff with invalid := true } }) ∨
      (s.tariff.valid = true ∧ ∃ b q, Offered s.notices q ∧
        enableSchedule s =
          { s with tariff := { s.tariff with enable := true, invalid := false, bin := b }, notices := q }) := by
  unfold enableSchedule
  split
  · exact .inl rfl
  · split
    · rename_i hv
      obtain ⟨b, q, hq, h⟩ := resolveBin_frame { s with tariff := { s.tariff with enable := true, invalid := false } }
      exact .inr (.inr ⟨hv, b, q, hq, h⟩)
    · rename_i hv
      exact .inr (.inl ⟨by simpa using hv, rfl⟩)

/-! ## The CAP line and the window -/

/-- A rising edge on CAP changes the capture unit and the Notice Queue only. -/
theorem capRise_frame (s : State) : ∃ C q, Offered s.notices q ∧ capRise s = { s with capture := C, notices := q } := by
  unfold capRise
  split
  · obtain ⟨C, q, hq, h⟩ := trigger_frame .line (s.setCapture { s.capture with capLockout := true })
    exact ⟨C, q, hq, h⟩
  · exact ⟨_, _, .none, rfl⟩

/-- A CAP transition changes the capture unit and the Notice Queue only. -/
theorem capEdge_frame (level : Bool) (s : State) :
    ∃ C q, Offered s.notices q ∧ capEdge level s = { s with capture := C, notices := q } := by
  unfold capEdge
  split
  · exact ⟨_, _, .none, rfl⟩
  · simp only
    split
    · unfold whenRunning
      split
      · obtain ⟨C, q, hq, h⟩ := capRise_frame (s.setCapture { s.capture with capLevel := level })
        exact ⟨C, q, hq, h⟩
      · exact ⟨_, _, .none, rfl⟩
    · exact ⟨_, _, .none, rfl⟩

/-- A commit changes the table, the inputs, the tariff selector and the WIN_REFUSED flag only. -/
theorem commitPart_frame (part : WindowPart) (bytes : List Byte) (s : State) :
    ∃ D I T f, commitPart part bytes s =
      { s with table := D, inputs := I, tariff := T, window := { s.window with refused := f } } := by
  cases part with
  | rawValue e => simp only [commitPart, commitRaw]; split <;> exact ⟨_, _, _, _, rfl⟩
  | config n =>
    simp only [commitPart, commitConfig]
    split
    · exact ⟨_, _, _, _, rfl⟩
    · split
      · exact ⟨_, _, _, _, rfl⟩
      · split <;> exact ⟨_, _, _, _, rfl⟩
      · exact ⟨_, _, _, _, rfl⟩
      · exact ⟨_, _, _, _, rfl⟩
  | point k => simp only [commitPart, commitPoint]; split <;> exact ⟨_, _, _, _, rfl⟩
  | count => simp only [commitPart, commitCount]; split <;> exact ⟨_, _, _, _, rfl⟩

/-- A write to WIN_DATA changes the table, the inputs, the tariff selector and the window only. -/
theorem writeData_frame (v : Byte) (s : State) :
    ∃ D I T w, writeData v s = { s with table := D, inputs := I, tariff := T, window := w } := by
  unfold writeData
  split
  · exact ⟨_, _, _, _, rfl⟩
  · split
    · exact ⟨_, _, _, _, rfl⟩
    · simp only [writePresent]
      split
      · exact ⟨_, _, _, _, rfl⟩
      · split
        · unfold writePart
          simp only
          split
          · rename_i p _ _
            obtain ⟨D, I, T, f, h⟩ := commitPart_frame p _ _
            exact ⟨D, I, T, _, by rw [h]; rfl⟩
          · exact ⟨_, _, _, _, rfl⟩
        · exact ⟨_, _, _, _, rfl⟩

end Sys2Proof.Machine
end

