-- ==== Sys2Proof/Laws/Kept.lean ====
section
/-! SUPPORT. Laws/Kept.lean: a promise that every operation behind the rows keeps is kept by every step. -/

namespace Sys2Proof.Machine

open Sys2Proof.Safety

/-- The state a command leaves. -/
def after (c : Instr) (s : State) : State :=
  match exec c s with
  | .next t => t
  | _ => s

theorem exec_eq_after (c : Instr) (s : State) : exec c s = .next (after c s) := by cases c <;> rfl

/-- A promise that does not look at the queue of commands and that every command keeps is kept by every step. -/
theorem kept_of_exec {P : State → Prop} (hp : ∀ (s : State) l, P s → P { s with pending := l })
    (h : ∀ c s, P s → P (after c s)) : Kept P := by
  intro s t hs ht
  unfold step at ht
  split at ht
  · injection ht with ht; subst ht; exact hs
  · rw [exec_eq_after] at ht; injection ht with ht; subst ht
    exact h _ _ (hp _ _ hs)

/-- An event held off by a reset keeps any promise. -/
theorem whenRunning_keeps {P : State → Prop} {f : State → State} {s : State} (hs : P s) (h : s.Running → P (f s)) :
    P (whenRunning f s) := by
  rcases whenRunning_cases f s with ⟨a, b⟩ | ⟨_, b⟩ <;> rw [b]
  · exact h a
  · exact hs

/-- The operations behind the rows, each keeping a promise. -/
structure KeptByOperations (P : State → Prop) : Prop where
  queue : ∀ (s : State) l, P s → P { s with pending := l }
  writeCode : ∀ c (s : State), s.Running → P s → P (writeCode c s)
  writeCancel : ∀ s : State, s.Running → P s → P (writeCancel s)
  grantApply : ∀ s : State, P s → P (grantApply s)
  grantCopy : ∀ s : State, P s → P (grantCopy s)
  grantHost : ∀ s : State, P s → P (grantHost s)
  completeApply : ∀ s : State, s.Running → P s → P (completeApply s)
  completeCopy : ∀ s : State, s.Running → P s → P (completeCopy s)
  preset : ∀ s : State, s.Running → P s → P (completeHost presetEffect s)
  add : ∀ s : State, s.Running → P s → P (completeHost addEffect s)
  subtract : ∀ s : State, s.Running → P s → P (completeHost subtractEffect s)
  transfer : ∀ s : State, s.Running → P s → P (completeHost transferEffect s)
  repair : ∀ s : State, s.Running → P s → P (completeHost repairEffect s)
  clearFlags : ∀ s : State, s.Running → P s → P (completeHost clearFlagsEffect s)
  armTrip : ∀ s : State, s.Running → P s → P (completeHost armTripEffect s)
  disarmTrip : ∀ s : State, s.Running → P s → P (completeHost disarmTripEffect s)
  inputEdge : ∀ n l (s : State), P s → P (inputEdge n l s)
  expireLockout : ∀ n (s : State), P s → P (expireLockout n s)
  capEdge : ∀ l (s : State), P s → P (capEdge l s)
  expireCapLockout : ∀ s : State, P s → P (expireCapLockout s)
  timebaseEdge : ∀ s : State, s.supply.hold ≠ .cold → P s → P (timebaseEdge s)
  secondExpiry : ∀ s : State, s.supply.hold ≠ .cold → P s → P (secondExpiry s)
  minuteExpiry : ∀ s : State, s.supply.hold ≠ .cold → P s → P (minuteExpiry s)
  pop : ∀ s : State, s.Running → P s → P (writePop s)
  intStatus : ∀ v (s : State), s.Running → P s → P (writeIntStatus v s)
  winStatus : ∀ v (s : State), s.Running → P s → P (writeWinStatus v s)
  enable : ∀ s : State, s.Running → P s → P (enableSchedule s)
  disable : ∀ s : State, s.Running → P s → P (disableSchedule s)
  readDayHigh : ∀ s : State, s.Running → P s → P (readDayHigh s)
  heldRead : ∀ s : State, ¬s.Running → P s → P { s with window := { s.window with readData := none } }
  writeSpace : ∀ v (s : State), s.Running → P s → P (writeSpace v s)
  writeIndex : ∀ v (s : State), s.Running → P s → P (writeIndex v s)
  writeOffset : ∀ v (s : State), s.Running → P s → P (writeOffset v s)
  readData : ∀ s : State, s.Running → P s → P (readData s)
  writeData : ∀ v (s : State), s.Running → P s → P (writeData v s)
  intEnable : ∀ v (s : State), s.Running → P s → P (writeIntEnable v s)
  capEnable : ∀ v (s : State), s.Running → P s → P (writeCapEnable v s)
  operand : ∀ k v (s : State), s.Running → P s → P (writeOperand k v s)
  enterWarm : ∀ c (s : State), P s → P (enterWarm c s)
  endWarm : ∀ s : State, P s → P (endWarm s)
  enterCold : ∀ s : State, P s → P (enterCold s)
  endCold : ∀ s : State, P s → P (endCold s)

/-- A promise that the operations keep is kept by every step. -/
theorem kept_of_operations {P : State → Prop} (h : KeptByOperations P) : Kept P := by
  refine kept_of_exec h.queue ?_
  intro c s hs
  have run : ∀ f, (s.Running → P (f s)) → P (whenRunning f s) := fun f => whenRunning_keeps hs
  have read : ∀ f, (s.Running → P (f s)) → P (readAccess f s) := by
    intro f hf; unfold readAccess; split
    · exact hf (by assumption)
    · exact h.heldRead s (by assumption) hs
  have timed : ∀ f, (s.supply.hold ≠ .cold → P (f s)) → P (whenTimed f s) := by
    intro f hf; unfold whenTimed; split
    · exact hs
    · exact hf (by assumption)
  cases c <;> simp only [after, exec]
  case cancel => exact run _ fun hr => h.writeCancel s hr hs
  case applyGrant => exact h.grantApply s hs
  case copyGrant => exact h.grantCopy s hs
  case hostGrant => exact h.grantHost s hs
  case applyCompletion => exact run _ fun hr => h.completeApply s hr hs
  case copyCompletion => exact run _ fun hr => h.completeCopy s hr hs
  case presetCompletion => exact run _ fun hr => h.preset s hr hs
  case addCompletion => exact run _ fun hr => h.add s hr hs
  case subtractCompletion => exact run _ fun hr => h.subtract s hr hs
  case transferCompletion => exact run _ fun hr => h.transfer s hr hs
  case repairCompletion => exact run _ fun hr => h.repair s hr hs
  case clearFlagsCompletion => exact run _ fun hr => h.clearFlags s hr hs
  case armTripCompletion => exact run _ fun hr => h.armTrip s hr hs
  case disarmTripCompletion => exact run _ fun hr => h.disarmTrip s hr hs
  case inputEdge n l => exact h.inputEdge n l s hs
  case lockoutExpiry n => exact h.expireLockout n s hs
  case capEdge l => exact h.capEdge l s hs
  case capLockoutExpiry => exact h.expireCapLockout s hs
  case timebaseEdge => exact timed _ fun hc => h.timebaseEdge s hc hs
  case secondExpiry => exact timed _ fun hc => h.secondExpiry s hc hs
  case minuteExpiry => exact timed _ fun hc => h.minuteExpiry s hc hs
  case noticePop => exact run _ fun hr => h.pop s hr hs
  case clearCmdDone => exact run _ fun hr => h.intStatus _ s hr hs
  case clearWinRefused => exact run _ fun hr => h.winStatus _ s hr hs
  case clearWinFault => exact run _ fun hr => h.winStatus _ s hr hs
  case enableAttempt => exact run _ fun hr => h.enable s hr hs
  case clearScheduleEnable => exact run _ fun hr => h.disable s hr hs
  case timeDayHiRead => exact read _ fun hr => h.readDayHigh s hr hs
  case winSpaceWrite v => exact run _ fun hr => h.writeSpace v s hr hs
  case winIndexWrite v => exact run _ fun hr => h.writeIndex v s hr hs
  case winOffsetWrite v => exact run _ fun hr => h.writeOffset v s hr hs
  case winDataRead => exact read _ fun hr => h.readData s hr hs
  case winDataWrite v => exact run _ fun hr => h.writeData v s hr hs
  case warmReset c => exact h.enterWarm c s hs
  case warmResetEnd => exact h.endWarm s hs
  case coldReset => exact h.enterCold s hs
  case coldResetEnd => exact h.endCold s hs
  case registerWrite o v =>
    refine run _ fun hr => ?_
    unfold busWrite
    split
    all_goals first
      | exact hs
      | exact h.writeCode _ s hr hs
      | exact h.writeCancel s hr hs
      | exact h.operand _ v s hr hs
      | exact h.pop s hr hs
      | exact h.intEnable v s hr hs
      | exact h.intStatus v s hr hs
      | exact h.capEnable v s hr hs
      | exact h.writeSpace v s hr hs
      | exact h.writeIndex v s hr hs
      | exact h.writeOffset v s hr hs
      | exact h.writeData v s hr hs
      | exact h.winStatus v s hr hs
      | unfold writeSchedControl
        split
        · exact h.enable s hr hs
        · exact h.disable s hr hs
  all_goals exact run _ fun hr => h.writeCode _ s hr hs

end Sys2Proof.Machine
end

