-- ==== Sys2Proof/Tests/Slice0.lean ====
section
/-! SUPPORT. Tests/Slice0.lean: one-step tests with results taken from the spec's rules and examples, and a witness for
the hypotheses of every statement that has some. -/

namespace Sys2Proof.Tests

open Sys2Proof Sys2Proof.Machine Sys2Proof.Safety

/-! ## Small states -/

/-- The state after reset with these operand registers. -/
def withOperands (ops : Vector Byte 9) (s : State) : State := { s with slot := { s.slot with operands := ops } }

/-- A healthy entry of this value. -/
def healthy (v : Nat) : Entry := Entry.cold.withValue v

/-- A state in which entry `e` stands as given. -/
def withEntry (e : Fin 64) (en : Entry) (s : State) : State := s.setEntry e en

/-- A state in which this operation is in flight, with these found conditions. -/
def inFlight (w : Work) (found : List Condition) (s : State) : State :=
  { s with
    table := { s.table with held := w.targets },
    engine := { s.engine with op := some { work := w, found := found } },
    slot := { s.slot with state := match w with | .host c => .running c | _ => s.slot.state } }

/-- A state in which this command waits in the slot. -/
def waiting (c : EngineCommand) (s : State) : State := { s with slot := { s.slot with state := .waiting c } }

/-- A counting input with this weight and the configuration of a cold reset otherwise. -/
def counting (weight : Vector Nibble 4) : InputConfig := { InputConfig.cold with mode := .count, weight := weight }

/-- A group of the example of 10: destination, epoch, count, at weight 2. -/
def group (dest : Fin 64) (epoch : Bool) (count : Nat) : Group :=
  { dest := dest, epoch := epoch, weight := 2, sense := .add, link := some 4, count := count }

/-- A state whose input `n` is this one. -/
def withInput (n : Fin 16) (i : Input) (s : State) : State := s.setInput n i

/-- A running input with this configuration and queue. -/
def running (c : InputConfig) (queue : List Group) : Input :=
  { Input.afterReset c false with queue := queue }

/-- A state whose counter 4 is ARMED with this much remaining and this prewarn level. -/
def armed (remaining prewarn : Nat) (s : State) : State :=
  s.setTrip 4 { state := .armed, remaining := remaining, prewarn := prewarn, overshoot := 0 }

/-- A state whose counter 4 stands as given. -/
def withTrip (state : TripState) (remaining prewarn overshoot : Nat) (s : State) : State :=
  s.setTrip 4 { state := state, remaining := remaining, prewarn := prewarn, overshoot := overshoot }

/-- A state whose window points at this byte. -/
def pointed (space index offset : Byte) (s : State) : State :=
  s.setWindow { s.window with space := space, index := index, offset := offset }

/-- A notice to fill queues with. -/
def aNotice : Notice := { kind := .tariff, subject := 0, sequence := 0, data0 := 1, data1 := 2 }

/-- A state with this many notices and this lost count. -/
def withNotices (n lost : Nat) (s : State) : State :=
  { s with notices := { s.notices with queue := List.replicate n aNotice, lost := lost } }

/-- A state whose capture unit is in this phase, filling Bank A for this list after this many copies. -/
def capturing (phase : CapturePhase) (list : List (Fin 64)) (copies : Nat) (s : State) : State :=
  s.setCapture { s.capture with
    epoch := true, phase := phase, list := list, copiesMade := copies, sequence := 8, lastChosen := some .a,
    bankA := { Bank.afterReset with
      state := .filling,
      header := { BankHeader.zero with sequence := 8, listLength := list.length, copiesMade := copies } } }

/-- A state whose banks are in these states. -/
def withBanks (a b : BankState) (last : Option BankId) (s : State) : State :=
  s.setCapture { s.capture with
    bankA := { s.capture.bankA with state := a }, bankB := { s.capture.bankB with state := b }, lastChosen := last }

/-- A valid schedule of two points: minute 60 with bin 1, minute 1439 with bin 3 and its capture flag. -/
def scheduled (enable : Bool) (s : State) : State :=
  { s with tariff := { s.tariff with
    enable := enable, count := 2,
    points := (s.tariff.points.set 0 { minute := 60, bin := 1, capture := false }).set 1
      { minute := 1439, bin := 3, capture := true } } }

/-- A state at this time of day. -/
def timed (minute second phase : Nat) (s : State) : State :=
  { s with tariff := { s.tariff with minute := minute, second := second, phase := phase } }

/-- A part held in a warm reset. -/
def held : State := { State.reset with supply := { State.reset.supply with hold := .warm } }

/-! ## WellFormed -/

theorem test_wellFormed_undefined_code : WellFormed (.undefinedCommandCode 0x07) = true := by decide
/-- The check on the code refuses a byte that names a command. -/
theorem test_illFormed_undefined_code : WellFormed (.undefinedCommandCode 0x31) = false := by decide
theorem test_wellFormed_registerWrite : WellFormed (.registerWrite 0x15 0x03) = true := by decide
/-- The check on the register refuses a write that has a row of its own. -/
theorem test_illFormed_registerWrite : WellFormed (.registerWrite 0x23 0x00) = false := by decide
/-- A one to CMD_DONE has a row of its own, and so has a one to just one flag of WIN_STATUS. -/
theorem test_illFormed_clearing :
    WellFormed (.registerWrite 0x16 0x01) = false ∧ WellFormed (.registerWrite 0x27 0x02) = false ∧
      WellFormed (.registerWrite 0x27 0x03) = true := by decide

/-! ## Digits, arithmetic and layouts -/

/-- The worked check digits of 01 and 09 (entries 4 000 and 4 025 have 6 and 9). -/
theorem test_checkDigit_examples :
    [123456789012, 500, 999999999999, 123456789512, 4000, 4025].map (fun v => (checkDigit (decimalDigits 12 v)).val) =
      [8, 5, 4, 3, 6, 9] := by decide

/-- R50 and R51 at their edges: the top plus one wraps to 0, and 0 minus one borrows to the top. -/
theorem test_arithmetic_edges :
    addTotal 999999999999 1 = { result := 0, wrapped := true, borrowed := false } ∧
      subtractTotal 0 1 = { result := 999999999999, wrapped := false, borrowed := true } := by decide

/-- An entry of 4 000, held, reads as in the example of 09: value bytes, check 6, IN_UPDATE in bit 4. -/
theorem test_layout_entry :
    entryBytes (healthy 4000) true = [0, 0, 0, 0, 0x40, 0x00, 6, 0x10, 0, 0, 0, 0, 0, 0] := by decide

/-- The nine bytes of IN3 in the example of 09: COUNT, RISE, ADD, weight 00 06, lockout 10, base 8, tariffed, TC2. -/
theorem test_layout_config :
    decodeConfig [0x01, 0x01, 0x00, 0x00, 0x06, 10, 8, 0x01, 0x82] =
      some { mode := .count, edge := .rise, sense := .add, weight := #v[6, 0, 0, 0], lockout := 10, base := 8,
             tariffed := true, link := some 2 } ∧
    decodeConfig [0x01, 0x00, 0x00, 0x00, 0x06, 10, 8, 0x01, 0x82] = none := by decide

/-- A switch point: minute 1380 is 0x564, bin in bits 2 to 0, the flag in bit 7, the other bits ignored (R187). -/
theorem test_layout_point :
    decodePoint [0x05, 0x64, 0x82] = { minute := 1380, bin := 2, capture := true } ∧
      decodePoint [0xFD, 0x64, 0xFA] = { minute := 1380, bin := 2, capture := true } := by decide

/-! ## Commands of the slot -/

/-- PRESET of entry 63 to 12 is taken and waits (R141, R189). -/
theorem test_preset_waits :
    (after .preset (withOperands #v[63, 0, 0, 0, 0, 0, 0x12, 0, 0] State.reset)).slot.state =
      .waiting (.preset 63 12) := by decide
/-- Entry 64 does not exist (R142). -/
theorem test_preset_bad_index :
    (after .preset (withOperands #v[64, 0, 0, 0, 0, 0, 0x12, 0, 0] State.reset)).slot.result = .badIndex := by decide
theorem test_add_bad_digit :
    (after .add (withOperands #v[0, 0, 0, 0, 0, 0, 0x1A, 0, 0] State.reset)).slot.result = .badDigit := by decide
theorem test_subtract_waits :
    (after .subtract (withOperands #v[1, 0x99, 0, 0, 0, 0, 0x05, 0, 0] State.reset)).slot.state =
      .waiting (.subtract 1 990000000005) := by decide
theorem test_transfer_same_entry :
    (after .transfer (withOperands #v[5, 5, 0, 0, 0, 0, 0, 0, 0] State.reset)).slot.result = .badOperand := by decide
theorem test_transfer_waits :
    (after .transfer (withOperands #v[5, 6, 0, 0, 0, 0, 0, 0, 0] State.reset)).slot.state =
      .waiting (.transfer 5 6) := by decide
theorem test_repair_fold :
    (after .repair (withOperands #v[5, 0, 0, 0, 0, 0, 0x40, 1, 0] State.reset)).slot.state =
      .waiting (.repair 5 40 true) := by decide
theorem test_repair_bad_fold :
    (after .repair (withOperands #v[5, 0, 0, 0, 0, 0, 0x40, 2, 0] State.reset)).slot.result = .badOperand := by decide
theorem test_clearFlags_waits :
    (after .clearFlags (withOperands #v[7, 0, 0, 0, 0, 0, 0, 0, 0] State.reset)).slot.state =
      .waiting (.clearFlags 7) := by decide
/-- The prewarn level may be one below the preset (R105). -/
theorem test_armTrip_waits :
    (after .armTrip (withOperands #v[7, 0, 0, 0x01, 0x00, 0, 0, 0, 0x99] State.reset)).slot.state =
      .waiting (.armTrip 7 100 99) := by decide
theorem test_armTrip_prewarn_equal :
    (after .armTrip (withOperands #v[7, 0, 0, 0x01, 0x00, 0, 0, 0x01, 0x00] State.reset)).slot.result =
      .badOperand := by decide
theorem test_disarmTrip_bad_index :
    (after .disarmTrip (withOperands #v[8, 0, 0, 0, 0, 0, 0, 0, 0] State.reset)).slot.result = .badIndex := by decide
/-- A capture of no members with no group completes at once into Bank A with sequence 1 (R80, R90, R91, R93). -/
theorem test_capture_empty :
    ((after .capture State.reset).capture.bankA.state, (after .capture State.reset).capture.sequence,
      (after .capture State.reset).slot.result) = (.complete, 1, .ok) := by decide
/-- The Capture List holds the members in ascending order (R81). -/
theorem test_capture_list :
    (after .capture (withEntry 10 { healthy 0 with member := true }
      (withEntry 8 { healthy 0 with member := true } State.reset))).capture.list = [8, 10] := by decide
theorem test_openBank_none : (after .openBank State.reset).slot.result = .noBank := by decide
/-- Of two COMPLETE banks the earlier is opened (R95). -/
theorem test_openBank_earlier :
    (after .openBank (withBanks .complete .complete (some .a) State.reset)).capture.bankB.state = .opened := by decide
theorem test_closeBank :
    (after .closeBank (withBanks .complete .opened (some .a) State.reset)).capture.bankB.state = .free := by decide
theorem test_setTariff :
    (after .setTariff (withOperands #v[3, 0, 0, 0, 0, 0, 0, 0, 0] State.reset)).tariff.bin = 3 := by decide
theorem test_setTariff_bad :
    (after .setTariff (withOperands #v[4, 0, 0, 0, 0, 0, 0, 0, 0] State.reset)).slot.result = .badOperand := by decide
/-- Day 0x0102, minute 1439 (0x059F), second 59 (R133, R189). -/
theorem test_setTime :
    ((after .setTime (withOperands #v[1, 2, 5, 0x9F, 59, 0, 0, 0, 0] State.reset)).tariff.day,
      (after .setTime (withOperands #v[1, 2, 5, 0x9F, 59, 0, 0, 0, 0] State.reset)).tariff.minute) =
      (0x0102, 1439) := by decide
theorem test_setTime_bad :
    (after .setTime (withOperands #v[1, 2, 5, 0xA0, 59, 0, 0, 0, 0] State.reset)).slot.result = .badOperand := by decide
theorem test_resetInput :
    ((after .resetInput (withOperands #v[2, 0, 0, 0, 0, 0, 0, 0, 0]
      (withInput 2 { running (counting #v[1, 0, 0, 0]) [group 1 false 1] with dropped := 5 } State.reset))).input
        2).dropped = 0 := by decide
theorem test_undefinedCommandCode : (after (.undefinedCommandCode 0x07) State.reset).slot.result = .badCommand := by
  decide
theorem test_cancel :
    (after (.cancel 0) (waiting (.clearFlags 1) State.reset)).slot.result = .cancelled := by decide
theorem test_cancel_late : (after (.cancel 0) State.reset).slot.cancelLate = true := by decide

/-! ## The engine -/

/-- A group in IN3's queue is claimed, and its entry is held (R37, R55). -/
theorem test_applyGrant :
    (after .applyGrant (withInput 3 (running (counting #v[2, 0, 0, 0]) [group 10 false 63]) State.reset)).table.held =
      [10] := by decide
/-- A bad check digit marks the entry at the grant (R10, R11). -/
theorem test_applyGrant_damages :
    ((after .applyGrant (withInput 3 (running (counting #v[2, 0, 0, 0]) [group 10 false 63])
      (withEntry 10 { healthy 1000 with check := 0 } State.reset))).entry 10).suspense = some 0 := by decide
theorem test_copyGrant : (after .copyGrant (capturing .copying [8, 10] 0 State.reset)).table.held = [8] := by decide
/-- The COPY of entry 8 waits for a previous-epoch group to it (R64). -/
theorem test_copyGrant_waits :
    (after .copyGrant (withInput 3 (running (counting #v[2, 0, 0, 0]) [group 8 false 1])
      (capturing .copying [8, 10] 0 State.reset))).table.held = [] := by decide
theorem test_hostGrant :
    (after .hostGrant (waiting (.add 5 1) State.reset)).slot.state = .running (.add 5 1) := by decide
/-- The capture gate holds a host command back from an entry not yet copied (R65). -/
theorem test_hostGrant_gated :
    (after .hostGrant (waiting (.add 10 1) (capturing .copying [8, 10] 0 State.reset))).slot.state =
      .waiting (.add 10 1) := by decide
/-- 63 pulses of weight 2 carry entry 10 from 1 000 to 1 126 and TC4 from 300 to 174 (10, worked example). -/
theorem test_applyCompletion :
    (((after .applyCompletion (inFlight (.apply 1 (group 10 false 63)) [.healthy]
        (armed 300 0 (withEntry 10 (healthy 1000) State.reset)))).entry 10).value,
      ((after .applyCompletion (inFlight (.apply 1 (group 10 false 63)) [.healthy]
        (armed 300 0 (withEntry 10 (healthy 1000) State.reset)))).trip 4).remaining) = (1126, 174) := by decide
/-- From 48 past zero: TRIPPED with overshoot 78 (10, worked example). -/
theorem test_applyCompletion_trips :
    (after .applyCompletion (inFlight (.apply 1 (group 10 false 63)) [.healthy]
      (armed 48 0 (withEntry 10 (healthy 1252) State.reset)))).trip 4 =
      { state := .tripped, remaining := 0, prewarn := 0, overshoot := 78 } := by decide
theorem test_copyCompletion :
    ((after .copyCompletion (inFlight (.copy 0 8) [.healthy]
      (capturing .copying [8, 10] 0 (withEntry 8 (healthy 540) State.reset)))).capture.bankA.copies[0]).index = 8 := by
  decide
theorem test_presetCompletion :
    ((after .presetCompletion (inFlight (.host (.preset 5 500)) [.healthy] State.reset)).entry 5).check = 5 := by decide
theorem test_addCompletion_wraps :
    (after .addCompletion (inFlight (.host (.add 5 1)) [.healthy]
      (withEntry 5 (healthy 999999999999) State.reset))).slot.result = .okWrapped := by decide
theorem test_subtractCompletion_borrows :
    ((after .subtractCompletion (inFlight (.host (.subtract 5 1)) [.healthy]
      (withEntry 5 (healthy 0) State.reset))).entry 5).value = 999999999999 := by decide
theorem test_transferCompletion :
    (((after .transferCompletion (inFlight (.host (.transfer 5 6)) [.healthy, .healthy]
        (withEntry 5 (healthy 30) (withEntry 6 (healthy 12) State.reset)))).entry 6).value,
      ((after .transferCompletion (inFlight (.host (.transfer 5 6)) [.healthy, .healthy]
        (withEntry 5 (healthy 30) (withEntry 6 (healthy 12) State.reset)))).entry 5).value) = (42, 0) := by decide
/-- A repair with fold yes adds the suspense and ends the damage (R154). -/
theorem test_repairCompletion_fold :
    (after .repairCompletion (inFlight (.host (.repair 5 40 true)) [.damaged]
      (withEntry 5 { healthy 0 with damaged := true, suspense := some 2 } State.reset))).entry 5 = healthy 42 := by decide
theorem test_repairCompletion_healthy :
    (after .repairCompletion (inFlight (.host (.repair 5 40 true)) [.healthy] State.reset)).slot.result =
      .notDamaged := by decide
theorem test_clearFlagsCompletion :
    (after .clearFlagsCompletion (inFlight (.host (.clearFlags 5)) []
      (withEntry 5 { healthy 9 with wrapped := true, borrowed := true } State.reset))).entry 5 = healthy 9 := by decide
theorem test_armTripCompletion :
    (after .armTripCompletion (inFlight (.host (.armTrip 4 100 99)) [] State.reset)).trip 4 =
      { state := .armed, remaining := 100, prewarn := 99, overshoot := 0 } := by decide
theorem test_disarmTripCompletion :
    (after .disarmTripCompletion (inFlight (.host (.disarmTrip 4)) [] (withTrip .tripped 0 5 7 State.reset))).trip 4 =
      { state := .idle, remaining := 0, prewarn := 5, overshoot := 7 } := by decide

/-! ## Lines and timers -/

/-- The 64th pulse to a full group opens a new one (R32). -/
theorem test_inputEdge_opens :
    (((after (.inputEdge 1 true) (withInput 1 (running (counting #v[2, 0, 0, 0]) [])
        State.reset)).input 1).queue.map Group.count, ((after (.inputEdge 1 true) (withInput 1
          (running (counting #v[2, 0, 0, 0])
            [{ dest := 0, epoch := false, weight := 2, sense := .add, link := none, count := 63 }])
              State.reset)).input 1).queue.map Group.count) = ([1], [63, 1]) := by decide
/-- With four groups queued and no room in the last, the pulse is dropped (R33). -/
theorem test_inputEdge_drops :
    ((after (.inputEdge 1 true) (withInput 1 (running (counting #v[2, 0, 0, 0])
      (List.replicate 4 (group 10 false 63))) State.reset)).input 1).state = .overrun := by decide
theorem test_lockoutExpiry :
    ((after (.lockoutExpiry 1) (withInput 1 { running (counting #v[2, 0, 0, 0]) [] with lockout := true }
      State.reset)).input 1).lockout = false := by decide
theorem test_capEdge :
    (after (.capEdge true) (State.reset.setCapture { State.reset.capture with capEnable := true })).capture.sequence =
      1 := by decide
theorem test_capEdge_disabled : (after (.capEdge true) State.reset).capture.sequence = 0 := by decide
theorem test_capLockoutExpiry :
    (after .capLockoutExpiry (State.reset.setCapture { State.reset.capture with capLockout := true })).capture =
      State.reset.capture := by decide
theorem test_timebaseEdge :
    (after .timebaseEdge (timed 0 58 32767 State.reset)).tariff.second = 59 := by decide
theorem test_secondExpiry :
    (after .secondExpiry (timed 7 59 5 State.reset)).tariff.minute = 8 := by decide
theorem test_minuteExpiry_midnight :
    ((after .minuteExpiry (timed 1439 3 5 State.reset)).tariff.minute,
      (after .minuteExpiry (timed 1439 3 5 State.reset)).tariff.day) = (0, 1) := by decide
/-- The point of minute 60 switches the bin when minute 59 expires (R129). -/
theorem test_minuteExpiry_switches :
    (after .minuteExpiry (timed 59 59 0 (scheduled true State.reset))).tariff.bin = 1 := by decide

/-! ## Registers and the window -/

/-- The pop of a full queue with two lost notices puts LOST with count 2 at its tail (10, worked example). -/
theorem test_noticePop_lost :
    (after (.noticePop 0) (withNotices 16 2 State.reset)).notices.queue.getLast? =
      some { kind := .lost, subject := 0, sequence := 0, data0 := 0, data1 := 2 } := by decide
theorem test_clearCmdDone :
    (after .clearCmdDone (endCommand .ok State.reset)).slot.cmdDone = false := by decide
theorem test_clearWin :
    (after .clearWinRefused (State.reset.setWindow { State.reset.window with refused := true, fault := true })).window =
      { State.reset.window with fault := true } ∧
    (after .clearWinFault (State.reset.setWindow { State.reset.window with refused := true, fault := true })).window =
      { State.reset.window with refused := true } := by decide
/-- At minute 0 the last point of the schedule is in force (R131). -/
theorem test_enableAttempt : (after .enableAttempt (scheduled false State.reset)).tariff.bin = 3 := by decide
theorem test_clearScheduleEnable :
    (after .clearScheduleEnable (scheduled true State.reset)).tariff.enable = false := by decide
theorem test_timeDayHiRead :
    readRegister (after .timeDayHiRead (timed 1439 59 0 State.reset)) 0x20 = some 0x05 := by decide
/-- SLOT_STATUS of a waiting slot with REFUSED_BUSY; BANK_STATES; WIN_STATUS after an absent byte; no value in a reset
(R173, R175). -/
theorem test_registers :
    readRegister (after .capture (waiting (.clearFlags 1) State.reset)) 0x02 = some 0x11 ∧
      readRegister (withBanks .complete .opened (some .a) State.reset) 0x1C = some 0x0E ∧
      readRegister (after .winDataRead (pointed 0 64 0 State.reset)) 0x27 = some 0x02 ∧
      readRegister held 0x1D = none := by decide
/-- The counter of the example, TRIPPED with overshoot 78, and a copy of entry 8 with a suspense (R185, R187). -/
theorem test_layout_records :
    tripBytes { state := .tripped, remaining := 0, prewarn := 50, overshoot := 78 } =
      [3, 0, 0, 0, 0, 0, 0, 0, 0x50, 0, 0, 0, 0x78] ∧
    copyBytes { index := 8, digits := decimalDigits 12 540, wrapped := false, borrowed := true, damaged := true,
                suspense := some 12 } = [8, 6, 0, 0, 0, 0, 5, 0x40, 0, 0, 0, 0, 0, 0x12] := by decide
theorem test_pointers :
    ((after (.winSpaceWrite 4) State.reset).window.space, (after (.winIndexWrite 5) State.reset).window.index,
      (after (.winOffsetWrite 6) State.reset).window.offset) = (4, 5, 6) := by decide
/-- An index with no record reads 0 and sets WIN_FAULT (R179, R180). -/
theorem test_winDataRead_absent :
    (after .winDataRead (pointed 0 64 0 State.reset)).window.fault = true := by decide
theorem test_winDataRead :
    (after .winDataRead (pointed 0 12 4 (withEntry 12 (healthy 4000) State.reset))).window.readData = some 0x40 := by
  decide
/-- Bit 3 of offset 7 is MEMBER, and it commits alone (R181). -/
theorem test_winDataWrite_member :
    ((after (.winDataWrite 0xFF) (pointed 0 12 7 State.reset)).entry 12).member = true := by decide
/-- A configuration for a counting input that stays counting is refused (R26). -/
theorem test_winDataWrite_refused :
    (after (.winDataWrite 0) (pointed 1 3 8 (withInput 3 (running (counting #v[5, 0, 0, 0]) [])
      State.reset))).window.refused = true := by decide
theorem test_registerWrite :
    (after (.registerWrite 0x15 0xFE) State.reset).notices.noticeIe = true ∧
      (after (.registerWrite 0x15 0xFE) State.reset).notices.cmdIe = false := by decide

/-! ## Resets -/

theorem test_warmReset :
    (after (.warmReset .resetLine) (withNotices 3 0 (withEntry 5 (healthy 7) State.reset))).notices.queue = [] ∧
      (after (.warmReset .resetLine) (withEntry 5 (healthy 7) State.reset)).entry 5 = healthy 7 := by decide
theorem test_warmResetEnd : (after .warmResetEnd held).Running := by decide
theorem test_coldReset : (after .coldReset (withEntry 5 (healthy 7) State.reset)).entry 5 = Entry.cold := by decide
theorem test_coldResetEnd_resetLow :
    (after .coldResetEnd (after .coldReset (after (.warmReset .resetLine) State.reset))).supply.hold = .warm := by decide

/-! ## Witnesses: concrete states and operands that meet the hypotheses of the statements, clause by clause -/

/-- A state with this one command waiting for the block. -/
def queued (c : Instr) (s : State) : State := { s with pending := [c] }

theorem step_queued (c : Instr) (s : State) (h : s.pending = []) : step (queued c s) = .next (after c s) := by
  rw [← exec_eq_after]; cases s; cases h; rfl

/-- No previous-epoch head, seen by computation. -/
theorem not_previousHead {s : State} {n : Fin 16}
    (h : ((s.input n).queue.head?.all fun g => decide (g.epoch = s.capture.epoch)) = true) : ¬PreviousHead s n := by
  rintro ⟨g, hg, he⟩; rw [hg] at h; simp at h; exact he h

/-- No eligible current-epoch head, seen by computation. -/
theorem not_currentHead {s : State} {n : Fin 16}
    (h : ((s.input n).queue.head?.all fun g => decide (g.epoch ≠ s.capture.epoch) || s.gated g.dest) = true) :
    ¬CurrentHead s n := by
  rintro ⟨g, hg, he, hgate⟩; rw [hg] at h; simp at h
  rcases h with h | h
  · exact h he
  · exact hgate ((gated_iff s g.dest).1 h)

/-- No host command is eligible, seen by computation. -/
theorem not_hostEligible {s : State} (h : s.eligibleHost = none) (c : EngineCommand) : ¬HostEligible s c := by
  intro hc; rw [(eligibleHost_iff s c).2 hc] at h; cases h

/-- No COPY is eligible, seen by computation. -/
theorem not_copyEligible {s : State} (h : s.eligibleCopy = none) (e : Fin 64) : ¬CopyEligible s e := by
  intro hc; rw [(eligibleCopy_iff s _).2 ⟨e, hc, rfl⟩] at h; cases h

/-- An absent addressed byte, seen by computation. -/
theorem not_present {s : State} (h : ¬(s.capture.bankA.state = .opened ∧ s.capture.bankB.state = .opened))
    (ha : s.addressed = none) (bytes : List Byte) : ¬Present s bytes := by
  intro hp; rw [(addressed_iff s h bytes).2 hp] at ha; cases ha

/-- The schedule of `scheduled` is valid. -/
theorem scheduled_valid (b : Bool) : ScheduleValid (scheduled b State.reset).tariff := by
  rw [← valid_iff]; cases b <;> decide

theorem witness_StepRunsTheFrontCommand : held.pending = [] := by decide

theorem witness_CommandCodesNameTheCommands : decodeCommand 0x40 = some .resetInput := by decide

/-- Every field at its greatest code, on a COUNT and on an OFF configuration with a weight that is no decimal number. -/
theorem witness_ConfigurationBytesRoundTrip :
    ([0x01, 0x03, 0x01, 0x99, 0x99, 0xFF, 0x3F, 0x01, 0x87] : List Byte).length = 9 ∧
    decodeConfig [0x01, 0x03, 0x01, 0x99, 0x99, 0xFF, 0x3F, 0x01, 0x87] =
      some { mode := .count, edge := .both, sense := .subtract, weight := #v[9, 9, 9, 9], lockout := 255, base := 63,
             tariffed := true, link := some 7 } ∧
    decodeConfig [0x00, 0x01, 0x00, 0xFF, 0xFF, 0x00, 0x00, 0x00, 0x00] =
      some { InputConfig.cold with weight := #v[15, 15, 15, 15] } := by decide

theorem witness_DecimalFieldsRoundTrip :
    Decimal (Vector.replicate 12 (9 : Nibble)) ∧ Decimal (Vector.replicate 12 (0 : Nibble)) ∧
      ([0xFF, 0x00, 0x99, 0x0A, 0xA0, 0x12] : List Byte).length = 6 ∧ 999999999999 ≤ 999999999999 ∧
      99999999 ≤ 99999999 ∧
      ({ BankHeader.zero with source := some .schedule } : BankHeader).source = some .schedule := by decide

theorem witness_CheckDigitDetectsChanges :
    Decimal (Vector.replicate 12 (9 : Nibble)) ∧ (0 : Nibble).toNat ≤ 9 ∧
      (0 : Nibble) ≠ (Vector.replicate 12 (9 : Nibble))[11] := by decide

/-! ### The command slot -/

/-- The last entry with the greatest number and both folds, and a transfer between the first and the last entry. -/
theorem witness_TableCommandsWait :
    let s := withOperands #v[63, 0x99, 0x99, 0x99, 0x99, 0x99, 0x99, 0, 0] State.reset
    let f := withOperands #v[63, 0, 0, 0, 0, 0, 0, 1, 0] State.reset
    (s.Running ∧ s.slot.state = .idle ∧ s.slot.operands[0].toNat = (63 : Fin 64).val ∧
      Decimal (operandDigits s.slot.operands 1 12) ∧ s.slot.operands[7].toNat = 0) ∧
    (f.Running ∧ f.slot.state = .idle ∧ f.slot.operands[0].toNat = (63 : Fin 64).val ∧
      Decimal (operandDigits f.slot.operands 1 12) ∧ f.slot.operands[7].toNat = 1) ∧
    f.slot.operands[1].toNat = (0 : Fin 64).val ∧ (63 : Fin 64) ≠ 0 := by decide

/-- Counter 7: the greatest preset with the greatest prewarn level, and preset 1 with no prewarn. -/
theorem witness_TripCommandsWait :
    let s := withOperands #v[7, 0x99, 0x99, 0x99, 0x99, 0x99, 0x99, 0x99, 0x98] State.reset
    let f := withOperands #v[7, 0, 0, 0, 1, 0, 0, 0, 0] State.reset
    (s.Running ∧ s.slot.state = .idle ∧ s.slot.operands[0].toNat = (7 : Fin 8).val ∧
      Decimal (operandDigits s.slot.operands 1 8) ∧ Decimal (operandDigits s.slot.operands 5 8) ∧
      decimalValue (operandDigits s.slot.operands 1 8) ≠ 0 ∧
      decimalValue (operandDigits s.slot.operands 5 8) < decimalValue (operandDigits s.slot.operands 1 8)) ∧
    (f.Running ∧ f.slot.state = .idle ∧ f.slot.operands[0].toNat = (7 : Fin 8).val ∧
      Decimal (operandDigits f.slot.operands 1 8) ∧ Decimal (operandDigits f.slot.operands 5 8) ∧
      decimalValue (operandDigits f.slot.operands 1 8) ≠ 0 ∧
      decimalValue (operandDigits f.slot.operands 5 8) = 0) := by decide

/-- Each check at the edge of its range. -/
theorem witness_ValidationRefusesByTheFirstCheck :
    let at_ := fun (ops : Vector Byte 9) => (withOperands ops State.reset).slot.operands
    (State.reset.Running ∧ State.reset.slot.state = .idle) ∧
    decodeCommand 0x07 = none ∧ decodeCommand 0xFF = none ∧
    64 ≤ (at_ #v[64, 0, 0, 0, 0, 0, 0, 0, 0])[0].toNat ∧ 64 ≤ (at_ #v[0, 64, 0, 0, 0, 0, 0, 0, 0])[1].toNat ∧
    8 ≤ (at_ #v[8, 0, 0, 0, 0, 0, 0, 0, 0])[0].toNat ∧ 16 ≤ (at_ #v[16, 0, 0, 0, 0, 0, 0, 0, 0])[0].toNat ∧
    ((at_ #v[63, 0, 0, 0, 0, 0, 0x0A, 0, 0])[0].toNat < 64 ∧
      ¬Decimal (operandDigits (at_ #v[63, 0, 0, 0, 0, 0, 0x0A, 0, 0]) 1 12)) ∧
    ((at_ #v[7, 0, 0, 0, 1, 0xA0, 0, 0, 0])[0].toNat < 8 ∧
      ¬(Decimal (operandDigits (at_ #v[7, 0, 0, 0, 1, 0xA0, 0, 0, 0]) 1 8) ∧
        Decimal (operandDigits (at_ #v[7, 0, 0, 0, 1, 0xA0, 0, 0, 0]) 5 8))) ∧
    ((at_ #v[63, 63, 0, 0, 0, 0, 0, 0, 0])[0].toNat < 64 ∧
      (at_ #v[63, 63, 0, 0, 0, 0, 0, 0, 0])[1].toNat = (at_ #v[63, 63, 0, 0, 0, 0, 0, 0, 0])[0].toNat) ∧
    (Decimal (operandDigits (at_ #v[63, 0, 0, 0, 0, 0, 0, 2, 0]) 1 12) ∧
      2 ≤ (at_ #v[63, 0, 0, 0, 0, 0, 0, 2, 0])[7].toNat) ∧
    (Decimal (operandDigits (at_ #v[7, 0, 0, 0, 1, 0, 0, 0, 1]) 1 8) ∧
      Decimal (operandDigits (at_ #v[7, 0, 0, 0, 1, 0, 0, 0, 1]) 5 8) ∧
      decimalValue (operandDigits (at_ #v[7, 0, 0, 0, 1, 0, 0, 0, 1]) 5 8) ≠ 0 ∧
      decimalValue (operandDigits (at_ #v[7, 0, 0, 0, 1, 0, 0, 0, 1]) 1 8) ≤
        decimalValue (operandDigits (at_ #v[7, 0, 0, 0, 1, 0, 0, 0, 1]) 5 8)) ∧
    decimalValue (operandDigits (at_ #v[7, 0, 0, 0, 0, 0, 0, 0, 0]) 1 8) = 0 ∧
    4 ≤ (at_ #v[4, 0, 0, 0, 0, 0, 0, 0, 0])[0].toNat ∧
    1440 ≤ 256 * (at_ #v[0, 0, 5, 0xA0, 0, 0, 0, 0, 0])[2].toNat + (at_ #v[0, 0, 5, 0xA0, 0, 0, 0, 0, 0])[3].toNat ∧
    60 ≤ (at_ #v[0, 0, 0, 0, 60, 0, 0, 0, 0])[4].toNat := by decide

theorem witness_CodeRefusedWhileBusy :
    let s := waiting (.add 5 1) State.reset
    let r := inFlight (.host (.add 5 1)) [.healthy] State.reset
    s.Running ∧ s.slot.state ≠ .idle ∧ r.Running ∧ r.slot.state ≠ .idle := by decide

theorem witness_CancelRemovesTheWaitingCommand :
    let s := waiting (.add 5 1) State.reset
    s.Running ∧ s.slot.state = .waiting (.add 5 1) := by decide

/-- In an idle slot and in a running one. -/
theorem witness_CancelIsLateOtherwise :
    State.reset.Running ∧ (∀ c, State.reset.slot.state ≠ .waiting c) ∧
      (inFlight (.host (.add 5 1)) [.healthy] State.reset).Running ∧
      ∀ c, (inFlight (.host (.add 5 1)) [.healthy] State.reset).slot.state ≠ .waiting c := by
  refine ⟨by decide, fun c h => ?_, by decide, fun c h => ?_⟩ <;> cases h

/-- With members and a queued group, over a COMPLETE and an OPEN bank; and with nothing to copy or to drain. -/
theorem witness_CaptureCommandTakesTheTrigger :
    let s := withEntry 8 { healthy 7 with member := true } (withInput 3 (running (counting #v[2, 0, 0, 0])
      [group 10 false 63]) (withBanks .complete .opened (some .a) State.reset))
    (s.Running ∧ s.slot.state = .idle ∧ s.capture.phase = .idle ∧ BanksReady s.capture ∧ OneEpoch s) ∧
    State.reset.Running ∧ State.reset.slot.state = .idle ∧ State.reset.capture.phase = .idle ∧
      BanksReady State.reset.capture ∧ OneEpoch State.reset := by decide

theorem witness_TriggerRefusedWhileCapturing :
    let s := (capturing .draining [] 0 State.reset)
    let t := s.setCapture { s.capture with capEnable := true }
    s.Running ∧ s.capture.phase ≠ .idle ∧ s.slot.state = .idle ∧ t.Running ∧ t.capture.phase ≠ .idle ∧
      t.capture.capLevel = false ∧ t.capture.capEnable = true ∧ t.capture.capLockout = false := by decide

theorem witness_OpenBankOpensTheEarlier :
    (State.reset.Running ∧ State.reset.slot.state = .idle ∧
      ((withBanks .complete .opened (some .a) State.reset).capture.bank .b).state = .opened) ∧
    (∀ id, (State.reset.capture.bank id).state ≠ .opened ∧ (State.reset.capture.bank id).state ≠ .complete) ∧
    (let s := withBanks .complete .complete (some .a) State.reset
     (∀ j, (s.capture.bank j).state ≠ .opened) ∧ (s.capture.bank .b).state = .complete ∧
      ((s.capture.bank BankId.b.other).state = .complete → s.capture.lastChosen = some BankId.b.other)) ∧
    (let s := withBanks .complete .free (some .a) State.reset
     (∀ j, (s.capture.bank j).state ≠ .opened) ∧ (s.capture.bank .a).state = .complete ∧
      ((s.capture.bank BankId.a.other).state = .complete → s.capture.lastChosen = some BankId.a.other)) := by
  refine ⟨by decide, fun id => by cases id <;> decide, ⟨fun j => by cases j <;> decide, by decide, by decide⟩,
    ⟨fun j => by cases j <;> decide, by decide, by decide⟩⟩

theorem witness_CloseBankFreesTheOpenBank :
    let s := withBanks .complete .opened (some .a) State.reset
    (s.Running ∧ s.slot.state = .idle ∧ (s.capture.bank .b).state = .opened ∧
      (s.capture.bank BankId.b.other).state ≠ .opened) ∧
    (∀ id, (State.reset.capture.bank id).state ≠ .opened) ∧ (s.capture.bank .a).state = .complete ∧
    exec .closeBank s = .next (after .closeBank s) := by
  refine ⟨by decide, fun id => by cases id <;> decide, by decide, exec_eq_after _ _⟩

/-- The last bin, new and unchanged. -/
theorem witness_SetTariffWritesTheBin :
    let s := withOperands #v[3, 0, 0, 0, 0, 0, 0, 0, 0] State.reset
    (s.Running ∧ s.slot.state = .idle ∧ s.slot.operands[0].toNat = (3 : Fin 4).val) ∧
      State.reset.slot.operands[0].toNat = (0 : Fin 4).val := by decide

/-- The last second of a day, with the enable clear, with an empty schedule, with a point at that minute in force, and
before every point of the schedule. -/
theorem witness_SetTimeSetsAndResolves :
    let s := withOperands #v[1, 2, 5, 0x9F, 59, 0, 0, 0, 0] (scheduled true State.reset)
    let r := withOperands #v[0, 0, 0, 59, 0, 0, 0, 0, 0] (scheduled true State.reset)
    let m := 256 * s.slot.operands[2].toNat + s.slot.operands[3].toNat
    let k := 256 * r.slot.operands[2].toNat + r.slot.operands[3].toNat
    (s.Running ∧ s.slot.state = .idle ∧ m < 1440 ∧ s.slot.operands[4].toNat < 60 ∧ s.tariff.enable = true) ∧
    (r.Running ∧ r.slot.state = .idle ∧ k < 1440 ∧ r.slot.operands[4].toNat < 60 ∧ r.tariff.enable = true) ∧
    ScheduleValid s.tariff ∧ ScheduleValid r.tariff ∧
    InForce s.tariff m 1 ∧ InForce r.tariff k 1 ∧ s.tariff.points[1].bin.toNat = (3 : Fin 4).val ∧
    State.reset.tariff.enable = false ∧ State.reset.tariff.count.toNat = 0 := by
  refine ⟨by decide, by decide, scheduled_valid true, scheduled_valid true, ?_, ?_, by decide, by decide, by decide⟩ <;>
    · unfold InForce; decide

/-- In IDLE; draining with another previous-epoch group; and draining with none but those of the last input. -/
theorem witness_ResetInputDiscardsTheQueue :
    let ops : Vector Byte 9 := #v[15, 0, 0, 0, 0, 0, 0, 0, 0]
    let i := running (counting #v[2, 0, 0, 0]) [group 10 false 63]
    let s := withOperands ops (withInput 15 i State.reset)
    let d := withOperands ops (withInput 15 i (capturing .draining [] 0 State.reset))
    let two := withInput 0 i d
    (s.Running ∧ s.slot.state = .idle ∧ s.slot.operands[0].toNat = (15 : Fin 16).val ∧
      s.capture.phase ≠ .draining) ∧
    (two.Running ∧ two.slot.state = .idle ∧ two.slot.operands[0].toNat = (15 : Fin 16).val ∧
      ∃ m, m ≠ 15 ∧ ∃ g ∈ (two.input m).queue, g.epoch ≠ two.capture.epoch) ∧
    (d.Running ∧ d.slot.state = .idle ∧ d.slot.operands[0].toNat = (15 : Fin 16).val ∧
      d.capture.phase = .draining ∧ d.previousInFlight = false ∧
      (∀ m, m ≠ 15 → ∀ g ∈ (d.input m).queue, g.epoch = d.capture.epoch) ∧ Filling d.capture .a) := by
  refine ⟨by decide, ⟨by decide, by decide, by decide, 0, by decide, group 10 false 63, by decide, by decide⟩, by decide⟩

/-! ### The engine -/

/-- A previous-epoch group and a current one on input 15, a capture of two entries after no copy, and a host command. -/
def busy (hostWait : Nat) (queue : List Group) (c : EngineCommand) : State :=
  { waiting c (withInput 15 (running (counting #v[2, 0, 0, 0]) queue) (capturing .copying [8, 10] 0 State.reset)) with
    engine := { op := none, hostWait := hostWait } }

/-- Each step of the grant order, and no request at all. -/
theorem witness_ArbiterFollowsTheGrantOrder :
    (¬held.Running ∧ (inFlight (.host (.add 5 1)) [.healthy] State.reset).engine.op ≠ none) ∧
    (let s := busy 8 [group 10 false 63] (.add 5 1)
     s.Running ∧ s.engine.op = none ∧ HostEligible s (.add 5 1) ∧ 8 ≤ s.engine.hostWait) ∧
    (let s := busy 7 [group 10 false 63] (.add 5 1)
     s.Running ∧ s.engine.op = none ∧ (∀ c, HostEligible s c → s.engine.hostWait < 8) ∧
      (s.input 15).queue.head? = some (group 10 false 63) ∧ (group 10 false 63).epoch ≠ s.capture.epoch ∧
      ∀ m, m < 15 → ¬PreviousHead s m) ∧
    (let s := busy 7 [group 9 true 63] (.add 5 1)
     s.Running ∧ s.engine.op = none ∧ (∀ c, HostEligible s c → s.engine.hostWait < 8) ∧
      (∀ n, ¬PreviousHead s n) ∧ CopyEligible s 8) ∧
    (let s := { busy 7 [group 9 true 63] (.add 5 1) with capture := State.reset.capture }
     let u := s.setCapture { s.capture with epoch := true }
     u.Running ∧ u.engine.op = none ∧ (∀ c, HostEligible u c → u.engine.hostWait < 8) ∧
      (∀ n, ¬PreviousHead u n) ∧ (∀ e, ¬CopyEligible u e) ∧
      (u.input 15).queue.head? = some (group 9 true 63) ∧ (group 9 true 63).epoch = u.capture.epoch ∧
      ¬Gated u (group 9 true 63).dest ∧ ∀ m, m < 15 → ¬CurrentHead u m) ∧
    (let s := waiting (.clearFlags 63) State.reset
     s.Running ∧ s.engine.op = none ∧ (∀ c, HostEligible s c → s.engine.hostWait < 8) ∧
      (∀ n, ¬PreviousHead s n) ∧ (∀ e, ¬CopyEligible s e) ∧ (∀ n, ¬CurrentHead s n) ∧
      HostEligible s (.clearFlags 63)) ∧
    (State.reset.Running ∧ State.reset.engine.op = none ∧ (∀ c, ¬HostEligible State.reset c) ∧
      (∀ n, ¬PreviousHead State.reset n) ∧ (∀ e, ¬CopyEligible State.reset e) ∧ ∀ n, ¬CurrentHead State.reset n) := by
  have prev : ∀ {s : State}, (∀ n, ((s.input n).queue.head?.all fun g => decide (g.epoch = s.capture.epoch)) = true) →
      ∀ n, ¬PreviousHead s n := fun h n => not_previousHead (h n)
  have cur : ∀ {s : State}, (∀ n, ((s.input n).queue.head?.all fun g =>
      decide (g.epoch ≠ s.capture.epoch) || s.gated g.dest) = true) → ∀ n, ¬CurrentHead s n :=
    fun h n => not_currentHead (h n)
  refine ⟨by decide, ⟨by decide, by decide, (eligibleHost_iff _ _).1 (by decide), by decide⟩,
    ⟨by decide, by decide, fun _ _ => by decide, by decide, by decide, ?_⟩,
    ⟨by decide, by decide, fun _ _ => by decide, prev (by decide), ?_⟩,
    ⟨by decide, by decide, fun _ _ => by decide, prev (by decide), not_copyEligible (by decide), by decide, by decide,
      ?_, ?_⟩,
    ⟨by decide, by decide, fun _ _ => by decide, prev (by decide), not_copyEligible (by decide), cur (by decide),
      (eligibleHost_iff _ _).1 (by decide)⟩,
    ⟨by decide, by decide, not_hostEligible (by decide), prev (by decide), not_copyEligible (by decide),
      cur (by decide)⟩⟩
  · intro m hm
    have h : ∀ m : Fin 16, m < 15 → ((busy 7 [group 10 false 63] (.add 5 1)).input m).queue.head? = none := by decide
    exact not_previousHead (by rw [h m hm]; rfl)
  · obtain ⟨e, he, h⟩ := (eligibleCopy_iff (busy 7 [group 9 true 63] (.add 5 1)) (.copy 0 8)).1 (by decide)
    injection h with _ h; subst h; exact he
  · rw [← gated_iff]; decide
  · intro m hm
    apply not_currentHead
    revert m; decide

/-- A previous-epoch group on the last input with a host command waiting and without one; a COPY likewise. -/
theorem witness_ApplyAndCopyGrantsBeginTheOperation :
    (busy 7 [group 10 false 63] (.add 5 1)).arbiter = some (.apply 15 (group 10 false 63)) ∧
    HostEligible (busy 7 [group 10 false 63] (.add 5 1)) (.add 5 1) ∧
    (let s := withInput 0 (running (counting #v[2, 0, 0, 0]) [group 10 false 63]) State.reset
     s.arbiter = some (.apply 0 (group 10 false 63)) ∧ ∀ c, ¬HostEligible s c) ∧
    (busy 7 [group 9 true 63] (.add 5 1)).arbiter = some (.copy 0 8) ∧
    HostEligible (busy 7 [group 9 true 63] (.add 5 1)) (.add 5 1) ∧
    (let s := capturing .copying [8, 10] 0 State.reset
     s.arbiter = some (.copy 0 8) ∧ ∀ c, ¬HostEligible s c) := by
  exact ⟨by decide, (eligibleHost_iff _ _).1 (by decide), ⟨by decide, not_hostEligible (by decide)⟩, by decide,
    (eligibleHost_iff _ _).1 (by decide), by decide, not_hostEligible (by decide)⟩

/-- The entries a verification may meet: marked, healthy, with a bad check and with a digit that is not decimal. -/
theorem witness_Verified :
    ({ healthy 0 with damaged := true, suspense := some 0 } : Entry).damaged = true ∧
    ((healthy 999999999999).damaged = false ∧ Decimal (healthy 999999999999).digits ∧
      (healthy 999999999999).check = checkDigit (healthy 999999999999).digits) ∧
    (let en : Entry := { healthy 1000 with check := 0 }
     en.damaged = false ∧ Decimal en.digits ∧ en.check ≠ checkDigit en.digits) ∧
    (let en : Entry := { healthy 0 with digits := (Vector.replicate 12 (0 : Nibble)).set 11 10 }
     en.damaged = false ∧ ¬Decimal en.digits) := by decide

/-- A command that verifies none, one that verifies one, and a transfer. -/
theorem witness_HostGrantBeginsTheOperation :
    ((waiting (.disarmTrip 7) State.reset).arbiter = some (.host (.disarmTrip 7)) ∧ VerifiesNone (.disarmTrip 7) []) ∧
    ((waiting (.clearFlags 63) State.reset).arbiter = some (.host (.clearFlags 63)) ∧
      VerifiesNone (.clearFlags 63) [63]) ∧
    ((waiting (.repair 63 0 true) State.reset).arbiter = some (.host (.repair 63 0 true)) ∧
      VerifiesOne (.repair 63 0 true) .repair 63) ∧
    (waiting (.transfer 0 63) State.reset).arbiter = some (.host (.transfer 0 63)) ∧ (0 : Fin 64) ≠ 63 :=
  ⟨⟨by decide, rfl⟩, ⟨by decide, rfl⟩, ⟨by decide, rfl, rfl⟩, by decide, by decide⟩

/-- From a count of 7, one more grant to another request may pass: the eighth. -/
theorem witness_HostWaitsAtMostEightGrants :
    (busy 7 [group 10 false 63] (.add 5 1)).engine.hostWait ≤ 8 ∧
    grantsWaited (.add 5 1) [.applyGrant, .applyCompletion, .applyGrant, .copyGrant]
      (busy 7 [group 10 false 63, group 8 false 1] (.add 5 1)) = some 1 ∧
    grantsWaited (.add 5 1) [.applyGrant, .applyCompletion, .applyGrant, .applyCompletion, .copyGrant]
      (busy 0 [group 10 false 63, group 8 false 1] (.add 5 1)) = some 3 := by decide

theorem witness_AddSubtractCompletion :
    let s := inFlight (.host (.add 63 999999999999)) [.healthy] (withEntry 63 (healthy 1) State.reset)
    let u := inFlight (.host (.subtract 63 1)) [.healthy] (withEntry 63 (healthy 0) State.reset)
    s.Running ∧ s.engine.op = some { work := .host (.add 63 999999999999), found := [.healthy] } ∧
      u.Running ∧ u.engine.op = some { work := .host (.subtract 63 1), found := [.healthy] } := by decide

theorem witness_PresetAndClearFlagsCompletion :
    let s := inFlight (.host (.preset 63 999999999999)) [.healthy] State.reset
    let u := inFlight (.host (.clearFlags 0)) [] State.reset
    s.Running ∧ s.engine.op = some { work := .host (.preset 63 999999999999), found := [.healthy] } ∧
      u.Running ∧ u.engine.op = some { work := .host (.clearFlags 0), found := [] } := by decide

theorem witness_TransferCompletion :
    let s := inFlight (.host (.transfer 63 0)) [.healthy, .healthy] (withEntry 63 (healthy 999999999999) State.reset)
    s.Running ∧ s.engine.op = some { work := .host (.transfer 63 0), found := [.healthy, .healthy] } ∧
      (63 : Fin 64) ≠ 0 := by decide

/-- Without and with the fold. -/
theorem witness_RepairCompletion :
    let en : Entry := { healthy 0 with damaged := true, suspense := some 999999999999 }
    let s := inFlight (.host (.repair 63 1 false)) [.damaged] (withEntry 63 en State.reset)
    let u := inFlight (.host (.repair 63 1 true)) [.damaged] (withEntry 63 en State.reset)
    s.Running ∧ s.engine.op = some { work := .host (.repair 63 1 false), found := [.damaged] } ∧
      u.Running ∧ u.engine.op = some { work := .host (.repair 63 1 true), found := [.damaged] } := by decide

theorem witness_RefusedOperationsWriteNothing :
    let op := fun (c : EngineCommand) (found : List Condition) =>
      (inFlight (.host c) found State.reset).Running ∧
        (inFlight (.host c) found State.reset).engine.op = some { work := .host c, found := found }
    (op (.preset 63 1) [.damaged] ∧ op (.add 63 1) [.damaged] ∧ op (.subtract 63 1) [.damaged] ∧
      op (.transfer 63 0) [.healthy, .damaged] ∧ op (.transfer 63 0) [.damaged, .healthy] ∧
      op (.repair 63 1 true) [.healthy]) ∧
    (.damaged ∈ [Condition.damaged] ∧ .damaged ∈ [Condition.healthy, .damaged] ∧
      .damaged ∈ [Condition.damaged, .healthy] ∧ .damaged ∉ [Condition.healthy]) := by decide

theorem witness_ArmAndDisarmCompletion :
    let s := inFlight (.host (.armTrip 7 99999999 99999998)) [] State.reset
    let u := inFlight (.host (.disarmTrip 4)) [] (withTrip .tripped 0 0 5 State.reset)
    s.Running ∧ s.engine.op = some { work := .host (.armTrip 7 99999999 99999998), found := [] } ∧
      u.Running ∧ u.engine.op = some { work := .host (.disarmTrip 4), found := [] } := by decide

/-- An APPLY of this group in flight from input 15, with counter 4 as given. -/
def applying (g : Group) (found : Condition) (state : TripState) (remaining prewarn overshoot : Nat) : State :=
  inFlight (.apply 15 g) [found] (withTrip state remaining prewarn overshoot State.reset)

/-- Both senses on an entry found HEALTHY and on one found DAMAGED. -/
theorem witness_ApplyCarriesTheAmount :
    let sub : Group := { group 63 false 1 with sense := .subtract }
    let op := fun (g : Group) (found : Condition) => (applying g found .idle 0 0 0).Running ∧
      (applying g found .idle 0 0 0).engine.op = some { work := .apply 15 g, found := [found] }
    op (group 63 false 63) .healthy ∧ (group 63 false 63).sense = .add ∧ op (group 63 false 63) .damaged ∧
      op sub .healthy ∧ sub.sense = .subtract ∧ op sub .damaged := by decide

/-- Each clause at the boundary of its range: an amount of 126 (63 pulses of weight 2) or 2 against counter 4. -/
theorem witness_ApplyMovesTheLinkedCounter :
    let add := group 63 false 63
    let sub : Group := { group 63 false 1 with sense := .subtract }
    let c := fun (state : TripState) (remaining prewarn overshoot : Nat) =>
      (applying add .healthy state remaining prewarn overshoot).trip 4
    ((applying add .healthy .armed 127 0 0).Running ∧
      (applying add .healthy .armed 127 0 0).engine.op = some { work := .apply 15 add, found := [.healthy] } ∧
      exec .applyCompletion (applying add .healthy .armed 127 0 0) =
        .next (after .applyCompletion (applying add .healthy .armed 127 0 0)) ∧ add.link = some 4) ∧
    ((applying sub .healthy .armed 1 0 0).engine.op = some { work := .apply 15 sub, found := [.healthy] } ∧
      exec .applyCompletion (applying sub .healthy .armed 1 0 0) =
        .next (after .applyCompletion (applying sub .healthy .armed 1 0 0)) ∧
      sub.sense = .subtract ∧ sub.link = some 4) ∧
    ({ add with link := none } : Group).link = none ∧ add.sense = .add ∧ add.count * add.weight = 126 ∧
    sub.count * sub.weight = 2 ∧
    (c .idle 5 0 7).state = .idle ∧
    ((c .armed 127 0 0).state = .armed ∧ 126 < (c .armed 127 0 0).remaining ∧ (c .armed 127 0 0).prewarn = 0) ∧
    ((c .armed 128 1 0).state = .armed ∧ 126 < (c .armed 128 1 0).remaining ∧
      (c .armed 128 1 0).prewarn < (c .armed 128 1 0).remaining - 126) ∧
    (126 < (c .armed 127 1 0).remaining ∧ 0 < (c .armed 127 1 0).prewarn ∧
      (c .armed 127 1 0).remaining - 126 ≤ (c .armed 127 1 0).prewarn) ∧
    ((c .prewarn 127 500 0).state = .prewarn ∧ 126 < (c .prewarn 127 500 0).remaining) ∧
    ((c .armed 126 0 0).remaining ≤ 126 ∧ (c .prewarn 126 500 0).remaining ≤ 126) ∧
    (c .tripped 0 0 99999999).state = .tripped ∧
    (min 99999999 ((c .prewarn 5 7 0).remaining + 2) ≤ (c .prewarn 5 7 0).prewarn) ∧
    ((c .prewarn 5 6 0).prewarn < min 99999999 ((c .prewarn 5 6 0).remaining + 2)) := by
  refine ⟨⟨by decide, by decide, exec_eq_after _ _, by decide⟩, ⟨by decide, exec_eq_after _ _, by decide⟩, by decide⟩

/-- The three alternatives of the counter, in IDLE and at the last previous-epoch group of a drain. -/
theorem witness_ApplyQueuesItsNoticesInOrder :
    let g := group 63 false 63
    let s := applying g .healthy .armed 126 0 0
    let p := applying g .damaged .armed 127 1 0
    let q := applying { g with link := none } .healthy .armed 127 1 0
    let d := inFlight (.apply 15 g) [.healthy] (capturing .draining [] 0 State.reset)
    (s.Running ∧ s.engine.op = some { work := .apply 15 g, found := [.healthy] } ∧ s.capture.phase ≠ .draining ∧
      (s.trip 4).state = .armed ∧ (s.trip 4).remaining ≤ g.count * g.weight ∧ g.link = some 4 ∧ g.sense = .add) ∧
    (p.Running ∧ p.engine.op = some { work := .apply 15 g, found := [.damaged] } ∧ (p.trip 4).state = .armed ∧
      g.count * g.weight < (p.trip 4).remaining ∧ 0 < (p.trip 4).prewarn ∧
      (p.trip 4).remaining - g.count * g.weight ≤ (p.trip 4).prewarn) ∧
    (q.Running ∧ q.engine.op = some { work := .apply 15 { g with link := none }, found := [.healthy] }) ∧
    (d.Running ∧ d.engine.op = some { work := .apply 15 g, found := [.healthy] } ∧ d.capture.phase = .draining ∧
      QueuesCurrent d ∧ Filling d.capture .a) ∧
    ∀ u ∈ [s, p, q, d], exec .applyCompletion u = .next (after .applyCompletion u) := by
  exact ⟨by decide, by decide, by decide, by decide, fun u _ => exec_eq_after _ u⟩

/-- Not the last copy; the last one with a previous-epoch group queued, and with none. -/
theorem witness_CopyFillsTheBank :
    let two := inFlight (.copy 0 8) [.damaged] (capturing .copying [8, 10] 0 State.reset)
    let one := inFlight (.copy 0 63) [.healthy] (capturing .copying [63] 0 State.reset)
    let drains := withInput 15 (running (counting #v[2, 0, 0, 0]) [group 9 false 1]) one
    (two.Running ∧ two.engine.op = some { work := .copy (0 : Fin 64).val 8, found := [.damaged] } ∧
      Filling two.capture .a ∧ two.capture.phase = .copying ∧ (0 : Fin 64).val = two.capture.copiesMade ∧
      (0 : Fin 64).val + 1 ≠ two.capture.list.length) ∧
    (one.Running ∧ one.engine.op = some { work := .copy (0 : Fin 64).val 63, found := [.healthy] } ∧
      Filling one.capture .a ∧ one.capture.phase = .copying ∧ (0 : Fin 64).val = one.capture.copiesMade ∧
      (0 : Fin 64).val + 1 = one.capture.list.length ∧ QueuesCurrent one) ∧
    (drains.Running ∧ drains.engine.op = some { work := .copy (0 : Fin 64).val 63, found := [.healthy] } ∧
      Filling drains.capture .a ∧ drains.capture.phase = .copying ∧
      (0 : Fin 64).val = drains.capture.copiesMade ∧
      (0 : Fin 64).val + 1 = drains.capture.list.length ∧ ¬QueuesCurrent drains) := by decide

/-! ### Lines and timers -/

/-- An input of weight 2 with this queue, tariffed from base 60 in the second line. -/
def line (tariffed : Bool) (queue : List Group) : Input :=
  running { counting #v[2, 0, 0, 0] with base := if tariffed then 60 else 63, tariffed := tariffed, edge := .both,
                                         lockout := 255 } queue

/-- What makes an edge of input 15 a qualified one to this destination. -/
abbrev Qualified (s : State) (level : Bool) (dest : Fin 64) : Prop :=
  s.Running ∧ (s.input 15).level = !level ∧ (s.input 15).config.mode = .count ∧
    ((s.input 15).config.edge = .rise → level = true) ∧ ((s.input 15).config.edge = .fall → level = false) ∧
    (s.input 15).lockout = false ∧
    ((s.input 15).config.tariffed = true → dest.val = (s.input 15).config.base.val + s.tariff.bin.val) ∧
    ((s.input 15).config.tariffed = false → dest = (s.input 15).config.base)

/-- An empty queue; a matching tail with one place left, a full one, and one of the other epoch with three groups. -/
theorem witness_AcceptedPulseJoinsOrOpensAGroup :
    let g : Group := { dest := 63, epoch := false, weight := 2, sense := .add, link := none, count := 62 }
    let pulse : Group := { g with count := 1 }
    let empty := { withInput 15 (line true []) State.reset with tariff := { State.reset.tariff with bin := 3 } }
    let joins := withInput 15 (line false [g]) State.reset
    let full := withInput 15 (line false [{ g with count := 63 }]) State.reset
    let old := withInput 15 (line false [g, g, { g with epoch := true }]) State.reset
    (Qualified empty true 63 ∧ (empty.input 15).queue = []) ∧
    (Qualified joins true 63 ∧ (joins.input 15).queue = [] ++ [g] ∧ { g with count := 1 } = pulse ∧ g.count < 63) ∧
    (Qualified full true 63 ∧ (full.input 15).queue = [] ++ [{ g with count := 63 }] ∧
      63 ≤ ({ g with count := 63 } : Group).count ∧ (full.input 15).queue.length < 4) ∧
    (Qualified old true 63 ∧ (old.input 15).queue = [g, g] ++ [{ g with epoch := true }] ∧
      ({ g with epoch := true, count := 1 } : Group) ≠ pulse ∧ (old.input 15).queue.length < 4) := by
  refine ⟨⟨?_, ?_⟩, ⟨?_, ?_⟩, ⟨?_, ?_⟩, ⟨?_, ?_⟩⟩ <;> decide

/-- Four groups, the last full, and the last of the other epoch. -/
theorem witness_DroppedPulseOverruns :
    let g : Group := { dest := 63, epoch := false, weight := 2, sense := .add, link := none, count := 63 }
    let pulse : Group := { g with count := 1 }
    let old : Group := { g with epoch := true, count := 1 }
    let s := withInput 15 { line false (List.replicate 4 g) with dropped := 65535 } State.reset
    let u := withInput 15 (line false [g, g, g, old]) State.reset
    (Qualified s true 63 ∧ (s.input 15).queue = [g, g, g] ++ [g] ∧ 4 ≤ (s.input 15).queue.length ∧ 63 ≤ g.count) ∧
    (Qualified u true 63 ∧ (u.input 15).queue = [g, g, g] ++ [old] ∧ 4 ≤ (u.input 15).queue.length ∧
      { old with count := 1 } ≠ pulse) := by decide

theorem witness_IgnoredAndRejectedEdges :
    let rise := withInput 15 (running (counting #v[2, 0, 0, 0]) []) State.reset
    let fall := withInput 15 { running { counting #v[2, 0, 0, 0] with edge := .fall } [] with lockout := true }
      State.reset
    let locked := withInput 15 { running (counting #v[2, 0, 0, 0]) [] with lockout := true, rejects := 255 } State.reset
    (rise.input 15).level = false ∧ ¬held.Running ∧ (State.reset.input 15).config.mode = .off ∧
    (rise.input 15).config.edge = .rise ∧ (fall.input 15).config.edge = .fall ∧
    (locked.Running ∧ (locked.input 15).level = !true ∧ (locked.input 15).config.mode = .count ∧
      ((locked.input 15).config.edge = .rise → true = true) ∧
      ((locked.input 15).config.edge = .fall → true = false) ∧ (locked.input 15).lockout = true) := by decide

/-- Each reason to ignore an edge; and an enabled rise with the choice between two COMPLETE banks. -/
theorem witness_CapEdgeTriggers :
    let on := (withBanks .complete .complete (some .b) State.reset)
    let s := on.setCapture { on.capture with capEnable := true }
    (State.reset.setCapture { State.reset.capture with capLevel := true }).capture.capLevel = true ∧
    ¬held.Running ∧ State.reset.capture.capEnable = false ∧
    (State.reset.setCapture { State.reset.capture with capLockout := true }).capture.capLockout = true ∧
    (s.Running ∧ s.capture.capLevel = false ∧ s.capture.capEnable = true ∧ s.capture.capLockout = false ∧
      s.capture.phase = .idle ∧ BanksReady s.capture ∧ OneEpoch s) := by decide

theorem witness_TimebaseCounts :
    ({ State.reset with supply := { State.reset.supply with hold := .cold } } : State).supply.hold = .cold ∧
    held.supply.hold ≠ .cold ∧ (timed 0 0 32766 held).tariff.phase < 32767 ∧
    (timed 0 58 32767 held).tariff.phase = 32767 ∧ (timed 0 58 32767 held).tariff.second < 59 ∧
    (timed 0 59 0 held).tariff.second = 59 := by decide

theorem witness_ExpiriesAreRunsOfTimebaseEdges :
    let s := timed 1439 59 32767 State.reset
    s.tariff.phase < 32768 ∧ s.tariff.second < 60 ∧ s.tariff.minute < 1440 := by decide

/-- At the last minute of the day with no point at minute 0; at the minute before a flagged point, in each capture state. -/
theorem witness_MinuteExpirySwitches :
    let s := timed 1439 59 0 (scheduled true State.reset)
    let u := timed 1438 59 0 (scheduled true State.reset)
    let plain := timed 59 59 0 (scheduled true State.reset)
    let busyOne := timed 1438 59 0 (scheduled true (capturing .draining [] 0 State.reset))
    let down := timed 1438 59 0 (scheduled true held)
    (s.supply.hold ≠ .cold ∧ s.tariff.minute < 1440 ∧ s.tariff.count.toNat ≤ 12 ∧
      ∀ i : Fin 12, ¬(i.val < s.tariff.count.toNat ∧ s.tariff.points[i.val].minute.toNat = 0)) ∧
    State.reset.tariff.enable = false ∧ ScheduleValid u.tariff ∧
    (u.supply.hold ≠ .cold ∧ u.tariff.minute < 1440 ∧ u.tariff.enable = true ∧
      (1 < u.tariff.count.toNat ∧ u.tariff.points[1].minute.toNat = u.tariff.minute + 1) ∧
      u.tariff.points[1].bin.toNat = (3 : Fin 4).val ∧ u.Running ∧ u.tariff.points[1].capture = true ∧
      u.capture.phase = .idle ∧ BanksReady u.capture ∧ OneEpoch u) ∧
    (plain.supply.hold ≠ .cold ∧ plain.tariff.enable = true ∧
      (0 < plain.tariff.count.toNat ∧ plain.tariff.points[0].minute.toNat = plain.tariff.minute + 1) ∧
      plain.Running ∧ plain.tariff.points[0].capture = false) ∧
    (busyOne.Running ∧ busyOne.capture.phase ≠ .idle ∧ busyOne.tariff = u.tariff) ∧
    (¬down.Running ∧ down.supply.hold ≠ .cold ∧ down.tariff = u.tariff) := by
  refine ⟨by decide, by decide, scheduled_valid true, by decide⟩

/-! ### Notices, the schedule and the window -/

theorem witness_NoticeIsStoredOrCounted :
    (withNotices 15 0 State.reset).notices.queue.length < 16 ∧ 16 ≤ (withNotices 16 254 State.reset).notices.queue.length ∧
      (withNotices 16 254 State.reset).notices.lost < 255 ∧ (withNotices 16 255 State.reset).notices.lost = 255 := by
  decide

theorem witness_PopRemovesTheHead :
    (State.reset.Running ∧ State.reset.notices.queue = []) ∧
    ((withNotices 16 0 State.reset).notices.queue = aNotice :: List.replicate 15 aNotice ∧
      (withNotices 16 0 State.reset).notices.lost = 0) ∧
    ((withNotices 16 255 State.reset).notices.queue = aNotice :: List.replicate 15 aNotice ∧
      (withNotices 16 255 State.reset).notices.queue.length = 16 ∧
      0 < (withNotices 16 255 State.reset).notices.lost) := by decide

/-- A running and a held part, a head notice and none, and the offsets of each group at their ends. -/
theorem witness_OutputLinesFollowTheState :
    ¬held.Running ∧ State.reset.Running ∧ (0x04 : Offset).toNat = 4 + (0 : Fin 9).val ∧
      (0x0C : Offset).toNat = 4 + (8 : Fin 9).val ∧ State.reset.notices.queue = [] ∧
      (withNotices 16 255 State.reset).notices.queue = aNotice :: List.replicate 15 aNotice ∧
      (0x0D ≤ (0x0D : Offset).toNat ∧ (0x11 : Offset).toNat ≤ 0x11) ∧ (0x01 : Offset).toNat = 0x01 ∧
      (0x12 : Offset).toNat = 0x12 ∧ 0x28 ≤ (0x28 : Offset).toNat ∧ 0x28 ≤ (0x3F : Offset).toNat ∧
      Instr.resetInput ∈ writeAccesses 0x15 0xFF ∧ Instr.winDataWrite 0xFF ∈ writeAccesses 0x15 0xFF := by decide

/-- Set, invalid (two points at one minute), empty, and valid with the last point in force before the first. -/
theorem witness_ScheduleEnableValidatesAndResolves :
    let bad : State := { State.reset with tariff := { State.reset.tariff with count := 2 } }
    let s := timed 59 0 0 (scheduled false State.reset)
    (State.reset.Running ∧ (scheduled true State.reset).tariff.enable = true) ∧
    (bad.Running ∧ bad.tariff.enable = false ∧ ¬ScheduleValid bad.tariff) ∧
    (State.reset.tariff.enable = false ∧ State.reset.tariff.count.toNat = 0) ∧
    (s.Running ∧ s.tariff.enable = false ∧ ScheduleValid s.tariff ∧ InForce s.tariff s.tariff.minute 1 ∧
      s.tariff.points[1].bin.toNat = (3 : Fin 4).val) := by
  refine ⟨by decide, ⟨by decide, by decide, ?_⟩, by decide, ⟨by decide, by decide, scheduled_valid false, ?_,
    by decide⟩⟩
  · rw [← valid_iff]; decide
  · unfold InForce; decide

theorem witness_TimeDayHiReadLoadsTheHold : (timed 1439 59 32767 State.reset).Running := by decide

theorem witness_PointerWritesStoreAndInvalidate : (pointed 4 12 0 State.reset).Running := by decide

/-- A latch at its last byte; a present byte with no latch, in an entry and in the header of an OPEN bank; an absent one;
and the flags byte of a held entry. -/
theorem witness_WinDataReadServesTheLatch :
    let bytes := entryBytes (healthy 4000) false
    let entry := pointed 0 63 13 (withEntry 63 (healthy 4000) State.reset)
    let latched := entry.setWindow { entry.window with latch := some { space := 0, index := 63, bytes := bytes } }
    let header := pointed 3 0 0 (withBanks .opened .complete (some .a) State.reset)
    let absent := pointed 4 13 0 State.reset
    let flags := pointed 0 63 7 (inFlight (.host (.clearFlags 63)) [] State.reset)
    (flags.Running ∧ flags.window.latch = none ∧ flags.window.space.toNat = 0 ∧
      flags.window.index.toNat = (63 : Fin 64).val ∧ flags.window.offset.toNat = 7 ∧ 63 ∈ flags.table.held) ∧
    exec .winDataRead flags = .next (after .winDataRead flags) ∧
    (latched.Running ∧ latched.window.latch = some { space := 0, index := 63, bytes := bytes } ∧
      latched.window.offset.toNat < bytes.length) ∧
    (entry.Running ∧ entry.window.latch = none ∧
      ¬(entry.capture.bankA.state = .opened ∧ entry.capture.bankB.state = .opened) ∧ Present entry bytes) ∧
    (header.Running ∧ header.window.latch = none ∧
      ¬(header.capture.bankA.state = .opened ∧ header.capture.bankB.state = .opened) ∧
      Present header (headerBytes .a header.capture.bankA.header)) ∧
    (absent.Running ∧ absent.window.latch = none ∧
      ¬(absent.capture.bankA.state = .opened ∧ absent.capture.bankB.state = .opened) ∧
      ∀ b, ¬Present absent b) := by
  refine ⟨by decide, exec_eq_after _ _, by decide, ⟨by decide, by decide, by decide, ?_⟩, ⟨by decide, by decide, by decide, ?_⟩,
    ⟨by decide, by decide, by decide, not_present (by decide) (by decide)⟩⟩
  · rw [← addressed_iff _ (by decide)]; decide
  · rw [← addressed_iff _ (by decide)]; decide

/-- A pending commit; an absent byte; the last read-only byte of an entry; the member byte; the byte before a commit, with
the buffer closed and with it open. -/
theorem witness_WinDataWriteCollects :
    let pendingCommit : State := { State.reset with
      table := { State.reset.table with deferred := some { entry := 5, digits := Vector.replicate 12 0 } } }
    let absent := pointed 0 64 0 State.reset
    let fixed := pointed 0 63 13 State.reset
    let member := pointed 0 63 7 State.reset
    let before := pointed 0 63 4 State.reset
    let opened := before.setWindow { before.window with
      buffer := some { space := 0, index := 63, bytes := List.replicate 6 0 } }
    let ready := fun (s : State) => s.Running ∧
      ¬(s.capture.bankA.state = .opened ∧ s.capture.bankB.state = .opened) ∧ s.table.deferred = none
    let bytes := entryBytes (healthy 0) false
    (pendingCommit.Running ∧ pendingCommit.table.deferred ≠ none) ∧ (ready absent ∧ ∀ b, ¬Present absent b) ∧
    (ready fixed ∧ Present fixed bytes ∧ (∀ e, ¬AtMember fixed.window e) ∧ ∀ part, ¬InPart fixed.window part) ∧
    (ready member ∧ Present member bytes ∧ AtMember member.window 63) ∧
    (ready before ∧ Present before bytes ∧ InPart before.window (.rawValue 63) ∧
      before.window.offset.toNat ≠ (WindowPart.rawValue 63).commitOffset ∧ before.window.buffer = none) ∧
    (ready opened ∧ Present opened bytes ∧ InPart opened.window (.rawValue 63) ∧
      opened.window.buffer = some { space := 0, index := 63, bytes := List.replicate 6 0 }) := by
  have present : ∀ s : State, ¬(s.capture.bankA.state = .opened ∧ s.capture.bankB.state = .opened) →
      s.addressed = some (entryBytes (healthy 0) false) → Present s (entryBytes (healthy 0) false) :=
    fun s h ha => (addressed_iff s h _).1 ha
  refine ⟨by decide, ⟨by decide, not_present (by decide) (by decide)⟩,
    ⟨by decide, present _ (by decide) (by decide), fun e h => ?_, fun p h => ?_⟩,
    ⟨by decide, present _ (by decide) (by decide), (memberAt_iff _ _).1 (by decide)⟩,
    ⟨by decide, present _ (by decide) (by decide), (partAt_iff _ _).1 (by decide), by decide, by decide⟩,
    ⟨by decide, present _ (by decide) (by decide), (partAt_iff _ _).1 (by decide), by decide⟩⟩
  · rw [← memberAt_iff] at h; revert h; decide +revert
  · rw [← partAt_iff] at h; have hn : partAt 0 63 13 = none := by decide
    exact absurd (hn.symm.trans h) (by simp)

/-- Bytes that spell no configuration; OFF to OFF, to COUNT (tariffed from base 60) and to a COUNT refused for each reason;
COUNT to OFF and to COUNT. -/
theorem witness_ConfigurationCommit :
    let buffered := fun (bytes : List Byte) (i : Input) =>
      (pointed 1 15 8 (withInput 15 i State.reset)).setWindow
        { (pointed 1 15 8 State.reset).window with buffer := some { space := 1, index := 15, bytes := bytes } }
    let off := Input.afterReset InputConfig.cold false
    let on := running (counting #v[2, 0, 0, 0]) []
    let ready := fun (s : State) => s.Running ∧ s.table.deferred = none ∧ s.window.space.toNat = 1 ∧
      s.window.index.toNat = (15 : Fin 16).val ∧ s.window.offset.toNat = 8
    let spells := fun (bytes : List Byte) (i : Input) => decodeConfig
      (collected (buffered bytes i).window (configBytes ((buffered bytes i).input 15).config) 0x87)
    let c : InputConfig := { mode := .count, edge := .rise, sense := .add, weight := #v[1, 0, 0, 0], lockout := 0,
                             base := 60, tariffed := true, link := some 7 }
    (ready (buffered [0, 1, 0, 0, 1, 0, 60, 1, 0] off) ∧ ready (buffered [0, 1, 0, 0, 1, 0, 60, 1, 0] on) ∧
      (off.config.mode = .off ∧ on.config.mode = .count)) ∧
    spells [2, 1, 0, 0, 1, 0, 60, 1, 0] off = none ∧
    spells [0, 1, 0, 0, 1, 0, 60, 1, 0] off = some { c with mode := .off } ∧
    (spells [1, 1, 0, 0, 1, 0, 60, 1, 0] off = some c ∧ Decimal c.weight ∧ decimalValue c.weight ≠ 0 ∧
      c.base.val ≤ 60) ∧
    (spells [1, 1, 0, 0, 0, 0, 60, 1, 0] off = some { c with weight := #v[0, 0, 0, 0] } ∧
      decimalValue (#v[0, 0, 0, 0] : Vector Nibble 4) = 0) ∧
    (spells [1, 1, 0, 0, 10, 0, 60, 1, 0] off = some { c with weight := #v[10, 0, 0, 0] } ∧
      ¬Decimal (#v[10, 0, 0, 0] : Vector Nibble 4)) ∧
    (spells [1, 1, 0, 0, 1, 0, 61, 1, 0] off = some { c with base := 61 } ∧ 60 < (61 : Fin 64).val) ∧
    spells [0, 1, 0, 0, 1, 0, 60, 1, 0] on = some { c with mode := .off } ∧
    spells [1, 1, 0, 0, 1, 0, 60, 1, 0] on = some c := by decide

/-- The last entry, free and held; the last point and the count, with the enable clear and set. -/
theorem witness_RawValueAndScheduleCommits :
    let v := pointed 0 63 5 State.reset
    let h := pointed 0 63 5 (inFlight (.host (.clearFlags 63)) [] State.reset)
    let p := pointed 4 11 2 State.reset
    let c := pointed 4 12 0 (scheduled true State.reset)
    (v.Running ∧ v.table.deferred = none ∧ v.window.space.toNat = 0 ∧ v.window.index.toNat = (63 : Fin 64).val ∧
      v.window.offset.toNat = 5 ∧ 63 ∉ v.table.held) ∧
    (h.Running ∧ h.table.deferred = none ∧ h.window.space.toNat = 0 ∧ h.window.index.toNat = (63 : Fin 64).val ∧
      h.window.offset.toNat = 5 ∧ 63 ∈ h.table.held) ∧
    (p.Running ∧ p.table.deferred = none ∧ p.window.space.toNat = 4 ∧ p.window.index.toNat = (11 : Fin 12).val ∧
      p.window.offset.toNat = 2 ∧ p.tariff.enable = false) ∧
    (c.Running ∧ c.table.deferred = none ∧ c.window.space.toNat = 4 ∧ c.window.index.toNat = 12 ∧
      c.window.offset.toNat = 0 ∧ c.window.buffer = none ∧ c.tariff.enable = true) ∧
    (pointed 4 12 0 State.reset).tariff.enable = false ∧ (scheduled true State.reset).tariff.enable = true := by decide

/-- The first and last operand register, each group of read-only registers at both ends, and the flag bytes. -/
theorem witness_RegisterWritesReachTheirRegister :
    State.reset.Running ∧ (0x04 : Offset).toNat = 4 + (0 : Fin 9).val ∧ (0x0C : Offset).toNat = 4 + (8 : Fin 9).val ∧
    (0xFE : Byte).getLsbD 0 = false ∧ ((0xFC : Byte).getLsbD 0 = false ∧ (0xFC : Byte).getLsbD 1 = false) ∧
    ((0x03 : Byte).getLsbD 0 = true ∧ (0x03 : Byte).getLsbD 1 = true) ∧ 0x28 ≤ (0x3F : Offset).toNat ∧
    0x28 ≤ (0x28 : Offset).toNat ∧ (0x0D ≤ (0x0D : Offset).toNat ∧ (0x11 : Offset).toNat ≤ 0x11) ∧
    (0x02 : Offset).toNat = 0x02 ∧ (0x03 : Offset).toNat = 0x03 ∧ (0x13 : Offset).toNat = 0x13 ∧
    (0x14 : Offset).toNat = 0x14 ∧ (0x19 ≤ (0x19 : Offset).toNat ∧ (0x22 : Offset).toNat ≤ 0x22) := by decide

/-- A warm reset in the middle of an operation, with notices queued; a held part whose time and levels have moved; and
a part held in cold reset. -/
theorem witness_WarmResetKeepsTheBackupDomain :
    (withNotices 16 255 (inFlight (.apply 15 (group 63 false 63)) [.healthy] State.reset)).Running ∧
      (timed 1439 59 32767 (withInput 15 { Input.afterReset InputConfig.cold true with level := true } held)).supply.hold =
        .warm ∧
      ¬held.Running ∧ (after .coldReset held).supply.hold ≠ .warm ∧ ¬(after .coldReset held).Running ∧
      State.reset.supply.hold ≠ .warm := by decide

/-- A part held in cold reset with RESET# low, with the main supply absent, and with neither; and one held in none. -/
theorem witness_ColdResetGivesTheColdValues :
    let cold := fun (low absent : Bool) =>
      { State.reset with supply := { hold := .cold, resetLow := low, mainAbsent := absent } }
    (cold true false).supply.hold = .cold ∧ (cold false true).supply.hold = .cold ∧
      (cold false false).supply.hold = .cold ∧ State.reset.supply.hold ≠ .cold := by decide

/-! ### Promises: states other than reset that meet them, and a step from each that answers a next state -/

theorem witness_StepKeepsTheBlockPromises :
    let q := queued (.noticePop 0) (withNotices 16 255 State.reset)
    let t := queued .timebaseEdge (timed 1439 59 32767 (scheduled true State.reset))
    let w₀ := pointed 0 63 5 State.reset
    let w := queued (.winDataWrite 0) (w₀.setWindow { w₀.window with
      latch := some { space := 0, index := 63, bytes := entryBytes (healthy 0) false },
      buffer := some { space := 0, index := 63, bytes := List.replicate 6 0 } })
    let p := queued (.warmReset .resetLine) State.reset
    let h := queued (.inputEdge 15 true) held
    NoticesBounded q.notices ∧ TariffSound t.tariff ∧ WindowSound w.window ∧ SupplySound p.supply ∧ HeldAtReset h ∧
      ¬h.Running ∧ ∀ u ∈ [q, t, w, p, h], ∃ v, step u = .next v := by
  refine ⟨?_, ?_, ⟨fun l h => ?_, fun b h => ?_⟩, ?_, ?_, by decide, ?_⟩
  · unfold NoticesBounded; decide
  · unfold TariffSound; decide
  · cases h; decide
  · cases h; decide
  · unfold SupplySound; decide
  · unfold HeldAtReset; decide
  · intro u hu
    simp only [List.mem_cons, List.not_mem_nil, or_false] at hu
    rcases hu with rfl | rfl | rfl | rfl | rfl <;> exact ⟨_, step_queued _ _ rfl⟩

/-- An APPLY from input 15 in flight to a DAMAGED entry with this suspense, with counter 4 as given and this queue behind. -/
def damagedApply (suspense : Nat) (state : TripState) (queue : List Group) : State :=
  ((applying (group 63 false 63) .damaged state 100 100 0).setEntry 63
    { healthy 0 with damaged := true, suspense := some suspense }).setInput 15
      { running (counting #v[2, 0, 0, 0]) queue with inFlight := true }

/-- The same with a deferred value for the entry. -/
def deferredApply : State :=
  { damagedApply 5 .idle [] with
    table := { (damagedApply 5 .idle []).table with deferred := some { entry := 63, digits := Vector.replicate 12 9 } } }

/-- An APPLY in flight to a DAMAGED entry with a deferred value for it, at its completion; and a group before its grant
while a host command waits with a count of 7. -/
theorem witness_StepKeepsTheOperationPromises :
    let s := queued .applyCompletion deferredApply
    let h := queued .applyGrant (busy 7 [group 10 false 63] (.add 5 1))
    (OperationSound s ∧ DamageSound s) ∧ (OperationSound h ∧ HostWaitBounded h) ∧
      ∀ u ∈ [s, h], ∃ v, step u = .next v := by
  refine ⟨⟨⟨by decide, by decide, ?_, ?_, ?_, by decide⟩, by unfold DamageSound; decide⟩,
    ⟨⟨by decide, by decide, by decide, ?_⟩, by unfold HostWaitBounded; decide⟩, ?_⟩
  · intro d h; cases h; decide
  · intro n
    by_cases hn : n = 15
    · subst hn; exact ⟨fun _ => ⟨_, rfl⟩, fun _ => by decide⟩
    · have hc : ∀ n : Fin 16, n ≠ 15 → (deferredApply.input n).inFlight = false := by decide
      constructor
      · intro h; exact absurd (h.symm.trans (hc n hn)) (by decide)
      · rintro ⟨g, h⟩; injection h with h; exact absurd h.symm hn
  · intro c; constructor <;> intro h <;> cases h
  · intro c h; cases h
  · intro u hu
    simp only [List.mem_cons, List.not_mem_nil, or_false] at hu
    rcases hu with rfl | rfl <;> exact ⟨_, step_queued _ _ rfl⟩

/-- A capture after no copy with a previous-epoch group ahead of a current one; its first COPY in flight; and an OPEN bank
beside a COMPLETE one. -/
theorem witness_StepKeepsTheCapturePromises :
    let e := queued .applyGrant (busy 0 [group 10 false 63, group 9 true 1] (.add 5 1))
    let c := queued .copyCompletion (inFlight (.copy 0 8) [.healthy] (capturing .copying [8, 10] 0 State.reset))
    let o := queued .closeBank (withBanks .complete .opened (some .a) State.reset)
    (EpochSound e ∧ e.previousExists = true) ∧ CaptureSound c ∧
      (CaptureSound o ∧ (o.capture.bank .b).state = .opened ∧
        (after .closeBank (withBanks .complete .opened (some .a) State.reset)).Running) ∧
      ∀ u ∈ [e, c, o], ∃ v, step u = .next v := by
  refine ⟨⟨⟨?_, by decide, by decide⟩, by decide⟩,
    ⟨by decide, by decide, by decide, by decide, by decide, fun _ => ⟨.a, ?_⟩, by decide, by decide, ?_⟩,
    ⟨⟨by decide, by decide, by decide, by decide, by decide, fun h => absurd h (by decide), by decide, by decide, ?_⟩,
      by decide, by decide⟩, ?_⟩
  · unfold EpochOrdered; decide
  · unfold FillingSound; decide
  · intro op position e h hw; cases h; cases hw; decide
  · intro op position e h; cases h
  · intro u hu
    simp only [List.mem_cons, List.not_mem_nil, or_false] at hu
    rcases hu with rfl | rfl | rfl <;> exact ⟨_, step_queued _ _ rfl⟩

/-- An APPLY in flight against counter 4 in PREWARN, with a full queue behind it and an ARM_TRIP waiting. -/
theorem witness_StepKeepsTheAmountAndTripPromises :
    let s := queued .applyCompletion
      (waiting (.armTrip 7 1 0) (damagedApply 999999999999 .prewarn (List.replicate 4 (group 63 false 63))))
    AmountsSound s ∧ TripsSound s ∧ ∃ v, step s = .next v := by
  refine ⟨⟨?_, ?_, ?_⟩, ⟨?_, ?_, ?_⟩, ⟨_, step_queued _ _ rfl⟩⟩
  · unfold InputSound GroupSound; decide
  · intro op n g h hw; cases h; cases hw; unfold GroupSound; decide
  · intro e a h
    by_cases he : e = 63
    · subst he; cases h; decide
    · have hc : ∀ e : Fin 64, e ≠ 63 →
          ((damagedApply 999999999999 .prewarn (List.replicate 4 (group 63 false 63))).entry e).suspense = none := by
        decide
      cases h.symm.trans (hc e he)
  · intro k
    by_cases hk : k = 4
    · subst hk; exact ⟨by decide, by decide, by decide, by decide, by decide, by decide, by decide⟩
    · have cold : ∀ k : Fin 8, k ≠ 4 → (damagedApply 999999999999 .prewarn []).trip k = TripCounter.cold := by decide
      have : TripSound TripCounter.cold := ⟨by decide, by decide, by decide, trivial⟩
      rw [← cold k hk] at this; exact this
  · intro c h
    rcases h with h | h
    · cases h; exact ⟨by decide, by decide, by decide⟩
    · cases h
  · intro op c h hw; cases h; cases hw

/-- A command, a state before and the state after for each item that may change. -/
theorem witness_TotalsChangeOnlyByTheirEvents :
    let a := armed 300 0 (inFlight (.apply 15 (group 63 false 63)) [.healthy]
      (withEntry 63 (healthy 999999999999) State.reset))
    let t := after .applyCompletion a
    let raw := pointed 0 63 5 State.reset
    let bad := withInput 15 (running (counting #v[2, 0, 0, 0]) [group 63 false 63])
      (withEntry 63 { healthy 1000 with check := 0 } State.reset)
    let member := pointed 0 63 7 State.reset
    (WellFormed .applyCompletion = true ∧ exec .applyCompletion a = .next t) ∧
    ((t.entry 63).digits ≠ (a.entry 63).digits ∧ (t.entry 63).check ≠ (a.entry 63).check ∧
      (t.entry 63).wrapped ≠ (a.entry 63).wrapped ∧ t.trip 4 ≠ a.trip 4) ∧
    (WellFormed (.winDataWrite 0x99) = true ∧ exec (.winDataWrite 0x99) raw = .next (after (.winDataWrite 0x99) raw) ∧
      ((after (.winDataWrite 0x99) raw).entry 63).digits ≠ (raw.entry 63).digits) ∧
    (WellFormed .applyGrant = true ∧ exec .applyGrant bad = .next (after .applyGrant bad) ∧
      ((after .applyGrant bad).entry 63).damaged ≠ (bad.entry 63).damaged) ∧
    (exec (.winDataWrite 0xFF) member = .next (after (.winDataWrite 0xFF) member) ∧
      ((after (.winDataWrite 0xFF) member).entry 63).member ≠ (member.entry 63).member) ∧
    (let held := pointed 0 63 5 a
     held.engine.op = some { work := .apply 15 (group 63 false 63), found := [.healthy] } ∧ 63 ∈ held.table.held ∧
      Instr.winDataWrite 0x99 ≠ completionOf (.apply 15 (group 63 false 63)) ∧ Instr.winDataWrite 0x99 ≠ .coldReset ∧
      exec (.winDataWrite 0x99) held = .next (after (.winDataWrite 0x99) held)) := by
  exact ⟨⟨by decide, exec_eq_after _ _⟩, by decide, ⟨by decide, exec_eq_after _ _, by decide⟩,
    ⟨by decide, exec_eq_after _ _, by decide⟩, ⟨exec_eq_after _ _, by decide⟩,
    ⟨by decide, by decide, by decide, by decide, exec_eq_after _ _⟩⟩

end Sys2Proof.Tests
end

/-! ## CLOSE_BANK (R96) -/

namespace Sys2Proof.Machine

open Sys2Proof.Safety

/-- The open bank is one whose state is OPEN, whatever the other bank's state is. -/
theorem bank_opened_of_openBank {c : CaptureUnit} {id : BankId} (h : c.openBank = some id) :
    (c.bank id).state = .opened := by
  unfold CaptureUnit.openBank at h
  split at h
  · next ha => cases h; exact ha
  · split at h
    · next hb => cases h; exact hb
    · cases h

theorem openBank_eq_none {c : CaptureUnit} (h : ∀ id, (c.bank id).state ≠ .opened) : c.openBank = none :=
  Option.eq_none_iff_forall_ne_some.2 fun id hid => h id (bank_opened_of_openBank hid)

/-- CLOSE_BANK has no operands, so an IDLE slot always hands it on to the capture unit. -/
theorem exec_closeBank_eq {s : State} (hr : s.Running) (hi : s.slot.state = .idle) :
    exec .closeBank s = .next (handOn .closeBank (beginTaking 0x22 s)) :=
  codeCommand_of_ok hr hi (validate_encodeCommand .closeBank s.slot.operands)

theorem exec_closeBank_of_openBank {s : State} (hr : s.Running) (hi : s.slot.state = .idle) {id : BankId}
    (h : s.capture.openBank = some id) :
    exec .closeBank s = .next
      { s with
        slot := endedSlot 0x22 .ok s.slot,
        capture := s.capture.setBank id { s.capture.bank id with state := .free } } := by
  have hc : closeBankCommand (beginTaking 0x22 s) =
      (.ok, (beginTaking 0x22 s).setCapture (s.capture.setBank id { s.capture.bank id with state := .free })) := by
    simp [closeBankCommand, beginTaking, h]
  rw [exec_closeBank_eq hr hi, handOn, hc]
  rfl

theorem exec_closeBank_of_no_openBank {s : State} (hr : s.Running) (hi : s.slot.state = .idle)
    (h : s.capture.openBank = none) :
    exec .closeBank s = .next { s with slot := endedSlot 0x22 .noBank s.slot } := by
  have hc : closeBankCommand (beginTaking 0x22 s) = (.noBank, beginTaking 0x22 s) := by
    simp [closeBankCommand, beginTaking, h]
  rw [exec_closeBank_eq hr hi, handOn, hc]
  rfl

/-- A bank that is not OPEN, FILLING and COMPLETE among them, is the same after CLOSE_BANK. -/
theorem bank_exec_closeBank_of_ne_opened {s t : State} (hr : s.Running) (hi : s.slot.state = .idle) {id : BankId}
    (hid : (s.capture.bank id).state ≠ .opened) (ht : exec .closeBank s = .next t) :
    t.capture.bank id = s.capture.bank id := by
  cases ho : s.capture.openBank with
  | none =>
    rw [exec_closeBank_of_no_openBank hr hi ho] at ht
    cases ht
    rfl
  | some j =>
    have hj : j ≠ id := by
      rintro rfl
      exact hid (bank_opened_of_openBank ho)
    rw [exec_closeBank_of_openBank hr hi ho] at ht
    cases ht
    simp [hj]

/-- Settles O18: the one OPEN bank is the one the capture unit finds, and it writes no other. -/
theorem closeBankFreesTheOpenBank : Obligations.CloseBankFreesTheOpenBank := by
  intro s hr hi
  refine ⟨fun id hid hother => ?_, fun hnone => ?_, fun id t hid ht => ?_⟩
  · have hone : ¬(s.capture.bankA.state = .opened ∧ s.capture.bankB.state = .opened) := by
      rintro ⟨ha, hb⟩
      cases id with
      | a => exact hother hb
      | b => exact hother ha
    exact exec_closeBank_of_openBank hr hi ((openBank_iff s.capture hone id).2 hid)
  · exact exec_closeBank_of_no_openBank hr hi (openBank_eq_none hnone)
  · have hne : (s.capture.bank id).state ≠ .opened := by
      rcases hid with h | h <;> simp [h]
    exact bank_exec_closeBank_of_ne_opened hr hi hne ht

end Sys2Proof.Machine

/-! ## CANCEL (R147) -/

namespace Sys2Proof.Machine

/-- The host side of the engine sees a command only while the slot holds one WAITING. -/
theorem hostRequest_eq_none_of_idle {s : State} (h : s.slot.state = .idle) : s.hostRequest = none := by
  simp [State.hostRequest, h]

/-- The held command of R147 is the payload of WAITING, so it goes absent with the state that carries it. -/
theorem writeCancel_of_waiting {s : State} {c : EngineCommand} (h : s.slot.state = .waiting c) :
    writeCancel s = endCommand .cancelled { s with engine := { s.engine with hostWait := 0 } } := by
  simp [writeCancel, h]

theorem exec_cancel_of_running {s : State} (hr : s.Running) (v : Byte) : exec (.cancel v) s = .next (writeCancel s) :=
  congrArg Host.Outcome.next (whenRunning_of_running hr writeCancel)

/-- Settles O13: CANCEL ends the WAITING command as CANCELLED, and an IDLE slot asks the engine for nothing. -/
theorem cancelRemovesTheWaitingCommand : Obligations.CancelRemovesTheWaitingCommand := by
  intro s v c hr hw
  have hexec : exec (.cancel v) s =
      .next (endCommand .cancelled { s with engine := { s.engine with hostWait := 0 } }) := by
    rw [exec_cancel_of_running hr, writeCancel_of_waiting hw]
  exact ⟨_, hexec, hostRequest_eq_none_of_idle rfl, endCommand_eq .cancelled _⟩

end Sys2Proof.Machine

/-! ## The pop of the Notice Queue (R167) -/

namespace Sys2Proof.Machine

theorem Notices.pop_of_empty {q : Notices} (h : q.queue = []) : q.pop = q := by
  simp [Notices.pop, h]

theorem Notices.pop_of_no_loss {q : Notices} {head : Notice} {rest : List Notice} (h : q.queue = head :: rest)
    (hl : q.lost = 0) : q.pop = { q with queue := rest } := by
  simp [Notices.pop, h, hl]

theorem Notices.pop_of_loss {q : Notices} {head : Notice} {rest : List Notice} (h : q.queue = head :: rest)
    (hl : 0 < q.lost) :
    q.pop = { q with
      queue := rest ++ [{ kind := .lost, subject := 0, sequence := q.nextSeq, data0 := 0, data1 := byteOf q.lost }],
      nextSeq := q.nextSeq + 1, lost := 0 } := by
  simp [Notices.pop, h, hl.ne']

/-- The LOST notice takes the place of the head that leaves: a pop with losses keeps the length. -/
theorem Notices.length_pop_of_loss {q : Notices} {head : Notice} {rest : List Notice} (h : q.queue = head :: rest)
    (hl : 0 < q.lost) : q.pop.queue.length = q.queue.length := by
  simp [pop_of_loss h hl, h]

theorem exec_noticePop_of_running {s : State} (hr : s.Running) (v : Byte) :
    exec (.noticePop v) s = .next { s with notices := s.notices.pop } :=
  congrArg Host.Outcome.next (whenRunning_of_running hr writePop)

/-- Settles O44: NOTICE_POP pops the queue, whose three cases are empty, without losses and with them. -/
theorem popRemovesTheHead : Obligations.PopRemovesTheHead := by
  intro s v hr
  rw [exec_noticePop_of_running hr]
  refine ⟨fun hempty => ?_, fun head rest hq hl => ?_, fun head rest hq hfull hl => ?_⟩
  · rw [Notices.pop_of_empty hempty]
  · rw [Notices.pop_of_no_loss hq hl]
  · have hlength : s.notices.pop.queue.length = 16 := (Notices.length_pop_of_loss hq hl).trans hfull
    exact ⟨_, rfl, hlength, by rw [Notices.pop_of_loss hq hl]; rfl⟩

end Sys2Proof.Machine

/-! ## The window pointers (R178) -/

namespace Sys2Proof.Machine

theorem exec_winSpaceWrite_of_running {s : State} (hr : s.Running) (v : Byte) :
    exec (.winSpaceWrite v) s = .next (writeSpace v s) :=
  congrArg Host.Outcome.next (whenRunning_of_running hr (writeSpace v))

theorem exec_winIndexWrite_of_running {s : State} (hr : s.Running) (v : Byte) :
    exec (.winIndexWrite v) s = .next (writeIndex v s) :=
  congrArg Host.Outcome.next (whenRunning_of_running hr (writeIndex v))

theorem exec_winOffsetWrite_of_running {s : State} (hr : s.Running) (v : Byte) :
    exec (.winOffsetWrite v) s = .next (writeOffset v s) :=
  congrArg Host.Outcome.next (whenRunning_of_running hr (writeOffset v))

/-- WIN_SPACE is register 0x23. -/
theorem readRegister_winSpace {s : State} (hr : s.Running) : readRegister s 0x23 = some s.window.space :=
  readRegister_of_running hr 0x23

/-- WIN_INDEX is register 0x24. -/
theorem readRegister_winIndex {s : State} (hr : s.Running) : readRegister s 0x24 = some s.window.index :=
  readRegister_of_running hr 0x24

/-- WIN_OFFSET is register 0x25. -/
theorem readRegister_winOffset {s : State} (hr : s.Running) : readRegister s 0x25 = some s.window.offset :=
  readRegister_of_running hr 0x25

/-- Settles O48: a running part takes each pointer write, which replaces its window fields and no other part of the state,
and a read gives the stored pointer. -/
theorem pointerWritesStoreAndInvalidate : Obligations.PointerWritesStoreAndInvalidate := by
  intro s v hr
  exact ⟨exec_winSpaceWrite_of_running hr v, exec_winIndexWrite_of_running hr v, exec_winOffsetWrite_of_running hr v,
    readRegister_winSpace hr, readRegister_winIndex hr, readRegister_winOffset hr⟩

end Sys2Proof.Machine

/-! ## What a command does: the operation behind its row

Laws/Kept.lean reduces a promise about one state to the operations behind the rows. `Runs` says the same of a pair of
states, so that a statement about what a command changes is a case analysis over the operations too. -/

namespace Sys2Proof.Machine

open Sys2Proof.Safety

/-- The rows whose completion ends a host operation, with its effect (R48). -/
inductive HostCompletion : Instr → (EngineCommand → Bool → State → Option (HostOutcome × State)) → Prop
  | preset : HostCompletion .presetCompletion presetEffect
  | add : HostCompletion .addCompletion addEffect
  | subtract : HostCompletion .subtractCompletion subtractEffect
  | transfer : HostCompletion .transferCompletion transferEffect
  | repair : HostCompletion .repairCompletion repairEffect
  | clearFlags : HostCompletion .clearFlagsCompletion clearFlagsEffect
  | armTrip : HostCompletion .armTripCompletion armTripEffect
  | disarmTrip : HostCompletion .disarmTripCompletion disarmTripEffect

/-- A command, a state and the state it leaves: the operation behind the command's row, in a hold that lets it through,
or nothing. The row is kept where a statement asks for it. -/
inductive Runs : Instr → State → State → Prop
  | nothing (c : Instr) (s : State) : Runs c s s
  | code (c : Instr) (s : State) (code : Byte) : s.Running → Runs c s (writeCode code s)
  | cancel (c : Instr) (s : State) : s.Running → Runs c s (writeCancel s)
  | applyGrant (s : State) : Runs .applyGrant s (grantApply s)
  | copyGrant (s : State) : Runs .copyGrant s (grantCopy s)
  | hostGrant (s : State) : Runs .hostGrant s (grantHost s)
  | applyCompletion (s : State) : s.Running → Runs .applyCompletion s (completeApply s)
  | copyCompletion (s : State) : s.Running → Runs .copyCompletion s (completeCopy s)
  | hostCompletion {c : Instr} {effect : EngineCommand → Bool → State → Option (HostOutcome × State)} (s : State) :
      HostCompletion c effect → s.Running → Runs c s (completeHost effect s)
  | inputEdge (s : State) (n : Fin 16) (level : Bool) : Runs (.inputEdge n level) s (inputEdge n level s)
  | lockoutExpiry (s : State) (n : Fin 16) : Runs (.lockoutExpiry n) s (expireLockout n s)
  | capEdge (s : State) (level : Bool) : Runs (.capEdge level) s (capEdge level s)
  | capLockoutExpiry (s : State) : Runs .capLockoutExpiry s (expireCapLockout s)
  | timebaseEdge (s : State) : s.supply.hold ≠ .cold → Runs .timebaseEdge s (timebaseEdge s)
  | secondExpiry (s : State) : s.supply.hold ≠ .cold → Runs .secondExpiry s (secondExpiry s)
  | minuteExpiry (s : State) : s.supply.hold ≠ .cold → Runs .minuteExpiry s (minuteExpiry s)
  | pop (c : Instr) (s : State) : s.Running → Runs c s (writePop s)
  | intStatus (c : Instr) (s : State) (v : Byte) : s.Running → Runs c s (writeIntStatus v s)
  | intEnable (c : Instr) (s : State) (v : Byte) : s.Running → Runs c s (writeIntEnable v s)
  | capEnable (c : Instr) (s : State) (v : Byte) : s.Running → Runs c s (writeCapEnable v s)
  | operand (c : Instr) (s : State) (k : Nat) (v : Byte) : s.Running → Runs c s (writeOperand k v s)
  | enable (c : Instr) (s : State) : s.Running → Runs c s (enableSchedule s)
  | disable (c : Instr) (s : State) : s.Running → Runs c s (disableSchedule s)
  | readDayHigh (s : State) : s.Running → Runs .timeDayHiRead s (readDayHigh s)
  | heldRead (c : Instr) (s : State) : ¬s.Running → Runs c s { s with window := { s.window with readData := none } }
  | winStatus (c : Instr) (s : State) (v : Byte) : s.Running → Runs c s (writeWinStatus v s)
  | space (c : Instr) (s : State) (v : Byte) : s.Running → Runs c s (writeSpace v s)
  | index (c : Instr) (s : State) (v : Byte) : s.Running → Runs c s (writeIndex v s)
  | offset (c : Instr) (s : State) (v : Byte) : s.Running → Runs c s (writeOffset v s)
  | readData (s : State) : s.Running → Runs .winDataRead s (readData s)
  | writeData (c : Instr) (s : State) (v : Byte) : c = .winDataWrite v ∨ c = .registerWrite 0x26 v → s.Running →
      Runs c s (writeData v s)
  | warmReset (s : State) (cause : WarmCause) : Runs (.warmReset cause) s (enterWarm cause s)
  | warmResetEnd (s : State) : Runs .warmResetEnd s (endWarm s)
  | coldReset (s : State) : Runs .coldReset s (enterCold s)
  | coldResetEnd (s : State) : Runs .coldResetEnd s (endCold s)

theorem runs_whenRunning {c : Instr} {f : State → State} {s : State} (h : s.Running → Runs c s (f s)) :
    Runs c s (whenRunning f s) :=
  whenRunning_keeps (P := Runs c s) (.nothing c s) h

theorem runs_whenTimed {c : Instr} {f : State → State} {s : State} (h : s.supply.hold ≠ .cold → Runs c s (f s)) :
    Runs c s (whenTimed f s) := by
  unfold whenTimed
  split
  · exact .nothing c s
  · next hc => exact h hc

theorem runs_readAccess {c : Instr} {f : State → State} {s : State} (h : s.Running → Runs c s (f s)) :
    Runs c s (readAccess f s) := by
  unfold readAccess
  split
  · next hr => exact h hr
  · next hr => exact .heldRead c s hr

/-- A write access at a register offset runs the operation of its register, or nothing (R174). -/
theorem runs_busWrite {s : State} (hr : s.Running) (offset : Offset) (v : Byte) :
    Runs (.registerWrite offset v) s (busWrite offset v s) := by
  unfold busWrite
  split
  case h_1 => exact .code _ s v hr
  case h_2 => exact .cancel _ s hr
  case h_12 => exact .pop _ s hr
  case h_13 => exact .intEnable _ s v hr
  case h_14 => exact .intStatus _ s v hr
  case h_15 => exact .capEnable _ s v hr
  case h_16 =>
    unfold writeSchedControl
    split
    · exact .enable _ s hr
    · exact .disable _ s hr
  case h_17 => exact .space _ s v hr
  case h_18 => exact .index _ s v hr
  case h_19 => exact .offset _ s v hr
  case h_20 h => exact .writeData _ s v (.inr (by rw [BitVec.eq_of_toNat_eq (y := 0x26) h])) hr
  case h_21 => exact .winStatus _ s v hr
  case h_22 => exact .nothing _ s
  all_goals exact .operand _ s _ v hr

/-- Every command runs the operation behind its row. -/
theorem runs_after (c : Instr) (s : State) : Runs c s (after c s) := by
  cases c <;> simp only [after, exec]
  case cancel => exact runs_whenRunning (.cancel _ s)
  case applyGrant => exact .applyGrant s
  case copyGrant => exact .copyGrant s
  case hostGrant => exact .hostGrant s
  case applyCompletion => exact runs_whenRunning (.applyCompletion s)
  case copyCompletion => exact runs_whenRunning (.copyCompletion s)
  case presetCompletion => exact runs_whenRunning (.hostCompletion s .preset)
  case addCompletion => exact runs_whenRunning (.hostCompletion s .add)
  case subtractCompletion => exact runs_whenRunning (.hostCompletion s .subtract)
  case transferCompletion => exact runs_whenRunning (.hostCompletion s .transfer)
  case repairCompletion => exact runs_whenRunning (.hostCompletion s .repair)
  case clearFlagsCompletion => exact runs_whenRunning (.hostCompletion s .clearFlags)
  case armTripCompletion => exact runs_whenRunning (.hostCompletion s .armTrip)
  case disarmTripCompletion => exact runs_whenRunning (.hostCompletion s .disarmTrip)
  case inputEdge n level => exact .inputEdge s n level
  case lockoutExpiry n => exact .lockoutExpiry s n
  case capEdge level => exact .capEdge s level
  case capLockoutExpiry => exact .capLockoutExpiry s
  case timebaseEdge => exact runs_whenTimed (.timebaseEdge s)
  case secondExpiry => exact runs_whenTimed (.secondExpiry s)
  case minuteExpiry => exact runs_whenTimed (.minuteExpiry s)
  case noticePop => exact runs_whenRunning (.pop _ s)
  case clearCmdDone => exact runs_whenRunning (.intStatus _ s _)
  case clearWinRefused => exact runs_whenRunning (.winStatus _ s _)
  case clearWinFault => exact runs_whenRunning (.winStatus _ s _)
  case enableAttempt => exact runs_whenRunning (.enable _ s)
  case clearScheduleEnable => exact runs_whenRunning (.disable _ s)
  case timeDayHiRead => exact runs_readAccess (.readDayHigh s)
  case winSpaceWrite v => exact runs_whenRunning (.space _ s v)
  case winIndexWrite v => exact runs_whenRunning (.index _ s v)
  case winOffsetWrite v => exact runs_whenRunning (.offset _ s v)
  case winDataRead => exact runs_readAccess (.readData s)
  case winDataWrite v => exact runs_whenRunning (.writeData _ s v (.inl rfl))
  case registerWrite offset v => exact runs_whenRunning fun hr => runs_busWrite hr offset v
  case warmReset cause => exact .warmReset s cause
  case warmResetEnd => exact .warmResetEnd s
  case coldReset => exact .coldReset s
  case coldResetEnd => exact .coldResetEnd s
  all_goals exact runs_whenRunning (.code _ s _)

theorem runs_of_exec {c : Instr} {s t : State} (h : exec c s = .next t) : Runs c s t := by
  rw [exec_eq_after] at h
  injection h with h
  exact h ▸ runs_after c s

/-- A promise that does not look at the queue of commands and that every operation keeps is kept by every step. -/
theorem kept_of_runs {P : State → Prop} (queue : ∀ (s : State) l, P s → P { s with pending := l })
    (h : ∀ {c s t}, Runs c s t → P s → P t) : Kept P :=
  kept_of_exec queue fun c s => h (runs_after c s)

end Sys2Proof.Machine

/-! ## What validation lets through (R105, R142) -/

namespace Sys2Proof.Machine

open Sys2Proof.Safety

theorem checkIndex_of_lt {limit : Nat} {b : Byte} (h : b.toNat < limit) (k : Fin limit → Validation) :
    checkIndex limit b k = k ⟨b.toNat, h⟩ := dif_pos h

theorem checkIndex_of_le {limit : Nat} {b : Byte} (h : limit ≤ b.toNat) (k : Fin limit → Validation) :
    checkIndex limit b k = .error .badIndex := dif_neg (Nat.not_lt.2 h)

theorem checkDigits_of_decimal {n : Nat} {ds : Vector Nibble n} (h : Decimal ds) (k : Nat → Validation) :
    checkDigits ds k = k (decimalValue ds) := if_pos ((allDecimal_iff ds).2 h)

theorem checkDigits_of_not_decimal {n : Nat} {ds : Vector Nibble n} (h : ¬Decimal ds) (k : Nat → Validation) :
    checkDigits ds k = .error .badDigit := if_neg (mt (allDecimal_iff ds).1 h)

theorem checkIndex_eq_ok {limit : Nat} {b : Byte} {k : Fin limit → Validation} {c : Command}
    (h : checkIndex limit b k = .ok c) : ∃ i, k i = .ok c := by
  by_cases hb : b.toNat < limit
  · exact ⟨_, checkIndex_of_lt hb k ▸ h⟩
  · cases (checkIndex_of_le (Nat.not_lt.1 hb) k).symm.trans h

theorem checkDigits_eq_ok {n : Nat} {ds : Vector Nibble n} {k : Nat → Validation} {c : Command}
    (h : checkDigits ds k = .ok c) : Decimal ds ∧ k (decimalValue ds) = .ok c := by
  by_cases hd : Decimal ds
  · exact ⟨hd, checkDigits_of_decimal hd k ▸ h⟩
  · cases (checkDigits_of_not_decimal hd k).symm.trans h

theorem checkOperand_eq_ok {good : Bool} {c c' : Command} (h : checkOperand good c = .ok c') :
    good = true ∧ c = c' := by
  cases good with
  | true => injection h with h; exact ⟨rfl, h⟩
  | false => cases h

/-- What validation promises of a command's operands beyond their types: a sound ARM_TRIP, a time of day in range. -/
def CommandSound : Command → Prop
  | .engine c => ArmSound c
  | .setTime _ minute second => minute < 1440 ∧ second < 60
  | _ => True

theorem armSound_of_operands {k : Fin 8} {preset prewarn : Vector Nibble 8} (hd : Decimal preset)
    (h : armOperandsGood (decimalValue preset) (decimalValue prewarn) = true) :
    ArmSound (.armTrip k (decimalValue preset) (decimalValue prewarn)) := by
  have hlt := decimalValue_lt preset hd
  simp only [armOperandsGood, decide_eq_true_eq] at h
  exact ⟨by omega, by omega, h.2⟩

theorem validateOperands_sound {name : CommandName} {ops : Vector Byte 9} {c : Command}
    (h : validateOperands name ops = .ok c) : CommandSound c := by
  cases name <;> simp only [validateOperands] at h
  case preset | add | subtract =>
    obtain ⟨e, h⟩ := checkIndex_eq_ok h
    cases (checkDigits_eq_ok h).2
    trivial
  case transfer =>
    obtain ⟨a, h⟩ := checkIndex_eq_ok h
    obtain ⟨b, h⟩ := checkIndex_eq_ok h
    cases (checkOperand_eq_ok h).2
    trivial
  case repair =>
    obtain ⟨e, h⟩ := checkIndex_eq_ok h
    have h := (checkDigits_eq_ok h).2
    split at h <;> cases h
    trivial
  case clearFlags | disarmTrip | resetInput =>
    obtain ⟨e, h⟩ := checkIndex_eq_ok h
    cases h
    trivial
  case armTrip =>
    obtain ⟨k, h⟩ := checkIndex_eq_ok h
    obtain ⟨hpreset, h⟩ := checkDigits_eq_ok h
    obtain ⟨-, h⟩ := checkDigits_eq_ok h
    obtain ⟨hgood, rfl⟩ := checkOperand_eq_ok h
    exact armSound_of_operands (k := k) hpreset hgood
  case setTime =>
    obtain ⟨hgood, rfl⟩ := checkOperand_eq_ok h
    simpa [CommandSound] using hgood
  case setTariff => split at h <;> cases h; trivial
  case capture | openBank | closeBank => cases h; trivial

theorem validate_sound {code : Byte} {ops : Vector Byte 9} {c : Command} (h : validate code ops = .ok c) :
    CommandSound c := by
  unfold validate at h
  split at h
  · exact validateOperands_sound h
  · cases h

/-- A write to CMD_CODE is refused, or taken by an IDLE slot: it fails validation, or is handed on (R141 to R143). -/
theorem writeCode_cases (code : Byte) (s : State) :
    (s.slot.state ≠ .idle ∧ writeCode code s = { s with slot := { s.slot with refusedBusy := true } }) ∨
      (s.slot.state = .idle ∧ ∃ r, writeCode code s = endCommand r (beginTaking code s)) ∨
      (s.slot.state = .idle ∧ ∃ c, CommandSound c ∧ writeCode code s = handOn c (beginTaking code s)) := by
  unfold writeCode
  cases hs : s.slot.state with
  | waiting c => exact .inl ⟨by simp, rfl⟩
  | running c => exact .inl ⟨by simp, rfl⟩
  | idle =>
    cases hv : validate code s.slot.operands with
    | ok c => exact .inr (.inr ⟨rfl, c, validate_sound hv, rfl⟩)
    | error r => exact .inr (.inl ⟨rfl, r, rfl⟩)

end Sys2Proof.Machine

/-! ## The promises of single blocks: notices, time, window and supply -/

namespace Sys2Proof.Machine

open Sys2Proof.Safety

/-! ### Notices (R164, R165, R167) -/

theorem noticesBounded_offer {q : Notices} (h : NoticesBounded q) (kind : NoticeKind) (subject d0 d1 : Byte) :
    NoticesBounded (q.offer kind subject d0 d1) := by
  obtain ⟨hlen, hlost, hfull⟩ := h
  rcases q.offer_cases kind subject d0 d1 with ⟨hroom, n, hq, hl, -⟩ | ⟨hno, hq, hl, -⟩
  · have hzero : q.lost = 0 := by
      by_contra h
      have := hfull h
      omega
    refine ⟨?_, ?_, ?_⟩ <;> simp only [hq, hl, List.length_append, List.length_singleton] <;> omega
  · refine ⟨?_, ?_, ?_⟩ <;> simp only [hq, hl] <;> omega

theorem noticesBounded_of_offered {q r : Notices} (ho : Offered q r) (h : NoticesBounded q) : NoticesBounded r := by
  induction ho with
  | none => exact h
  | more kind subject d0 d1 _ ih => exact noticesBounded_offer ih kind subject d0 d1

theorem noticesBounded_pop {q : Notices} (h : NoticesBounded q) : NoticesBounded q.pop := by
  obtain ⟨hlen, hlost, hfull⟩ := h
  cases hq : q.queue with
  | nil => rw [Notices.pop_of_empty hq]; exact ⟨hlen, hlost, hfull⟩
  | cons head rest =>
    rw [hq, List.length_cons] at hlen hfull
    by_cases hl : q.lost = 0
    · rw [Notices.pop_of_no_loss hq hl]
      exact ⟨by simp only; omega, hlost, fun h => absurd hl h⟩
    · have hkept := Notices.length_pop_of_loss hq (Nat.pos_of_ne_zero hl)
      rw [hq, List.length_cons] at hkept
      refine ⟨by omega, ?_, ?_⟩ <;> rw [Notices.pop_of_loss hq (Nat.pos_of_ne_zero hl)] <;> simp

theorem noticesBounded_afterReset : NoticesBounded Notices.afterReset := by simp [NoticesBounded, Notices.afterReset]

/-! ### The tariff selector (R120 to R122, R127, R128, R133) -/

theorem tariffSound_nextMinute {t : Tariff} (h : TariffSound t) : TariffSound t.nextMinute := by
  obtain ⟨-, -, hminute, hvalid⟩ := h
  rw [nextMinute_eq t hminute]
  refine ⟨by simp, by simp, ?_, hvalid⟩
  simp only
  split <;> omega

theorem tariffSound_minuteExpiry {s : State} (h : TariffSound s.tariff) : TariffSound (minuteExpiry s).tariff := by
  obtain ⟨C, b, q, -, he⟩ := minuteExpiry_frame s
  rw [he]
  exact tariffSound_nextMinute h

theorem tariffSound_secondExpiry {s : State} (h : TariffSound s.tariff) : TariffSound (secondExpiry s).tariff := by
  unfold secondExpiry
  split
  · next hsecond => exact ⟨by simp, hsecond, h.2.2⟩
  · exact tariffSound_minuteExpiry h

theorem tariffSound_timebaseEdge {s : State} (h : TariffSound s.tariff) : TariffSound (timebaseEdge s).tariff := by
  unfold timebaseEdge
  split
  · next hphase => exact ⟨hphase, h.2⟩
  · exact tariffSound_secondExpiry h

theorem tariffSound_enableSchedule {s : State} (h : TariffSound s.tariff) : TariffSound (enableSchedule s).tariff := by
  rcases enableSchedule_frame s with he | ⟨-, he⟩ | ⟨hvalid, b, q, -, he⟩ <;> rw [he]
  · exact h
  · exact h
  · obtain ⟨hphase, hsecond, hminute, -⟩ := h
    exact ⟨hphase, hsecond, hminute, fun _ => hvalid⟩

/-- SET_TIME writes a time that its validation has found in range. -/
theorem tariffSound_setTimeCommand {s : State} {day : BitVec 16} {minute second : Nat} (hm : minute < 1440)
    (hs : second < 60) (h : TariffSound s.tariff) : TariffSound (setTimeCommand day minute second s).tariff := by
  obtain ⟨-, -, -, hvalid⟩ := h
  simp only [setTimeCommand]
  split
  · obtain ⟨b, q, -, he⟩ := resolveBin_frame
      { s with tariff := { s.tariff with day := day, minute := minute, second := second, phase := 0 } }
    rw [he]
    exact ⟨by simp, hs, hm, hvalid⟩
  · exact ⟨by simp, hs, hm, hvalid⟩

theorem tariff_checkDrain (s : State) : (checkDrain s).tariff = s.tariff := by
  obtain ⟨C, q, -, h⟩ := checkDrain_frame s
  rw [h]

theorem tariffSound_handOn {c : Command} {s : State} (hc : CommandSound c) (h : TariffSound s.tariff) :
    TariffSound (handOn c s).tariff := by
  cases c with
  | engine c => exact h
  | capture =>
    simp only [handOn, captureCommand]
    split
    · obtain ⟨C, q, -, he⟩ := takeTrigger_frame .host s
      simp only [he]
      exact h
    · exact h
  | openBank =>
    simp only [handOn, openBankCommand]
    split
    · exact h
    · split <;> exact h
  | closeBank => simp only [handOn, closeBankCommand]; split <;> exact h
  | setTariff b =>
    obtain ⟨q, -, he⟩ := setBin_frame b .host s
    simp only [handOn, he]
    exact h
  | setTime day minute second => exact tariffSound_setTimeCommand hc.1 hc.2 h
  | resetInput n =>
    show TariffSound (checkDrain _).tariff
    rw [tariff_checkDrain]
    exact h

theorem tariffSound_writeCode {code : Byte} {s : State} (h : TariffSound s.tariff) :
    TariffSound (writeCode code s).tariff := by
  rcases writeCode_cases code s with ⟨-, he⟩ | ⟨-, r, he⟩ | ⟨-, c, hc, he⟩ <;> rw [he]
  · exact h
  · exact h
  · exact tariffSound_handOn hc h

/-- A commit reaches the schedule only while the enable is clear (R127). -/
theorem tariffSound_commitPart {part : WindowPart} {bytes : List Byte} {s : State} (h : TariffSound s.tariff) :
    TariffSound (commitPart part bytes s).tariff := by
  have cleared : ∀ t : Tariff, s.tariff.enable = false → t.phase = s.tariff.phase → t.second = s.tariff.second →
      t.minute = s.tariff.minute → t.enable = s.tariff.enable → TariffSound t := by
    intro t hclear hp hs hm he
    refine ⟨hp ▸ h.1, hs ▸ h.2.1, hm ▸ h.2.2.1, fun hset => ?_⟩
    rw [he, hclear] at hset
    cases hset
  cases part with
  | rawValue e => simp only [commitPart, commitRaw]; split <;> exact h
  | config n =>
    simp only [commitPart, commitConfig]
    split
    · exact h
    · split
      · exact h
      · split <;> exact h
      · exact h
      · exact h
  | point k =>
    simp only [commitPart, commitPoint]
    split
    · exact h
    · next hclear => exact cleared _ (by simpa using hclear) rfl rfl rfl rfl
  | count =>
    simp only [commitPart, commitCount]
    split
    · exact h
    · next hclear => exact cleared _ (by simpa using hclear) rfl rfl rfl rfl

end Sys2Proof.Machine

/-! ### The window (R176 to R184) -/

namespace Sys2Proof.Machine

open Sys2Proof.Safety

/-- The bytes of the record a writable part belongs to. -/
def State.partRecord (s : State) : WindowPart → List Byte
  | .rawValue e => entryBytes (s.entry e) (s.table.held.contains e)
  | .config n => inputBytes (s.input n)
  | .point i => pointBytes s.tariff.points[i.val]
  | .count => [s.tariff.count]

theorem length_partRecord (s : State) (p : WindowPart) :
    (s.partRecord p).length = match p with
      | .rawValue _ => 14
      | .config _ => 16
      | .point _ => 3
      | .count => 1 := by
  cases p with
  | rawValue e => exact length_entryBytes ..
  | config n => exact length_inputBytes _
  | point i => exact length_pointBytes _
  | count => rfl

/-- A byte of a writable part is always present: the addressed record is the one the part belongs to. -/
theorem addressed_of_inPart {s : State} {p : WindowPart} (h : InPart s.window p) :
    s.addressed = some (s.partRecord p) := by
  have hlen := length_partRecord s p
  have hrec : s.recordBytes s.window.space s.window.index = some (s.partRecord p) := by
    cases p with
    | rawValue e => obtain ⟨hs, hi, -⟩ := h; simp [State.recordBytes, State.partRecord, hs, hi]
    | config n => obtain ⟨hs, hi, -⟩ := h; simp [State.recordBytes, State.partRecord, hs, hi]
    | point i => obtain ⟨hs, hi, -⟩ := h; simp [State.recordBytes, State.partRecord, hs, hi]
    | count => obtain ⟨hs, hi, -⟩ := h; simp [State.recordBytes, State.partRecord, hs, hi]
  have hoff : s.window.offset.toNat < (s.partRecord p).length := by
    cases p <;> obtain ⟨-, -, ho⟩ := h <;> simp only at hlen <;> omega
  simp [State.addressed, hrec, hoff]

theorem length_copyBytes (c : CopyRecord) : (copyBytes c).length = 14 := by
  simp [copyBytes, bcdBytes, suspenseBytes, bcdNumber]

theorem length_tripBytes (t : TripCounter) : (tripBytes t).length = 13 := by
  simp [tripBytes, bcdBytes, bcdNumber]

theorem length_headerBytes (id : BankId) (h : BankHeader) : (headerBytes id h).length = 13 := by
  simp [headerBytes, wordBytes]

/-- No record is longer than that of an input (R177, R185 to R187). -/
theorem length_recordBytes_le {s : State} {space index : Byte} {bytes : List Byte}
    (h : s.recordBytes space index = some bytes) : bytes.length ≤ 16 := by
  unfold State.recordBytes at h
  split at h
  · split at h <;> cases h; simp [length_entryBytes]
  · split at h <;> cases h; simp [length_inputBytes]
  · split at h <;> cases h; simp [length_tripBytes]
  · split at h
    · cases h
    · split at h
      · cases h; simp [length_headerBytes]
      · split at h <;> cases h; simp [length_copyBytes]
  · split at h
    · cases h; simp [length_pointBytes]
    · split at h <;> cases h; simp
  · cases h

theorem addressed_length {s : State} {bytes : List Byte} (h : s.addressed = some bytes) :
    s.window.offset.toNat < bytes.length ∧ bytes.length ≤ 16 := by
  unfold State.addressed at h
  split at h
  · next b hb =>
    split at h
    · next hlt => cases h; exact ⟨hlt, length_recordBytes_le hb⟩
    · cases h
  · cases h

/-- An invalid latch and a buffer left as it was, or closed, keep the window sound. -/
theorem windowSound_of_no_latch {w w' : Window} (h : WindowSound w) (hl : w'.latch = none)
    (hb : w'.buffer = none ∨ (w'.buffer = w.buffer ∧ w'.space = w.space ∧ w'.index = w.index)) : WindowSound w' := by
  refine ⟨fun l h' => ?_, fun b h' => ?_⟩
  · rw [hl] at h'
    cases h'
  · rcases hb with hb | ⟨hb, hs, hi⟩
    · rw [hb] at h'
      cases h'
    · rw [hs, hi]
      exact h.2 b (hb ▸ h')

/-- A byte served from a latch of the pointers' record keeps the window sound (R179). -/
theorem windowSound_serve {s : State} {l : Latch} (h : WindowSound s.window) (hs : l.space = s.window.space)
    (hi : l.index = s.window.index) (ho : s.window.offset.toNat < l.bytes.length) (hl : l.bytes.length ≤ 16) :
    WindowSound (serve l s).window := by
  rw [serve_eq s l ho]
  refine ⟨fun l' h' => ?_, h.2⟩
  simp only at h'
  split at h'
  · cases h'
  · next hlast =>
    cases h'
    have hnext : (s.window.offset + 1).toNat = s.window.offset.toNat + 1 := by
      rw [BitVec.toNat_add_of_lt] <;> simp; omega
    refine ⟨hs, hi, ?_, hl⟩
    simp only [movedOffset, if_neg hlast, hnext]
    omega

theorem windowSound_readData {s : State} (h : WindowSound s.window) : WindowSound (readData s).window := by
  unfold readData
  split
  · next l hl =>
    obtain ⟨hs, hi, ho, hlen⟩ := h.1 l hl
    exact windowSound_serve h hs hi ho hlen
  · next hl =>
    split
    · next bytes hb => exact windowSound_serve h rfl rfl (addressed_length hb).1 (addressed_length hb).2
    · exact windowSound_of_no_latch h hl (.inr ⟨rfl, rfl, rfl⟩)

/-- What a write to WIN_DATA leaves: the window alone, the window and a MEMBER flag, or the window and the commit of a part
(R181 to R183). -/
inductive DataWritten (s : State) : State → Prop
  | window (w : Window) : DataWritten s (s.setWindow w)
  | member (e : Fin 64) (flag : Bool) (w : Window) : DataWritten s ((commitMember e flag s).setWindow w)
  | commit (part : WindowPart) (bytes : List Byte) (w w' : Window) : s.table.deferred = none →
      DataWritten s ((commitPart part bytes (s.setWindow w)).setWindow w')

/-- A collected byte leaves a buffer of its part's length (R177, R181). -/
theorem windowSound_collect {w : Window} {p : WindowPart} {bytes : List Byte} {v : Byte} (h : WindowSound w)
    (hlen : p.commitOffset + 1 ≤ bytes.length) (hp : p ≠ .count) (o : Byte) :
    WindowSound { w with
      latch := none, offset := o,
      buffer := some { w.openBuffer p bytes with bytes := (w.openBuffer p bytes).bytes.set w.offset.toNat v } } := by
  refine ⟨fun l h' => (by cases h'), fun b h' => ?_⟩
  cases h'
  simp only [Window.openBuffer, List.length_set]
  cases hb : w.buffer with
  | some b => exact h.2 b hb
  | none =>
    simp only [List.length_take]
    cases p with
    | count => exact absurd rfl hp
    | rawValue e => simp [WindowPart.commitOffset] at hlen ⊢; omega
    | config n => simp [WindowPart.commitOffset] at hlen ⊢; omega
    | point i => simp [WindowPart.commitOffset] at hlen ⊢; omega

theorem writeData_written (v : Byte) (s : State) :
    DataWritten s (writeData v s) ∧ (WindowSound s.window → WindowSound (writeData v s).window) := by
  unfold writeData
  split
  · exact ⟨.window _, id⟩
  next hpending =>
  have hd : s.table.deferred = none := by simpa [State.pendingCommit] using hpending
  split
  · exact ⟨.window _, fun h => windowSound_of_no_latch h rfl (.inr ⟨rfl, rfl, rfl⟩)⟩
  next bytes hb =>
  simp only [writePresent]
  split
  · exact ⟨.member _ _ _, fun h => windowSound_of_no_latch h rfl (.inr ⟨rfl, rfl, rfl⟩)⟩
  split
  · next p hp =>
    have hin : InPart s.window p := (partAt_iff s.window p).1 hp
    simp only [writePart]
    split
    · refine ⟨.commit p _ _ _ hd, fun h => ?_⟩
      obtain ⟨D, I, T, f, hc⟩ := commitPart_frame p _ _
      rw [hc]
      exact windowSound_of_no_latch h rfl (.inl rfl)
    · next ho =>
      refine ⟨.window _, fun h => windowSound_collect (w := { s.window with latch := none }) ?_ ?_ ?_ _⟩
      · exact windowSound_of_no_latch h rfl (.inr ⟨rfl, rfl, rfl⟩)
      · have hrec := addressed_of_inPart hin
        have hlen := length_partRecord s p
        rw [hb] at hrec
        cases hrec
        cases p <;> simp only at hlen <;> simp [WindowPart.commitOffset, hlen]
      · rintro rfl
        exact ho hin.2.2
  · exact ⟨.window _, fun h => windowSound_of_no_latch h rfl (.inr ⟨rfl, rfl, rfl⟩)⟩

end Sys2Proof.Machine

/-! ### Events that leave the supply and the window alone -/

namespace Sys2Proof.Machine

open Sys2Proof.Safety

/-- An event of the commands, the engine, the lines or the timebase: it leaves the supply and the window alone, offers
notices to the queue, and keeps the tariff selector sound. -/
structure OrdinaryEvent (s t : State) : Prop where
  supply : t.supply = s.supply
  window : t.window = s.window
  notices : Offered s.notices t.notices
  tariff : TariffSound s.tariff → TariffSound t.tariff

theorem OrdinaryEvent.running {s t : State} (h : OrdinaryEvent s t) (hr : s.Running) : t.Running := by
  rw [State.Running, h.supply]
  exact hr

theorem OrdinaryEvent.refl (s : State) : OrdinaryEvent s s := ⟨rfl, rfl, .none, id⟩

theorem ordinary_writeCode (code : Byte) (s : State) : OrdinaryEvent s (writeCode code s) := by
  have ht := tariffSound_writeCode (code := code) (s := s)
  obtain ⟨I, C, T, S, q, hq, h⟩ := writeCode_frame code s
  rw [h] at ht ⊢
  exact ⟨rfl, rfl, hq, ht⟩

theorem ordinary_writeCancel (s : State) : OrdinaryEvent s (writeCancel s) := by
  obtain ⟨S, w, h⟩ := writeCancel_frame s
  rw [h]
  exact ⟨rfl, rfl, .none, id⟩

theorem ordinary_grantApply (s : State) : OrdinaryEvent s (grantApply s) := by
  rcases grantApply_cases s with h | ⟨n, g, E, q, -, hq, h⟩ <;> rw [h]
  · exact .refl s
  · exact ⟨rfl, rfl, hq, id⟩

theorem ordinary_grantCopy (s : State) : OrdinaryEvent s (grantCopy s) := by
  rcases grantCopy_cases s with h | ⟨p, e, E, q, -, hq, h⟩ <;> rw [h]
  · exact .refl s
  · exact ⟨rfl, rfl, hq, id⟩

theorem ordinary_grantHost (s : State) : OrdinaryEvent s (grantHost s) := by
  rcases grantHost_cases s with h | ⟨c, E, q, -, hq, h⟩ <;> rw [h]
  · exact .refl s
  · exact ⟨rfl, rfl, hq, id⟩

theorem ordinary_completeApply (s : State) : OrdinaryEvent s (completeApply s) := by
  rcases completeApply_frame s with h | ⟨op, n, g, E, C, q, -, -, hq, h⟩ <;> rw [h]
  · exact .refl s
  · exact ⟨rfl, rfl, hq, id⟩

theorem ordinary_completeCopy (s : State) : OrdinaryEvent s (completeCopy s) := by
  rcases completeCopy_frame s with h | ⟨op, p, e, E, C, q, -, -, hq, h⟩ <;> rw [h]
  · exact .refl s
  · exact ⟨rfl, rfl, hq, id⟩

/-- The effect of each host operation touches entries, counters and the Notice Queue only. -/
theorem HostCompletion.touches {i : Instr} {effect : EngineCommand → Bool → State → Option (HostOutcome × State)}
    (h : HostCompletion i effect) {c : EngineCommand} {d : Bool} {s : State} {r : HostOutcome × State}
    (he : effect c d s = some r) : TouchesOnly s r.2 := by
  cases h with
  | preset => exact presetEffect_touches he
  | add => exact addEffect_touches he
  | subtract => exact subtractEffect_touches he
  | transfer => exact transferEffect_touches he
  | repair => exact repairEffect_touches he
  | clearFlags => exact clearFlagsEffect_touches he
  | armTrip => exact armTripEffect_touches he
  | disarmTrip => exact disarmTripEffect_touches he

theorem ordinary_completeHost {i : Instr} {effect : EngineCommand → Bool → State → Option (HostOutcome × State)}
    (he : HostCompletion i effect) (s : State) : OrdinaryEvent s (completeHost effect s) := by
  rcases completeHost_frame he.touches s with h | ⟨op, c, r, E, T, q, -, -, hq, h⟩ <;> rw [h]
  · exact .refl s
  · exact ⟨rfl, rfl, hq, id⟩

theorem ordinary_inputEdge (n : Fin 16) (level : Bool) (s : State) : OrdinaryEvent s (inputEdge n level s) := by
  obtain ⟨i, q, hq, h⟩ := inputEdge_frame n level s
  rw [h]
  exact ⟨rfl, rfl, hq, id⟩

theorem ordinary_capEdge (level : Bool) (s : State) : OrdinaryEvent s (capEdge level s) := by
  obtain ⟨C, q, hq, h⟩ := capEdge_frame level s
  rw [h]
  exact ⟨rfl, rfl, hq, id⟩

theorem ordinary_minuteExpiry (s : State) : OrdinaryEvent s (minuteExpiry s) := by
  have ht := tariffSound_minuteExpiry (s := s)
  obtain ⟨C, b, q, hq, h⟩ := minuteExpiry_frame s
  rw [h] at ht ⊢
  exact ⟨rfl, rfl, hq, ht⟩

theorem ordinary_secondExpiry (s : State) : OrdinaryEvent s (secondExpiry s) := by
  refine ⟨?_, ?_, ?_, tariffSound_secondExpiry⟩ <;> unfold secondExpiry <;> split
  · rfl
  · exact (ordinary_minuteExpiry s).supply
  · rfl
  · exact (ordinary_minuteExpiry s).window
  · exact .none
  · exact (ordinary_minuteExpiry s).notices

theorem ordinary_timebaseEdge (s : State) : OrdinaryEvent s (timebaseEdge s) := by
  refine ⟨?_, ?_, ?_, tariffSound_timebaseEdge⟩ <;> unfold timebaseEdge <;> split
  · rfl
  · exact (ordinary_secondExpiry s).supply
  · rfl
  · exact (ordinary_secondExpiry s).window
  · exact .none
  · exact (ordinary_secondExpiry s).notices

theorem ordinary_enableSchedule (s : State) : OrdinaryEvent s (enableSchedule s) := by
  have ht := tariffSound_enableSchedule (s := s)
  rcases enableSchedule_frame s with h | ⟨-, h⟩ | ⟨-, b, q, hq, h⟩ <;> rw [h] at ht ⊢
  · exact .refl s
  · exact ⟨rfl, rfl, .none, ht⟩
  · exact ⟨rfl, rfl, hq, ht⟩

theorem ordinary_disableSchedule (s : State) : OrdinaryEvent s (disableSchedule s) :=
  ⟨rfl, rfl, .none, fun ⟨hphase, hsecond, hminute, _⟩ => ⟨hphase, hsecond, hminute, fun h => by cases h⟩⟩

/-! ### The four blocks over every command -/

/-- The promises of the Notice Queue, the tariff selector, the window and the supply, each kept by itself. -/
structure BlocksKept (s t : State) : Prop where
  notices : NoticesBounded s.notices → NoticesBounded t.notices
  tariff : TariffSound s.tariff → TariffSound t.tariff
  window : WindowSound s.window → WindowSound t.window
  supply : SupplySound s.supply → SupplySound t.supply

theorem OrdinaryEvent.blocksKept {s t : State} (h : OrdinaryEvent s t) : BlocksKept s t := by
  refine ⟨noticesBounded_of_offered h.notices, h.tariff, ?_, ?_⟩
  · rw [h.window]; exact id
  · rw [h.supply]; exact id

theorem blocksKept_writeData (v : Byte) (s : State) : BlocksKept s (writeData v s) := by
  obtain ⟨hwritten, hwindow⟩ := writeData_written v s
  have htariff : TariffSound s.tariff → TariffSound (writeData v s).tariff := by
    intro h
    generalize writeData v s = t at hwritten
    cases hwritten with
    | window w => exact h
    | member e flag w => exact h
    | commit part bytes w w' hd => exact tariffSound_commitPart (s := s.setWindow w) h
  obtain ⟨D, I, T, w, h⟩ := writeData_frame v s
  rw [h] at hwindow htariff ⊢
  exact ⟨id, htariff, hwindow, id⟩

theorem windowSound_afterReset : WindowSound Window.afterReset :=
  ⟨fun _ h => (nomatch h), fun _ h => (nomatch h)⟩

theorem blocksKept_enterWarm (cause : WarmCause) (s : State) : BlocksKept s (enterWarm cause s) := by
  have hsupply : SupplySound (enterWarm cause s).supply := by
    intro h
    have hheld : s.supply.hold.warmed ≠ .running := by cases s.supply.hold <;> decide
    exact absurd h hheld
  rcases whenRunning_cases clearMain s with ⟨-, h⟩ | ⟨-, h⟩ <;> refine ⟨?_, ?_, ?_, fun _ => hsupply⟩ <;>
    simp only [enterWarm, h]
  · exact fun _ => noticesBounded_afterReset
  · exact id
  · exact fun _ => windowSound_afterReset
  · exact id
  · exact id
  · exact id

theorem tariffSound_cold : TariffSound Tariff.cold := by simp [TariffSound, Tariff.cold]

theorem blocksKept_enterCold (s : State) : BlocksKept s (enterCold s) :=
  ⟨fun _ => noticesBounded_afterReset, fun _ => tariffSound_cold, fun _ => windowSound_afterReset,
    fun _ h => by cases h⟩

theorem blocksKept_endCold (s : State) : BlocksKept s (endCold s) := by
  unfold endCold
  split
  · refine ⟨id, id, id, fun _ h => ?_⟩
    simp only at h ⊢
    split at h
    · cases h
    · next hgood => simpa using hgood
  · exact ⟨id, id, id, id⟩

theorem blocksKept_of_runs {c : Instr} {s t : State} (h : Runs c s t) : BlocksKept s t := by
  have invalid : ∀ w : Window, w.latch = none → w.buffer = none → WindowSound w := fun w hl hb =>
    windowSound_of_no_latch windowSound_afterReset hl (.inl hb)
  cases h
  case nothing => exact (OrdinaryEvent.refl s).blocksKept
  case code => exact (ordinary_writeCode ..).blocksKept
  case cancel => exact (ordinary_writeCancel s).blocksKept
  case applyGrant => exact (ordinary_grantApply s).blocksKept
  case copyGrant => exact (ordinary_grantCopy s).blocksKept
  case hostGrant => exact (ordinary_grantHost s).blocksKept
  case applyCompletion => exact (ordinary_completeApply s).blocksKept
  case copyCompletion => exact (ordinary_completeCopy s).blocksKept
  case hostCompletion he _ => exact (ordinary_completeHost he s).blocksKept
  case inputEdge => exact (ordinary_inputEdge ..).blocksKept
  case capEdge => exact (ordinary_capEdge ..).blocksKept
  case timebaseEdge => exact (ordinary_timebaseEdge s).blocksKept
  case secondExpiry => exact (ordinary_secondExpiry s).blocksKept
  case minuteExpiry => exact (ordinary_minuteExpiry s).blocksKept
  case enable => exact (ordinary_enableSchedule s).blocksKept
  case disable => exact (ordinary_disableSchedule s).blocksKept
  case pop => exact ⟨noticesBounded_pop, id, id, id⟩
  case space => exact ⟨id, id, fun _ => invalid _ rfl rfl, id⟩
  case index => exact ⟨id, id, fun _ => invalid _ rfl rfl, id⟩
  case offset => exact ⟨id, id, fun h => windowSound_of_no_latch h rfl (.inr ⟨rfl, rfl, rfl⟩), id⟩
  case readData =>
    obtain ⟨w, h⟩ := readData_frame s
    have hw := windowSound_readData (s := s)
    rw [h] at hw ⊢
    exact ⟨id, id, hw, id⟩
  case writeData v _ _ => exact blocksKept_writeData v s
  case warmReset => exact blocksKept_enterWarm ..
  case warmResetEnd => exact ⟨id, id, id, fun _ _ => ⟨rfl, rfl⟩⟩
  case coldReset => exact blocksKept_enterCold s
  case coldResetEnd => exact blocksKept_endCold s
  case lockoutExpiry | capLockoutExpiry | intStatus | intEnable | capEnable | operand | readDayHigh | heldRead |
      winStatus => exact ⟨id, id, id, id⟩

/-! ### A held part (R20, R43, R70, R99, R136, R159, R171, R176) -/

/-- The values of a held part: the right-hand side of `HeldAtReset`. -/
def AtReset (s : State) : Prop :=
  s.table.held = [] ∧ s.table.deferred = none ∧
    (∀ n, s.input n = Input.afterReset (s.input n).config (s.input n).level) ∧ s.engine = Engine.afterReset ∧
    s.capture = CaptureUnit.afterReset s.capture.sequence s.capture.capLevel ∧ s.tariff.invalid = false ∧
    s.tariff.hold = TimeHold.zero ∧ s.slot = Slot.afterReset ∧ s.notices = Notices.afterReset ∧
    s.window = Window.afterReset

theorem grantApply_of_held {s : State} (h : ¬s.Running) : grantApply s = s := by
  rcases grantApply_cases s with he | ⟨n, g, E, q, ha, -, -⟩
  · exact he
  · exact absurd (arbiter_running ha).1 h

theorem grantCopy_of_held {s : State} (h : ¬s.Running) : grantCopy s = s := by
  rcases grantCopy_cases s with he | ⟨p, e, E, q, ha, -, -⟩
  · exact he
  · exact absurd (arbiter_running ha).1 h

theorem grantHost_of_held {s : State} (h : ¬s.Running) : grantHost s = s := by
  rcases grantHost_cases s with he | ⟨c, E, q, ha, -, -⟩
  · exact he
  · exact absurd (arbiter_running ha).1 h

theorem inputEdge_of_held {s : State} (h : ¬s.Running) (n : Fin 16) (level : Bool) :
    inputEdge n level s = setLevel n level s := by
  unfold inputEdge
  split
  · next hl => rw [setLevel, ← hl, setInput_input]
  · exact whenRunning_of_held (by exact h) _

theorem capEdge_of_held {s : State} (h : ¬s.Running) (level : Bool) :
    capEdge level s = s.setCapture { s.capture with capLevel := level } := by
  unfold capEdge
  split
  · next hl => rw [← hl]; rfl
  · simp only
    split
    · exact whenRunning_of_held (by exact h) _
    · rfl

/-- A minute expiry of a held part moves the time and the bin, with no notice and no trigger (R130, R134, R136). -/
theorem minuteExpiry_of_held {s : State} (h : ¬s.Running) :
    ∃ b, minuteExpiry s = { s with tariff := { s.tariff.nextMinute with bin := b } } := by
  unfold minuteExpiry
  simp only
  split
  · split
    · next p _ _ =>
      refine ⟨p.binOf, ?_⟩
      simp only [switchTo, setBin_eq]
      rw [if_neg h]
      split
      · exact whenRunning_of_held (by exact h) _
      · rfl
    · exact ⟨_, rfl⟩
  · exact ⟨_, rfl⟩

/-- The timebase moves the time and the bin of a held part and nothing else. -/
theorem atReset_time {s : State} {t : Tariff} (h : AtReset s) (hi : t.invalid = s.tariff.invalid)
    (hh : t.hold = s.tariff.hold) : AtReset { s with tariff := t } := by
  obtain ⟨hheld, hdeferred, hinputs, hengine, hcapture, hinvalid, hhold, hslot, hnotices, hwindow⟩ := h
  exact ⟨hheld, hdeferred, hinputs, hengine, hcapture, hi.trans hinvalid, hh.trans hhold, hslot, hnotices, hwindow⟩

theorem nextMinute_keeps (t : Tariff) : t.nextMinute.invalid = t.invalid ∧ t.nextMinute.hold = t.hold := by
  unfold Tariff.nextMinute
  split <;> exact ⟨rfl, rfl⟩

theorem atReset_minuteExpiry {s : State} (hr : ¬s.Running) (h : AtReset s) : AtReset (minuteExpiry s) := by
  obtain ⟨b, he⟩ := minuteExpiry_of_held hr
  rw [he]
  exact atReset_time h (nextMinute_keeps _).1 (nextMinute_keeps _).2

theorem atReset_secondExpiry {s : State} (hr : ¬s.Running) (h : AtReset s) : AtReset (secondExpiry s) := by
  unfold secondExpiry
  split
  · exact atReset_time h rfl rfl
  · exact atReset_minuteExpiry hr h

theorem atReset_timebaseEdge {s : State} (hr : ¬s.Running) (h : AtReset s) : AtReset (timebaseEdge s) := by
  unfold timebaseEdge
  split
  · exact atReset_time h rfl rfl
  · exact atReset_secondExpiry hr h

/-- An input of a held part keeps its reset values while its level or its lockout is written. -/
theorem atReset_setInput {s : State} {n : Fin 16} {i : Input} (h : AtReset s)
    (hi : i = Input.afterReset i.config i.level) : AtReset (s.setInput n i) := by
  obtain ⟨hheld, hdeferred, hinputs, rest⟩ := h
  refine ⟨hheld, hdeferred, fun m => ?_, rest⟩
  rw [input_setInput]
  split
  · exact hi
  · exact hinputs m

theorem atReset_capture {s : State} {c : CaptureUnit} (h : AtReset s)
    (hc : c = CaptureUnit.afterReset c.sequence c.capLevel) : AtReset (s.setCapture c) := by
  obtain ⟨hheld, hdeferred, hinputs, hengine, -, rest⟩ := h
  exact ⟨hheld, hdeferred, hinputs, hengine, hc, rest⟩

theorem input_map (s : State) (f : Input → Input) (n : Fin 16) :
    State.input { s with inputs := s.inputs.map f } n = f (s.input n) := by
  simp [State.input]

theorem atReset_enterCold (s : State) : AtReset (enterCold s) := by
  refine ⟨rfl, rfl, fun n => ?_, rfl, rfl, rfl, rfl, rfl, rfl, rfl⟩
  have h : (enterCold s).input n = (s.input n).coldFrom := input_map s Input.coldFrom n
  rw [h]
  rfl

/-- A warm reset of a running part clears the main domain and holds the part (R191). -/
theorem enterWarm_of_running {s : State} (hr : s.Running) (cause : WarmCause) :
    enterWarm cause s = { clearMain s with supply := { s.supply.withCause cause with hold := .warm } } := by
  rw [enterWarm, whenRunning_of_running hr, show s.supply.hold = .running from hr]
  rfl

theorem input_enterWarm {s : State} (hr : s.Running) (cause : WarmCause) (n : Fin 16) :
    (enterWarm cause s).input n = (s.input n).warm := by
  rw [enterWarm_of_running hr]
  exact input_map s Input.warm n

theorem atReset_enterWarm {s : State} (hr : s.Running) (cause : WarmCause) : AtReset (enterWarm cause s) := by
  have hinputs : ∀ n, (enterWarm cause s).input n =
      Input.afterReset ((enterWarm cause s).input n).config ((enterWarm cause s).input n).level := by
    intro n
    rw [input_enterWarm hr]
    rfl
  rw [enterWarm_of_running hr] at hinputs ⊢
  exact ⟨rfl, rfl, hinputs, rfl, rfl, rfl, rfl, rfl, rfl, rfl⟩

/-- What the rows that reach a held part do to it. -/
theorem atReset_of_runs {c : Instr} {s t : State} (hrun : Runs c s t) (hr : ¬s.Running) (h : AtReset s) :
    t.Running ∨ AtReset t := by
  have hinput : ∀ n, s.input n = Input.afterReset (s.input n).config (s.input n).level := h.2.2.1
  have hcapture : s.capture = CaptureUnit.afterReset s.capture.sequence s.capture.capLevel := h.2.2.2.2.1
  cases hrun
  case nothing => exact .inr h
  case applyGrant => rw [grantApply_of_held hr]; exact .inr h
  case copyGrant => rw [grantCopy_of_held hr]; exact .inr h
  case hostGrant => rw [grantHost_of_held hr]; exact .inr h
  case inputEdge n level =>
    rw [inputEdge_of_held hr]
    exact .inr (atReset_setInput h (by rw [hinput n]; rfl))
  case lockoutExpiry n => exact .inr (atReset_setInput h (by rw [hinput n]; rfl))
  case capEdge level =>
    rw [capEdge_of_held hr]
    exact .inr (atReset_capture h (by rw [hcapture]; rfl))
  case capLockoutExpiry => exact .inr (atReset_capture h (by rw [hcapture]; rfl))
  case timebaseEdge => exact .inr (atReset_timebaseEdge hr h)
  case secondExpiry => exact .inr (atReset_secondExpiry hr h)
  case minuteExpiry => exact .inr (atReset_minuteExpiry hr h)
  case heldRead =>
    obtain ⟨hheld, hdeferred, hinputs, hengine, hcap, hinvalid, hhold, hslot, hnotices, hwindow⟩ := h
    exact .inr ⟨hheld, hdeferred, hinputs, hengine, hcap, hinvalid, hhold, hslot, hnotices, by rw [hwindow]; rfl⟩
  case warmReset cause => rw [enterWarm, whenRunning_of_held hr]; exact .inr h
  case warmResetEnd => exact .inr h
  case coldReset => exact .inr (atReset_enterCold s)
  case coldResetEnd => unfold endCold; split <;> exact .inr h
  all_goals exact absurd ‹s.Running› hr

/-- A running part runs on, but for the two resets, which leave it at its reset values. -/
theorem running_or_atReset_of_runs {c : Instr} {s t : State} (hrun : Runs c s t) (hr : s.Running) :
    t.Running ∨ AtReset t := by
  cases hrun
  case nothing => exact .inl hr
  case code => exact .inl ((ordinary_writeCode ..).running hr)
  case cancel => exact .inl ((ordinary_writeCancel s).running hr)
  case applyGrant => exact .inl ((ordinary_grantApply s).running hr)
  case copyGrant => exact .inl ((ordinary_grantCopy s).running hr)
  case hostGrant => exact .inl ((ordinary_grantHost s).running hr)
  case applyCompletion => exact .inl ((ordinary_completeApply s).running hr)
  case copyCompletion => exact .inl ((ordinary_completeCopy s).running hr)
  case hostCompletion he _ => exact .inl ((ordinary_completeHost he s).running hr)
  case inputEdge => exact .inl ((ordinary_inputEdge ..).running hr)
  case capEdge => exact .inl ((ordinary_capEdge ..).running hr)
  case timebaseEdge => exact .inl ((ordinary_timebaseEdge s).running hr)
  case secondExpiry => exact .inl ((ordinary_secondExpiry s).running hr)
  case minuteExpiry => exact .inl ((ordinary_minuteExpiry s).running hr)
  case enable => exact .inl ((ordinary_enableSchedule s).running hr)
  case readData =>
    obtain ⟨w, h⟩ := readData_frame s
    rw [h]
    exact .inl hr
  case writeData v _ _ =>
    obtain ⟨D, I, T, w, h⟩ := writeData_frame v s
    rw [h]
    exact .inl hr
  case warmReset cause => exact .inr (atReset_enterWarm hr cause)
  case warmResetEnd => exact .inl (by simp [endWarm, State.Running, show s.supply.hold = .running from hr])
  case coldReset => exact .inr (atReset_enterCold s)
  case coldResetEnd => exact .inl (by simp [endCold, State.Running, show s.supply.hold = .running from hr])
  case lockoutExpiry | capLockoutExpiry | pop | intStatus | intEnable | capEnable | operand | disable | readDayHigh |
      heldRead | winStatus | space | index | offset => exact .inl hr

/-- Settles O56: each of the four blocks is kept by what any command runs, and a part either runs on or is left at its
reset values. -/
theorem stepKeepsTheBlockPromises : Obligations.StepKeepsTheBlockPromises := by
  refine ⟨kept_of_runs (fun s l h => h) fun hrun => (blocksKept_of_runs hrun).notices,
    kept_of_runs (fun s l h => h) fun hrun => (blocksKept_of_runs hrun).tariff,
    kept_of_runs (fun s l h => h) fun hrun => (blocksKept_of_runs hrun).window,
    kept_of_runs (fun s l h => h) fun hrun => (blocksKept_of_runs hrun).supply,
    kept_of_runs (fun s l h => h) fun {c s t} hrun h => ?_⟩
  by_cases hr : s.Running
  · exact running_or_atReset_of_runs hrun hr
  · exact atReset_of_runs hrun hr (h.resolve_left hr)

end Sys2Proof.Machine

/-! ## A promise about the main blocks

The remaining promises look at the table, the inputs, the engine, the counters, the capture unit, the slot's state and the
supply. `KeptByBlocks` lists what the commands do to these; everything else a command does is quiet. -/

namespace Sys2Proof.Machine

open Sys2Proof.Safety

/-- A change of the tariff selector, the window, the Notice Queue, the queue of commands and the slot outside its state. -/
inductive Quiet (s : State) : State → Prop
  | mk (T : Tariff) (S : Slot) (q : Notices) (w : Window) (l : List Instr) : S.state = s.slot.state →
      Quiet s { s with tariff := T, slot := S, notices := q, window := w, pending := l }

theorem Quiet.slotState {s t : State} (h : Quiet s t) : t.slot.state = s.slot.state := by
  cases h
  assumption

theorem quiet_offer (kind : NoticeKind) (subject d0 d1 : Byte) (s : State) : Quiet s (offer kind subject d0 d1 s) := by
  obtain ⟨q, -, h⟩ := offer_offered kind subject d0 d1 s
  rw [h]
  exact ⟨_, _, _, _, _, rfl⟩

theorem quiet_setBin (b : Fin 4) (cause : TariffCause) (s : State) : Quiet s (setBin b cause s) := by
  rw [setBin_eq]
  exact ⟨_, _, _, _, _, rfl⟩

theorem quiet_enableSchedule (s : State) : Quiet s (enableSchedule s) := by
  rcases enableSchedule_frame s with h | ⟨-, h⟩ | ⟨-, b, q, -, h⟩ <;> rw [h] <;> exact ⟨_, _, _, _, _, rfl⟩

theorem quiet_setTimeCommand (day : BitVec 16) (minute second : Nat) (s : State) :
    Quiet s (setTimeCommand day minute second s) := by
  simp only [setTimeCommand]
  split
  · obtain ⟨b, q, -, h⟩ := resolveBin_frame
      { s with tariff := { s.tariff with day := day, minute := minute, second := second, phase := 0 } }
    rw [h]
    exact ⟨_, _, _, _, _, rfl⟩
  · exact ⟨_, _, _, _, _, rfl⟩

theorem quiet_readData (s : State) : Quiet s (readData s) := by
  obtain ⟨w, h⟩ := readData_frame s
  rw [h]
  exact ⟨_, _, _, _, _, rfl⟩

/-- A command that ends in an IDLE slot leaves it IDLE. -/
theorem quiet_endCommand {s : State} (h : s.slot.state = .idle) (r : Result) : Quiet s (endCommand r s) :=
  ⟨_, _, _, _, _, h.symm⟩

/-- DAMAGED and the suspense of two entries agree. -/
def SameMarks (a b : Entry) : Prop := b.damaged = a.damaged ∧ b.suspense = a.suspense

/-- What the effect of a host operation leaves: entries, counters and notices change; the marks of an entry stay or are
cleared; a counter stays, is armed by the command's operands, or is disarmed. -/
structure HostLeaves (c : EngineCommand) (s u : State) : Prop where
  touches : TouchesOnly s u
  marks : ∀ x, SameMarks (s.entry x) (u.entry x) ∨ ((u.entry x).damaged = false ∧ (u.entry x).suspense = none)
  trips : ∀ k, u.trip k = s.trip k ∨
    (∃ preset prewarn, c = .armTrip k preset prewarn ∧
      u.trip k = { state := .armed, remaining := preset, prewarn := prewarn, overshoot := 0 }) ∨
    u.trip k = { s.trip k with state := .idle }

/-- The operations of the commands on the main blocks, each keeping a promise `P` under a promise `A`. -/
structure KeptByBlocks (A P : State → Prop) : Prop where
  quiet : ∀ {s t}, Quiet s t → A s → P s → P t
  waits : ∀ (s : State) (c : EngineCommand), s.slot.state = .idle → ArmSound c → A s → P s →
    P { s with slot := { s.slot with state := .waiting c } }
  cancel : ∀ (s : State) (c : EngineCommand), s.slot.state = .waiting c → A s → P s →
    P { s with slot := { s.slot with state := .idle }, engine := { s.engine with hostWait := 0 } }
  applyGrant : ∀ (s : State) (n : Fin 16) (g : Group), s.arbiter = some (.apply n g) → A s → P s →
    P (beginOperation (.apply n g) (claimHead n (countHostWait s)))
  copyGrant : ∀ (s : State) (p : Nat) (e : Fin 64), s.arbiter = some (.copy p e) → A s → P s →
    P (beginOperation (.copy p e) (countHostWait s))
  hostGrant : ∀ (s : State) (c : EngineCommand), s.arbiter = some (.host c) → A s → P s →
    P (beginOperation (.host c) (startHost c s))
  applyCompletion : ∀ (s : State) (op : Operation) (n : Fin 16) (g : Group), s.engine.op = some op →
    op.work = .apply n g → A s → P s →
    P (checkDrain (clearInFlight n (moveLinked n g (release (applyAmount g op.foundDamaged s)))))
  copyCompletion : ∀ (s : State) (op : Operation) (p : Nat) (e : Fin 64), s.engine.op = some op →
    op.work = .copy p e → A s → P s →
    P (checkDrain (release (s.setCapture (s.capture.takeCopy p (copyOf e (s.entry e) op.foundDamaged)))))
  hostCompletion : ∀ (s u : State) (op : Operation) (c : EngineCommand) (r : Result), s.engine.op = some op →
    op.work = .host c → HostLeaves c s u → A s → P s → P (endCommand r (release u))
  inputEdge : ∀ (n : Fin 16) (level : Bool) (s : State), A s → P s → P (inputEdge n level s)
  lockout : ∀ (n : Fin 16) (s : State), A s → P s → P (expireLockout n s)
  takeTrigger : ∀ (source : TriggerSource) (s : State), s.capture.phase = .idle → A s → P s → P (takeTrigger source s)
  capLine : ∀ (s : State) (enable lockout level : Bool), A s → P s →
    P (s.setCapture { s.capture with capEnable := enable, capLockout := lockout, capLevel := level })
  openBank : ∀ (s : State) (id : BankId), s.capture.openBank = none → s.capture.bankToOpen = some id → A s → P s →
    P (s.setCapture (s.capture.setBank id { s.capture.bank id with state := .opened }))
  closeBank : ∀ (s : State) (id : BankId), s.capture.openBank = some id → A s → P s →
    P (s.setCapture (s.capture.setBank id { s.capture.bank id with state := .free }))
  resetInput : ∀ (n : Fin 16) (s : State), A s → P s → P (resetInputCommand n s)
  rawValue : ∀ (e : Fin 64) (digits : Vector Nibble 12) (s : State), s.table.deferred = none → A s → P s →
    P (commitRaw e digits s)
  member : ∀ (e : Fin 64) (flag : Bool) (s : State), A s → P s → P (commitMember e flag s)
  config : ∀ (n : Fin 16) (bytes : List Byte) (s : State), A s → P s → P (commitConfig n bytes s)
  supply : ∀ (s : State) (p : Supply), (s.Running → p.hold = .running) → A s → P s → P { s with supply := p }
  enterWarm : ∀ (cause : WarmCause) (s : State), s.Running → A s → P s → P (enterWarm cause s)
  enterCold : ∀ s : State, A s → P s → P (enterCold s)

/-- A promise the blocks keep with the help of no other. -/
abbrev KeptAlone (P : State → Prop) : Prop := KeptByBlocks (fun _ => True) P

/-- A promise kept alone and one kept under it are kept together. -/
theorem KeptByBlocks.and {A P : State → Prop} (hA : KeptAlone A) (h : KeptByBlocks A P) :
    KeptAlone fun s => A s ∧ P s where
  quiet hq _ hs := ⟨hA.quiet hq trivial hs.1, h.quiet hq hs.1 hs.2⟩
  waits s c hi hc _ hs := ⟨hA.waits s c hi hc trivial hs.1, h.waits s c hi hc hs.1 hs.2⟩
  cancel s c hw _ hs := ⟨hA.cancel s c hw trivial hs.1, h.cancel s c hw hs.1 hs.2⟩
  applyGrant s n g ha _ hs := ⟨hA.applyGrant s n g ha trivial hs.1, h.applyGrant s n g ha hs.1 hs.2⟩
  copyGrant s p e ha _ hs := ⟨hA.copyGrant s p e ha trivial hs.1, h.copyGrant s p e ha hs.1 hs.2⟩
  hostGrant s c ha _ hs := ⟨hA.hostGrant s c ha trivial hs.1, h.hostGrant s c ha hs.1 hs.2⟩
  applyCompletion s op n g ho hw _ hs :=
    ⟨hA.applyCompletion s op n g ho hw trivial hs.1, h.applyCompletion s op n g ho hw hs.1 hs.2⟩
  copyCompletion s op p e ho hw _ hs :=
    ⟨hA.copyCompletion s op p e ho hw trivial hs.1, h.copyCompletion s op p e ho hw hs.1 hs.2⟩
  hostCompletion s u op c r ho hw hl _ hs :=
    ⟨hA.hostCompletion s u op c r ho hw hl trivial hs.1, h.hostCompletion s u op c r ho hw hl hs.1 hs.2⟩
  inputEdge n level s _ hs := ⟨hA.inputEdge n level s trivial hs.1, h.inputEdge n level s hs.1 hs.2⟩
  lockout n s _ hs := ⟨hA.lockout n s trivial hs.1, h.lockout n s hs.1 hs.2⟩
  takeTrigger source s hi _ hs := ⟨hA.takeTrigger source s hi trivial hs.1, h.takeTrigger source s hi hs.1 hs.2⟩
  capLine s e l v _ hs := ⟨hA.capLine s e l v trivial hs.1, h.capLine s e l v hs.1 hs.2⟩
  openBank s id ho hb _ hs := ⟨hA.openBank s id ho hb trivial hs.1, h.openBank s id ho hb hs.1 hs.2⟩
  closeBank s id ho _ hs := ⟨hA.closeBank s id ho trivial hs.1, h.closeBank s id ho hs.1 hs.2⟩
  resetInput n s _ hs := ⟨hA.resetInput n s trivial hs.1, h.resetInput n s hs.1 hs.2⟩
  rawValue e d s hd _ hs := ⟨hA.rawValue e d s hd trivial hs.1, h.rawValue e d s hd hs.1 hs.2⟩
  member e f s _ hs := ⟨hA.member e f s trivial hs.1, h.member e f s hs.1 hs.2⟩
  config n b s _ hs := ⟨hA.config n b s trivial hs.1, h.config n b s hs.1 hs.2⟩
  supply s p hp _ hs := ⟨hA.supply s p hp trivial hs.1, h.supply s p hp hs.1 hs.2⟩
  enterWarm c s hr _ hs := ⟨hA.enterWarm c s hr trivial hs.1, h.enterWarm c s hr hs.1 hs.2⟩
  enterCold s _ hs := ⟨hA.enterCold s trivial hs.1, h.enterCold s hs.1 hs.2⟩

/-! ### What the effects of the host operations leave -/

theorem entry_offerCarry (k : OpKind) (e : Fin 64) (q : Quantity) (b : Entry) (c : Carry) (u : State) (x : Fin 64) :
    (offerCarry k e q b c u).entry x = u.entry x := by
  obtain ⟨N, -, h⟩ := offerCarry_frame k e q b c u
  rw [h]
  rfl

theorem trip_offerCarry (k : OpKind) (e : Fin 64) (q : Quantity) (b : Entry) (c : Carry) (u : State) (j : Fin 8) :
    (offerCarry k e q b c u).trip j = u.trip j := by
  obtain ⟨N, -, h⟩ := offerCarry_frame k e q b c u
  rw [h]
  rfl

theorem trip_setEntry (s : State) (e : Fin 64) (en : Entry) (k : Fin 8) : (s.setEntry e en).trip k = s.trip k := rfl

theorem entry_setTrip (s : State) (k : Fin 8) (t : TripCounter) (x : Fin 64) : (s.setTrip k t).entry x = s.entry x :=
  rfl

theorem entry_carryToValue (k : OpKind) (e : Fin 64) (c : Carry) (u : State) (x : Fin 64) :
    (carryToValue k e c u).entry x =
      if e = x then ((u.entry e).withValue c.result).withFlags c else u.entry x := by
  rw [carryToValue, entry_offerCarry, entry_setEntry]

theorem trip_carryToValue (k : OpKind) (e : Fin 64) (c : Carry) (u : State) (j : Fin 8) :
    (carryToValue k e c u).trip j = u.trip j := by
  rw [carryToValue, trip_offerCarry, trip_setEntry]

/-- A value written by the engine leaves the marks (R4, R50). -/
theorem sameMarks_carryToValue (k : OpKind) (e : Fin 64) (c : Carry) (u : State) (x : Fin 64) :
    SameMarks (u.entry x) ((carryToValue k e c u).entry x) := by
  rw [entry_carryToValue]
  split
  · next h => subst h; exact ⟨rfl, rfl⟩
  · exact ⟨rfl, rfl⟩

theorem sameMarks_setEntry {s : State} {e : Fin 64} {en : Entry} (h : SameMarks (s.entry e) en) (x : Fin 64) :
    SameMarks (s.entry x) ((s.setEntry e en).entry x) := by
  rw [entry_setEntry]
  split
  · next he => subst he; exact h
  · exact ⟨rfl, rfl⟩

theorem SameMarks.trans {a b c : Entry} (h : SameMarks a b) (h' : SameMarks b c) : SameMarks a c :=
  ⟨h'.1.trans h.1, h'.2.trans h.2⟩

/-- What the effect of a host operation does to the state: nothing when it is refused, or the writes of its command. -/
inductive HostEffect (s : State) : EngineCommand → State → Prop
  | refused (c : EngineCommand) : HostEffect s c s
  | preset (e : Fin 64) (v : Nat) : HostEffect s (.preset e v) (s.setEntry e ((s.entry e).withValue v))
  | amount (c : EngineCommand) (k : OpKind) (e : Fin 64) (r : Carry) : HostEffect s c (carryToValue k e r s)
  | transfer (source target : Fin 64) (r : Carry) :
      HostEffect s (.transfer source target)
        (carryToValue .transfer target r (s.setEntry source ((s.entry source).withValue 0)))
  | repair (e : Fin 64) (v : Nat) (fold : Bool) (r : Carry) :
      HostEffect s (.repair e v fold) (carryToValue .repair e r (s.setEntry e (s.entry e).restored))
  | clearFlags (e : Fin 64) :
      HostEffect s (.clearFlags e) (s.setEntry e { s.entry e with wrapped := false, borrowed := false })
  | armTrip (k : Fin 8) (preset prewarn : Nat) :
      HostEffect s (.armTrip k preset prewarn)
        (s.setTrip k { state := .armed, remaining := preset, prewarn := prewarn, overshoot := 0 })
  | disarmTrip (k : Fin 8) : HostEffect s (.disarmTrip k) (s.setTrip k { s.trip k with state := .idle })

theorem HostCompletion.hostEffect {i : Instr} {effect : EngineCommand → Bool → State → Option (HostOutcome × State)}
    (h : HostCompletion i effect) {c : EngineCommand} {d : Bool} {s : State} {r : HostOutcome × State}
    (he : effect c d s = some r) : HostEffect s c r.2 := by
  cases h <;> cases c <;> cases he
  case preset.preset => cases d; exacts [.preset .., .refused _]
  case add.add => cases d; exacts [.amount .., .refused _]
  case subtract.subtract => cases d; exacts [.amount .., .refused _]
  case transfer.transfer => cases d; exacts [.transfer .., .refused _]
  case repair.repair => cases d; exacts [.refused _, .repair ..]
  case clearFlags.clearFlags => exact .clearFlags _
  case armTrip.armTrip => exact .armTrip ..
  case disarmTrip.disarmTrip => exact .disarmTrip _

/-- Only a REPAIR changes the marks of an entry, and it clears them (R154). -/
theorem HostEffect.marks {s u : State} {c : EngineCommand} (h : HostEffect s c u) (x : Fin 64) :
    SameMarks (s.entry x) (u.entry x) ∨ ((u.entry x).damaged = false ∧ (u.entry x).suspense = none) := by
  cases h with
  | refused => exact .inl ⟨rfl, rfl⟩
  | preset e v => exact .inl (sameMarks_setEntry (en := (s.entry e).withValue v) ⟨rfl, rfl⟩ x)
  | amount => exact .inl (sameMarks_carryToValue ..)
  | transfer source target r =>
    exact .inl (.trans (sameMarks_setEntry (en := (s.entry source).withValue 0) ⟨rfl, rfl⟩ x)
      (sameMarks_carryToValue ..))
  | repair e v fold r =>
    have hcarried := sameMarks_carryToValue .repair e r (s.setEntry e (s.entry e).restored) x
    rw [SameMarks, entry_setEntry] at hcarried
    split at hcarried
    · exact .inr hcarried
    · exact .inl hcarried
  | clearFlags e =>
    exact .inl (sameMarks_setEntry (en := { s.entry e with wrapped := false, borrowed := false }) ⟨rfl, rfl⟩ x)
  | armTrip => exact .inl ⟨rfl, rfl⟩
  | disarmTrip => exact .inl ⟨rfl, rfl⟩

/-- Only ARM_TRIP and DISARM_TRIP change a counter (R106, R107). -/
theorem HostEffect.trips {s u : State} {c : EngineCommand} (h : HostEffect s c u) (k : Fin 8) :
    u.trip k = s.trip k ∨
      (∃ preset prewarn, c = .armTrip k preset prewarn ∧
        u.trip k = { state := .armed, remaining := preset, prewarn := prewarn, overshoot := 0 }) ∨
      u.trip k = { s.trip k with state := .idle } := by
  cases h with
  | refused | preset | clearFlags => exact .inl rfl
  | amount | transfer | repair => exact .inl (trip_carryToValue ..)
  | armTrip j preset prewarn =>
    rw [trip_setTrip]
    split
    · next hj => subst hj; exact .inr (.inl ⟨_, _, rfl, rfl⟩)
    · exact .inl rfl
  | disarmTrip j =>
    rw [trip_setTrip]
    split
    · next hj => subst hj; exact .inr (.inr rfl)
    · exact .inl rfl

theorem HostCompletion.leaves {i : Instr} {effect : EngineCommand → Bool → State → Option (HostOutcome × State)}
    (h : HostCompletion i effect) {c : EngineCommand} {d : Bool} {s : State} {r : HostOutcome × State}
    (he : effect c d s = some r) : HostLeaves c s r.2 :=
  ⟨h.touches he, (h.hostEffect he).marks, (h.hostEffect he).trips⟩

/-! ### The reduction -/

variable {P : State → Prop}

theorem KeptByBlocks.offer (h : KeptAlone P) (kind : NoticeKind) (subject d0 d1 : Byte) {s : State} (hs : P s) :
    P (offer kind subject d0 d1 s) :=
  h.quiet (quiet_offer ..) trivial hs

/-- A trigger of the LINE or SCHEDULE source is taken, or refused with a notice (R83). -/
theorem KeptByBlocks.trigger (h : KeptAlone P) (source : TriggerSource) {s : State} (hs : P s) :
    P (trigger source s) := by
  unfold Machine.trigger
  split
  · next hi => exact h.takeTrigger source s hi trivial hs
  · exact h.offer _ _ _ _ hs

theorem KeptByBlocks.capEdge (h : KeptAlone P) (level : Bool) {s : State} (hs : P s) : P (capEdge level s) := by
  have hl : P (s.setCapture { s.capture with capLevel := level }) :=
    h.capLine s s.capture.capEnable s.capture.capLockout level trivial hs
  unfold Machine.capEdge
  split
  · exact hs
  · simp only
    split
    · refine whenRunning_keeps hl fun _ => ?_
      unfold capRise
      split
      · exact h.trigger .line (h.capLine _ s.capture.capEnable true level trivial hl)
      · exact hl
    · exact hl

theorem KeptByBlocks.minuteExpiry (h : KeptAlone P) {s : State} (hs : P s) : P (minuteExpiry s) := by
  have ht : P { s with tariff := s.tariff.nextMinute } := h.quiet ⟨_, s.slot, _, _, _, rfl⟩ trivial hs
  unfold Machine.minuteExpiry
  simp only
  split
  · next p _ =>
    split
    · have hb := h.quiet (quiet_setBin p.binOf .schedule _) trivial ht
      simp only [switchTo]
      split
      · exact whenRunning_keeps hb fun _ => h.trigger .schedule hb
      · exact hb
    · exact ht
  · exact ht

theorem KeptByBlocks.secondExpiry (h : KeptAlone P) {s : State} (hs : P s) : P (secondExpiry s) := by
  unfold Machine.secondExpiry
  split
  · exact h.quiet ⟨_, s.slot, _, _, _, rfl⟩ trivial hs
  · exact h.minuteExpiry hs

theorem KeptByBlocks.timebaseEdge (h : KeptAlone P) {s : State} (hs : P s) : P (timebaseEdge s) := by
  unfold Machine.timebaseEdge
  split
  · exact h.quiet ⟨_, s.slot, _, _, _, rfl⟩ trivial hs
  · exact h.secondExpiry hs

theorem slot_checkDrain (s : State) : (checkDrain s).slot = s.slot := by
  obtain ⟨C, q, -, h⟩ := checkDrain_frame s
  rw [h]

theorem KeptByBlocks.handOn (h : KeptAlone P) {c : Command} (hc : CommandSound c) {s : State}
    (hi : s.slot.state = .idle) (hs : P s) : P (handOn c s) := by
  cases c with
  | engine c => exact h.waits s c hi hc trivial hs
  | capture =>
    simp only [Machine.handOn, captureCommand]
    split
    · next hidle =>
      have ht := h.takeTrigger .host s hidle trivial hs
      refine h.quiet (quiet_endCommand ?_ _) trivial ht
      obtain ⟨C, q, -, he⟩ := takeTrigger_frame .host s
      rw [he]
      exact hi
    · exact h.quiet (quiet_endCommand hi _) trivial hs
  | openBank =>
    simp only [Machine.handOn, openBankCommand]
    split
    · exact h.quiet (quiet_endCommand hi _) trivial hs
    · next ho =>
      split
      · exact h.quiet (quiet_endCommand hi _) trivial hs
      · next id hb => exact h.quiet (quiet_endCommand (by exact hi) _) trivial (h.openBank s id ho hb trivial hs)
  | closeBank =>
    simp only [Machine.handOn, closeBankCommand]
    split
    · exact h.quiet (quiet_endCommand hi _) trivial hs
    · next id ho => exact h.quiet (quiet_endCommand (by exact hi) _) trivial (h.closeBank s id ho trivial hs)
  | setTariff b =>
    have hb := h.quiet (quiet_setBin b .host s) trivial hs
    refine h.quiet (quiet_endCommand ?_ _) trivial hb
    rw [setBin_eq]
    exact hi
  | setTime day minute second =>
    have ht := h.quiet (quiet_setTimeCommand day minute second s) trivial hs
    refine h.quiet (quiet_endCommand ?_ _) trivial ht
    exact (quiet_setTimeCommand day minute second s).slotState.trans hi
  | resetInput n =>
    refine h.quiet (quiet_endCommand ?_ _) trivial (h.resetInput n s trivial hs)
    rw [resetInputCommand, slot_checkDrain]
    exact hi

theorem KeptByBlocks.writeCode (h : KeptAlone P) (code : Byte) {s : State} (hs : P s) : P (writeCode code s) := by
  have hb : P (beginTaking code s) := h.quiet ⟨_, _, _, _, _, rfl⟩ trivial hs
  rcases writeCode_cases code s with ⟨-, he⟩ | ⟨hi, r, he⟩ | ⟨hi, c, hc, he⟩ <;> rw [he]
  · exact h.quiet ⟨_, _, _, _, _, rfl⟩ trivial hs
  · exact h.quiet (quiet_endCommand (s := beginTaking code s) hi r) trivial hb
  · exact h.handOn hc (s := beginTaking code s) hi hb

theorem KeptByBlocks.writeCancel (h : KeptAlone P) {s : State} (hs : P s) : P (writeCancel s) := by
  unfold Machine.writeCancel
  split
  · next c hw =>
    have hidle := h.cancel s c hw trivial hs
    have hended := h.quiet (quiet_endCommand rfl .cancelled) trivial hidle
    exact hended
  · exact h.quiet ⟨_, _, _, _, _, rfl⟩ trivial hs

theorem KeptByBlocks.setWindow (h : KeptAlone P) (w : Window) {s : State} (hs : P s) : P (s.setWindow w) :=
  h.quiet ⟨_, s.slot, _, _, _, rfl⟩ trivial hs

theorem KeptByBlocks.commitPart (h : KeptAlone P) (part : WindowPart) (bytes : List Byte) {s : State}
    (hd : s.table.deferred = none) (hs : P s) : P (commitPart part bytes s) := by
  cases part with
  | rawValue e => exact h.rawValue e _ s hd trivial hs
  | config n => exact h.config n bytes s trivial hs
  | point k =>
    simp only [Machine.commitPart, commitPoint]
    split <;> exact h.quiet ⟨_, s.slot, _, _, _, rfl⟩ trivial hs
  | count =>
    simp only [Machine.commitPart, commitCount]
    split <;> exact h.quiet ⟨_, s.slot, _, _, _, rfl⟩ trivial hs

theorem KeptByBlocks.writeData (h : KeptAlone P) (v : Byte) {s : State} (hs : P s) : P (writeData v s) := by
  have hwritten := (writeData_written v s).1
  generalize Machine.writeData v s = t at hwritten
  cases hwritten with
  | window w => exact h.setWindow w hs
  | member e flag w => exact h.setWindow w (h.member e flag s trivial hs)
  | commit part bytes w w' hd => exact h.setWindow w' (h.commitPart part bytes hd (h.setWindow w hs))

theorem KeptByBlocks.grants (h : KeptAlone P) {s : State} (hs : P s) :
    P (grantApply s) ∧ P (grantCopy s) ∧ P (grantHost s) := by
  refine ⟨?_, ?_, ?_⟩
  · unfold grantApply
    split
    · next n g ha => exact h.applyGrant s n g ha trivial hs
    · exact hs
  · unfold grantCopy
    split
    · next p e ha => exact h.copyGrant s p e ha trivial hs
    · exact hs
  · unfold grantHost
    split
    · next c ha => exact h.hostGrant s c ha trivial hs
    · exact hs

theorem KeptByBlocks.completeApply (h : KeptAlone P) {s : State} (hs : P s) : P (completeApply s) := by
  unfold Machine.completeApply
  split
  · next op hop =>
    split
    · next n g hw => exact h.applyCompletion s op n g hop hw trivial hs
    · exact hs
  · exact hs

theorem KeptByBlocks.completeCopy (h : KeptAlone P) {s : State} (hs : P s) : P (completeCopy s) := by
  unfold Machine.completeCopy
  split
  · next op hop =>
    split
    · next p e hw => exact h.copyCompletion s op p e hop hw trivial hs
    · exact hs
  · exact hs

theorem KeptByBlocks.completeHost (h : KeptAlone P) {i : Instr}
    {effect : EngineCommand → Bool → State → Option (HostOutcome × State)} (he : HostCompletion i effect) {s : State}
    (hs : P s) : P (completeHost effect s) := by
  rcases completeHost_cases effect s with hsame | ⟨op, c, r, hop, hw, hr, hdone⟩
  · rw [hsame]; exact hs
  · rw [hdone]; exact h.hostCompletion s r.2 op c _ hop hw (he.leaves hr) trivial hs

theorem KeptByBlocks.enterWarm_any (h : KeptAlone P) (cause : WarmCause) {s : State} (hs : P s) :
    P (Machine.enterWarm cause s) := by
  by_cases hr : s.Running
  · exact h.enterWarm cause s hr trivial hs
  · rw [Machine.enterWarm, whenRunning_of_held hr]
    exact h.supply s _ (fun h => absurd h hr) trivial hs

theorem KeptByBlocks.endWarm (h : KeptAlone P) {s : State} (hs : P s) : P (endWarm s) := by
  refine h.supply s _ (fun hr => ?_) trivial hs
  rw [show s.supply.hold = .running from hr]
  rfl

theorem KeptByBlocks.endCold (h : KeptAlone P) {s : State} (hs : P s) : P (endCold s) := by
  unfold Machine.endCold
  split
  · next hc =>
    exact h.supply s _ (fun hr => absurd (hc.symm.trans hr) (by decide)) trivial hs
  · exact hs

/-- A promise that the operations on the main blocks keep is kept by every command. -/
theorem KeptByBlocks.of_runs (h : KeptAlone P) {c : Instr} {s t : State} (hrun : Runs c s t) (hs : P s) : P t := by
  have quietly : ∀ {t}, Quiet s t → P t := fun hq => h.quiet hq trivial hs
  cases hrun
  case nothing => exact hs
  case code v _ => exact h.writeCode v hs
  case cancel => exact h.writeCancel hs
  case applyGrant => exact (h.grants hs).1
  case copyGrant => exact (h.grants hs).2.1
  case hostGrant => exact (h.grants hs).2.2
  case applyCompletion => exact h.completeApply hs
  case copyCompletion => exact h.completeCopy hs
  case hostCompletion he _ => exact h.completeHost he hs
  case inputEdge n level => exact h.inputEdge n level s trivial hs
  case lockoutExpiry n => exact h.lockout n s trivial hs
  case capEdge level => exact h.capEdge level hs
  case capLockoutExpiry => exact h.capLine s s.capture.capEnable false s.capture.capLevel trivial hs
  case capEnable v _ => exact h.capLine s (v.getLsbD 0) s.capture.capLockout s.capture.capLevel trivial hs
  case timebaseEdge => exact h.timebaseEdge hs
  case secondExpiry => exact h.secondExpiry hs
  case minuteExpiry => exact h.minuteExpiry hs
  case enable => exact quietly (quiet_enableSchedule s)
  case readData => exact quietly (quiet_readData s)
  case writeData v _ _ => exact h.writeData v hs
  case warmReset cause => exact h.enterWarm_any cause hs
  case warmResetEnd => exact h.endWarm hs
  case coldReset => exact h.enterCold s trivial hs
  case coldResetEnd => exact h.endCold hs
  case pop | intStatus | intEnable | operand | disable | readDayHigh | heldRead | winStatus | space | index | offset =>
    exact quietly ⟨_, _, _, _, _, rfl⟩

theorem KeptByBlocks.kept (h : KeptAlone P) : Kept P :=
  kept_of_runs (fun s l hs => h.quiet ⟨s.tariff, s.slot, s.notices, s.window, l, rfl⟩ trivial hs) h.of_runs

end Sys2Proof.Machine

/-! ## What edges, configurations, grants and APPLY completions leave -/

namespace Sys2Proof.Machine

open Sys2Proof.Safety

/-! ### Edges of the count inputs (R29 to R34) -/

/-- An accepted pulse opens a group where there is room, or joins the last one below its limit (R32). -/
theorem placePulse_cases {pulse : Group} {queue placed : List Group} (h : placePulse pulse queue = some placed) :
    (queue.length < 4 ∧ placed = queue ++ [pulse]) ∨
      ∃ front tail, queue = front ++ [tail] ∧ tail.accepts pulse = true ∧
        placed = front ++ [{ tail with count := tail.count + 1 }] := by
  have opened : (if queue.length < Config.queueDepth then some (queue ++ [pulse]) else none) = some placed →
      queue.length < 4 ∧ placed = queue ++ [pulse] := by
    intro h
    split at h
    · next hroom => cases h; exact ⟨hroom, rfl⟩
    · cases h
  unfold placePulse at h
  cases hl : queue.getLast? with
  | none => simp only [hl] at h; exact .inl (opened h)
  | some tail =>
    simp only [hl] at h
    split at h
    · next ha =>
      cases h
      refine .inr ⟨queue.dropLast, tail, ?_, ha, rfl⟩
      obtain ⟨front, rfl⟩ := List.getLast?_eq_some_iff.1 hl
      simp
    · exact .inl (opened h)

/-- What an edge makes of its input: the level alone, a rejected pulse, an accepted one or a dropped one. -/
inductive EdgeTaken (s : State) (n : Fin 16) : Input → Prop
  | level (level : Bool) : EdgeTaken s n { s.input n with level := level }
  | rejected (level : Bool) :
      EdgeTaken s n { s.input n with level := level, rejects := min 255 ((s.input n).rejects + 1) }
  | accepted (level lockout : Bool) (queue : List Group) : (s.input n).config.mode = .count →
      placePulse (pulseOf (s.input n).config s.tariff.bin s.capture.epoch) (s.input n).queue = some queue →
      EdgeTaken s n { s.input n with level := level, lockout := lockout, queue := queue, state := .active }
  | dropped (level lockout : Bool) : (s.input n).config.mode = .count →
      EdgeTaken s n { s.input n with
        level := level, lockout := lockout, dropped := min 65535 ((s.input n).dropped + 1), state := .overrun }

theorem inputEdge_taken (n : Fin 16) (level : Bool) (s : State) :
    ∃ i q, EdgeTaken s n i ∧ Offered s.notices q ∧ inputEdge n level s = { s.setInput n i with notices := q } := by
  unfold inputEdge
  split
  · next hl => exact ⟨_, _, .level level, .none, by rw [← hl]; exact (setInput_input s n).symm⟩
  rcases whenRunning_cases (handleEdge n level) (setLevel n level s) with ⟨-, h⟩ | ⟨-, h⟩ <;> rw [h]
  · simp only [handleEdge, input_setLevel]
    split
    · next hmode =>
      split
      · exact ⟨_, _, .rejected level, .none, setInput_setInput ..⟩
      · simp only [qualifiedEdge, input_setLevel]
        split
        · next queue hq => exact ⟨_, _, .accepted level _ queue hmode.1 hq, .none, setInput_setInput ..⟩
        · split
          · exact ⟨_, _, .dropped level _ hmode.1, .none, setInput_setInput ..⟩
          · rw [setLevel, setInput_setInput]
            obtain ⟨q, hq, hoffer⟩ := offer_offered .overrun (byteOf n.val)
              (highByte (BitVec.ofNat 16 (min 65535 ((s.input n).dropped + 1))))
              (lowByte (BitVec.ofNat 16 (min 65535 ((s.input n).dropped + 1)))) (s.setInput n _)
            exact ⟨_, q, .dropped level _ hmode.1, hq, hoffer⟩
    · exact ⟨_, _, .level level, .none, rfl⟩
  · exact ⟨_, _, .level level, .none, rfl⟩

theorem EdgeTaken.inFlight {s : State} {n : Fin 16} {i : Input} (h : EdgeTaken s n i) :
    i.inFlight = (s.input n).inFlight := by
  cases h <;> rfl

/-! ### Configuration commits (R24 to R26) -/

/-- What a configuration taken by an input makes of it. -/
inductive ConfigTaken (i : Input) : Input → Prop
  | stays (c : InputConfig) : i.config.mode = .off → c.mode = .off → ConfigTaken i { i with config := c }
  | counts (c : InputConfig) : i.config.mode = .off → c.mode = .count → c.validCount = true →
      ConfigTaken i { i with config := c, state := .active, lockout := false }
  | turnsOff : i.config.mode = .count →
      ConfigTaken i { i with config := { i.config with mode := .off }, state := .off, lockout := false }

theorem commitConfig_cases (n : Fin 16) (bytes : List Byte) (s : State) :
    commitConfig n bytes s = refuseWindow s ∨
      ∃ i, ConfigTaken (s.input n) i ∧ commitConfig n bytes s = s.setInput n i := by
  simp only [commitConfig]
  split
  · exact .inl rfl
  · next c _ =>
    split
    · next hm hc => exact .inr ⟨_, .stays c hm hc, rfl⟩
    · next hm hc =>
      split
      · next hv => exact .inr ⟨_, .counts c hm hc hv, rfl⟩
      · exact .inl rfl
    · next hm hc => exact .inr ⟨_, .turnsOff hm, rfl⟩
    · exact .inl rfl

theorem ConfigTaken.inFlight {i j : Input} (h : ConfigTaken i j) : j.inFlight = i.inFlight := by
  cases h <;> rfl

theorem ConfigTaken.queue {i j : Input} (h : ConfigTaken i j) : j.queue = i.queue := by
  cases h <;> rfl

/-! ### RESET_INPUT (R40) -/

/-- An input after RESET_INPUT: no group, no counts, no OVERRUN. -/
def emptied (i : Input) : Input :=
  { i with queue := [], rejects := 0, dropped := 0, state := if i.config.mode = .off then .off else .active }

theorem resetInputCommand_eq (n : Fin 16) (s : State) :
    resetInputCommand n s = checkDrain (s.setInput n (emptied (s.input n))) := rfl

/-! ### Verification (R9 to R12) -/

/-- Verification of a list leaves each entry, or marks one that was not DAMAGED. -/
theorem verifyAll_entry (l : List (OpKind × Fin 64)) (s : State) (x : Fin 64) :
    (verifyAll l s).2.entry x = s.entry x ∨
      (s.entry x).damaged = false ∧
        (verifyAll l s).2.entry x = { s.entry x with damaged := true, suspense := some 0 } := by
  induction l generalizing s with
  | nil => exact .inl rfl
  | cons p rest ih =>
    obtain ⟨k, e⟩ := p
    simp only [verifyAll]
    rcases verify_entry k e s x with hone | ⟨hd, -, hone⟩
    · rcases ih (verify k e s).2 with hrest | ⟨hd, hrest⟩
      · exact .inl (hrest.trans hone)
      · rw [hone] at hd hrest
        exact .inr ⟨hd, hrest⟩
    · rcases ih (verify k e s).2 with hrest | ⟨hd', -⟩
      · exact .inr ⟨hd, hrest.trans hone⟩
      · rw [hone] at hd'
        cases hd'

/-- An entry a verification finds as it is: marked, or sound by the tests of R10. -/
def Examined (en : Entry) : Prop := en.damaged = true ∨ examine en = none

theorem verify_of_examined {k : OpKind} {e : Fin 64} {s : State} (h : Examined (s.entry e)) :
    verify k e s = (conditionOf (s.entry e), s) := by
  unfold verify conditionOf
  split
  · rfl
  · next hd =>
    rcases h with h | h
    · exact absurd h hd
    · simp only [h]

theorem verify_examines (k : OpKind) (e : Fin 64) (s : State) :
    (verify k e s).1 = conditionOf ((verify k e s).2.entry e) ∧ Examined ((verify k e s).2.entry e) := by
  by_cases h : Examined (s.entry e)
  · rw [verify_of_examined h]
    exact ⟨rfl, h⟩
  · simp only [Examined, not_or] at h
    cases hx : examine (s.entry e) with
    | none => exact absurd hx h.2
    | some cause => simp [verify, h.1, hx, markDamaged, conditionOf, Examined]

theorem verifyAll_of_examined {l : List (OpKind × Fin 64)} {s : State} {x : Fin 64} (h : Examined (s.entry x)) :
    (verifyAll l s).2.entry x = s.entry x := by
  induction l generalizing s with
  | nil => rfl
  | cons p rest ih =>
    obtain ⟨k, e⟩ := p
    have hone : (verify k e s).2.entry x = s.entry x := by
      rcases verify_entry k e s x with hone | ⟨-, rfl, -⟩
      · exact hone
      · rw [verify_of_examined h]
    simp only [verifyAll]
    rw [ih (hone ▸ h), hone]

/-- The found conditions of a verification are those its entries show after it (R10 to R12). -/
theorem verifyAll_found (l : List (OpKind × Fin 64)) (s : State) :
    (verifyAll l s).1 = l.map fun p => conditionOf ((verifyAll l s).2.entry p.2) := by
  induction l generalizing s with
  | nil => rfl
  | cons p rest ih =>
    obtain ⟨k, e⟩ := p
    obtain ⟨hfound, hexamined⟩ := verify_examines k e s
    simp only [verifyAll, List.map_cons]
    rw [verifyAll_of_examined hexamined, ← hfound, ← ih]

theorem entry_beginOperation (w : Work) (s : State) (x : Fin 64) :
    (beginOperation w s).entry x = (verifyAll w.verified s).2.entry x := rfl

/-- The marks of an entry at the start of an operation: as they were, or DAMAGED set with the suspense at 0 (R11). -/
theorem marks_beginOperation (w : Work) (s : State) (x : Fin 64) :
    SameMarks (s.entry x) ((beginOperation w s).entry x) ∨
      (((beginOperation w s).entry x).damaged = true ∧ ((beginOperation w s).entry x).suspense = some 0) := by
  rw [entry_beginOperation]
  rcases verifyAll_entry w.verified s x with h | ⟨-, h⟩ <;> rw [h]
  · exact .inl ⟨rfl, rfl⟩
  · exact .inr ⟨rfl, rfl⟩

/-! ### The completion of an APPLY (R48, R56 to R58) -/

/-- What an APPLY leaves before the end of a drain: the table, its input, the counters, the engine and the Notice Queue. -/
theorem applied_frame (n : Fin 16) (g : Group) (d : Bool) (s : State) :
    ∃ E q, Offered s.notices q ∧
      clearInFlight n (moveLinked n g (release (applyAmount g d s))) =
        { s with
          table := { entries := E, held := [], deferred := none },
          inputs := s.inputs.set n.val { s.input n with inFlight := false },
          trips := match g.link with
            | none => s.trips
            | some k => s.trips.set k.val ((s.trip k).move g.sense g.amount).1,
          engine := { op := none, hostWait := s.engine.hostWait }, notices := q } := by
  obtain ⟨en, q, hq, hamount⟩ := applyAmount_frame g d s
  obtain ⟨E, hrelease⟩ := release_exists (applyAmount g d s)
  rw [hamount] at hrelease
  obtain ⟨q', hq', hmove⟩ := moveLinked_frame n g (release (applyAmount g d s))
  rw [hamount, hrelease] at hmove hq'
  refine ⟨E, q', hq.trans hq', ?_⟩
  rw [hamount, hrelease, hmove]
  rfl

/-- The entries at the end of an APPLY: the deferred value on what its amount leaves. -/
theorem entry_applied (n : Fin 16) (g : Group) (d : Bool) (s : State) (x : Fin 64) :
    (clearInFlight n (moveLinked n g (release (applyAmount g d s)))).entry x =
      withDeferred s.table.deferred x ((applyAmount g d s).entry x) := by
  have hmoved : (clearInFlight n (moveLinked n g (release (applyAmount g d s)))).entry x =
      (release (applyAmount g d s)).entry x := by
    obtain ⟨q, -, h⟩ := moveLinked_frame n g (release (applyAmount g d s))
    rw [h]
    rfl
  obtain ⟨en, q, -, h⟩ := applyAmount_frame g d s
  rw [hmoved, release_entry, h]
  rfl

/-- A deferred value changes the digits of its entry and nothing else (R18). -/
theorem withDeferred_marks (d : Option Deferred) (x : Fin 64) (en : Entry) : SameMarks en (withDeferred d x en) := by
  unfold withDeferred
  split
  · split <;> exact ⟨rfl, rfl⟩
  · exact ⟨rfl, rfl⟩

theorem marks_release (s : State) (x : Fin 64) : SameMarks (s.entry x) ((release s).entry x) := by
  rw [release_entry]
  exact withDeferred_marks ..

theorem entry_checkDrain (s : State) (x : Fin 64) : (checkDrain s).entry x = s.entry x := by
  obtain ⟨C, q, -, h⟩ := checkDrain_frame s
  rw [h]
  rfl

theorem entry_takeTrigger (source : TriggerSource) (s : State) (x : Fin 64) :
    (takeTrigger source s).entry x = s.entry x := by
  obtain ⟨C, q, -, h⟩ := takeTrigger_frame source s
  rw [h]
  rfl

/-- The arithmetic of an APPLY writes the suspense of the entry it finds DAMAGED, and no other mark (R56, R57). -/
theorem marks_applyAmount (g : Group) (d : Bool) (s : State) (x : Fin 64) :
    SameMarks (s.entry x) ((applyAmount g d s).entry x) ∨
      (d = true ∧ x = g.dest ∧ ((applyAmount g d s).entry x).damaged = (s.entry x).damaged ∧
        ((applyAmount g d s).entry x).suspense =
          some (carryAmount g.sense ((s.entry x).suspense.getD 0) g.amount).result) := by
  unfold applyAmount
  split
  · next hd =>
    simp only [carryToSuspense, entry_offerCarry, entry_setEntry]
    split
    · next hx => subst hx; exact .inr ⟨hd, rfl, rfl, rfl⟩
    · exact .inl ⟨rfl, rfl⟩
  · exact .inl (sameMarks_carryToValue ..)

end Sys2Proof.Machine

/-! ## The operation in flight, DAMAGED with the suspense, and the host wait -/

namespace Sys2Proof.Machine

open Sys2Proof.Safety

/-! ### The operation in flight (R13, R14, R18, R28, R45, R139) -/

/-- The state shows a FREE engine: no hold, no deferred value, no in-flight flag, no RUNNING slot. -/
def ShowsFree (s : State) : Prop :=
  s.table.held = [] ∧ s.table.deferred = none ∧ (∀ n, (s.input n).inFlight = false) ∧ ∀ c, s.slot.state ≠ .running c

/-- The state shows this operation in flight. -/
def ShowsOperation (s : State) (op : Operation) : Prop :=
  s.Running ∧ s.table.held = op.work.targets ∧ (∀ d, s.table.deferred = some d → d.entry ∈ op.work.targets) ∧
    (∀ n, (s.input n).inFlight = true ↔ ∃ g, op.work = .apply n g) ∧
    (∀ c, s.slot.state = .running c ↔ op.work = .host c) ∧
    op.found = op.work.verified.map fun p => conditionOf (s.entry p.2)

theorem operationSound_iff_of_free {s : State} (h : s.engine.op = none) : OperationSound s ↔ ShowsFree s := by
  simp only [OperationSound, h, ShowsFree]

theorem operationSound_iff_of_busy {s : State} {op : Operation} (h : s.engine.op = some op) :
    OperationSound s ↔ ShowsOperation s op := by
  simp only [OperationSound, h, ShowsOperation]

theorem conditionOf_congr {a b : Entry} (h : b.damaged = a.damaged) : conditionOf b = conditionOf a := by
  simp only [conditionOf, h]

/-- Events that leave the engine, the holds, the in-flight flags and DAMAGED alone, and move neither the slot out of
RUNNING nor a running part into a hold. -/
theorem operationSound_congr {s t : State} (h : OperationSound s) (hop : t.engine.op = s.engine.op)
    (hheld : t.table.held = s.table.held)
    (hdeferred : t.table.deferred = s.table.deferred ∨ ∃ d, t.table.deferred = some d ∧ d.entry ∈ s.table.held)
    (hin : ∀ n, (t.input n).inFlight = (s.input n).inFlight)
    (hslot : ∀ c, t.slot.state = .running c ↔ s.slot.state = .running c) (hrun : s.Running → t.Running)
    (hmarks : ∀ x, (t.entry x).damaged = (s.entry x).damaged) : OperationSound t := by
  cases ho : s.engine.op with
  | none =>
    obtain ⟨hh, hd, hi, hs⟩ := (operationSound_iff_of_free ho).1 h
    refine (operationSound_iff_of_free (hop.trans ho)).2
      ⟨hheld.trans hh, ?_, fun n => (hin n).trans (hi n), fun c => mt (hslot c).1 (hs c)⟩
    rcases hdeferred with hsame | ⟨d, -, hmem⟩
    · exact hsame.trans hd
    · rw [hh] at hmem
      cases hmem
  | some op =>
    obtain ⟨hr, hh, hd, hi, hs, hf⟩ := (operationSound_iff_of_busy ho).1 h
    refine (operationSound_iff_of_busy (hop.trans ho)).2
      ⟨hrun hr, hheld.trans hh, fun d hd' => ?_, fun n => (hin n ▸ hi n), fun c => (hslot c).trans (hs c), ?_⟩
    · rcases hdeferred with hsame | ⟨d₀, hd₀, hmem⟩
      · exact hd d (hsame.symm.trans hd')
      · cases hd₀.symm.trans hd'
        exact hh ▸ hmem
    · simpa only [conditionOf_congr (hmarks _)] using hf

/-- A grant shows its operation: the request is taken from its source and the slot, and its entries verified and held. -/
theorem operationSound_beginOperation {w : Work} {u : State} (hr : u.Running) (hd : u.table.deferred = none)
    (hin : ∀ n, (u.input n).inFlight = true ↔ ∃ g, w = .apply n g)
    (hslot : ∀ c, u.slot.state = .running c ↔ w = .host c) : OperationSound (beginOperation w u) := by
  have hfound := verifyAll_found w.verified u
  obtain ⟨E, q, -, h⟩ := verifyAll_frame w.verified u
  have hop : (beginOperation w u).engine.op = some { work := w, found := (verifyAll w.verified u).1 } := rfl
  refine (operationSound_iff_of_busy hop).2 ⟨?_, rfl, ?_, ?_, ?_, ?_⟩
  · show ((verifyAll w.verified u).2.supply).hold = .running
    rw [h]; exact hr
  · show ∀ d, (verifyAll w.verified u).2.table.deferred = some d → _
    rw [h]; intro d hd'; cases hd.symm.trans hd'
  · show ∀ n, ((verifyAll w.verified u).2.input n).inFlight = true ↔ _
    rw [h]; exact hin
  · show ∀ c, (verifyAll w.verified u).2.slot.state = .running c ↔ _
    rw [h]; exact hslot
  · exact hfound

/-- Before a grant the engine is FREE and the part shows it. -/
theorem showsFree_of_arbiter {s : State} {w : Work} (ha : s.arbiter = some w) (h : OperationSound s) :
    s.Running ∧ ShowsFree s :=
  ⟨(arbiter_running ha).1, (operationSound_iff_of_free (arbiter_running ha).2).1 h⟩

theorem inFlight_claimHead (s : State) (n m : Fin 16) :
    ((claimHead n s).input m).inFlight = if n = m then true else (s.input m).inFlight := by
  rw [claimHead, input_setInput]
  split <;> rfl

theorem operationSound_applyGrant {s : State} {n : Fin 16} {g : Group} (ha : s.arbiter = some (.apply n g))
    (h : OperationSound s) : OperationSound (beginOperation (.apply n g) (claimHead n (countHostWait s))) := by
  obtain ⟨hr, -, hd, hi, hs⟩ := showsFree_of_arbiter ha h
  refine operationSound_beginOperation hr hd (fun m => ?_) fun c => ?_
  · have hm : ((countHostWait s).input m).inFlight = false := hi m
    rw [inFlight_claimHead, hm]
    by_cases hn : n = m <;> simp [hn]
  · exact ⟨fun h => absurd h (hs c), fun h => by cases h⟩

theorem operationSound_copyGrant {s : State} {p : Nat} {e : Fin 64} (ha : s.arbiter = some (.copy p e))
    (h : OperationSound s) : OperationSound (beginOperation (.copy p e) (countHostWait s)) := by
  obtain ⟨hr, -, hd, hi, hs⟩ := showsFree_of_arbiter ha h
  refine operationSound_beginOperation hr hd (fun m => ?_) fun c => ?_
  · have hm : ((countHostWait s).input m).inFlight = false := hi m
    rw [hm]
    simp
  · exact ⟨fun h => absurd h (hs c), fun h => by cases h⟩

theorem operationSound_hostGrant {s : State} {c : EngineCommand} (ha : s.arbiter = some (.host c))
    (h : OperationSound s) : OperationSound (beginOperation (.host c) (startHost c s)) := by
  obtain ⟨hr, -, hd, hi, -⟩ := showsFree_of_arbiter ha h
  refine operationSound_beginOperation hr hd (fun m => ?_) fun c' => ?_
  · have hm : ((startHost c s).input m).inFlight = false := hi m
    rw [hm]
    simp
  · simp [startHost]

/-- At the completion of an APPLY its input's flag is the only one set, and the slot does not run. -/
theorem operationSound_applyCompletion {s : State} {op : Operation} {n : Fin 16} {g : Group}
    (ho : s.engine.op = some op) (hw : op.work = .apply n g) (h : OperationSound s) (d : Bool) :
    OperationSound (checkDrain (clearInFlight n (moveLinked n g (release (applyAmount g d s))))) := by
  obtain ⟨-, -, -, hi, hs, -⟩ := (operationSound_iff_of_busy ho).1 h
  obtain ⟨E, q, -, happlied⟩ := applied_frame n g d s
  obtain ⟨C, q', -, hdrain⟩ := checkDrain_frame (clearInFlight n (moveLinked n g (release (applyAmount g d s))))
  rw [happlied] at hdrain
  rw [happlied, hdrain]
  refine (operationSound_iff_of_free rfl).2 ⟨rfl, rfl, fun m => ?_, fun c hc => ?_⟩
  · show ((s.setInput n { s.input n with inFlight := false }).input m).inFlight = false
    rw [input_setInput]
    split
    · rfl
    · next hne =>
      refine Bool.eq_false_iff.2 fun hset => ?_
      obtain ⟨g', hg'⟩ := (hi m).1 hset
      cases hw.symm.trans hg'
      exact hne rfl
  · cases hw.symm.trans ((hs c).1 hc)

/-- While a COPY is in flight no input and no slot shows an operation. -/
theorem operationSound_copyCompletion {s : State} {op : Operation} {p : Nat} {e : Fin 64}
    (ho : s.engine.op = some op) (hw : op.work = .copy p e) (h : OperationSound s) (c : CaptureUnit) :
    OperationSound (checkDrain (release (s.setCapture c))) := by
  obtain ⟨-, -, -, hi, hs, -⟩ := (operationSound_iff_of_busy ho).1 h
  obtain ⟨E, hrelease⟩ := release_exists (s.setCapture c)
  obtain ⟨C, q, -, hdrain⟩ := checkDrain_frame (release (s.setCapture c))
  rw [hrelease] at hdrain
  rw [hrelease, hdrain]
  refine (operationSound_iff_of_free rfl).2 ⟨rfl, rfl, fun m => ?_, fun c hc => ?_⟩
  · refine Bool.eq_false_iff.2 fun hset => ?_
    obtain ⟨g', hg'⟩ := (hi m).1 hset
    cases hw.symm.trans hg'
  · cases hw.symm.trans ((hs c).1 hc)

theorem operationSound_hostCompletion {s u : State} {op : Operation} {c : EngineCommand} (r : Result)
    (ho : s.engine.op = some op) (hw : op.work = .host c) (hu : TouchesOnly s u) (h : OperationSound s) :
    OperationSound (endCommand r (release u)) := by
  obtain ⟨-, -, -, hi, -, -⟩ := (operationSound_iff_of_busy ho).1 h
  obtain ⟨E, T, q, -, rfl⟩ := hu
  obtain ⟨E', hrelease⟩ := release_exists { s with table := { s.table with entries := E }, trips := T, notices := q }
  rw [hrelease]
  refine (operationSound_iff_of_free rfl).2 ⟨rfl, rfl, fun m => ?_, fun c hc => by cases hc⟩
  refine Bool.eq_false_iff.2 fun hset => ?_
  obtain ⟨g', hg'⟩ := (hi m).1 hset
  cases hw.symm.trans hg'

theorem inFlight_setInput {s : State} {n : Fin 16} {i : Input} (h : i.inFlight = (s.input n).inFlight) (m : Fin 16) :
    ((s.setInput n i).input m).inFlight = (s.input m).inFlight := by
  rw [input_setInput]
  split
  · next hm => subst hm; exact h
  · rfl

/-- A change of one input that leaves its in-flight flag, and of the capture unit and the Notice Queue. -/
theorem operationSound_setInput {s : State} {n : Fin 16} {i : Input} (h : OperationSound s)
    (hi : i.inFlight = (s.input n).inFlight) : OperationSound (s.setInput n i) :=
  operationSound_congr h rfl rfl (.inl rfl) (inFlight_setInput hi) (fun _ => Iff.rfl) id fun _ => rfl

theorem operationSound_notices {s : State} (h : OperationSound s) (c : CaptureUnit) (q : Notices) :
    OperationSound { s with capture := c, notices := q } :=
  operationSound_congr h rfl rfl (.inl rfl) (fun _ => rfl) (fun _ => Iff.rfl) id fun _ => rfl

theorem operationSound_commitRaw {s : State} (h : OperationSound s) (e : Fin 64) (digits : Vector Nibble 12) :
    OperationSound (commitRaw e digits s) := by
  unfold commitRaw
  split
  · next hheld =>
    exact operationSound_congr h rfl rfl (.inr ⟨_, rfl, by simpa using hheld⟩) (fun _ => rfl) (fun _ => Iff.rfl) id fun _ => rfl
  · exact operationSound_congr h rfl rfl (.inl rfl) (fun _ => rfl) (fun _ => Iff.rfl) id fun x =>
      (sameMarks_setEntry (en := { s.entry e with digits := digits }) ⟨rfl, rfl⟩ x).1

theorem input_enterCold (s : State) (n : Fin 16) : (enterCold s).input n = (s.input n).coldFrom :=
  input_map s Input.coldFrom n

theorem operationSound_kept : KeptAlone OperationSound where
  quiet hq _ h := by
    cases hq with
    | mk T S q w l hS =>
      exact operationSound_congr h rfl rfl (.inl rfl) (fun _ => rfl) (fun c => by rw [show S.state = _ from hS]) id fun _ => rfl
  waits s c hi _ _ h :=
    operationSound_congr h rfl rfl (.inl rfl) (fun _ => rfl) (fun c => by simp [hi]) id fun _ => rfl
  cancel s c hw _ h :=
    operationSound_congr h rfl rfl (.inl rfl) (fun _ => rfl) (fun c => by simp [hw]) id fun _ => rfl
  applyGrant s n g ha _ h := operationSound_applyGrant ha h
  copyGrant s p e ha _ h := operationSound_copyGrant ha h
  hostGrant s c ha _ h := operationSound_hostGrant ha h
  applyCompletion s op n g ho hw _ h := operationSound_applyCompletion ho hw h _
  copyCompletion s op p e ho hw _ h := operationSound_copyCompletion ho hw h _
  hostCompletion s u op c r ho hw hl _ h := operationSound_hostCompletion r ho hw hl.touches h
  inputEdge n level s _ h := by
    obtain ⟨i, q, hi, -, he⟩ := inputEdge_taken n level s
    rw [he]
    exact operationSound_notices (operationSound_setInput h hi.inFlight) _ q
  lockout n s _ h := operationSound_setInput h rfl
  takeTrigger source s _ _ h := by
    obtain ⟨C, q, -, he⟩ := takeTrigger_frame source s
    rw [he]
    exact operationSound_notices h C q
  capLine s e l v _ h := operationSound_notices h _ s.notices
  openBank s id _ _ _ h := operationSound_notices h _ s.notices
  closeBank s id _ _ h := operationSound_notices h _ s.notices
  resetInput n s _ h := by
    obtain ⟨C, q, -, he⟩ := checkDrain_frame (s.setInput n (emptied (s.input n)))
    rw [resetInputCommand_eq, he]
    exact operationSound_notices (operationSound_setInput (i := emptied (s.input n)) h rfl) C q
  rawValue e digits s _ _ h := operationSound_commitRaw h e digits
  member e flag s _ h :=
    operationSound_congr h rfl rfl (.inl rfl) (fun _ => rfl) (fun _ => Iff.rfl) id fun x =>
      (sameMarks_setEntry (en := { s.entry e with member := flag }) ⟨rfl, rfl⟩ x).1
  config n bytes s _ h := by
    rcases commitConfig_cases n bytes s with he | ⟨i, hi, he⟩ <;> rw [he]
    · exact operationSound_notices h s.capture s.notices
    · exact operationSound_setInput h hi.inFlight
  supply s p hp _ h := operationSound_congr h rfl rfl (.inl rfl) (fun _ => rfl) (fun _ => Iff.rfl) hp fun _ => rfl
  enterWarm cause s hr _ _ := by
    have hinputs : ∀ n, ((enterWarm cause s).input n).inFlight = false := fun n => by
      rw [input_enterWarm hr]
      rfl
    rw [enterWarm_of_running hr] at hinputs ⊢
    exact (operationSound_iff_of_free rfl).2 ⟨rfl, rfl, hinputs, fun c hc => by cases hc⟩
  enterCold s _ _ :=
    (operationSound_iff_of_free rfl).2
      ⟨rfl, rfl, fun n => by rw [input_enterCold]; rfl, fun c hc => by cases hc⟩

/-! ### DAMAGED and the suspense (R7, R11, R154) -/

/-- DAMAGED and the suspense of one entry go together (R7). -/
def MarksTogether (en : Entry) : Prop := en.damaged = true ↔ en.suspense.isSome = true

theorem MarksTogether.congr {a b : Entry} (h : MarksTogether a) (hm : SameMarks a b) : MarksTogether b := by
  rw [MarksTogether, hm.1, hm.2]
  exact h

/-- Events that leave the marks of every entry. -/
theorem damageSound_congr {s t : State} (h : DamageSound s) (hm : ∀ x, SameMarks (s.entry x) (t.entry x)) :
    DamageSound t := fun x => MarksTogether.congr (h x) (hm x)

theorem damageSound_same {s t : State} (h : DamageSound s) (ht : ∀ x, t.entry x = s.entry x) : DamageSound t :=
  damageSound_congr h fun x => by rw [ht x]; exact ⟨rfl, rfl⟩

theorem damageSound_beginOperation {w : Work} {s u : State} (h : DamageSound s) (hu : ∀ x, u.entry x = s.entry x) :
    DamageSound (beginOperation w u) := by
  intro x
  rcases marks_beginOperation w u x with hm | ⟨hd, hsus⟩
  · exact MarksTogether.congr (hu x ▸ h x) hm
  · simp [hd, hsus]

/-- The suspense an APPLY writes is that of an entry found DAMAGED at its grant, which is still marked (R14, R57). -/
theorem damageSound_applyAmount {s : State} {op : Operation} {n : Fin 16} {g : Group} (ho : s.engine.op = some op)
    (hw : op.work = .apply n g) (hsound : OperationSound s) (h : DamageSound s) :
    DamageSound (applyAmount g op.foundDamaged s) := by
  obtain ⟨-, -, -, -, -, hfound⟩ := (operationSound_iff_of_busy ho).1 hsound
  intro x
  rcases marks_applyAmount g op.foundDamaged s x with hm | ⟨hd, rfl, hdamaged, hsus⟩
  · exact MarksTogether.congr (h x) hm
  · have hmarked : (s.entry g.dest).damaged = true := by
      rw [Operation.foundDamaged, hfound, hw] at hd
      simp only [Work.verified, List.map_cons, List.map_nil, conditionOf] at hd
      by_contra hclear
      simp [hclear] at hd
    simp [hdamaged, hsus, hmarked]

theorem damageSound_kept : KeptByBlocks OperationSound DamageSound where
  quiet hq _ h := by
    cases hq
    exact damageSound_same h fun _ => rfl
  waits s c _ _ _ h := damageSound_same h fun _ => rfl
  cancel s c _ _ h := damageSound_same h fun _ => rfl
  applyGrant s n g _ _ h := damageSound_beginOperation h fun _ => rfl
  copyGrant s p e _ _ h := damageSound_beginOperation h fun _ => rfl
  hostGrant s c _ _ h := damageSound_beginOperation h fun _ => rfl
  applyCompletion s op n g ho hw hsound h := by
    refine damageSound_congr (damageSound_applyAmount ho hw hsound h) fun x => ?_
    rw [entry_checkDrain, entry_applied]
    exact withDeferred_marks ..
  copyCompletion s op p e _ _ _ h := by
    refine damageSound_congr h fun x => ?_
    rw [entry_checkDrain]
    exact marks_release (s.setCapture _) x
  hostCompletion s u op c r _ _ hl _ h := by
    intro x
    have hrelease : SameMarks (u.entry x) ((endCommand r (release u)).entry x) := marks_release u x
    rcases hl.marks x with hm | ⟨hd, hsus⟩
    · exact MarksTogether.congr (h x) (hm.trans hrelease)
    · simp [hrelease.1, hrelease.2, hd, hsus]
  inputEdge n level s _ h := by
    obtain ⟨i, q, -, -, he⟩ := inputEdge_taken n level s
    rw [he]
    exact damageSound_same h fun _ => rfl
  lockout n s _ h := damageSound_same h fun _ => rfl
  takeTrigger source s _ _ h := damageSound_same h (entry_takeTrigger source s)
  capLine s e l v _ h := damageSound_same h fun _ => rfl
  openBank s id _ _ _ h := damageSound_same h fun _ => rfl
  closeBank s id _ _ h := damageSound_same h fun _ => rfl
  resetInput n s _ h := damageSound_same h fun x => entry_checkDrain _ x
  rawValue e digits s _ _ h := by
    unfold commitRaw
    split
    · exact damageSound_same h fun _ => rfl
    · exact damageSound_congr h (sameMarks_setEntry (en := { s.entry e with digits := digits }) ⟨rfl, rfl⟩)
  member e flag s _ h := damageSound_congr h (sameMarks_setEntry (en := { s.entry e with member := flag }) ⟨rfl, rfl⟩)
  config n bytes s _ h := by
    rcases commitConfig_cases n bytes s with he | ⟨i, -, he⟩ <;> rw [he] <;> exact damageSound_same h fun _ => rfl
  supply s p _ _ h := damageSound_same h fun _ => rfl
  enterWarm cause s hr _ h := by
    rw [enterWarm_of_running hr]
    exact damageSound_same h fun _ => rfl
  enterCold s _ _ := fun x => by simp [State.entry, enterCold, clearAll, Table.cold, Entry.cold]

/-! ### The host wait (R66, R67) -/

theorem eligibleHost_of_hostRequest_none {s : State} (h : s.hostRequest = none) : s.eligibleHost = none := by
  simp [State.eligibleHost, h]

theorem hostRequest_of_running_slot {s : State} {c : EngineCommand} (h : s.slot.state = .running c) :
    s.hostRequest = none := by
  simp [State.hostRequest, h]

/-- Events that leave the host-wait count, or zero it, and the host request, or leave the count at 0. -/
theorem hostWaitBounded_congr {s t : State} (h : HostWaitBounded s) (hw : t.engine.hostWait = s.engine.hostWait)
    (hr : t.slot.state = s.slot.state) : HostWaitBounded t := by
  obtain ⟨hle, hzero⟩ := h
  refine ⟨hw ▸ hle, fun hn => hw.trans (hzero ?_)⟩
  simpa only [State.hostRequest, hr] using hn

theorem hostWaitBounded_of_zero {t : State} (h : t.engine.hostWait = 0) : HostWaitBounded t :=
  ⟨by omega, fun _ => h⟩

/-- A grant to another request is made only below a count of 8 while a host command is eligible (R66). -/
theorem hostWait_lt_of_other {s : State} {w : Work} (ha : s.arbiter = some w) (hw : ∀ c, w ≠ .host c)
    (he : s.eligibleHost.isSome) : s.engine.hostWait < 8 := by
  obtain ⟨c, hc⟩ := Option.isSome_iff_exists.1 he
  by_contra hge
  have hgrant : s.arbiter = some (.host c) := by
    simp [State.arbiter, arbiter_running ha, hc, Nat.not_lt.1 hge]
  exact hw c (Option.some.inj (ha.symm.trans hgrant))

theorem hostWaitAfter_cases (s : State) :
    (s.eligibleHost.isSome ∧ s.hostWaitAfter = s.engine.hostWait + 1) ∨ s.hostWaitAfter = s.engine.hostWait := by
  unfold State.hostWaitAfter
  split
  · next h => exact .inl ⟨h, rfl⟩
  · exact .inr rfl

theorem hostWaitBounded_countHostWait {s : State} {w : Work} (ha : s.arbiter = some w) (hw : ∀ c, w ≠ .host c)
    (h : HostWaitBounded s) : HostWaitBounded (countHostWait s) := by
  rcases hostWaitAfter_cases s with ⟨he, hafter⟩ | hafter
  · have hlt := hostWait_lt_of_other ha hw he
    refine ⟨?_, fun hn => ?_⟩
    · show s.hostWaitAfter ≤ 8
      omega
    · rw [eligibleHost_of_hostRequest_none (s := s) hn] at he
      cases he
  · exact hostWaitBounded_congr h hafter rfl

/-- The start of an operation leaves the host-wait count and the slot. -/
theorem hostWaitBounded_beginOperation {w : Work} {s : State} (h : HostWaitBounded s) :
    HostWaitBounded (beginOperation w s) := by
  obtain ⟨E, q, -, he⟩ := beginOperation_frame w s
  rw [he]
  exact hostWaitBounded_congr h rfl rfl

theorem hostWaitBounded_kept : KeptByBlocks OperationSound HostWaitBounded where
  quiet hq _ h := by
    cases hq with
    | mk T S q w l hS => exact hostWaitBounded_congr h rfl hS
  waits s c hi _ _ h := hostWaitBounded_of_zero (h.2 (hostRequest_eq_none_of_idle hi))
  cancel s c _ _ _ := hostWaitBounded_of_zero rfl
  applyGrant s n g ha _ h := by
    have hcount := hostWaitBounded_countHostWait ha (fun c => by simp) h
    exact hostWaitBounded_beginOperation (hostWaitBounded_congr hcount rfl rfl)
  copyGrant s p e ha _ h :=
    hostWaitBounded_beginOperation (hostWaitBounded_countHostWait ha (fun c => by simp) h)
  hostGrant s c _ _ _ := hostWaitBounded_beginOperation (hostWaitBounded_of_zero rfl)
  applyCompletion s op n g _ _ _ h := by
    obtain ⟨E, q, -, happlied⟩ := applied_frame n g op.foundDamaged s
    obtain ⟨C, q', -, hdrain⟩ :=
      checkDrain_frame (clearInFlight n (moveLinked n g (release (applyAmount g op.foundDamaged s))))
    rw [hdrain, happlied]
    exact hostWaitBounded_congr h rfl rfl
  copyCompletion s op p e _ _ _ h := by
    generalize hc : s.capture.takeCopy p (copyOf e (s.entry e) op.foundDamaged) = c
    obtain ⟨E, hrelease⟩ := release_exists (s.setCapture c)
    obtain ⟨C, q, -, hdrain⟩ := checkDrain_frame (release (s.setCapture c))
    rw [hdrain, hrelease]
    exact hostWaitBounded_congr h rfl rfl
  hostCompletion s u op c r ho hw hl hsound h := by
    obtain ⟨-, -, -, -, hslot, -⟩ := (operationSound_iff_of_busy ho).1 hsound
    have hzero := h.2 (hostRequest_of_running_slot ((hslot c).2 hw))
    obtain ⟨E, T, q, -, rfl⟩ := hl.touches
    obtain ⟨E', hrelease⟩ :=
      release_exists { s with table := { s.table with entries := E }, trips := T, notices := q }
    rw [hrelease]
    exact hostWaitBounded_of_zero hzero
  inputEdge n level s _ h := by
    obtain ⟨i, q, -, -, he⟩ := inputEdge_taken n level s
    rw [he]
    exact hostWaitBounded_congr h rfl rfl
  lockout n s _ h := hostWaitBounded_congr h rfl rfl
  takeTrigger source s _ _ h := by
    obtain ⟨C, q, -, he⟩ := takeTrigger_frame source s
    rw [he]
    exact hostWaitBounded_congr h rfl rfl
  capLine s e l v _ h := hostWaitBounded_congr h rfl rfl
  openBank s id _ _ _ h := hostWaitBounded_congr h rfl rfl
  closeBank s id _ _ h := hostWaitBounded_congr h rfl rfl
  resetInput n s _ h := by
    obtain ⟨C, q, -, he⟩ := checkDrain_frame (s.setInput n (emptied (s.input n)))
    rw [resetInputCommand_eq, he]
    exact hostWaitBounded_congr h rfl rfl
  rawValue e digits s _ _ h := by
    unfold commitRaw
    split <;> exact hostWaitBounded_congr h rfl rfl
  member e flag s _ h := hostWaitBounded_congr h rfl rfl
  config n bytes s _ h := by
    rcases commitConfig_cases n bytes s with he | ⟨i, -, he⟩ <;> rw [he] <;> exact hostWaitBounded_congr h rfl rfl
  supply s p _ _ h := hostWaitBounded_congr h rfl rfl
  enterWarm cause s hr _ h := by
    rw [enterWarm_of_running hr]
    exact hostWaitBounded_of_zero rfl
  enterCold s _ _ := hostWaitBounded_of_zero rfl

/-- Settles O57: the operation in flight is shown by every command alone, and with it the marks and the host wait are
kept. -/
theorem stepKeepsTheOperationPromises : Obligations.StepKeepsTheOperationPromises :=
  ⟨operationSound_kept.kept, (operationSound_kept.and damageSound_kept).kept,
    (operationSound_kept.and hostWaitBounded_kept).kept⟩

end Sys2Proof.Machine

/-! ## Amounts and trip counters -/

namespace Sys2Proof.Machine

open Sys2Proof.Safety

/-! ### Groups and inputs (R24, R28, R30 to R35) -/

theorem validCount_iff (c : InputConfig) :
    c.validCount = true ↔ Decimal c.weight ∧ decimalValue c.weight ≠ 0 ∧ (c.tariffed = true → c.base.val ≤ 60) := by
  simp only [InputConfig.validCount, Bool.and_eq_true, allDecimal_iff, decide_eq_true_eq, Bool.or_eq_true,
    Bool.not_eq_true', and_assoc, ← Bool.not_eq_true]
  tauto

/-- The pulse of a valid configuration is a group of one (R24, R31). -/
theorem groupSound_pulseOf {c : InputConfig} (h : c.validCount = true) (bin : Fin 4) (epoch : Bool) :
    GroupSound (pulseOf c bin epoch) := by
  obtain ⟨hdecimal, hne, -⟩ := (validCount_iff c).1 h
  have hlt := decimalValue_lt c.weight hdecimal
  refine ⟨le_refl _, by simp [pulseOf], ?_, ?_⟩ <;> simp only [pulseOf] <;> omega

/-- A placed pulse keeps the queue within its depth and its groups in range (R32, R35). -/
theorem placePulse_sound {pulse : Group} {queue placed : List Group} (h : placePulse pulse queue = some placed)
    (hpulse : GroupSound pulse) (hlen : queue.length ≤ 4) (hqueue : ∀ g ∈ queue, GroupSound g) :
    placed.length ≤ 4 ∧ ∀ g ∈ placed, GroupSound g := by
  rcases placePulse_cases h with ⟨hroom, rfl⟩ | ⟨front, tail, rfl, haccepts, rfl⟩
  · refine ⟨by simp; omega, fun g hg => ?_⟩
    rcases List.mem_append.1 hg with hg | hg
    · exact hqueue g hg
    · rw [List.mem_singleton] at hg
      exact hg ▸ hpulse
  · simp only [List.length_append, List.length_singleton] at hlen ⊢
    refine ⟨hlen, fun g hg => ?_⟩
    rcases List.mem_append.1 hg with hg | hg
    · exact hqueue g (List.mem_append_left _ hg)
    · rw [List.mem_singleton] at hg
      obtain ⟨-, -, hlow, hhigh⟩ := hqueue tail (by simp)
      have hcount : tail.count < 63 := by
        simp only [Group.accepts, decide_eq_true_eq] at haccepts
        exact haccepts.2.2.2.2.2
      subst hg
      exact ⟨by simp, hcount, hlow, hhigh⟩

theorem inputSound_edgeTaken {s : State} {n : Fin 16} {i : Input} (h : InputSound (s.input n))
    (hi : EdgeTaken s n i) : InputSound i := by
  obtain ⟨hoff, hlen, hqueue, hrejects, hdropped, hvalid⟩ := h
  cases hi with
  | level level => exact ⟨hoff, hlen, hqueue, hrejects, hdropped, hvalid⟩
  | rejected level => exact ⟨hoff, hlen, hqueue, Nat.min_le_left .., hdropped, hvalid⟩
  | accepted level lockout queue hmode hplaced =>
    obtain ⟨hlen', hqueue'⟩ := placePulse_sound hplaced (groupSound_pulseOf (hvalid hmode) _ _) hlen hqueue
    exact ⟨by simp [hmode], hlen', hqueue', hrejects, hdropped, hvalid⟩
  | dropped level lockout hmode =>
    exact ⟨by simp [hmode], hlen, hqueue, hrejects, Nat.min_le_left .., hvalid⟩

theorem inputSound_configTaken {i j : Input} (h : InputSound i) (hj : ConfigTaken i j) : InputSound j := by
  obtain ⟨hoff, hlen, hqueue, hrejects, hdropped, -⟩ := h
  cases hj with
  | stays c hm hc => exact ⟨by simp [hoff, hm, hc], hlen, hqueue, hrejects, hdropped, by simp [hc]⟩
  | counts c hm hc hv => exact ⟨by simp [hc], hlen, hqueue, hrejects, hdropped, fun _ => hv⟩
  | turnsOff hm => exact ⟨by simp, hlen, hqueue, hrejects, hdropped, by simp⟩

theorem inputSound_emptied {i : Input} (h : InputSound i) : InputSound (emptied i) := by
  obtain ⟨-, -, -, -, -, hvalid⟩ := h
  refine ⟨?_, by simp [emptied], by simp [emptied], by simp [emptied], by simp [emptied], hvalid⟩
  simp only [emptied]
  split <;> simp [*]

theorem inputSound_afterReset {c : InputConfig} (hc : c.mode = .count → c.validCount = true) (level : Bool) :
    InputSound (Input.afterReset c level) := by
  refine ⟨?_, by simp [Input.afterReset], by simp [Input.afterReset], by simp [Input.afterReset],
    by simp [Input.afterReset], hc⟩
  simp only [Input.afterReset]
  split <;> simp [*]

/-- A claimed head leaves the rest of the queue (R37). -/
theorem inputSound_claimed {i : Input} (h : InputSound i) : InputSound { i with queue := i.queue.tail, inFlight := true } := by
  obtain ⟨hoff, hlen, hqueue, rest⟩ := h
  refine ⟨hoff, ?_, fun g hg => hqueue g (List.mem_of_mem_tail hg), rest⟩
  simp only [List.length_tail]
  omega

theorem inputSound_inFlight {i : Input} (h : InputSound i) (f : Bool) : InputSound { i with inFlight := f } := h

/-- The amount of a group in range is a twelve-digit amount, and no more than a counter's largest (R35, R54). -/
theorem amount_le {g : Group} (h : GroupSound g) : g.amount ≤ 629937 := by
  obtain ⟨-, hcount, -, hweight⟩ := h
  exact Nat.mul_le_mul hcount hweight

/-! ### Amounts (R1, R28, R35, R54) -/

/-- The suspense of an entry is a twelve-digit amount. -/
def SuspenseSound (en : Entry) : Prop := ∀ a, en.suspense = some a → a ≤ 999999999999

theorem suspenseSound_congr {a b : Entry} (h : SuspenseSound a) (hm : SameMarks a b) : SuspenseSound b := by
  rw [SuspenseSound, hm.2]
  exact h

/-- The group of an APPLY in flight is in range. -/
def FlightSound (o : Option Operation) : Prop := ∀ op n g, o = some op → op.work = .apply n g → GroupSound g

theorem flightSound_none : FlightSound none := fun _ _ _ h => by cases h

theorem amountsSound_iff (s : State) :
    AmountsSound s ↔ (∀ n, InputSound (s.input n)) ∧ FlightSound s.engine.op ∧ ∀ e, SuspenseSound (s.entry e) := Iff.rfl

/-- Events on other blocks. -/
theorem amountsSound_congr {s t : State} (h : AmountsSound s) (hinputs : t.inputs = s.inputs)
    (hop : t.engine.op = s.engine.op) (hmarks : ∀ x, SameMarks (s.entry x) (t.entry x)) : AmountsSound t := by
  obtain ⟨hi, hf, hs⟩ := h
  exact ⟨fun n => input_congr hinputs n ▸ hi n, hop ▸ hf, fun e => suspenseSound_congr (hs e) (hmarks e)⟩

theorem amountsSound_setInput {s : State} {n : Fin 16} {i : Input} (h : AmountsSound s) (hi : InputSound i) :
    AmountsSound (s.setInput n i) := by
  obtain ⟨hinputs, hf, hs⟩ := h
  refine ⟨fun m => ?_, hf, hs⟩
  rw [input_setInput]
  split
  · exact hi
  · exact hinputs m

theorem amountsSound_notices {s : State} (h : AmountsSound s) (c : CaptureUnit) (q : Notices) :
    AmountsSound { s with capture := c, notices := q } := h

theorem amountsSound_beginOperation {w : Work} {u : State} (h : AmountsSound u)
    (hw : ∀ n g, w = .apply n g → GroupSound g) : AmountsSound (beginOperation w u) := by
  obtain ⟨hi, -, hs⟩ := h
  have hsus : ∀ e, SuspenseSound ((beginOperation w u).entry e) := by
    intro e
    rcases marks_beginOperation w u e with hm | ⟨-, hzero⟩
    · exact suspenseSound_congr (hs e) hm
    · intro a ha
      rw [hzero] at ha
      cases ha
      omega
  obtain ⟨E, q, -, he⟩ := beginOperation_frame w u
  rw [he] at hsus ⊢
  exact ⟨hi, fun op n g hop hg => by cases hop; exact hw n g hg, hsus⟩

/-- A search of the head groups names the head of some input's queue. -/
theorem headRequest_eq_some {s : State} {w : Work} (f : Group → Bool)
    (h : (allInputs.findSome? fun n =>
      match s.headGroup n with
      | some g => if f g then some (Work.apply n g) else none
      | none => none) = some w) : ∃ n g, (s.input n).queue.head? = some g ∧ w = .apply n g := by
  obtain ⟨n, -, hn⟩ := List.exists_of_findSome?_eq_some h
  split at hn
  · next g hg =>
    split at hn
    · cases hn; exact ⟨n, g, hg, rfl⟩
    · cases hn
  · cases hn

/-- What the arbiter names is the eligible host command, the head of a queue, or the eligible COPY (R66). -/
theorem arbiter_cases {s : State} {w : Work} (ha : s.arbiter = some w) :
    (∃ c, HostEligible s c ∧ w = .host c) ∨ (∃ n g, (s.input n).queue.head? = some g ∧ w = .apply n g) ∨
      ∃ e, CopyEligible s e ∧ w = .copy s.capture.copiesMade e := by
  have waits : s.eligibleHost.map Work.host = some w → ∃ c, HostEligible s c ∧ w = .host c := by
    intro h
    obtain ⟨c, hc, rfl⟩ := Option.map_eq_some_iff.1 h
    exact ⟨c, (eligibleHost_iff s c).1 hc, rfl⟩
  simp only [State.arbiter, if_pos (arbiter_running ha)] at ha
  rcases Option.or_eq_some_iff.1 ha with hhost | ⟨-, ha⟩
  · split at hhost
    · exact .inl (waits hhost)
    · cases hhost
  rcases Option.or_eq_some_iff.1 ha with hprevious | ⟨-, ha⟩
  · exact .inr (.inl (headRequest_eq_some s.previousEpoch hprevious))
  rcases Option.or_eq_some_iff.1 ha with hcopy | ⟨-, ha⟩
  · exact .inr (.inr ((eligibleCopy_iff s w).1 hcopy))
  rcases Option.or_eq_some_iff.1 ha with hcurrent | ⟨-, ha⟩
  · exact .inr (.inl (headRequest_eq_some (fun g => !s.previousEpoch g && !s.gated g.dest) hcurrent))
  · exact .inl (waits ha)

theorem head_of_arbiter {s : State} {n : Fin 16} {g : Group} (ha : s.arbiter = some (.apply n g)) :
    (s.input n).queue.head? = some g := by
  rcases arbiter_cases ha with ⟨c, -, hw⟩ | ⟨m, h, hh, hw⟩ | ⟨e, -, hw⟩ <;> cases hw
  exact hh

theorem hostEligible_of_arbiter {s : State} {c : EngineCommand} (ha : s.arbiter = some (.host c)) :
    HostEligible s c := by
  rcases arbiter_cases ha with ⟨c', hc, hw⟩ | ⟨m, h, -, hw⟩ | ⟨e, -, hw⟩ <;> cases hw
  exact hc

theorem copyEligible_of_arbiter {s : State} {p : Nat} {e : Fin 64} (ha : s.arbiter = some (.copy p e)) :
    CopyEligible s e ∧ p = s.capture.copiesMade := by
  rcases arbiter_cases ha with ⟨c, -, hw⟩ | ⟨m, h, -, hw⟩ | ⟨e', he, hw⟩ <;> cases hw
  exact ⟨he, rfl⟩

theorem amountsSound_applyGrant {s : State} {n : Fin 16} {g : Group} (ha : s.arbiter = some (.apply n g))
    (h : AmountsSound s) : AmountsSound (beginOperation (.apply n g) (claimHead n (countHostWait s))) := by
  have hg : GroupSound g := (h.1 n).2.2.1 g (List.mem_of_mem_head? (head_of_arbiter ha))
  have hcount : AmountsSound (countHostWait s) := h
  refine amountsSound_beginOperation (amountsSound_setInput hcount (inputSound_claimed (hcount.1 n))) ?_
  intro m g' hw
  cases hw
  exact hg

theorem suspenseSound_applyAmount {s : State} {g : Group} (hg : GroupSound g) (d : Bool) (x : Fin 64)
    (h : SuspenseSound (s.entry x)) : SuspenseSound ((applyAmount g d s).entry x) := by
  rcases marks_applyAmount g d s x with hm | ⟨-, -, -, hsus⟩
  · exact suspenseSound_congr h hm
  · intro a ha
    rw [hsus] at ha
    cases ha
    have hamount := amount_le hg
    refine (carryAmount_spec g.sense _ _).2 ?_ (by omega)
    cases hs : (s.entry x).suspense with
    | none => simp
    | some b => exact h b hs

theorem amountsSound_applyCompletion {s : State} {op : Operation} {n : Fin 16} {g : Group}
    (ho : s.engine.op = some op) (hw : op.work = .apply n g) (h : AmountsSound s) (d : Bool) :
    AmountsSound (checkDrain (clearInFlight n (moveLinked n g (release (applyAmount g d s))))) := by
  obtain ⟨hi, hf, hs⟩ := h
  have hsus : ∀ x, SuspenseSound ((clearInFlight n (moveLinked n g (release (applyAmount g d s)))).entry x) := by
    intro x
    rw [entry_applied]
    exact suspenseSound_congr (suspenseSound_applyAmount (hf op n g ho hw) d x (hs x)) (withDeferred_marks ..)
  obtain ⟨E, q, -, happlied⟩ := applied_frame n g d s
  obtain ⟨C, q', -, hdrain⟩ := checkDrain_frame (clearInFlight n (moveLinked n g (release (applyAmount g d s))))
  rw [happlied] at hdrain hsus
  rw [happlied, hdrain]
  refine ⟨fun m => ?_, flightSound_none, hsus⟩
  show InputSound ((s.setInput n { s.input n with inFlight := false }).input m)
  rw [input_setInput]
  split
  · exact inputSound_inFlight (hi n) false
  · exact hi m

theorem amountsSound_copyCompletion {s : State} (h : AmountsSound s) (c : CaptureUnit) :
    AmountsSound (checkDrain (release (s.setCapture c))) := by
  obtain ⟨hi, -, hs⟩ := h
  have hsus : ∀ x, SuspenseSound ((release (s.setCapture c)).entry x) := fun x =>
    suspenseSound_congr (hs x) (marks_release (s.setCapture c) x)
  obtain ⟨E, hrelease⟩ := release_exists (s.setCapture c)
  obtain ⟨C, q, -, hdrain⟩ := checkDrain_frame (release (s.setCapture c))
  rw [hrelease] at hdrain hsus
  rw [hrelease, hdrain]
  exact ⟨hi, flightSound_none, hsus⟩

theorem amountsSound_hostCompletion {s u : State} {c : EngineCommand} (r : Result) (hl : HostLeaves c s u)
    (h : AmountsSound s) : AmountsSound (endCommand r (release u)) := by
  obtain ⟨hi, -, hs⟩ := h
  have hsus : ∀ x, SuspenseSound ((release u).entry x) := by
    intro x
    refine suspenseSound_congr ?_ (marks_release u x)
    rcases hl.marks x with hm | ⟨-, hnone⟩
    · exact suspenseSound_congr (hs x) hm
    · intro a ha
      cases hnone.symm.trans ha
  obtain ⟨E, T, q, -, rfl⟩ := hl.touches
  obtain ⟨E', hrelease⟩ := release_exists { s with table := { s.table with entries := E }, trips := T, notices := q }
  rw [hrelease] at hsus ⊢
  exact ⟨hi, flightSound_none, hsus⟩

theorem amountsSound_kept : KeptAlone AmountsSound where
  quiet hq _ h := by
    cases hq
    exact h
  waits s c _ _ _ h := h
  cancel s c _ _ h := h
  applyGrant s n g ha _ h := amountsSound_applyGrant ha h
  copyGrant s p e _ _ h := amountsSound_beginOperation (u := countHostWait s) h fun n g hw => by cases hw
  hostGrant s c _ _ h := amountsSound_beginOperation (u := startHost c s) h fun n g hw => by cases hw
  applyCompletion s op n g ho hw _ h := amountsSound_applyCompletion ho hw h _
  copyCompletion s op p e _ _ _ h := amountsSound_copyCompletion h _
  hostCompletion s u op c r _ _ hl _ h := amountsSound_hostCompletion r hl h
  inputEdge n level s _ h := by
    obtain ⟨i, q, hi, -, he⟩ := inputEdge_taken n level s
    rw [he]
    exact amountsSound_notices (amountsSound_setInput h (inputSound_edgeTaken (h.1 n) hi)) s.capture q
  lockout n s _ h := amountsSound_setInput (i := { s.input n with lockout := false }) h (h.1 n)
  takeTrigger source s _ _ h := by
    obtain ⟨C, q, -, he⟩ := takeTrigger_frame source s
    rw [he]
    exact h
  capLine s e l v _ h := h
  openBank s id _ _ _ h := h
  closeBank s id _ _ h := h
  resetInput n s _ h := by
    obtain ⟨C, q, -, he⟩ := checkDrain_frame (s.setInput n (emptied (s.input n)))
    rw [resetInputCommand_eq, he]
    exact amountsSound_notices (amountsSound_setInput h (inputSound_emptied (h.1 n))) C q
  rawValue e digits s _ _ h := by
    unfold commitRaw
    split
    · exact h
    · exact amountsSound_congr h rfl rfl (sameMarks_setEntry (en := { s.entry e with digits := digits }) ⟨rfl, rfl⟩)
  member e flag s _ h :=
    amountsSound_congr h rfl rfl (sameMarks_setEntry (en := { s.entry e with member := flag }) ⟨rfl, rfl⟩)
  config n bytes s _ h := by
    rcases commitConfig_cases n bytes s with he | ⟨i, hi, he⟩ <;> rw [he]
    · exact h
    · exact amountsSound_setInput h (inputSound_configTaken (h.1 n) hi)
  supply s p _ _ h := h
  enterWarm cause s hr _ h := by
    have hinputs : ∀ n, InputSound ((enterWarm cause s).input n) := fun n => by
      rw [input_enterWarm hr]
      exact inputSound_afterReset (h.1 n).2.2.2.2.2 _
    rw [enterWarm_of_running hr] at hinputs ⊢
    exact ⟨hinputs, flightSound_none, h.2.2⟩
  enterCold s _ _ :=
    ⟨fun n => input_enterCold s n ▸ inputSound_afterReset (by simp [InputConfig.cold]) _, flightSound_none,
      fun e a ha => by simp [State.entry, enterCold, clearAll, Table.cold, Entry.cold] at ha⟩

/-! ### Trip counters (R102, R103, R106, R107, R110 to R115) -/

theorem tripSound_moveDown {t : TripCounter} (h : TripSound t) {a : Nat} (ha : a ≤ 99999999) :
    TripSound (t.moveDown a).1 := by
  obtain ⟨hremaining, hprewarn, hovershoot, hstate⟩ := h
  unfold TripCounter.moveDown
  cases hs : t.state <;> simp only [hs] at hstate ⊢
  case idle => exact ⟨hremaining, hprewarn, hovershoot, by simp only [hs]⟩
  case tripped => exact ⟨hremaining, hprewarn, Nat.min_le_left .., hstate⟩
  case armed =>
    split
    · split
      · next hlt hlevel => exact ⟨by simp only; omega, hprewarn, hovershoot, hlevel.1, by simp only; omega, hlevel.2, hstate.2⟩
      · exact ⟨by simp only; omega, hprewarn, hovershoot, by simp only; omega⟩
    · exact ⟨Nat.zero_le _, hprewarn, by simp only; omega, rfl⟩
  case prewarn =>
    split
    · exact ⟨by simp only; omega, hprewarn, hovershoot, by simp only; omega⟩
    · exact ⟨Nat.zero_le _, hprewarn, by simp only; omega, rfl⟩

theorem tripSound_moveUp {t : TripCounter} (h : TripSound t) (a : Nat) : TripSound (t.moveUp a) := by
  obtain ⟨hremaining, hprewarn, hovershoot, hstate⟩ := h
  unfold TripCounter.moveUp
  cases hs : t.state <;> simp only [hs] at hstate ⊢
  case idle => exact ⟨hremaining, hprewarn, hovershoot, by simp only [hs]⟩
  case tripped => exact ⟨hremaining, hprewarn, by simp only; omega, hstate⟩
  case armed => exact ⟨Nat.min_le_left .., hprewarn, hovershoot, by simp only [Config.tripMax]; omega⟩
  case prewarn =>
    split
    · next hle => exact ⟨Nat.min_le_left .., hprewarn, hovershoot, by simp only [Config.tripMax] at hle ⊢; omega⟩
    · exact ⟨Nat.min_le_left .., hprewarn, hovershoot, by simp only [Config.tripMax]; omega⟩

theorem tripSound_move {t : TripCounter} (h : TripSound t) (sense : Sense) {a : Nat} (ha : a ≤ 99999999) :
    TripSound (t.move sense a).1 := by
  cases sense with
  | add => exact tripSound_moveDown h ha
  | subtract => exact tripSound_moveUp h a

theorem tripSound_armed {k : Fin 8} {preset prewarn : Nat} (h : ArmSound (.armTrip k preset prewarn)) :
    TripSound { state := .armed, remaining := preset, prewarn := prewarn, overshoot := 0 } := by
  obtain ⟨hpos, hle, hlevel⟩ := h
  exact ⟨hle, by simp only; omega, Nat.zero_le _, hpos, rfl⟩

theorem tripSound_idle {t : TripCounter} (h : TripSound t) : TripSound { t with state := .idle } :=
  ⟨h.1, h.2.1, h.2.2.1, trivial⟩

/-- The ARM_TRIP a slot state holds is sound. -/
def SlotArms (st : SlotState) : Prop := ∀ c, st = .waiting c ∨ st = .running c → ArmSound c

/-- The ARM_TRIP in flight is sound. -/
def FlightArms (o : Option Operation) : Prop := ∀ op c, o = some op → op.work = .host c → ArmSound c

theorem slotArms_idle : SlotArms .idle := fun c h => by rcases h with h | h <;> cases h

theorem flightArms_none : FlightArms none := fun _ _ h => by cases h

theorem tripsSound_iff (s : State) :
    TripsSound s ↔ (∀ k, TripSound (s.trip k)) ∧ SlotArms s.slot.state ∧ FlightArms s.engine.op := Iff.rfl

theorem tripsSound_congr {s t : State} (h : TripsSound s) (ht : t.trips = s.trips)
    (hslot : t.slot.state = s.slot.state) (hop : t.engine.op = s.engine.op) : TripsSound t := by
  obtain ⟨hk, hs, hf⟩ := h
  refine ⟨fun k => trip_congr ht k ▸ hk k, ?_, hop ▸ hf⟩
  intro c
  rw [hslot]
  exact hs c

theorem tripsSound_notices {s : State} (h : TripsSound s) (i : Vector Input 16) (c : CaptureUnit) (q : Notices) :
    TripsSound { s with inputs := i, capture := c, notices := q } := h

theorem tripsSound_beginOperation {w : Work} {u : State} (h : TripsSound u)
    (hw : ∀ c, w = .host c → ArmSound c) : TripsSound (beginOperation w u) := by
  obtain ⟨hk, hs, -⟩ := h
  obtain ⟨E, q, -, he⟩ := beginOperation_frame w u
  rw [he]
  exact ⟨hk, hs, fun op c hop hc => by cases hop; exact hw c hc⟩

theorem tripsSound_applyCompletion {s : State} {op : Operation} {n : Fin 16} {g : Group}
    (ho : s.engine.op = some op) (hw : op.work = .apply n g) (ha : AmountsSound s) (h : TripsSound s) (d : Bool) :
    TripsSound (checkDrain (clearInFlight n (moveLinked n g (release (applyAmount g d s))))) := by
  obtain ⟨hk, hs, -⟩ := h
  have hamount := amount_le (ha.2.1 op n g ho hw)
  obtain ⟨E, q, -, happlied⟩ := applied_frame n g d s
  obtain ⟨C, q', -, hdrain⟩ := checkDrain_frame (clearInFlight n (moveLinked n g (release (applyAmount g d s))))
  rw [happlied] at hdrain
  rw [happlied, hdrain]
  refine ⟨fun k => ?_, hs, flightArms_none⟩
  cases hlink : g.link with
  | none => exact hk k
  | some j =>
    show TripSound ((s.setTrip j ((s.trip j).move g.sense g.amount).1).trip k)
    rw [trip_setTrip]
    split
    · exact tripSound_move (hk j) g.sense (by omega)
    · exact hk k

theorem tripsSound_hostCompletion {s u : State} {op : Operation} {c : EngineCommand} (r : Result)
    (ho : s.engine.op = some op) (hw : op.work = .host c) (hl : HostLeaves c s u) (h : TripsSound s) :
    TripsSound (endCommand r (release u)) := by
  obtain ⟨hk, -, hf⟩ := h
  have htrips : ∀ k, TripSound (u.trip k) := by
    intro k
    rcases hl.trips k with hsame | ⟨preset, prewarn, rfl, harmed⟩ | hidle
    · exact hsame ▸ hk k
    · exact harmed ▸ tripSound_armed (hf op _ ho hw)
    · exact hidle ▸ tripSound_idle (hk k)
  refine ⟨fun k => ?_, slotArms_idle, ?_⟩
  · have hrelease : (endCommand r (release u)).trip k = u.trip k := trip_congr (release_frame u).2.2.2.2.1 k
    exact hrelease ▸ htrips k
  · show FlightArms (release u).engine.op
    rw [(release_frame u).2.2.2.1]
    exact flightArms_none

theorem tripsSound_kept : KeptByBlocks AmountsSound TripsSound where
  quiet hq _ h := by
    cases hq with
    | mk T S q w l hS => exact tripsSound_congr h rfl hS rfl
  waits s c _ harm _ h := ⟨h.1, fun c' hc' => by rcases hc' with hc' | hc' <;> cases hc'; exact harm, h.2.2⟩
  cancel s c _ _ h := ⟨h.1, slotArms_idle, h.2.2⟩
  applyGrant s n g _ _ h := tripsSound_beginOperation (u := claimHead n (countHostWait s)) h fun c hw => by cases hw
  copyGrant s p e _ _ h := tripsSound_beginOperation (u := countHostWait s) h fun c hw => by cases hw
  hostGrant s c ha _ h := by
    have harm : ArmSound c := h.2.1 c (.inl (hostEligible_of_arbiter ha).1)
    refine tripsSound_beginOperation ⟨h.1, fun c' hc' => ?_, h.2.2⟩ fun c' hw => ?_
    · rcases hc' with hc' | hc' <;> cases hc'
      exact harm
    · cases hw
      exact harm
  applyCompletion s op n g ho hw ha h := tripsSound_applyCompletion ho hw ha h _
  copyCompletion s op p e _ _ _ h := by
    generalize hc : s.capture.takeCopy p (copyOf e (s.entry e) op.foundDamaged) = c
    obtain ⟨E, hrelease⟩ := release_exists (s.setCapture c)
    obtain ⟨C, q, -, hdrain⟩ := checkDrain_frame (release (s.setCapture c))
    rw [hdrain, hrelease]
    exact ⟨h.1, h.2.1, flightArms_none⟩
  hostCompletion s u op c r ho hw hl _ h := tripsSound_hostCompletion r ho hw hl h
  inputEdge n level s _ h := by
    obtain ⟨i, q, -, -, he⟩ := inputEdge_taken n level s
    rw [he]
    exact h
  lockout n s _ h := h
  takeTrigger source s _ _ h := by
    obtain ⟨C, q, -, he⟩ := takeTrigger_frame source s
    rw [he]
    exact h
  capLine s e l v _ h := h
  openBank s id _ _ _ h := h
  closeBank s id _ _ h := h
  resetInput n s _ h := by
    obtain ⟨C, q, -, he⟩ := checkDrain_frame (s.setInput n (emptied (s.input n)))
    rw [resetInputCommand_eq, he]
    exact h
  rawValue e digits s _ _ h := by
    unfold commitRaw
    split <;> exact h
  member e flag s _ h := h
  config n bytes s _ h := by
    rcases commitConfig_cases n bytes s with he | ⟨i, -, he⟩ <;> rw [he] <;> exact h
  supply s p _ _ h := h
  enterWarm cause s hr _ h := by
    rw [enterWarm_of_running hr]
    exact ⟨h.1, slotArms_idle, flightArms_none⟩
  enterCold s _ _ := by
    refine ⟨fun k => ?_, slotArms_idle, flightArms_none⟩
    have hcold : (enterCold s).trip k = TripCounter.cold := by simp [State.trip, enterCold, clearAll]
    rw [hcold]
    exact ⟨by decide, by decide, by decide, trivial⟩

/-- Settles O59: the ranges are kept alone, and bound the amounts by which a counter moves. -/
theorem stepKeepsTheAmountAndTripPromises : Obligations.StepKeepsTheAmountAndTripPromises :=
  ⟨amountsSound_kept.kept, (amountsSound_kept.and tripsSound_kept).kept⟩

end Sys2Proof.Machine

/-! ## The capture promises (R35, R74, R81 to R93) -/

namespace Sys2Proof.Machine

open Sys2Proof.Safety

/-! ### The epoch order (R35, R90) -/

theorem previousExists_iff (s : State) :
    s.previousExists = true ↔
      s.previousInFlight = true ∨ ∃ n, ∃ g ∈ (s.input n).queue, s.previousEpoch g = true := by
  simp [State.previousExists, allInputs]

theorem previousInFlight_of_free {s : State} (h : s.engine.op = none) : s.previousInFlight = false := by
  simp [State.previousInFlight, h]

theorem previousInFlight_of_apply {s : State} {op : Operation} {n : Fin 16} {g : Group} (ho : s.engine.op = some op)
    (hw : op.work = .apply n g) : s.previousInFlight = s.previousEpoch g := by
  simp [State.previousInFlight, ho, hw]

theorem previousInFlight_of_no_apply {s : State} {op : Operation} (ho : s.engine.op = some op)
    (hw : ∀ n g, op.work ≠ .apply n g) : s.previousInFlight = false := by
  unfold State.previousInFlight
  rw [ho]
  cases h : op.work with
  | apply n g => exact absurd h (hw n g)
  | copy p e => simp [h]
  | host c => simp [h]

theorem previousEpoch_congr {s t : State} (h : t.capture.epoch = s.capture.epoch) : t.previousEpoch = s.previousEpoch := by
  funext g
  simp [State.previousEpoch, h]

theorem epochOrdered_congr {s t : State} {q : List Group} (h : t.capture.epoch = s.capture.epoch)
    (hq : EpochOrdered s q) : EpochOrdered t q := by
  rw [EpochOrdered, previousEpoch_congr h]
  exact hq

/-- The epoch promise but for the end of a drain: what an event leaves before `checkDrain`. -/
def EpochReady (s : State) : Prop :=
  (∀ n, EpochOrdered s (s.input n).queue) ∧ (s.capture.phase = .idle → s.previousExists = false)

/-- An event of the epoch's own: no previous-epoch group is new, and an IDLE unit was IDLE before. -/
theorem epochReady_of_fewer {s t : State} (h : EpochSound s) (hepoch : t.capture.epoch = s.capture.epoch)
    (hphase : t.capture.phase = .idle → s.capture.phase = .idle)
    (hflight : t.previousInFlight = true → s.previousInFlight = true)
    (hqueue : ∀ n, (t.input n).queue.Sublist (s.input n).queue) : EpochReady t := by
  obtain ⟨hord, hidle, -⟩ := h
  refine ⟨fun n => epochOrdered_congr hepoch ((hord n).sublist (hqueue n)), fun hi => ?_⟩
  rw [Bool.eq_false_iff]
  intro hex
  refine absurd ((previousExists_iff s).2 ?_) (by simp [hidle (hphase hi)])
  rcases (previousExists_iff t).1 hex with hf | ⟨n, g, hg, hp⟩
  · exact .inl (hflight hf)
  · exact .inr ⟨n, g, (hqueue n).subset hg, by rwa [previousEpoch_congr hepoch] at hp⟩

/-- The completion of a capture ends CAPTURING and keeps the epoch (R91). -/
theorem capture_completeCapture (s : State) :
    (completeCapture s).capture.phase = .idle ∧ (completeCapture s).capture.epoch = s.capture.epoch := by
  simp only [completeCapture]
  split <;> simp

theorem previousInFlight_congr {s t : State} (ho : t.engine.op = s.engine.op)
    (hepoch : t.capture.epoch = s.capture.epoch) : t.previousInFlight = s.previousInFlight := by
  simp only [State.previousInFlight, ho, previousEpoch_congr hepoch]

theorem previousExists_congr {s t : State} (hflight : t.previousInFlight = s.previousInFlight)
    (hepoch : t.capture.epoch = s.capture.epoch) (hqueue : ∀ n, (t.input n).queue = (s.input n).queue) :
    t.previousExists = s.previousExists := by
  rw [Bool.eq_iff_iff, previousExists_iff, previousExists_iff]
  simp only [hflight, hqueue, previousEpoch_congr hepoch]

/-- The end of a drain is what DRAINING waits for (R90). -/
theorem epochSound_checkDrain {s : State} (h : EpochReady s) : EpochSound (checkDrain s) := by
  obtain ⟨hord, hidle⟩ := h
  by_cases hd : s.capture.phase = .draining ∧ s.previousExists = false
  · rw [checkDrain_of_drained hd.1 hd.2]
    obtain ⟨hphase, hepoch⟩ := capture_completeCapture s
    obtain ⟨C, q, -, he⟩ := completeCapture_frame s
    rw [he] at hphase hepoch ⊢
    have hnone := hd.2
    rw [← previousExists_congr (previousInFlight_congr (by rfl) hepoch) hepoch fun n => rfl] at hnone
    exact ⟨fun n => epochOrdered_congr hepoch (hord n), fun _ => hnone, fun h => by cases hphase.symm.trans h⟩
  · have hstill : s.capture.phase = .draining → s.previousExists = true := fun h => by
      simpa using fun h' => hd ⟨h, h'⟩
    rw [checkDrain_of_not]
    · exact ⟨hord, hidle, hstill⟩
    · by_cases h : s.capture.phase = .draining
      · exact .inr (hstill h)
      · exact .inl h

/-- An event that leaves the epoch, the phase, the queues and the existence of a previous-epoch group. -/
theorem epochSound_congr {s t : State} (h : EpochSound s) (hepoch : t.capture.epoch = s.capture.epoch)
    (hphase : t.capture.phase = s.capture.phase) (hflight : t.previousInFlight = s.previousInFlight)
    (hqueue : ∀ n, (t.input n).queue = (s.input n).queue) : EpochSound t := by
  obtain ⟨hord, hidle, hdraining⟩ := h
  refine ⟨fun n => ?_, ?_, ?_⟩
  · rw [hqueue n]
    exact epochOrdered_congr hepoch (hord n)
  · rwa [hphase, previousExists_congr hflight hepoch hqueue]
  · rwa [hphase, previousExists_congr hflight hepoch hqueue]

/-- An input whose queue keeps its order and its previous-epoch groups, among them. -/
theorem epochSound_setInput {s : State} {n : Fin 16} {i : Input} (h : EpochSound s) (hord : EpochOrdered s i.queue)
    (hsame : (∃ g ∈ i.queue, s.previousEpoch g = true) ↔ ∃ g ∈ (s.input n).queue, s.previousEpoch g = true)
    (q : Notices) : EpochSound { s.setInput n i with notices := q } := by
  obtain ⟨hord', hidle, hdraining⟩ := h
  have hin : ∀ m, State.input { s.setInput n i with notices := q } m = if n = m then i else s.input m :=
    fun m => input_setInput s n m i
  have hexists : State.previousExists { s.setInput n i with notices := q } = s.previousExists := by
    rw [Bool.eq_iff_iff, previousExists_iff, previousExists_iff]
    refine or_congr Iff.rfl (exists_congr fun m => ?_)
    rw [hin m]
    split
    · next hm => subst hm; exact hsame
    · exact Iff.rfl
  refine ⟨fun m => ?_, fun hi => hexists.trans (hidle hi), fun hd => hexists.trans (hdraining hd)⟩
  rw [hin m]
  split
  · exact hord
  · exact hord' m

/-- An accepted pulse is of the current epoch, and joins only a group of its epoch (R31, R32). -/
theorem placePulse_previous {s : State} {pulse : Group} {queue placed : List Group}
    (hcurrent : s.previousEpoch pulse = false) (hord : EpochOrdered s queue) (h : placePulse pulse queue = some placed) :
    EpochOrdered s placed ∧
      ((∃ g ∈ placed, s.previousEpoch g = true) ↔ ∃ g ∈ queue, s.previousEpoch g = true) := by
  rcases placePulse_cases h with ⟨-, rfl⟩ | ⟨front, tail, rfl, -, rfl⟩
  · constructor
    · refine List.pairwise_append.2 ⟨hord, List.pairwise_singleton _ _, fun a _ b hb hp => ?_⟩
      cases List.mem_singleton.1 hb
      cases hcurrent.symm.trans hp
    · simp [or_and_right, exists_or, hcurrent]
  · constructor
    · obtain ⟨hfront, -, hcross⟩ := List.pairwise_append.1 hord
      refine List.pairwise_append.2 ⟨hfront, List.pairwise_singleton _ _, fun a ha b hb hp => ?_⟩
      cases List.mem_singleton.1 hb
      exact hcross a ha tail (List.mem_singleton_self _) hp
    · simp [or_and_right, exists_or, State.previousEpoch]

/-- A claim moves the head group from its queue into flight (R37). -/
theorem epochSound_claimed {s t : State} {n : Fin 16} {g : Group} {rest : List Group} {op : Operation}
    (h : EpochSound s) (hfree : s.engine.op = none) (hcapture : t.capture = s.capture) (ho : t.engine.op = some op)
    (hw : op.work = .apply n g) (hhead : (s.input n).queue = g :: rest) (hrest : (t.input n).queue = rest)
    (hother : ∀ m, m ≠ n → (t.input m).queue = (s.input m).queue) : EpochSound t := by
  obtain ⟨hord, hidle, hdraining⟩ := h
  have hepoch : t.capture.epoch = s.capture.epoch := congrArg _ hcapture
  have hexists : t.previousExists = s.previousExists := by
    rw [Bool.eq_iff_iff, previousExists_iff, previousExists_iff, previousInFlight_of_apply ho hw,
      previousInFlight_of_free hfree, previousEpoch_congr hepoch]
    constructor
    · rintro (hg | ⟨m, g', hg', hp⟩)
      · exact .inr ⟨n, g, by simp [hhead], hg⟩
      · by_cases hm : m = n
        · subst hm
          exact .inr ⟨m, g', by rw [hhead]; exact List.mem_cons_of_mem _ (hrest ▸ hg'), hp⟩
        · exact .inr ⟨m, g', hother m hm ▸ hg', hp⟩
    · rintro (hg | ⟨m, g', hg', hp⟩)
      · cases hg
      · by_cases hm : m = n
        · subst hm
          rw [hhead] at hg'
          rcases List.mem_cons.1 hg' with rfl | hg'
          · exact .inl hp
          · exact .inr ⟨m, g', hrest.symm ▸ hg', hp⟩
        · exact .inr ⟨m, g', (hother m hm).symm ▸ hg', hp⟩
  refine ⟨fun m => ?_, ?_, ?_⟩
  · refine epochOrdered_congr hepoch ?_
    by_cases hm : m = n
    · subst hm
      rw [hrest]
      exact (List.pairwise_cons.1 (hhead ▸ hord m)).2
    · rw [hother m hm]
      exact hord m
  · rwa [hexists, hcapture]
  · rwa [hexists, hcapture]

theorem epochSound_applyGrant {s : State} {n : Fin 16} {g : Group} (ha : s.arbiter = some (.apply n g))
    (h : EpochSound s) : EpochSound (beginOperation (.apply n g) (claimHead n (countHostWait s))) := by
  obtain ⟨rest, hhead⟩ : ∃ rest, (s.input n).queue = g :: rest := List.head?_eq_some_iff.1 (head_of_arbiter ha)
  have hin : ∀ m, (claimHead n (countHostWait s)).input m =
      if n = m then { s.input n with queue := rest, inFlight := true } else s.input m := by
    intro m
    refine (input_setInput (countHostWait s) n m _).trans ?_
    rw [show (countHostWait s).input = s.input from rfl, hhead]
    rfl
  obtain ⟨E, q, -, he⟩ := beginOperation_frame (.apply n g) (claimHead n (countHostWait s))
  rw [he]
  refine epochSound_claimed (n := n) (g := g) h (arbiter_running ha).2 rfl rfl rfl hhead ?_ fun m hm => ?_
  · exact congrArg Input.queue ((hin n).trans (if_pos rfl))
  · exact congrArg Input.queue ((hin m).trans (if_neg (Ne.symm hm)))

/-- The start of an operation that claims no group. -/
theorem epochSound_beginOperation {w : Work} {u : State} (hfree : u.engine.op = none) (hw : ∀ n g, w ≠ .apply n g)
    (h : EpochSound u) : EpochSound (beginOperation w u) := by
  obtain ⟨E, q, -, he⟩ := beginOperation_frame w u
  rw [he]
  exact epochSound_congr h rfl rfl
    ((previousInFlight_of_no_apply rfl hw).trans (previousInFlight_of_free hfree).symm) fun n => rfl

/-- A trigger turns the epoch: in IDLE every group is current, and after it every group is previous (R80). -/
theorem epochSound_takeTrigger {s : State} (source : TriggerSource) (hi : s.capture.phase = .idle)
    (h : EpochSound s) : EpochSound (takeTrigger source s) := by
  obtain ⟨-, hcurrent⟩ := (previousExists_false s).1 (h.2.1 hi)
  rw [takeTrigger, offerOverwritten_eq]
  refine epochSound_checkDrain ⟨fun n => List.pairwise_of_forall_mem_list fun a ha _ _ _ => ?_, fun hidle => ?_⟩
  · have hturned : (s.triggered source).epoch = !s.capture.epoch := rfl
    show (a.epoch != (s.triggered source).epoch) = true
    rw [hturned, hcurrent n a ha]
    simp
  · have hphase : (s.triggered source).phase = .idle := hidle
    simp only [State.triggered] at hphase
    split at hphase <;> cases hphase

theorem epochSound_of_empty {s : State} (hflight : s.engine.op = none) (hqueue : ∀ n, (s.input n).queue = [])
    (hphase : s.capture.phase = .idle) : EpochSound s := by
  refine ⟨fun n => ?_, fun _ => ?_, fun h => by cases hphase.symm.trans h⟩
  · rw [hqueue n]
    exact .nil
  · rw [previousExists_false]
    exact ⟨previousInFlight_of_free hflight, fun n g hg => by simp [hqueue n] at hg⟩

/-- A copy keeps the epoch, and an IDLE unit was IDLE before it (R86, R89). -/
theorem takeCopy_epoch_phase (c : CaptureUnit) (p : Nat) (r : CopyRecord) :
    (c.takeCopy p r).epoch = c.epoch ∧ ((c.takeCopy p r).phase = .idle → c.phase = .idle) := by
  constructor
  · simp only [CaptureUnit.takeCopy]
    split <;> simp
  · simp only [CaptureUnit.takeCopy]
    split
    · exact nofun
    · exact id

theorem epochSound_setBank {s : State} (h : EpochSound s) (id : BankId) (bk : Bank) :
    EpochSound (s.setCapture (s.capture.setBank id bk)) :=
  have hepoch : (s.capture.setBank id bk).epoch = s.capture.epoch := by simp
  epochSound_congr h hepoch (by simp) (previousInFlight_congr rfl hepoch) fun _ => rfl

theorem epochSound_kept : KeptAlone EpochSound where
  quiet hq _ h := by
    cases hq
    exact h
  waits s c _ _ _ h := h
  cancel s c _ _ h := h
  applyGrant s n g ha _ h := epochSound_applyGrant ha h
  copyGrant s p e ha _ h := epochSound_beginOperation (u := countHostWait s) (arbiter_running ha).2 nofun h
  hostGrant s c ha _ h := epochSound_beginOperation (u := startHost c s) (arbiter_running ha).2 nofun h
  applyCompletion s op n g ho hw _ h := by
    obtain ⟨E, q, -, he⟩ := applied_frame n g op.foundDamaged s
    rw [he]
    refine epochSound_checkDrain (epochReady_of_fewer h rfl id nofun fun m => ?_)
    show ((s.setInput n { s.input n with inFlight := false }).input m).queue.Sublist (s.input m).queue
    rw [input_setInput]
    split
    · next hm => subst hm; exact .refl _
    · exact .refl _
  copyCompletion s op p e _ _ _ h := by
    obtain ⟨E, he⟩ :=
      release_exists (s.setCapture (s.capture.takeCopy p (copyOf e (s.entry e) op.foundDamaged)))
    obtain ⟨hepoch, hphase⟩ := takeCopy_epoch_phase s.capture p (copyOf e (s.entry e) op.foundDamaged)
    rw [he]
    exact epochSound_checkDrain (epochReady_of_fewer h hepoch hphase nofun fun n => .refl _)
  hostCompletion s u op c r ho hw hl _ h := by
    obtain ⟨E, T, q, -, rfl⟩ := hl.touches
    obtain ⟨E', he⟩ := release_exists { s with table := { s.table with entries := E }, trips := T, notices := q }
    rw [he]
    have hflight : s.previousInFlight = false := previousInFlight_of_no_apply ho (by simp [hw])
    exact epochSound_congr h rfl rfl hflight.symm fun n => rfl
  inputEdge n level s _ h := by
    obtain ⟨i, q, hi, -, he⟩ := inputEdge_taken n level s
    rw [he]
    cases hi with
    | accepted level lockout queue _ hplaced =>
      obtain ⟨hord, hsame⟩ := placePulse_previous (s := s) (by simp [State.previousEpoch, pulseOf]) (h.1 n) hplaced
      exact epochSound_setInput h hord hsame q
    | level | rejected | dropped =>
      refine epochSound_setInput h ?_ ?_ q
      exacts [h.1 n, Iff.rfl]
  lockout n s _ h := epochSound_setInput (i := { s.input n with lockout := false }) h (h.1 n) Iff.rfl s.notices
  takeTrigger source s hi _ h := epochSound_takeTrigger source hi h
  capLine s e l v _ h := h
  openBank s id _ _ _ h := epochSound_setBank h id _
  closeBank s id _ _ h := epochSound_setBank h id _
  resetInput n s _ h := by
    rw [resetInputCommand_eq]
    refine epochSound_checkDrain (epochReady_of_fewer h rfl id id fun m => ?_)
    rw [input_setInput]
    split
    · exact List.nil_sublist _
    · exact .refl _
  rawValue e digits s _ _ h := by
    unfold commitRaw
    split <;> exact h
  member e flag s _ h := h
  config n bytes s _ h := by
    rcases commitConfig_cases n bytes s with he | ⟨i, hi, he⟩ <;> rw [he]
    · exact h
    · exact epochSound_setInput (q := s.notices) h (hi.queue ▸ h.1 n) (by rw [hi.queue])
  supply s p _ _ h := h
  enterWarm cause s hr _ h := by
    have hqueue : ∀ n, ((enterWarm cause s).input n).queue = [] := fun n => by rw [input_enterWarm hr]; rfl
    rw [enterWarm_of_running hr] at hqueue ⊢
    exact epochSound_of_empty rfl hqueue rfl
  enterCold s _ _ := epochSound_of_empty rfl (fun n => by rw [input_enterCold]; rfl) rfl

end Sys2Proof.Machine

/-! ## The capture unit and the bank it fills (R74, R81 to R93) -/

namespace Sys2Proof.Machine

open Sys2Proof.Safety

/-- What `CaptureSound` says of the capture unit alone, bank by bank. -/
structure UnitSound (c : CaptureUnit) : Prop where
  ascending : c.list.Pairwise (· < ·)
  made : c.copiesMade ≤ c.list.length
  copying : c.phase = .copying → c.copiesMade < c.list.length
  draining : c.phase = .draining → c.copiesMade = c.list.length
  idle : c.phase = .idle → ∀ id, (c.bank id).state ≠ .filling
  filling : c.phase ≠ .idle → ∃ id, FillingSound c id
  oneOpen : ∀ id, (c.bank id).state = .opened → (c.bank id.other).state ≠ .opened
  ordered : (∀ id, (c.bank id).state = .complete) → c.lastChosen ≠ none

/-- What `CaptureSound` says of the operation in flight: a COPY is that of the next list entry (R85). -/
def FlightCopies (c : CaptureUnit) (o : Option Operation) : Prop :=
  ∀ op position e, o = some op → op.work = .copy position e →
    c.phase = .copying ∧ position = c.copiesMade ∧ c.list[position]? = some e

theorem forall_bank {p : Bank → Prop} (c : CaptureUnit) : (∀ id, p (c.bank id)) ↔ p c.bankA ∧ p c.bankB :=
  ⟨fun h => ⟨h .a, h .b⟩, fun ⟨ha, hb⟩ id => by cases id; exacts [ha, hb]⟩

theorem oneOpen_iff (c : CaptureUnit) :
    (∀ id, (c.bank id).state = .opened → (c.bank id.other).state ≠ .opened) ↔
      ¬(c.bankA.state = .opened ∧ c.bankB.state = .opened) := by
  constructor
  · rintro h ⟨ha, hb⟩
    exact h .a ha hb
  · intro h id hid hother
    cases id
    exacts [h ⟨hid, hother⟩, h ⟨hother, hid⟩]

theorem captureSound_iff (s : State) :
    CaptureSound s ↔ UnitSound s.capture ∧ FlightCopies s.capture s.engine.op := by
  constructor
  · rintro ⟨hasc, hmade, hcopying, hdraining, hidle, hfilling, hopen, hordered, hflight⟩
    refine ⟨⟨hasc, hmade, hcopying, hdraining, fun h => ?_, hfilling, ?_, fun h => ?_⟩, hflight⟩
    · exact (forall_bank (p := fun bk => bk.state ≠ .filling) s.capture).2 (hidle h)
    · exact (oneOpen_iff s.capture).2 hopen
    · exact hordered (h .a) (h .b)
  · rintro ⟨⟨hasc, hmade, hcopying, hdraining, hidle, hfilling, hopen, hordered⟩, hflight⟩
    refine ⟨hasc, hmade, hcopying, hdraining, fun h => ⟨hidle h .a, hidle h .b⟩, hfilling, ?_, fun ha hb => ?_,
      hflight⟩
    · exact (oneOpen_iff s.capture).1 hopen
    · exact hordered fun id => by cases id; exacts [ha, hb]

theorem flightCopies_none (c : CaptureUnit) : FlightCopies c none := nofun

theorem flightCopies_of_no_copy {c : CaptureUnit} {op : Operation} (h : ∀ p e, op.work ≠ .copy p e) :
    FlightCopies c (some op) := by
  rintro _ p e ⟨⟩ hw
  exact absurd hw (h p e)

/-- No COPY is in flight outside the COPYING phase. -/
theorem flightCopies_of_not_copying {c : CaptureUnit} {o : Option Operation} (h : FlightCopies c o)
    (hphase : c.phase ≠ .copying) (c' : CaptureUnit) : FlightCopies c' o :=
  fun op p e ho hw => absurd (h op p e ho hw).1 hphase

theorem unitSound_afterReset (sequence : BitVec 16) (level : Bool) :
    UnitSound (CaptureUnit.afterReset sequence level) where
  ascending := .nil
  made := Nat.le_refl _
  copying := nofun
  draining := nofun
  idle _ id := by cases id <;> exact nofun
  filling h := absurd rfl h
  oneOpen id := by cases id <;> exact nofun
  ordered h := by cases h .a

/-- The CAP line and its enable are no part of the promise. -/
theorem unitSound_capLine {c : CaptureUnit} (h : UnitSound c) (enable lockout level : Bool) :
    UnitSound { c with capEnable := enable, capLockout := lockout, capLevel := level } :=
  ⟨h.ascending, h.made, h.copying, h.draining, h.idle, h.filling, h.oneOpen, h.ordered⟩

/-- OPEN_BANK and CLOSE_BANK: a bank that is not FILLING takes another state that is neither FILLING nor COMPLETE. -/
theorem unitSound_setState {c : CaptureUnit} (h : UnitSound c) {id : BankId} {st : BankState}
    (hfrom : (c.bank id).state ≠ .filling) (hto : st = .opened ∧ (∀ j, (c.bank j).state ≠ .opened) ∨ st = .free) :
    UnitSound (c.setBank id { c.bank id with state := st }) := by
  have hne : st ≠ .filling ∧ st ≠ .complete := by rcases hto with ⟨rfl, -⟩ | rfl <;> decide
  have hframe := setBank_frame c id { c.bank id with state := st }
  obtain ⟨-, hphase, hlist, hmade, hsequence, hlast, -⟩ := hframe
  refine ⟨by rw [hlist]; exact h.ascending, by rw [hlist, hmade]; exact h.made,
    by rw [hphase, hlist, hmade]; exact h.copying, by rw [hphase, hlist, hmade]; exact h.draining, fun hi j => ?_,
    fun hp => ?_, fun j hj => ?_, fun hall => ?_⟩
  · rw [bank_setBank]
    split
    · exact hne.1
    · exact h.idle (hphase ▸ hi) j
  · obtain ⟨k, hk⟩ := h.filling (hphase ▸ hp)
    obtain ⟨hlastk, hfill, hother, hseq, hlen, hcopies, hdone, hzero⟩ := hk
    have hkid : id ≠ k := fun hid => hfrom (hid ▸ hfill)
    have hbank : (c.setBank id { c.bank id with state := st }).bank k = c.bank k := by simp [hkid]
    refine ⟨k, hlast.trans hlastk, ?_, ?_, ?_, ?_, ?_, ?_, ?_⟩ <;> simp only [hbank, hsequence, hlist, hmade]
    · exact hfill
    · rw [bank_setBank]
      split
      · exact hne.1
      · exact hother
    · exact hseq
    · exact hlen
    · exact hcopies
    · exact hdone
    · exact hzero
  · rw [bank_setBank] at hj ⊢
    rcases hto with ⟨rfl, hclosed⟩ | rfl
    · split at hj
      · next hid => subst hid; simpa using hclosed _
      · exact absurd hj (hclosed j)
    · split at hj
      · cases hj
      · split
        · exact nofun
        · exact h.oneOpen j hj
  · have := hall id
    rw [bank_setBank, if_pos rfl] at this
    exact absurd this hne.2

/-- The completion of a capture, from the bank it has filled (R91). -/
theorem unitSound_completedUnit {c : CaptureUnit} {id : BankId} (h : UnitSound c) (hf : FillingSound c id) :
    UnitSound (completedUnit c id) := by
  obtain ⟨hlast, hfill, hother, -⟩ := hf
  obtain ⟨-, -, hlist, hmade, -, hlast', -⟩ := setBank_frame c id { c.bank id with state := .complete }
  have hbank : ∀ j, (completedUnit c id).bank j = if id = j then { c.bank id with state := .complete } else c.bank j :=
    fun j => by cases id <;> cases j <;> rfl
  refine ⟨by rw [completedUnit, hlist]; exact h.ascending, by rw [completedUnit, hlist, hmade]; exact h.made, nofun,
    nofun, fun _ j => ?_, fun hp => absurd rfl hp, fun j hj => ?_, fun _ => ?_⟩
  · rw [hbank]
    split
    · exact nofun
    · next hid =>
      rcases eq_or_other id j with rfl | rfl
      · exact absurd rfl hid
      · exact hother
  · rw [hbank] at hj ⊢
    split at hj
    · cases hj
    · split
      · exact nofun
      · exact h.oneOpen j hj
  · rw [completedUnit, hlast', hlast]
    exact nofun

theorem filling_of_fillingSound {c : CaptureUnit} {id : BankId} (h : FillingSound c id) : Filling c id :=
  ⟨h.2.1, h.2.2.1⟩

theorem capture_completeCapture_of_filling {s : State} {id : BankId} (h : Filling s.capture id) :
    (completeCapture s).capture = completedUnit s.capture id := by
  simp only [completeCapture, fillingBank_of _ _ h]
  simp [completedUnit]

theorem engine_checkDrain (s : State) : (checkDrain s).engine = s.engine := by
  obtain ⟨C, q, -, h⟩ := checkDrain_frame s
  rw [h]

theorem captureSound_checkDrain {s : State} (h : CaptureSound s) : CaptureSound (checkDrain s) := by
  obtain ⟨hunit, hflight⟩ := (captureSound_iff s).1 h
  by_cases hd : s.capture.phase = .draining ∧ s.previousExists = false
  · obtain ⟨id, hid⟩ := hunit.filling (by simp [hd.1])
    rw [captureSound_iff, engine_checkDrain, checkDrain_of_drained hd.1 hd.2,
      capture_completeCapture_of_filling (filling_of_fillingSound hid)]
    exact ⟨unitSound_completedUnit hunit hid, flightCopies_of_not_copying hflight (by simp [hd.1]) _⟩
  · rwa [checkDrain, if_neg hd]

/-- The unit that takes a trigger in IDLE: an empty bank, and the list of the members (R79 to R82, R93). -/
theorem unitSound_triggered {s : State} (source : TriggerSource) (h : UnitSound s.capture)
    (hi : s.capture.phase = .idle) : UnitSound (s.triggered source) := by
  have hbank : ∀ j, (s.triggered source).bank j = if s.capture.choose = j then
      { state := .filling, header := s.triggerHeader source, copies := Vector.replicate 64 CopyRecord.zero }
      else s.capture.bank j := fun j => bank_with ..
  have hlist : (s.triggered source).list = s.members := rfl
  have hmade : (s.triggered source).copiesMade = 0 := rfl
  have hphase : (s.triggered source).phase = if s.members.isEmpty then .draining else .copying := rfl
  refine ⟨members_ascending s, Nat.zero_le _, fun hp => ?_, fun hp => ?_, fun hp => ?_, fun _ => ?_, fun j hj => ?_,
    fun hall => ?_⟩
  · rw [hphase] at hp
    split at hp
    · cases hp
    · next hne => simpa [hlist, hmade, List.length_pos_iff] using hne
  · rw [hphase] at hp
    split at hp
    · next hempty => exact (List.length_eq_zero_iff.2 (List.isEmpty_iff.1 hempty)).symm
    · cases hp
  · rw [hphase] at hp
    split at hp <;> cases hp
  · refine ⟨s.capture.choose, rfl, ?_, ?_, ?_, ?_, ?_, ?_, ?_⟩ <;> simp only [hbank, hlist, hmade]
    · simp
    · simpa using h.idle hi _
    · simp [State.triggerHeader, State.triggered]
    · simp [State.triggerHeader]
    · simp [State.triggerHeader]
    · exact fun p hp => absurd hp (Nat.not_lt_zero _)
    · exact fun p _ => by simp only [if_true, Vector.getElem_replicate]
  · rw [hbank] at hj ⊢
    split at hj
    · cases hj
    · split
      · exact nofun
      · exact h.oneOpen j hj
  · have hchosen := hall s.capture.choose
    rw [hbank, if_pos rfl] at hchosen
    cases hchosen

/-- The unit that takes the copy of the next list entry (R86, R89). -/
theorem unitSound_takeCopy {c : CaptureUnit} {e : Fin 64} {r : CopyRecord} (h : UnitSound c)
    (hcopying : c.phase = .copying) (hnext : c.list[c.copiesMade]? = some e) (hr : r.index = e) :
    UnitSound (c.takeCopy c.copiesMade r) := by
  obtain ⟨id, hf⟩ := h.filling (by simp [hcopying])
  obtain ⟨hlast, hfill, hother, hsequence, hlength, hmade, hdone, hzero⟩ := hf
  have hunit : c.takeCopy c.copiesMade r =
      { c.setBank id ((c.bank id).addCopy c.copiesMade r) with
        copiesMade := c.copiesMade + 1,
        phase := if c.copiesMade + 1 = c.list.length then .draining else c.phase } := by
    simp only [CaptureUnit.takeCopy, fillingBank_of c id ⟨hfill, hother⟩]
  obtain ⟨-, -, hlist', -, hsequence', hlast', -⟩ := setBank_frame c id ((c.bank id).addCopy c.copiesMade r)
  have hbank : ∀ j, (c.takeCopy c.copiesMade r).bank j =
      if id = j then (c.bank id).addCopy c.copiesMade r else c.bank j := by
    intro j
    rw [hunit]
    cases id <;> cases j <;> rfl
  have hlist : (c.takeCopy c.copiesMade r).list = c.list := by rw [hunit]; exact hlist'
  have hcount : (c.takeCopy c.copiesMade r).copiesMade = c.copiesMade + 1 := rfl
  have hphase : (c.takeCopy c.copiesMade r).phase =
      if c.copiesMade + 1 = c.list.length then .draining else c.phase := rfl
  have hroom := h.copying hcopying
  refine ⟨hlist ▸ h.ascending, by rw [hlist, hcount]; exact hroom, fun hp => ?_, fun hp => ?_, fun hp => ?_,
    fun _ => ⟨id, ?_, ?_, ?_, ?_, ?_, ?_, fun p hp => ?_, fun p hp => ?_⟩, fun j hj => ?_, fun hall => ?_⟩
  · rw [hphase] at hp
    split at hp
    · cases hp
    · rw [hlist, hcount]; omega
  · rw [hphase] at hp
    split at hp
    · next heq => rw [hlist, hcount]; exact heq
    · cases hcopying.symm.trans hp
  · rw [hphase] at hp
    split at hp
    · cases hp
    · cases hcopying.symm.trans hp
  · rw [hunit]; exact hlast'.trans hlast
  · rw [hbank, if_pos rfl]; exact hfill
  · rw [hbank, if_neg (ne_other id)]; exact hother
  · rw [hbank, if_pos rfl, hunit]; exact hsequence.trans hsequence'.symm
  · rw [hbank, if_pos rfl, hlist]; exact hlength
  · rw [hbank, if_pos rfl, hcount]; exact congrArg (· + 1) hmade
  · rw [hcount] at hp
    simp only [hbank, if_pos, hlist, Bank.addCopy, Vector.getElem_setIfInBounds]
    split
    · next heq => rw [← heq, hnext, hr]
    · exact hdone p (by omega)
  · rw [hcount] at hp
    simp only [hbank, if_pos, Bank.addCopy, Vector.getElem_setIfInBounds]
    rw [if_neg (by omega)]
    exact hzero p (by omega)
  · rw [hbank] at hj ⊢
    split at hj
    · have hst : ((c.bank id).addCopy c.copiesMade r).state = .filling := hfill
      cases hst.symm.trans hj
    · split
      · exact fun hst => by cases hfill.symm.trans hst
      · exact h.oneOpen j hj
  · have hid := hall id
    rw [hbank, if_pos rfl] at hid
    cases hfill.symm.trans hid

theorem captureSound_beginOperation {w : Work} {u : State} (h : UnitSound u.capture)
    (hw : ∀ p e, w = .copy p e →
      u.capture.phase = .copying ∧ p = u.capture.copiesMade ∧ u.capture.list[p]? = some e) :
    CaptureSound (beginOperation w u) := by
  obtain ⟨E, q, -, he⟩ := beginOperation_frame w u
  rw [captureSound_iff, he]
  refine ⟨h, ?_⟩
  rintro op p e ⟨⟩ hc
  exact hw p e hc

/-- An event that leaves the capture unit and ends the operation in flight. -/
theorem captureSound_of_free {s t : State} (h : UnitSound s.capture) (hc : t.capture = s.capture)
    (ho : t.engine.op = none) : CaptureSound t := by
  rw [captureSound_iff, hc, ho]
  exact ⟨h, flightCopies_none _⟩

theorem captureSound_copyCompletion {s : State} {op : Operation} {p : Nat} {e : Fin 64} (ho : s.engine.op = some op)
    (hw : op.work = .copy p e) (h : CaptureSound s) (d : Bool) :
    CaptureSound (checkDrain (release (s.setCapture (s.capture.takeCopy p (copyOf e (s.entry e) d))))) := by
  obtain ⟨hunit, hflight⟩ := (captureSound_iff s).1 h
  obtain ⟨hphase, rfl, hnext⟩ := hflight op p e ho hw
  have htaken : UnitSound (s.capture.takeCopy s.capture.copiesMade (copyOf e (s.entry e) d)) :=
    unitSound_takeCopy hunit hphase hnext rfl
  generalize s.capture.takeCopy s.capture.copiesMade (copyOf e (s.entry e) d) = c at htaken
  obtain ⟨E, he⟩ := release_exists (s.setCapture c)
  rw [he]
  exact captureSound_checkDrain (captureSound_of_free (s := s.setCapture c) htaken rfl rfl)

theorem captureSound_takeTrigger {s : State} (source : TriggerSource) (hi : s.capture.phase = .idle)
    (h : CaptureSound s) : CaptureSound (takeTrigger source s) := by
  obtain ⟨hunit, hflight⟩ := (captureSound_iff s).1 h
  rw [takeTrigger, offerOverwritten_eq]
  refine captureSound_checkDrain ((captureSound_iff _).2 ⟨unitSound_triggered source hunit hi, ?_⟩)
  exact flightCopies_of_not_copying hflight (by simp [hi]) _

theorem not_filling_of_openBank {c : CaptureUnit} {id : BankId} (h : c.openBank = some id) :
    (c.bank id).state ≠ .filling := by
  rw [bank_opened_of_openBank h]
  decide

theorem not_opened_of_openBank_none {c : CaptureUnit} (h : c.openBank = none) (id : BankId) :
    (c.bank id).state ≠ .opened := by
  unfold CaptureUnit.openBank at h
  split at h
  · cases h
  · split at h
    · cases h
    · next ha hb => cases id; exacts [ha, hb]

theorem complete_of_bankToOpen {c : CaptureUnit} {id : BankId} (h : c.bankToOpen = some id) :
    (c.bank id).state = .complete := by
  unfold CaptureUnit.bankToOpen at h
  split at h
  · next hboth =>
    cases id
    exacts [hboth.1, hboth.2]
  · split at h
    · next ha => cases h; exact ha
    · split at h
      · next hb => cases h; exact hb
      · cases h

/-- The COPY in flight looks at the phase, the list and the count of a unit, and not at its banks. -/
theorem captureSound_setBank {s : State} (h : CaptureSound s) {id : BankId} {bk : Bank}
    (hunit : UnitSound (s.capture.setBank id bk)) : CaptureSound (s.setCapture (s.capture.setBank id bk)) := by
  obtain ⟨-, hflight⟩ := (captureSound_iff s).1 h
  obtain ⟨-, hphase, hlist, hmade, -⟩ := setBank_frame s.capture id bk
  refine (captureSound_iff _).2 ⟨hunit, fun op p e ho hw => ?_⟩
  rw [setCapture_capture, hphase, hlist, hmade]
  exact hflight op p e ho hw

theorem captureSound_kept : KeptAlone CaptureSound where
  quiet hq _ h := by
    cases hq
    exact h
  waits s c _ _ _ h := h
  cancel s c _ _ h := h
  applyGrant s n g _ _ h :=
    captureSound_beginOperation (u := claimHead n (countHostWait s)) ((captureSound_iff s).1 h).1 nofun
  copyGrant s p e ha _ h := by
    refine captureSound_beginOperation (u := countHostWait s) ((captureSound_iff s).1 h).1 ?_
    rintro _ _ ⟨⟩
    obtain ⟨⟨hphase, hnext, -⟩, hp⟩ := copyEligible_of_arbiter ha
    exact ⟨hphase, hp, hp ▸ hnext⟩
  hostGrant s c _ _ h := captureSound_beginOperation (u := startHost c s) ((captureSound_iff s).1 h).1 nofun
  applyCompletion s op n g _ _ _ h := by
    obtain ⟨E, q, -, he⟩ := applied_frame n g op.foundDamaged s
    rw [he]
    exact captureSound_checkDrain (captureSound_of_free ((captureSound_iff s).1 h).1 rfl rfl)
  copyCompletion s op p e ho hw _ h := captureSound_copyCompletion ho hw h _
  hostCompletion s u op c r _ _ hl _ h := by
    obtain ⟨E, T, q, -, rfl⟩ := hl.touches
    obtain ⟨E', he⟩ := release_exists { s with table := { s.table with entries := E }, trips := T, notices := q }
    rw [he]
    exact captureSound_of_free ((captureSound_iff s).1 h).1 rfl rfl
  inputEdge n level s _ h := by
    obtain ⟨i, q, -, he⟩ := inputEdge_frame n level s
    rw [he]
    exact h
  lockout n s _ h := h
  takeTrigger source s hi _ h := captureSound_takeTrigger source hi h
  capLine s e l v _ h := by
    obtain ⟨hunit, hflight⟩ := (captureSound_iff s).1 h
    exact (captureSound_iff _).2 ⟨unitSound_capLine hunit e l v, hflight⟩
  openBank s id ho hb _ h := by
    refine captureSound_setBank h (unitSound_setState ((captureSound_iff s).1 h).1 ?_ (.inl ⟨rfl, ?_⟩))
    · rw [complete_of_bankToOpen hb]
      decide
    · exact not_opened_of_openBank_none ho
  closeBank s id ho _ h :=
    captureSound_setBank h
      (unitSound_setState ((captureSound_iff s).1 h).1 (not_filling_of_openBank ho) (.inr rfl))
  resetInput n s _ h := captureSound_checkDrain (s := s.setInput n (emptied (s.input n))) h
  rawValue e digits s _ _ h := by
    unfold commitRaw
    split <;> exact h
  member e flag s _ h := h
  config n bytes s _ h := by
    rcases commitConfig_cases n bytes s with he | ⟨i, -, he⟩ <;> rw [he] <;> exact h
  supply s p _ _ h := h
  enterWarm cause s hr _ h := by
    rw [enterWarm_of_running hr, captureSound_iff]
    exact ⟨unitSound_afterReset .., flightCopies_none _⟩
  enterCold s _ _ := (captureSound_iff _).2 ⟨unitSound_afterReset .., flightCopies_none _⟩

/-! ### The contents of an OPEN bank (R92) -/

/-- Every OPEN bank stays as it is. -/
def OpenKept (c c' : CaptureUnit) : Prop := ∀ id, (c.bank id).state = .opened → c'.bank id = c.bank id

/-- Every OPEN bank stays OPEN or becomes FREE, with its contents. -/
def OpenLeft (c c' : CaptureUnit) : Prop :=
  ∀ id, (c.bank id).state = .opened →
    ((c'.bank id).state = .opened ∨ (c'.bank id).state = .free) ∧ (c'.bank id).header = (c.bank id).header ∧
      (c'.bank id).copies = (c.bank id).copies

theorem OpenKept.left {c c' : CaptureUnit} (h : OpenKept c c') : OpenLeft c c' := fun id hid => by
  rw [h id hid]
  exact ⟨.inl hid, rfl, rfl⟩

theorem OpenKept.refl (c : CaptureUnit) : OpenKept c c := fun _ _ => rfl

theorem OpenKept.trans {a b c : CaptureUnit} (h : OpenKept a b) (h' : OpenKept b c) : OpenKept a c := fun id hid =>
  (h' id (by rwa [h id hid])).trans (h id hid)

theorem openKept_capLine (c : CaptureUnit) (enable lockout level : Bool) :
    OpenKept c { c with capEnable := enable, capLockout := lockout, capLevel := level } := fun _ _ => rfl

theorem openKept_checkDrain {s : State} {c : CaptureUnit} (hc : s.capture = c) (h : UnitSound c) :
    OpenKept c (checkDrain s).capture := by
  subst hc
  by_cases hd : s.capture.phase = .draining ∧ s.previousExists = false
  · obtain ⟨id, hid⟩ := h.filling (by simp [hd.1])
    rw [checkDrain_of_drained hd.1 hd.2, capture_completeCapture_of_filling (filling_of_fillingSound hid)]
    intro j hj
    have hne : id ≠ j := by
      rintro rfl
      cases hid.2.1.symm.trans hj
    exact (bank_setBank s.capture id j _).trans (if_neg hne)
  · rw [checkDrain, if_neg hd]
    exact .refl _

/-- A bank that a trigger chooses is FREE or COMPLETE (R93). -/
theorem choose_not_opened {c : CaptureUnit} (h : UnitSound c) (hi : c.phase = .idle) :
    (c.bank c.choose).state ≠ .opened := by
  have hready : BanksReady c :=
    ⟨h.idle hi .a, h.idle hi .b, (oneOpen_iff c).1 h.oneOpen,
      fun ha hb => h.ordered fun id => by cases id; exacts [ha, hb]⟩
  obtain ⟨hA, hB, hold⟩ := choose_chosen c hready
  intro hopen
  by_cases ha : c.bankA.state = .free
  · rw [hA ha] at hopen
    cases ha.symm.trans hopen
  · by_cases hb : c.bankB.state = .free
    · rw [hB ha hb] at hopen
      cases hb.symm.trans hopen
    · cases (hold ha hb).1.symm.trans hopen

theorem openKept_takeTrigger {s : State} (source : TriggerSource) (h : UnitSound s.capture)
    (hi : s.capture.phase = .idle) : OpenKept s.capture (takeTrigger source s).capture := by
  have hturned : OpenKept s.capture (s.triggered source) := fun j hj => by
    have hne : s.capture.choose ≠ j := by
      rintro rfl
      exact choose_not_opened h hi hj
    exact (bank_with ..).trans (if_neg hne)
  have hdrain := openKept_checkDrain (s := (offerOverwritten s.capture.choose s).setCapture (s.triggered source))
    rfl (unitSound_triggered source h hi)
  exact hturned.trans hdrain

theorem openKept_trigger {s : State} {c : CaptureUnit} (source : TriggerSource) (hc : s.capture = c)
    (h : UnitSound c) : OpenKept c (trigger source s).capture := by
  subst hc
  unfold trigger
  split
  · next hi => exact openKept_takeTrigger source h hi
  · simp [OpenKept]

theorem openKept_capEdge {s : State} (level : Bool) (h : UnitSound s.capture) :
    OpenKept s.capture (capEdge level s).capture := by
  have hline := openKept_capLine s.capture s.capture.capEnable
  unfold capEdge
  split
  · exact .refl _
  · simp only
    split
    · rcases whenRunning_cases capRise (s.setCapture { s.capture with capLevel := level }) with ⟨-, he⟩ | ⟨-, he⟩ <;>
        rw [he]
      · unfold capRise
        split
        · have hunit := unitSound_capLine h s.capture.capEnable true level
          exact (hline true level).trans (openKept_trigger .line rfl hunit)
        · exact hline s.capture.capLockout level
      · exact hline s.capture.capLockout level
    · exact hline s.capture.capLockout level

theorem openKept_minuteExpiry {s : State} (h : UnitSound s.capture) :
    OpenKept s.capture (minuteExpiry s).capture := by
  unfold minuteExpiry
  simp only
  split
  · next p _ =>
    split
    · simp only [switchTo, setBin_eq]
      split
      · exact whenRunning_keeps (P := fun t => OpenKept s.capture t.capture) (OpenKept.refl _) fun _ =>
          openKept_trigger .schedule rfl h
      · exact .refl _
    · exact .refl _
  · exact .refl _

theorem openKept_secondExpiry {s : State} (h : UnitSound s.capture) :
    OpenKept s.capture (secondExpiry s).capture := by
  unfold secondExpiry
  split
  · exact .refl _
  · exact openKept_minuteExpiry h

theorem openKept_timebaseEdge {s : State} (h : UnitSound s.capture) :
    OpenKept s.capture (timebaseEdge s).capture := by
  unfold timebaseEdge
  split
  · exact .refl _
  · exact openKept_secondExpiry h

theorem openKept_completeApply {s : State} (h : UnitSound s.capture) :
    OpenKept s.capture (completeApply s).capture := by
  unfold completeApply
  split
  · next op _ =>
    split
    · next n g _ =>
      obtain ⟨E, q, -, he⟩ := applied_frame n g op.foundDamaged s
      rw [he]
      exact openKept_checkDrain rfl h
    · exact .refl _
  · exact .refl _

theorem openKept_completeCopy {s : State} (h : CaptureSound s) : OpenKept s.capture (completeCopy s).capture := by
  obtain ⟨hunit, hflight⟩ := (captureSound_iff s).1 h
  unfold completeCopy
  split
  · next op ho =>
    split
    · next p e hw =>
      obtain ⟨hphase, rfl, hnext⟩ := hflight op p e ho hw
      obtain ⟨id, hid⟩ := hunit.filling (by simp [hphase])
      have htaken := unitSound_takeCopy hunit hphase hnext (r := copyOf e (s.entry e) op.foundDamaged) rfl
      have hkept : OpenKept s.capture
          (s.capture.takeCopy s.capture.copiesMade (copyOf e (s.entry e) op.foundDamaged)) := by
        intro j hj
        have hne : id ≠ j := by
          rintro rfl
          cases hid.2.1.symm.trans hj
        simp only [CaptureUnit.takeCopy, fillingBank_of _ _ (filling_of_fillingSound hid)]
        exact (bank_setBank s.capture id j _).trans (if_neg hne)
      generalize s.capture.takeCopy s.capture.copiesMade (copyOf e (s.entry e) op.foundDamaged) = c at htaken hkept
      obtain ⟨E, he⟩ := release_exists (s.setCapture c)
      rw [he]
      exact hkept.trans (openKept_checkDrain rfl htaken)
    · exact .refl _
  · exact .refl _

theorem openLeft_handOn {s : State} (c : Command) (h : UnitSound s.capture) :
    OpenLeft s.capture (handOn c s).capture := by
  cases c with
  | engine c => exact (OpenKept.refl _).left
  | capture =>
    simp only [handOn, captureCommand]
    split
    · next hi => exact (openKept_takeTrigger .host h hi).left
    · exact (OpenKept.refl _).left
  | openBank =>
    simp only [handOn, openBankCommand]
    split
    · exact (OpenKept.refl _).left
    · next ho =>
      intro id hid
      exact absurd hid (not_opened_of_openBank_none ho id)
  | closeBank =>
    simp only [handOn, closeBankCommand]
    split
    · exact (OpenKept.refl _).left
    · next id ho =>
      intro j hj
      simp only [endCommand, setCapture_capture, bank_setBank]
      split
      · next hid => subst hid; exact ⟨.inr rfl, rfl, rfl⟩
      · exact ⟨.inl hj, rfl, rfl⟩
  | setTariff b =>
    simp only [handOn, setBin_eq]
    exact (OpenKept.refl _).left
  | setTime day minute second =>
    have hq := quiet_setTimeCommand day minute second s
    simp only [handOn]
    generalize setTimeCommand day minute second s = t at hq
    cases hq
    exact (OpenKept.refl _).left
  | resetInput n => exact (openKept_checkDrain (s := s.setInput n (emptied (s.input n))) rfl h).left

theorem openLeft_writeCode {s : State} (code : Byte) (h : UnitSound s.capture) :
    OpenLeft s.capture (writeCode code s).capture := by
  rcases writeCode_cases code s with ⟨-, he⟩ | ⟨-, r, he⟩ | ⟨-, c, -, he⟩ <;> rw [he]
  · exact (OpenKept.refl _).left
  · exact (OpenKept.refl _).left
  · exact openLeft_handOn (s := beginTaking code s) c h

/-- While the part runs on, what a command does to an OPEN bank is at most to free it. -/
theorem openLeft_of_runs {c : Instr} {s t : State} (hrun : Runs c s t) (h : CaptureSound s) (hr : t.Running) :
    OpenLeft s.capture t.capture := by
  have hunit := ((captureSound_iff s).1 h).1
  have same : ∀ {u : State}, u.capture = s.capture → OpenLeft s.capture u.capture := fun hu => by
    rw [hu]
    exact (OpenKept.refl _).left
  have quietly : ∀ {u : State}, Quiet s u → OpenLeft s.capture u.capture := fun hq => by
    cases hq
    exact same rfl
  cases hrun
  case code v _ => exact openLeft_writeCode v hunit
  case cancel => unfold writeCancel; split <;> exact same rfl
  case applyGrant => rcases grantApply_cases s with he | ⟨_, _, _, _, -, -, he⟩ <;> exact same (by rw [he])
  case copyGrant => rcases grantCopy_cases s with he | ⟨_, _, _, _, -, -, he⟩ <;> exact same (by rw [he])
  case hostGrant => rcases grantHost_cases s with he | ⟨_, _, _, -, -, he⟩ <;> exact same (by rw [he])
  case applyCompletion => exact (openKept_completeApply hunit).left
  case copyCompletion => exact (openKept_completeCopy h).left
  case hostCompletion he _ =>
    rcases completeHost_cases _ s with hsame | ⟨op, c, r, -, -, hr, hdone⟩
    · exact same (by rw [hsame])
    · obtain ⟨E, T, q, -, hu⟩ := he.touches hr
      exact same (by rw [hdone, endCommand_eq, (release_frame r.2).2.2.2.2.2.1, hu])
  case inputEdge n level => obtain ⟨i, q, -, he⟩ := inputEdge_frame n level s; exact same (by rw [he]; rfl)
  case capEdge level => exact (openKept_capEdge level hunit).left
  case timebaseEdge => exact (openKept_timebaseEdge hunit).left
  case secondExpiry => exact (openKept_secondExpiry hunit).left
  case minuteExpiry => exact (openKept_minuteExpiry hunit).left
  case capLockoutExpiry | capEnable => exact (openKept_capLine s.capture _ _ _).left
  case enable => exact quietly (quiet_enableSchedule s)
  case readData => exact quietly (quiet_readData s)
  case writeData v _ _ => obtain ⟨D, I, T, w, he⟩ := writeData_frame v s; exact same (by rw [he])
  case warmReset cause =>
    have hheld : s.supply.hold.warmed = .running := hr
    cases hs : s.supply.hold <;> rw [hs] at hheld <;> cases hheld
  case coldReset => cases hr
  case coldResetEnd => unfold endCold; split <;> exact same rfl
  case nothing | lockoutExpiry | pop | intStatus | intEnable | operand | disable | readDayHigh | heldRead | winStatus |
      space | index | offset | warmResetEnd => exact same rfl

/-- Settles O58: the epoch order and the capture unit are kept alone, and no command writes an OPEN bank but CLOSE_BANK,
which keeps its contents. -/
theorem stepKeepsTheCapturePromises : Obligations.StepKeepsTheCapturePromises := by
  refine ⟨epochSound_kept.kept, captureSound_kept.kept, fun s t id hs ht hid hr => ?_⟩
  unfold step at ht
  split at ht
  · cases ht
    exact ⟨.inl hid, rfl, rfl⟩
  · exact openLeft_of_runs (runs_of_exec ht) hs hr id hid

end Sys2Proof.Machine

/-! ## The machine as a whole, the state after reset, and the codes -/

namespace Sys2Proof.Machine

open Sys2Proof.Safety

/-- No command reaches the queue of the commands that wait behind it. -/
theorem pending_of_runs {c : Instr} {s t : State} (hrun : Runs c s t) : t.pending = s.pending := by
  cases hrun
  case code v _ => obtain ⟨_, _, _, _, _, -, he⟩ := writeCode_frame v s; rw [he]
  case cancel => obtain ⟨_, _, he⟩ := writeCancel_frame s; rw [he]
  case applyGrant => rcases grantApply_cases s with he | ⟨_, _, _, _, -, -, he⟩ <;> rw [he]
  case copyGrant => rcases grantCopy_cases s with he | ⟨_, _, _, _, -, -, he⟩ <;> rw [he]
  case hostGrant => rcases grantHost_cases s with he | ⟨_, _, _, -, -, he⟩ <;> rw [he]
  case applyCompletion => rcases completeApply_frame s with he | ⟨_, _, _, _, _, _, -, -, -, he⟩ <;> rw [he]
  case copyCompletion => rcases completeCopy_frame s with he | ⟨_, _, _, _, _, _, -, -, -, he⟩ <;> rw [he]
  case hostCompletion he _ =>
    rcases completeHost_cases _ s with hsame | ⟨op, c, r, -, -, hr, hdone⟩
    · rw [hsame]
    · obtain ⟨E, T, q, -, hu⟩ := he.touches hr
      obtain ⟨E', hrel⟩ := release_exists r.2
      rw [hdone, endCommand_eq, hrel, hu]
  case inputEdge n level => obtain ⟨_, _, -, he⟩ := inputEdge_frame n level s; rw [he]; rfl
  case capEdge level => obtain ⟨_, _, -, he⟩ := capEdge_frame level s; rw [he]
  case timebaseEdge =>
    unfold timebaseEdge secondExpiry
    obtain ⟨_, _, _, -, he⟩ := minuteExpiry_frame s
    rw [he]
    split
    · rfl
    · split <;> rfl
  case secondExpiry =>
    unfold secondExpiry
    obtain ⟨_, _, _, -, he⟩ := minuteExpiry_frame s
    rw [he]
    split <;> rfl
  case minuteExpiry => obtain ⟨_, _, _, -, he⟩ := minuteExpiry_frame s; rw [he]
  case enable =>
    rcases enableSchedule_frame s with he | ⟨-, he⟩ | ⟨-, _, _, -, he⟩ <;> rw [he]
  case readData => obtain ⟨_, he⟩ := readData_frame s; rw [he]
  case writeData v _ _ => obtain ⟨_, _, _, _, he⟩ := writeData_frame v s; rw [he]
  case warmReset cause =>
    rcases whenRunning_cases clearMain s with ⟨-, he⟩ | ⟨-, he⟩ <;> simp [enterWarm, he, clearMain]
  case coldResetEnd => unfold endCold; split <;> rfl
  case nothing | lockoutExpiry | capLockoutExpiry | pop | intStatus | intEnable | capEnable | operand | disable |
      readDayHigh | heldRead | winStatus | space | index | offset | warmResetEnd | coldReset => rfl

/-- Settles O1: `after` is the state every command answers, and what it runs leaves the queue. -/
theorem everyCommandAnswersNext : Obligations.EveryCommandAnswersNext := fun c s =>
  ⟨after c s, exec_eq_after c s, pending_of_runs (runs_after c s)⟩

/-- Settles O2: the two branches of a step. -/
theorem stepRunsTheFrontCommand : Obligations.StepRunsTheFrontCommand :=
  ⟨fun _ _ _ => rfl, fun s h => by simp [step, h]⟩

/-! ### Reset (R21, R44, R71, R100, R119, R137, R160, R172, R176) -/

theorem entry_reset (e : Fin 64) : State.reset.entry e = Entry.cold := Vector.getElem_replicate _

theorem input_reset (n : Fin 16) : State.reset.input n = Input.afterReset InputConfig.cold false :=
  Vector.getElem_replicate _

theorem trip_reset (k : Fin 8) : State.reset.trip k = TripCounter.cold := Vector.getElem_replicate _

theorem bank_afterReset (sequence : BitVec 16) (level : Bool) (id : BankId) :
    (CaptureUnit.afterReset sequence level).bank id = Bank.afterReset := by cases id <;> rfl

/-- The blocks of a cold reset, from the records they are made of. -/
theorem coldValues_of {s : State} (htable : s.table = Table.cold)
    (hinputs : ∀ n, s.input n = Input.afterReset InputConfig.cold (s.input n).level)
    (hengine : s.engine = Engine.afterReset) (htrips : s.trips = Vector.replicate 8 TripCounter.cold)
    (hcapture : s.capture = CaptureUnit.afterReset 0 s.capture.capLevel) (htariff : s.tariff = Tariff.cold)
    (hslot : s.slot = Slot.afterReset) (hnotices : s.notices = Notices.afterReset)
    (hwindow : s.window = Window.afterReset) : ColdValues s where
  entries e := by
    rw [State.entry, htable]
    exact Vector.getElem_replicate _
  claims := by
    rw [htable]
    exact ⟨rfl, rfl⟩
  inputs := hinputs
  engine := hengine
  trips k := by
    rw [State.trip, htrips]
    exact Vector.getElem_replicate _
  capture := by
    rw [hcapture]
    exact ⟨rfl, rfl, rfl, rfl, rfl, rfl, rfl, rfl, bank_afterReset _ _⟩
  tariff := htariff
  slot := hslot
  notices := hnotices
  window := hwindow

/-- Settles O3: `State.reset` is made of the cold records. -/
theorem resetHoldsTheColdValues : Obligations.ResetHoldsTheColdValues := by
  have hinputs : ∀ n, State.reset.input n = Input.afterReset InputConfig.cold (State.reset.input n).level := by
    intro n
    rw [input_reset]
    rfl
  refine ⟨coldValues_of rfl hinputs rfl rfl rfl rfl rfl rfl rfl, rfl, fun n => ?_, rfl, rfl⟩
  rw [input_reset]
  rfl

/-- Settles O4: each promise at the cold values. -/
theorem resetMeetsEveryPromise : Obligations.ResetMeetsEveryPromise := by
  refine ⟨noticesBounded_afterReset, tariffSound_cold, ⟨Nat.zero_le _, fun _ => rfl⟩, ⟨fun n => ?_, nofun, ?_⟩,
    fun e => ?_, ⟨rfl, rfl, fun n => ?_, nofun⟩, ?_, ?_, ⟨fun k => ?_, slotArms_idle, nofun⟩,
    windowSound_afterReset, fun _ => ⟨rfl, rfl⟩, .inl rfl⟩
  · rw [input_reset]
    exact inputSound_afterReset (by simp [InputConfig.cold]) _
  · intro e a ha
    rw [entry_reset] at ha
    cases ha
  · rw [entry_reset]
    decide
  · rw [input_reset]
    rfl
  · exact epochSound_of_empty rfl (fun n => by rw [input_reset]; rfl) rfl
  · exact (captureSound_iff _).2 ⟨unitSound_afterReset .., flightCopies_none _⟩
  · rw [trip_reset]
    exact ⟨by decide, by decide, by decide, trivial⟩

/-! ### Codes (R175, R186 to R189) -/

theorem decodeCommand_encodeCommand (name : CommandName) : decodeCommand (encodeCommand name) = some name := by
  cases name <;> rfl

theorem eq_encodeCommand_of_decode {code : Byte} {name : CommandName} (h : decodeCommand code = some name) :
    code = encodeCommand name := by
  unfold decodeCommand at h
  split at h <;> cases h <;> exact BitVec.eq_of_toNat_eq ‹_›

theorem fieldCodes : FieldCodes where
  result := by decide
  notice := by decide
  operation := by decide
  slot := ⟨rfl, fun _ => rfl, fun _ => rfl⟩
  bankState := by decide
  bank := by decide
  source := by decide
  trip := by decide
  input := by decide
  config := by decide

/-- Settles O5: the codes are read off their tables, and decoding reads the same table backwards. -/
theorem commandCodesNameTheCommands : Obligations.CommandCodesNameTheCommands :=
  ⟨decodeCommand_encodeCommand, fun _ _ => eq_encodeCommand_of_decode, rfl, rfl, rfl, rfl, rfl, rfl, rfl, rfl, rfl, rfl,
    rfl, rfl, rfl, rfl, fieldCodes⟩

end Sys2Proof.Machine

/-! ## The command slot (R141 to R148) -/

namespace Sys2Proof.Machine

open Sys2Proof.Safety

/-- The row that writes a command's code. -/
def rowOf : CommandName → Instr
  | .preset => .preset
  | .add => .add
  | .subtract => .subtract
  | .transfer => .transfer
  | .repair => .repair
  | .clearFlags => .clearFlags
  | .armTrip => .armTrip
  | .disarmTrip => .disarmTrip
  | .capture => .capture
  | .openBank => .openBank
  | .closeBank => .closeBank
  | .setTariff => .setTariff
  | .setTime => .setTime
  | .resetInput => .resetInput

theorem exec_rowOf (name : CommandName) (s : State) :
    exec (rowOf name) s = codeCommand (encodeCommand name) s := by
  cases name <;> rfl

/-- Every row that writes a code writes the code beside it. -/
theorem exec_of_mem_codeRows {p : Instr × Byte} (h : p ∈ codeRows) (s : State) : exec p.1 s = codeCommand p.2 s := by
  simp only [codeRows, List.mem_cons, List.not_mem_nil, or_false] at h
  rcases h with rfl | rfl | rfl | rfl | rfl | rfl | rfl | rfl | rfl | rfl | rfl | rfl | rfl | rfl <;> rfl

theorem codeCommand_of_busy {s : State} (hr : s.Running) (h : s.slot.state ≠ .idle) (code : Byte) :
    codeCommand code s = .next { s with slot := { s.slot with refusedBusy := true } } := by
  rcases writeCode_cases code s with ⟨-, he⟩ | ⟨hi, -⟩ | ⟨hi, -⟩
  · rw [codeCommand, whenRunning_of_running hr, he]
  · exact absurd hi h
  · exact absurd hi h

/-- Settles O12: whichever the row, a code written to a busy slot meets the same refusal. -/
theorem codeRefusedWhileBusy : Obligations.CodeRefusedWhileBusy := fun s hr h =>
  ⟨fun _ hp => (exec_of_mem_codeRows hp s).trans (codeCommand_of_busy hr h _), fun code =>
    codeCommand_of_busy hr h code⟩

/-- Settles O14: without a WAITING command, CANCEL is late. -/
theorem cancelIsLateOtherwise : Obligations.CancelIsLateOtherwise := by
  intro s v hr hw
  rw [exec_cancel_of_running hr, writeCancel]
  split
  · next c h => exact absurd h (hw c)
  · rfl

variable {s : State} {name : CommandName}

/-- A command of an IDLE slot that passes validation is handed on (R141). -/
theorem exec_taken (hr : s.Running) (hi : s.slot.state = .idle) {c : Command}
    (h : validateOperands name s.slot.operands = .ok c) :
    exec (rowOf name) s = .next (handOn c (beginTaking (encodeCommand name) s)) := by
  rw [exec_rowOf]
  exact codeCommand_of_ok hr hi ((validate_encodeCommand name _).trans h)

/-- An engine command that passes validation waits (R141). -/
theorem exec_waits (hr : s.Running) (hi : s.slot.state = .idle) {c : EngineCommand}
    (h : validateOperands name s.slot.operands = .ok (.engine c)) :
    exec (rowOf name) s = .next { s with slot := waitingSlot (encodeCommand name) c s.slot } :=
  exec_taken hr hi h

/-- A command that fails validation ends with the failing check (R142). -/
theorem exec_ends (hr : s.Running) (hi : s.slot.state = .idle) {r : Result}
    (h : validateOperands name s.slot.operands = .error r) :
    exec (rowOf name) s = .next { s with slot := endedSlot (encodeCommand name) r s.slot } := by
  rw [exec_rowOf]
  exact codeCommand_of_error hr hi ((validate_encodeCommand name _).trans h)

/-! ### The checks, operand by operand (R105, R142, R189) -/

theorem checkIndex_of_eq {limit : Nat} {b : Byte} {i : Fin limit} (h : b.toNat = i.val) (k : Fin limit → Validation) :
    checkIndex limit b k = k i := by
  rw [checkIndex_of_lt (h ▸ i.isLt)]
  congr 1
  exact Fin.ext h

theorem checkOperand_of_true {good : Bool} (h : good = true) (c : Command) : checkOperand good c = .ok c := by
  rw [h]
  rfl

theorem checkOperand_of_false {good : Bool} (h : good = false) (c : Command) :
    checkOperand good c = .error .badOperand := by
  rw [h]
  rfl

theorem foldOf_of_zero {b : Byte} (h : b.toNat = 0) : foldOf b = some false := by simp [foldOf, h]

theorem foldOf_of_one {b : Byte} (h : b.toNat = 1) : foldOf b = some true := by simp [foldOf, h]

theorem foldOf_of_le {b : Byte} (h : 2 ≤ b.toNat) : foldOf b = none := by
  unfold foldOf
  split
  · omega
  · omega
  · rfl

variable {ops : Vector Byte 9}

theorem validateOperands_repair_of_fold {e : Fin 64} {fold : Bool} (he : ops[0].toNat = e.val)
    (hd : Decimal (operandDigits ops 1 12)) (hf : foldOf ops[7] = some fold) :
    validateOperands .repair ops = .ok (.engine (.repair e (decimalValue (operandDigits ops 1 12)) fold)) := by
  simp only [validateOperands, checkIndex_of_eq he, checkDigits_of_decimal hd, hf]

theorem validateOperands_repair_of_no_fold {e : Fin 64} (he : ops[0].toNat = e.val)
    (hd : Decimal (operandDigits ops 1 12)) (hf : foldOf ops[7] = none) :
    validateOperands .repair ops = .error .badOperand := by
  simp only [validateOperands, checkIndex_of_eq he, checkDigits_of_decimal hd, hf]

theorem validateOperands_transfer {e f : Fin 64} (he : ops[0].toNat = e.val) (hf : ops[1].toNat = f.val) :
    validateOperands .transfer ops = checkOperand (e != f) (.engine (.transfer e f)) := by
  simp only [validateOperands, checkIndex_of_eq he, checkIndex_of_eq hf]

theorem validateOperands_armTrip {k : Fin 8} (hk : ops[0].toNat = k.val) (hp : Decimal (operandDigits ops 1 8))
    (hw : Decimal (operandDigits ops 5 8)) :
    validateOperands .armTrip ops =
      checkOperand (armOperandsGood (decimalValue (operandDigits ops 1 8)) (decimalValue (operandDigits ops 5 8)))
        (.engine (.armTrip k (decimalValue (operandDigits ops 1 8)) (decimalValue (operandDigits ops 5 8)))) := by
  simp only [validateOperands, checkIndex_of_eq hk, checkDigits_of_decimal hp, checkDigits_of_decimal hw]

end Sys2Proof.Machine

namespace Sys2Proof.Machine

open Sys2Proof.Safety

/-- Settles O9: the operands pass the checks of each table command, so it waits. -/
theorem tableCommandsWait : Obligations.TableCommandsWait := by
  intro s e f hr hi he
  refine ⟨fun hd => ⟨?_, ?_, ?_, fun hfold => ?_, fun hfold => ?_⟩, fun hf hne => ?_, ?_⟩
  · refine exec_waits (name := .preset) hr hi ?_
    simp only [validateOperands, checkIndex_of_eq he, checkDigits_of_decimal hd]
  · refine exec_waits (name := .add) hr hi ?_
    simp only [validateOperands, checkIndex_of_eq he, checkDigits_of_decimal hd]
  · refine exec_waits (name := .subtract) hr hi ?_
    simp only [validateOperands, checkIndex_of_eq he, checkDigits_of_decimal hd]
  · refine exec_waits (name := .repair) hr hi ?_
    exact validateOperands_repair_of_fold he hd (foldOf_of_zero hfold)
  · refine exec_waits (name := .repair) hr hi ?_
    exact validateOperands_repair_of_fold he hd (foldOf_of_one hfold)
  · refine exec_waits (name := .transfer) hr hi ?_
    rw [validateOperands_transfer he hf, checkOperand_of_true (by simpa using hne)]
  · refine exec_waits (name := .clearFlags) hr hi ?_
    simp only [validateOperands, checkIndex_of_eq he]

/-- Settles O10: the operands pass the checks of each trip command, so it waits. -/
theorem tripCommandsWait : Obligations.TripCommandsWait := by
  intro s k hr hi hk
  refine ⟨fun hp hw hpreset hlevel => exec_waits (name := .armTrip) hr hi ?_,
    exec_waits (name := .disarmTrip) hr hi ?_⟩
  · rw [validateOperands_armTrip hk hp hw, checkOperand_of_true (by simp only [armOperandsGood]; simp [hpreset, hlevel])]
  · simp only [validateOperands, checkIndex_of_eq hk]

/-- Settles O11: the first failing check of each command gives its result. -/
theorem validationRefusesByTheFirstCheck : Obligations.ValidationRefusesByTheFirstCheck := by
  intro s hr hi
  refine ⟨fun code hcode => ?_, fun h => ?_, fun h => ?_, fun h => ?_, fun h => ?_, fun h hd => ?_, fun h hd => ?_,
    fun h heq => ?_, fun h hd hfold => ?_, fun h hp hw hbad => ?_, fun h => ?_, fun h => ?_⟩
  · exact codeCommand_of_error hr hi (validate_of_undefined hcode _)
  · refine ⟨exec_ends (name := .preset) hr hi ?_, exec_ends (name := .add) hr hi ?_,
      exec_ends (name := .subtract) hr hi ?_, exec_ends (name := .repair) hr hi ?_,
      exec_ends (name := .clearFlags) hr hi ?_⟩ <;>
      simp only [validateOperands, checkIndex_of_le h]
  · refine exec_ends (name := .transfer) hr hi ?_
    by_cases h0 : 64 ≤ s.slot.operands[0].toNat
    · simp only [validateOperands, checkIndex_of_le h0]
    · simp only [validateOperands, checkIndex_of_lt (Nat.not_le.1 h0), checkIndex_of_le (h.resolve_left h0)]
  · refine ⟨exec_ends (name := .armTrip) hr hi ?_, exec_ends (name := .disarmTrip) hr hi ?_⟩ <;>
      simp only [validateOperands, checkIndex_of_le h]
  · refine exec_ends (name := .resetInput) hr hi ?_
    simp only [validateOperands, checkIndex_of_le h]
  · refine ⟨exec_ends (name := .preset) hr hi ?_, exec_ends (name := .add) hr hi ?_,
      exec_ends (name := .subtract) hr hi ?_, exec_ends (name := .repair) hr hi ?_⟩ <;>
      simp only [validateOperands, checkIndex_of_lt h, checkDigits_of_not_decimal hd]
  · refine exec_ends (name := .armTrip) hr hi ?_
    by_cases hp : Decimal (operandDigits s.slot.operands 1 8)
    · simp only [validateOperands, checkIndex_of_lt h, checkDigits_of_decimal hp,
        checkDigits_of_not_decimal fun hw => hd ⟨hp, hw⟩]
    · simp only [validateOperands, checkIndex_of_lt h, checkDigits_of_not_decimal hp]
  · refine exec_ends (name := .transfer) hr hi ?_
    rw [validateOperands_transfer (e := ⟨_, h⟩) (f := ⟨_, h⟩) rfl heq, checkOperand_of_false (by simp)]
  · refine exec_ends (name := .repair) hr hi ?_
    exact validateOperands_repair_of_no_fold (e := ⟨_, h⟩) rfl hd (foldOf_of_le hfold)
  · refine exec_ends (name := .armTrip) hr hi ?_
    rw [validateOperands_armTrip (k := ⟨_, h⟩) rfl hp hw, checkOperand_of_false]
    simp only [armOperandsGood, decide_eq_false_iff_not]
    omega
  · refine exec_ends (name := .setTariff) hr hi ?_
    exact dif_neg (Nat.not_lt.2 h)
  · refine exec_ends (name := .setTime) hr hi ?_
    refine checkOperand_of_false ?_ _
    simp only [wordOf_toNat, Config.minutesPerDay, Config.secondsPerMinute, decide_eq_false_iff_not]
    omega

end Sys2Proof.Machine

/-! ## Commands taken at once (R75 to R96, R131 to R134, R157) -/

namespace Sys2Proof.Machine

open Sys2Proof.Safety

/-! ### CAPTURE and the CAP line (R75, R76, R83) -/

theorem exec_capture {s : State} (hr : s.Running) (hi : s.slot.state = .idle) :
    exec .capture s = .next (handOn .capture (beginTaking 0x20 s)) := exec_taken (name := .capture) hr hi rfl

/-- Settles O15: CAPTURE in IDLE takes its trigger on the slot already marked, and the slot then ends. -/
theorem captureCommandTakesTheTrigger : Obligations.CaptureCommandTakesTheTrigger := by
  intro s hr hi hphase hbanks hone
  obtain ⟨t, id, htaken, hspec, heq, henable, hlockout, hlevel⟩ :=
    takeTrigger_spec (beginTaking 0x20 s) .host hr hbanks hone
  have hexec : exec .capture s = .next (endCommand .ok t) := by
    rw [exec_capture hr hi, handOn, captureCommand, if_pos (by exact hphase), htaken]
  rw [heq] at hexec hspec
  exact ⟨_, id, hexec, ⟨hspec.chosen, hspec.epoch, hspec.sequence, hspec.members, hspec.ascending, hspec.copiesMade,
    hspec.header, hspec.copies, hspec.otherBank, hspec.copying, hspec.draining, hspec.ended⟩, rfl, henable, hlockout,
    hlevel, rfl, rfl, rfl, rfl, rfl, rfl, rfl, rfl⟩

/-- An enabled rise on CAP outside its lockout in a running part (R76). -/
theorem exec_capEdge_rise {s : State} (hr : s.Running) (hl : s.capture.capLevel = false)
    (he : s.capture.capEnable = true) (hk : s.capture.capLockout = false) :
    exec (.capEdge true) s =
      .next (trigger .line (s.setCapture { s.capture with capLevel := true, capLockout := true })) := by
  show Host.Outcome.next (capEdge true s) = _
  rw [capEdge, if_neg (by simp [hl])]
  simp only [if_true]
  rw [whenRunning_of_running (by exact hr), capRise, if_pos (by simp [he, hk])]
  rfl

/-- Settles O16: a trigger in a capture in progress, from the host and from the line. -/
theorem triggerRefusedWhileCapturing : Obligations.TriggerRefusedWhileCapturing := by
  intro s hr hphase
  refine ⟨fun hi => ?_, fun hl he hk => ?_⟩
  · rw [exec_capture hr hi, handOn, captureCommand, if_neg (by exact hphase)]
    rfl
  · rw [exec_capEdge_rise hr hl he hk, trigger_of_capturing _ (by exact hphase), offer_of_running (by exact hr)]
    rfl

/-- Settles O39: the transitions of CAP that do nothing but be noted, and the rise that triggers. -/
theorem capEdgeTriggers : Obligations.CapEdgeTriggers := by
  intro s
  refine ⟨rfl, ?_, fun h => ?_, fun hr hl he hk hphase hbanks hone => ?_⟩
  · show Host.Outcome.next (capEdge false s) = _
    unfold capEdge
    split
    · next hl => rw [← hl]
    · rfl
  · show Host.Outcome.next (capEdge true s) = _
    unfold capEdge
    split
    · next hl => rw [← hl]
    · next hl =>
      have hquiet : whenRunning capRise (s.setCapture { s.capture with capLevel := true }) =
          s.setCapture { s.capture with capLevel := true } := by
        rcases whenRunning_cases capRise (s.setCapture { s.capture with capLevel := true }) with
          ⟨hr, hrise⟩ | ⟨-, hrise⟩
        · rw [hrise, capRise, if_neg]
          rcases h with h | h | h | h
          · exact absurd h hl
          · exact absurd hr h
          · simp [h]
          · simp [h]
        · exact hrise
      simp only [if_true, hquiet]
      rfl
  · obtain ⟨t, id, htaken, hspec, heq, henable, hlockout, hlevel⟩ := takeTrigger_spec
      (s.setCapture { s.capture with capLevel := true, capLockout := true }) .line hr hbanks hone
    have hexec : exec (.capEdge true) s = .next t := by
      rw [exec_capEdge_rise hr hl he hk, trigger, if_pos (by exact hphase), htaken]
    rw [heq] at hexec hspec
    refine ⟨_, id, hexec, ⟨hspec.chosen, hspec.epoch, hspec.sequence, hspec.members, hspec.ascending, hspec.copiesMade,
      hspec.header, hspec.copies, ?_, hspec.copying, hspec.draining, hspec.ended⟩, henable.trans he, hlockout, hlevel,
      rfl, rfl, rfl, rfl, rfl, rfl, rfl, rfl, rfl⟩
    exact hspec.otherBank

/-! ### OPEN_BANK (R95) -/

theorem openBank_of_opened {c : CaptureUnit} {id : BankId} (h : (c.bank id).state = .opened) :
    ∃ j, c.openBank = some j := by
  unfold CaptureUnit.openBank
  by_cases ha : c.bankA.state = .opened
  · exact ⟨.a, if_pos ha⟩
  · cases id with
    | a => exact absurd h ha
    | b => exact ⟨.b, by rw [if_neg ha]; exact if_pos h⟩

theorem bankToOpen_of_none {c : CaptureUnit} (h : ∀ id, (c.bank id).state ≠ .complete) : c.bankToOpen = none :=
  Option.eq_none_iff_forall_ne_some.2 fun id hid => h id (complete_of_bankToOpen hid)

/-- The COMPLETE bank to open: the only one, or of two the one not chosen last (R95). -/
theorem bankToOpen_eq {c : CaptureUnit} {id : BankId} (h : (c.bank id).state = .complete)
    (hother : (c.bank id.other).state = .complete → c.lastChosen = some id.other) : c.bankToOpen = some id := by
  cases id with
  | a =>
    simp only [bank_a] at h
    by_cases hb : c.bankB.state = .complete
    · simp [CaptureUnit.bankToOpen, h, hb, hother hb, BankId.other]
    · simp [CaptureUnit.bankToOpen, h, hb]
  | b =>
    simp only [bank_b] at h
    by_cases ha : c.bankA.state = .complete
    · simp [CaptureUnit.bankToOpen, h, ha, hother ha, BankId.other]
    · simp [CaptureUnit.bankToOpen, h, ha]

/-- Settles O17: the three outcomes of OPEN_BANK, by what the capture unit finds. -/
theorem openBankOpensTheEarlier : Obligations.OpenBankOpensTheEarlier := by
  intro s hr hi
  have hexec : exec .openBank s = .next (handOn .openBank (beginTaking 0x21 s)) :=
    exec_taken (name := .openBank) hr hi rfl
  have hcapture : (beginTaking 0x21 s).capture = s.capture := rfl
  rw [hexec]
  refine ⟨fun ⟨id, hid⟩ => ?_, fun hnone => ?_, fun id hclosed hid hother => ?_⟩
  · obtain ⟨j, hj⟩ := openBank_of_opened hid
    simp only [handOn, openBankCommand, hcapture, hj]
    rfl
  · simp only [handOn, openBankCommand, hcapture, openBank_eq_none fun id => (hnone id).1,
      bankToOpen_of_none fun id => (hnone id).2]
    rfl
  · simp only [handOn, openBankCommand, hcapture, openBank_eq_none hclosed, bankToOpen_eq hid hother]
    rfl

/-! ### SET_TARIFF and SET_TIME (R131 to R134) -/

/-- Settles O19: SET_TARIFF's bin is its operand. -/
theorem setTariffWritesTheBin : Obligations.SetTariffWritesTheBin := by
  intro s b hr hi hb
  have hvalid : validateOperands .setTariff s.slot.operands = .ok (.setTariff b) := by
    have hlt : s.slot.operands[0].toNat < 4 := hb ▸ b.isLt
    simp only [validateOperands, dif_pos hlt]
    congr
  refine (exec_taken (name := .setTariff) hr hi hvalid).trans ?_
  rw [handOn, setBin_of_running (by exact hr)]
  rfl

theorem resolveBin_of_empty {u : State} (h : u.tariff.count.toNat = 0) : resolveBin u = u := by
  simp only [resolveBin, pointInForce_of_empty _ _ h]

/-- A resolution of a valid schedule writes the bin of its point in force (R131). -/
theorem resolveBin_of_inForce {u : State} {i : Fin 12} {b : Fin 4} (hr : u.Running) (hv : ScheduleValid u.tariff)
    (hin : InForce u.tariff u.tariff.minute i) (hb : u.tariff.points[i.val].bin.toNat = b.val) :
    resolveBin u =
      { u with tariff := { u.tariff with bin := b }, notices := tariffNotice b u.tariff.bin 2 u.notices } := by
  simp only [resolveBin, pointInForce_of_inForce _ _ i hv hin]
  rw [setBin_of_running hr, binOf_eq _ b hb]
  rfl

/-- Settles O20: the time is written, and then the bin is resolved at the new minute. -/
theorem setTimeSetsAndResolves : Obligations.SetTimeSetsAndResolves := by
  intro s hr hi _ _ _ hminute hsecond
  have hvalid : validateOperands .setTime s.slot.operands =
      .ok (.setTime (wordOf s.slot.operands[0] s.slot.operands[1])
        (256 * s.slot.operands[2].toNat + s.slot.operands[3].toNat) s.slot.operands[4].toNat) := by
    simp only [validateOperands, wordOf_toNat]
    exact checkOperand_of_true (by simp; exact ⟨hminute, hsecond⟩) _
  have hexec := exec_taken (name := .setTime) hr hi hvalid
  simp only [handOn, setTimeCommand] at hexec
  refine ⟨fun h => hexec.trans ?_, fun i b he hv hin hb => hexec.trans ?_⟩
  · split
    · next henable =>
      have hempty : s.tariff.count.toNat = 0 := h.resolve_left (by rw [show s.tariff.enable = true from henable]; simp)
      rw [resolveBin_of_empty (by exact hempty)]
      rfl
    · rfl
  · rw [if_pos (by exact he), resolveBin_of_inForce (i := i) (b := b) (by exact hr) (by exact hv) (by exact hin)
      (by exact hb)]
    rfl

/-! ### RESET_INPUT (R40, R90) -/

theorem previousExists_setInput_emptied {s : State} {n : Fin 16} :
    (s.setInput n (emptied (s.input n))).previousExists = true ↔
      s.previousInFlight = true ∨ ∃ m, m ≠ n ∧ ∃ g ∈ (s.input m).queue, g.epoch ≠ s.capture.epoch := by
  have hin : ∀ m, ((s.setInput n (emptied (s.input n))).input m).queue = if n = m then [] else (s.input m).queue := by
    intro m
    rw [input_setInput]
    split <;> rfl
  have hprevious : ∀ g, (s.setInput n (emptied (s.input n))).previousEpoch g = s.previousEpoch g := fun _ => rfl
  rw [previousExists_iff]
  refine or_congr Iff.rfl (exists_congr fun m => ?_)
  simp only [hin, hprevious]
  by_cases hm : n = m
  · simp [hm]
  · simp [hm, Ne.symm hm, State.previousEpoch]

/-- Settles O21: the input is emptied, and the end of the drain is checked on what is left. -/
theorem resetInputDiscardsTheQueue : Obligations.ResetInputDiscardsTheQueue := by
  intro s n hr hi hn
  have hvalid : validateOperands .resetInput s.slot.operands = .ok (.resetInput n) := by
    simp only [validateOperands, checkIndex_of_eq hn]
  have hexec : exec .resetInput s =
      .next (endCommand .ok (checkDrain ((beginTaking 0x40 s).setInput n (emptied ((beginTaking 0x40 s).input n))))) :=
    exec_taken (name := .resetInput) hr hi hvalid
  rw [hexec]
  have hleft := previousExists_setInput_emptied (s := beginTaking 0x40 s) (n := n)
  refine ⟨fun h => ?_, fun id hphase hflight hothers hfill => ?_⟩
  · rw [checkDrain_of_not (h.imp id hleft.2)]
    rfl
  · have hnone : ((beginTaking 0x40 s).setInput n (emptied ((beginTaking 0x40 s).input n))).previousExists = false := by
      rw [Bool.eq_false_iff]
      refine fun hex => ?_
      rcases hleft.1 hex with h | ⟨m, hm, g, hg, hne⟩
      · cases hflight.symm.trans h
      · exact hne (hothers m hm g hg)
    rw [checkDrain_of_drained (by exact hphase) hnone, completeCapture_of_filling _ id (by exact hr) (by exact hfill)]
    rfl

end Sys2Proof.Machine

/-! ## The grants of the engine (R47, R62 to R67) -/

namespace Sys2Proof.Machine

open Sys2Proof.Safety

/-! ### The grant order (R66) -/

theorem eligibleHost_of_eligible {s : State} {c : EngineCommand} (h : HostEligible s c) : s.eligibleHost = some c :=
  (eligibleHost_iff s c).2 h

theorem eligibleHost_none {s : State} (h : ∀ c, ¬HostEligible s c) : s.eligibleHost = none :=
  Option.eq_none_iff_forall_ne_some.2 fun c hc => h c ((eligibleHost_iff s c).1 hc)

theorem eligibleCopy_of_eligible {s : State} {e : Fin 64} (h : CopyEligible s e) :
    s.eligibleCopy = some (.copy s.capture.copiesMade e) :=
  (eligibleCopy_iff s _).2 ⟨e, h, rfl⟩

/-- The previous-epoch head of the lowest-numbered input. -/
theorem previousApply_of_head {s : State} {n : Fin 16} {g : Group} (hh : (s.input n).queue.head? = some g)
    (hp : g.epoch ≠ s.capture.epoch) (hl : ∀ m, m < n → ¬PreviousHead s m) :
    s.previousApply = some (.apply n g) := by
  refine findSome_finRange _ n _ ?_ fun m hm => previousHead_none s m (hl m hm)
  simp [State.headGroup, hh, State.previousEpoch, hp]

/-- The eligible current-epoch head of the lowest-numbered input. -/
theorem currentApply_of_head {s : State} {n : Fin 16} {g : Group} (hh : (s.input n).queue.head? = some g)
    (hc : g.epoch = s.capture.epoch) (hg : ¬Gated s g.dest) (hl : ∀ m, m < n → ¬CurrentHead s m) :
    s.currentApply = some (.apply n g) := by
  refine findSome_finRange _ n _ ?_ fun m hm => currentHead_none s m (hl m hm)
  rw [← gated_iff] at hg
  simp [State.headGroup, hh, State.previousEpoch, hc, hg]

theorem arbiter_of_free {s : State} (hr : s.Running) (hf : s.engine.op = none) :
    s.arbiter = (if 8 ≤ s.engine.hostWait then s.eligibleHost.map Work.host else none).or
      (s.previousApply.or (s.eligibleCopy.or (s.currentApply.or (s.eligibleHost.map Work.host)))) :=
  if_pos ⟨hr, hf⟩

/-- The first step of the order asks for nothing while the host-wait count is below 8 or no host command is eligible. -/
theorem arbiter_of_no_turn {s : State} (hr : s.Running) (hf : s.engine.op = none)
    (h : ∀ c, HostEligible s c → s.engine.hostWait < 8) :
    s.arbiter = s.previousApply.or (s.eligibleCopy.or (s.currentApply.or (s.eligibleHost.map Work.host))) := by
  have hnone : (if 8 ≤ s.engine.hostWait then s.eligibleHost.map Work.host else none) = none := by
    split
    · next hwait => rw [eligibleHost_none fun c hc => absurd (h c hc) (Nat.not_lt.2 hwait)]; rfl
    · rfl
  rw [arbiter_of_free hr hf, hnone, Option.none_or]

/-- Settles O22: each step of the order, with those before it asking for nothing. -/
theorem arbiterFollowsTheGrantOrder : Obligations.ArbiterFollowsTheGrantOrder := by
  intro s
  refine ⟨fun h => if_neg fun ⟨hr, hf⟩ => h.elim (absurd hr) (absurd hf), fun hr hf => ⟨fun c hc hwait => ?_,
    fun hturn => ?_⟩⟩
  · rw [arbiter_of_free hr hf, if_pos hwait, eligibleHost_of_eligible hc]
    rfl
  rw [arbiter_of_no_turn hr hf hturn]
  refine ⟨fun n g hh hp hl => ?_, fun hprev => ?_⟩
  · rw [previousApply_of_head hh hp hl]
    rfl
  rw [previousApply_none s hprev, Option.none_or]
  refine ⟨fun e he => ?_, fun hcopy => ?_⟩
  · rw [eligibleCopy_of_eligible he]
    rfl
  rw [eligibleCopy_none s hcopy, Option.none_or]
  refine ⟨fun n g hh hc hg hl => ?_, fun hcurrent => ?_⟩
  · rw [currentApply_of_head hh hc hg hl]
    rfl
  rw [currentApply_none s hcurrent, Option.none_or]
  refine ⟨fun c hc => ?_, fun hnone => ?_⟩
  · rw [eligibleHost_of_eligible hc]
    rfl
  · rw [eligibleHost_none hnone]
    rfl

/-! ### What a grant leaves (R9 to R13, R37, R45, R47) -/

theorem grantApply_of_arbiter {s : State} {n : Fin 16} {g : Group} (ha : s.arbiter = some (.apply n g)) :
    grantApply s = beginOperation (.apply n g) (claimHead n (countHostWait s)) := by
  rw [grantApply, ha]

theorem grantCopy_of_arbiter {s : State} {p : Nat} {e : Fin 64} (ha : s.arbiter = some (.copy p e)) :
    grantCopy s = beginOperation (.copy p e) (countHostWait s) := by
  rw [grantCopy, ha]

theorem grantHost_of_arbiter {s : State} {c : EngineCommand} (ha : s.arbiter = some (.host c)) :
    grantHost s = beginOperation (.host c) (startHost c s) := by
  rw [grantHost, ha]

/-- The start of an operation that verifies one entry. -/
theorem beginOperation_one {w : Work} {u : State} {k : OpKind} {e : Fin 64} (hw : w.verified = [(k, e)]) :
    beginOperation w u =
      { (verify k e u).2 with
        table := { (verify k e u).2.table with held := w.targets },
        engine := { (verify k e u).2.engine with op := some { work := w, found := [(verify k e u).1] } } } := by
  simp only [beginOperation, hw, verifyAll]

/-- Settles O23: the grant's own part is its frame, and the rest is the verification of its one entry. -/
theorem applyAndCopyGrantsBeginTheOperation : Obligations.ApplyAndCopyGrantsBeginTheOperation := by
  intro s
  obtain ⟨hraised, hstays⟩ := hostWaitAfter_eq s
  refine ⟨fun n g ha => ?_, fun p e ha => ?_⟩
  · obtain ⟨hr, -⟩ := arbiter_running ha
    obtain ⟨hverified, hothers, hframe⟩ := verify_spec .apply g.dest (claimHead n (countHostWait s)) hr
    have hexec : exec .applyGrant s = .next (grantApply s) := rfl
    rw [grantApply_of_arbiter ha, beginOperation_one (k := .apply) (e := g.dest) rfl] at hexec
    generalize verify .apply g.dest (claimHead n (countHostWait s)) = v at hverified hothers hframe hexec
    obtain ⟨found, u⟩ := v
    rw [hframe] at hexec
    exact ⟨_, found, hexec, hverified, rfl, rfl, hothers, rfl, hraised, hstays, rfl, rfl, rfl, rfl, rfl, rfl, rfl, rfl⟩
  · obtain ⟨hr, -⟩ := arbiter_running ha
    obtain ⟨hverified, hothers, hframe⟩ := verify_spec .copy e (countHostWait s) hr
    have hexec : exec .copyGrant s = .next (grantCopy s) := rfl
    rw [grantCopy_of_arbiter ha, beginOperation_one (k := .copy) (e := e) rfl] at hexec
    generalize verify .copy e (countHostWait s) = v at hverified hothers hframe hexec
    obtain ⟨found, u⟩ := v
    rw [hframe] at hexec
    exact ⟨_, found, hexec, hverified, rfl, rfl, hothers, hraised, hstays, rfl, rfl, rfl, rfl, rfl, rfl, rfl, rfl, rfl⟩

/-- A command that verifies one entry holds it; one that verifies none holds its targets; a TRANSFER does neither. -/
theorem verified_of_verifiesOne {c : EngineCommand} {k : OpKind} {e : Fin 64} (h : VerifiesOne c k e) :
    (Work.host c).verified = [(k, e)] ∧ c.targets = [e] := by
  cases c <;> simp only [VerifiesOne] at h
  all_goals
    obtain ⟨rfl, rfl⟩ := h
    exact ⟨rfl, rfl⟩

theorem verified_of_verifiesNone {c : EngineCommand} {held : List (Fin 64)} (h : VerifiesNone c held) :
    (Work.host c).verified = [] ∧ c.targets = held := by
  cases c <;> simp only [VerifiesNone] at h
  all_goals
    subst h
    exact ⟨rfl, rfl⟩

/-- Settles O24: the verification of the command's entries, by how many it has. -/
theorem hostGrantBeginsTheOperation : Obligations.HostGrantBeginsTheOperation := by
  intro s c ha
  obtain ⟨hr, -⟩ := arbiter_running ha
  have hexec : exec .hostGrant s = .next (grantHost s) := rfl
  rw [grantHost_of_arbiter ha] at hexec
  obtain ⟨E, q, -, hframe⟩ := beginOperation_frame (.host c) (startHost c s)
  refine ⟨_, _, hexec, by rw [hframe]; rfl, by rw [hframe]; rfl, fun held h => ?_, fun k e h => ?_,
    fun a b h hab => ?_, by rw [hframe]; rfl, by rw [hframe]; rfl, by rw [hframe]; rfl, by rw [hframe]; rfl,
    by rw [hframe]; rfl, by rw [hframe]; rfl, by rw [hframe]; rfl, by rw [hframe]; rfl⟩
  · obtain ⟨hv, rfl⟩ := verified_of_verifiesNone h
    simp only [beginOperation, hv, verifyAll]
    exact ⟨trivial, rfl, fun _ => rfl, rfl⟩
  · obtain ⟨hv, ht⟩ := verified_of_verifiesOne h
    obtain ⟨hverified, hothers, -⟩ := verify_spec k e (startHost c s) hr
    rw [beginOperation_one hv, hv]
    exact ⟨ht, hothers, _, rfl, hverified⟩
  · subst h
    obtain ⟨hfirst, hothers, hframe'⟩ := verify_spec .transfer a (startHost (.transfer a b) s) hr
    have hr' : (verify .transfer a (startHost (.transfer a b) s)).2.Running := by rw [hframe']; exact hr
    obtain ⟨hsecond, hothers', -⟩ := verify_spec .transfer b (verify .transfer a (startHost (.transfer a b) s)).2 hr'
    rw [hothers b hab.symm] at hsecond
    refine ⟨rfl, fun x hxa hxb => (hothers' x hxb).trans (hothers x hxa), _, _, _, rfl, ?_, hsecond⟩
    have hkept : (verify .transfer b (verify .transfer a (startHost (.transfer a b) s)).2).2.entry a =
      (verify .transfer a (startHost (.transfer a b) s)).2.entry a := hothers' a hab
    exact hkept ▸ hfirst

/-! ### The bound on the host wait (R67) -/

theorem otherGrant_applyGrant {s : State} :
    otherGrant s .applyGrant = true ↔ ∃ n g, s.arbiter = some (.apply n g) := by
  simp only [otherGrant]
  split
  · next n g h => exact ⟨fun _ => ⟨n, g, h⟩, fun _ => rfl⟩
  · next h => simpa using fun n g => h n g

theorem otherGrant_copyGrant {s : State} : otherGrant s .copyGrant = true ↔ ∃ p e, s.arbiter = some (.copy p e) := by
  simp only [otherGrant]
  split
  · next p e h => exact ⟨fun _ => ⟨p, e, h⟩, fun _ => rfl⟩
  · next h => simpa using fun p e => h p e

theorem engine_minuteExpiry (s : State) : (minuteExpiry s).engine = s.engine := by
  obtain ⟨_, _, _, -, he⟩ := minuteExpiry_frame s
  rw [he]

theorem engine_secondExpiry (s : State) : (secondExpiry s).engine = s.engine := by
  unfold secondExpiry
  split
  · rfl
  · exact engine_minuteExpiry s

theorem engine_timebaseEdge (s : State) : (timebaseEdge s).engine = s.engine := by
  unfold timebaseEdge
  split
  · rfl
  · exact engine_secondExpiry s

/-- Only a grant to another request raises the host-wait count of a command that still waits (R67, R145, R147). -/
theorem hostWait_of_runs {i : Instr} {s t : State} (hrun : Runs i s t) (ho : otherGrant s i = false) :
    t.engine.hostWait = s.engine.hostWait ∨ t.hostRequest = none := by
  have idle : ∀ {u : State}, u.slot.state = .idle → u.engine.hostWait = s.engine.hostWait ∨ u.hostRequest = none :=
    fun h => .inr (hostRequest_eq_none_of_idle h)
  cases hrun
  case code v _ => obtain ⟨_, _, _, _, _, -, he⟩ := writeCode_frame v s; exact .inl (by rw [he])
  case cancel =>
    unfold writeCancel
    split
    · exact idle rfl
    · exact .inl rfl
  case applyGrant =>
    rcases grantApply_cases s with he | ⟨n, g, _, _, ha, -, -⟩
    · exact .inl (by rw [he])
    · cases ho.symm.trans (otherGrant_applyGrant.2 ⟨n, g, ha⟩)
  case copyGrant =>
    rcases grantCopy_cases s with he | ⟨p, e, _, _, ha, -, -⟩
    · exact .inl (by rw [he])
    · cases ho.symm.trans (otherGrant_copyGrant.2 ⟨p, e, ha⟩)
  case hostGrant =>
    rcases grantHost_cases s with he | ⟨c, _, _, -, -, he⟩
    · exact .inl (by rw [he])
    · exact .inr (by rw [he]; exact hostRequest_of_running_slot rfl)
  case applyCompletion =>
    rcases completeApply_frame s with he | ⟨_, _, _, _, _, _, -, -, -, he⟩ <;> exact .inl (by rw [he])
  case copyCompletion =>
    rcases completeCopy_frame s with he | ⟨_, _, _, _, _, _, -, -, -, he⟩ <;> exact .inl (by rw [he])
  case hostCompletion =>
    rcases completeHost_cases _ s with hsame | ⟨op, c, r, -, -, -, hdone⟩
    · exact .inl (by rw [hsame])
    · exact idle (by rw [hdone]; rfl)
  case inputEdge n level => obtain ⟨_, _, -, he⟩ := inputEdge_frame n level s; exact .inl (by rw [he]; rfl)
  case capEdge level => obtain ⟨_, _, -, he⟩ := capEdge_frame level s; exact .inl (by rw [he])
  case timebaseEdge => exact .inl (by rw [engine_timebaseEdge])
  case secondExpiry => exact .inl (by rw [engine_secondExpiry])
  case minuteExpiry => exact .inl (by rw [engine_minuteExpiry])
  case enable =>
    rcases enableSchedule_frame s with he | ⟨-, he⟩ | ⟨-, _, _, -, he⟩ <;> exact .inl (by rw [he])
  case readData => obtain ⟨_, he⟩ := readData_frame s; exact .inl (by rw [he])
  case writeData v _ _ => obtain ⟨_, _, _, _, he⟩ := writeData_frame v s; exact .inl (by rw [he])
  case warmReset cause =>
    rcases whenRunning_cases clearMain s with ⟨hr, -⟩ | ⟨-, he⟩
    · exact idle (by rw [enterWarm_of_running hr]; rfl)
    · exact .inl (by rw [enterWarm, he])
  case coldReset => exact idle rfl
  case coldResetEnd => unfold endCold; split <;> exact .inl rfl
  case nothing | lockoutExpiry | capLockoutExpiry | pop | intStatus | intEnable | capEnable | operand | disable |
      readDayHigh | heldRead | winStatus | space | index | offset | warmResetEnd => exact .inl rfl

/-- A grant to another request while a host command is eligible raises the count, which was below 8 (R66, R67). -/
theorem hostWait_of_otherGrant {i : Instr} {s : State} {c : EngineCommand} (he : s.eligibleHost = some c)
    (ho : otherGrant s i = true) :
    s.engine.hostWait < 8 ∧ (after i s).engine.hostWait = s.engine.hostWait + 1 := by
  have hraised := (hostWaitAfter_eq s).1 ⟨c, (eligibleHost_iff s c).1 he⟩
  have hsome : s.eligibleHost.isSome := by rw [he]; rfl
  have hbegun : ∀ w u, (beginOperation w u).engine.hostWait = u.engine.hostWait := fun w u => by
    obtain ⟨E, q, -, he⟩ := beginOperation_frame w u
    rw [he]
  cases i
  case applyGrant =>
    obtain ⟨n, g, ha⟩ := otherGrant_applyGrant.1 ho
    refine ⟨hostWait_lt_of_other ha nofun hsome, ?_⟩
    show (grantApply s).engine.hostWait = _
    rw [grantApply_of_arbiter ha, hbegun]
    exact hraised
  case copyGrant =>
    obtain ⟨p, e, ha⟩ := otherGrant_copyGrant.1 ho
    refine ⟨hostWait_lt_of_other ha nofun hsome, ?_⟩
    show (grantCopy s).engine.hostWait = _
    rw [grantCopy_of_arbiter ha, hbegun]
    exact hraised
  all_goals cases ho

/-- A run of one command more: the command waits before it, and the rest is a run from the state it leaves. -/
theorem grantsWaited_cons {c : EngineCommand} {i : Instr} {rest : List Instr} {s : State} {k : Nat}
    (h : grantsWaited c (i :: rest) s = some k) :
    s.eligibleHost = some c ∧
      ∃ k', grantsWaited c rest (after i s) = some k' ∧ k = k' + (if otherGrant s i then 1 else 0) := by
  simp only [grantsWaited, exec_eq_after] at h
  split at h
  · next he =>
    obtain ⟨k', hk', rfl⟩ := Option.map_eq_some_iff.1 h
    exact ⟨he, k', hk', rfl⟩
  · cases h

/-- A run from a state in which no host command is requested has no grants to count. -/
theorem grantsWaited_of_no_request {c : EngineCommand} {run : List Instr} {s : State} {k : Nat}
    (hn : s.hostRequest = none) (h : grantsWaited c run s = some k) : k = 0 := by
  cases run with
  | nil => cases h; rfl
  | cons i rest =>
    obtain ⟨he, -⟩ := grantsWaited_cons h
    cases (eligibleHost_of_hostRequest_none hn).symm.trans he

/-- Settles O25: by induction on the run, each grant to another request using up one of the eight. -/
theorem hostWaitsAtMostEightGrants : Obligations.HostWaitsAtMostEightGrants := by
  intro c run
  induction run with
  | nil =>
    intro s k hle h
    cases h
    omega
  | cons i rest ih =>
    intro s k hle h
    obtain ⟨he, k', hk', rfl⟩ := grantsWaited_cons h
    cases ho : otherGrant s i with
    | true =>
      obtain ⟨hlt, hraised⟩ := hostWait_of_otherGrant he ho
      have := ih (after i s) k' (by omega) hk'
      simp only [if_true]
      omega
    | false =>
      simp only [Bool.false_eq_true, if_false]
      rcases hostWait_of_runs (runs_after i s) ho with hsame | hgone
      · have := ih (after i s) k' (by omega) hk'
        omega
      · have := grantsWaited_of_no_request hgone hk'
        omega

end Sys2Proof.Machine

/-! ## The completions of the host operations (R48, R50 to R53, R104 to R107, R146, R151 to R155) -/

namespace Sys2Proof.Machine

open Sys2Proof.Safety

/-- A completion row ends the host operation in flight with what its effect leaves. -/
theorem exec_hostCompletion {i : Instr} {effect : EngineCommand → Bool → State → Option (HostOutcome × State)}
    (hi : HostCompletion i effect) {s u : State} {op : Operation} {c : EngineCommand} {d : Bool} {out : HostOutcome}
    (hr : s.Running) (ho : s.engine.op = some op) (hw : op.work = .host c) (hd : op.foundDamaged = d)
    (he : effect c d s = some (out, u)) {r : Result} {E : Fin 64 → Entry} {T : Fin 8 → TripCounter} {N : Notices}
    (hresult : out.result = r) (hE : ∀ x, u.entry x = E x) (hT : ∀ k, u.trip k = T k) (hN : u.notices = N) :
    ∃ t, exec i s = .next t ∧ CompletedHost s t r E T N := by
  subst hd hresult hN
  have hexec : exec i s = .next (whenRunning (completeHost effect) s) := by cases hi <;> rfl
  obtain ⟨E', T', q, -, hu⟩ := hi.touches he
  have honly : OnlyEntriesTripsNotices s u := ⟨by rw [show u = _ from hu]⟩
  rw [hexec, ← funext hE, ← funext hT]
  exact completeHost_spec hr ho hw he honly

theorem foundDamaged_of_healthy {op : Operation} (h : op.found = [.healthy]) : op.foundDamaged = false := by
  simp [Operation.foundDamaged, h]

theorem foundDamaged_of_damaged {op : Operation} (h : op.found = [.damaged]) : op.foundDamaged = true := by
  simp [Operation.foundDamaged, h]

theorem foundDamaged_of_mem {op : Operation} (h : .damaged ∈ op.found) : op.foundDamaged = true := by
  simpa [Operation.foundDamaged] using h

theorem foundDamaged_of_not_mem {op : Operation} (h : .damaged ∉ op.found) : op.foundDamaged = false := by
  simpa [Operation.foundDamaged] using h

/-! ### Sums and differences written to a value -/

/-- A sum carried to a value in a running part: the wrapped digits, WRAPPED and its notice (R50, R52). -/
theorem carryToValue_addTotal {u : State} (hr : u.Running) (k : OpKind) (e : Fin 64) (q a : Nat) :
    carryToValue k e (addTotal q a) u =
      { u.setEntry e (written { u.entry e with wrapped := (u.entry e).wrapped || decide (999999999999 < q + a) }
          (wrappedSum (q + a))) with
        notices := carryNotice .wrap e k.code 0 (decide (999999999999 < q + a)) (u.entry e).wrapped u.notices } := by
  rw [addTotal_eq, carryToValue_of_running hr _ _ _ (by simp)]
  simp only [carryNotice_false, Bool.or_false]
  rfl

/-- A difference carried to a value in a running part: the borrowed digits, BORROWED and its notice (R51, R52). -/
theorem carryToValue_subtractTotal {u : State} (hr : u.Running) (k : OpKind) (e : Fin 64) (q a : Nat) :
    carryToValue k e (subtractTotal q a) u =
      { u.setEntry e (written { u.entry e with borrowed := (u.entry e).borrowed || decide (q < a) }
          (borrowedDifference q a)) with
        notices := carryNotice .borrow e k.code 0 (decide (q < a)) (u.entry e).borrowed u.notices } := by
  rw [subtractTotal_eq, carryToValue_of_running hr _ _ _ (by simp)]
  simp only [carryNotice_false, Bool.or_false]
  rfl

theorem entry_setEntry_notices (s : State) (e : Fin 64) (en : Entry) (q : Notices) (x : Fin 64) :
    State.entry { s.setEntry e en with notices := q } x = if x = e then en else s.entry x := by
  refine (entry_setEntry s e x en).trans ?_
  simp only [eq_comm]

/-- Settles O26: the effect is a sum or a difference carried to the value. -/
theorem addSubtractCompletion : Obligations.AddSubtractCompletion := by
  intro s op e a hr ho hfound
  have hd := foundDamaged_of_healthy hfound
  refine ⟨fun hw => ?_, fun hw => ?_⟩
  · refine exec_hostCompletion .add hr ho hw hd rfl (outcome_addTotal ..) (fun x => ?_) (fun k => trip_carryToValue ..) ?_
    · rw [carryToValue_addTotal hr]
      exact entry_setEntry_notices ..
    · rw [carryToValue_addTotal hr]
      rfl
  · refine exec_hostCompletion .subtract hr ho hw hd rfl (outcome_subtractTotal ..) (fun x => ?_)
      (fun k => trip_carryToValue ..) ?_
    · rw [carryToValue_subtractTotal hr]
      exact entry_setEntry_notices ..
    · rw [carryToValue_subtractTotal hr]
      rfl

/-- Settles O27: the effect is one entry written. -/
theorem presetAndClearFlagsCompletion : Obligations.PresetAndClearFlagsCompletion := by
  intro s op e v hr ho
  refine ⟨fun hw hfound => ?_, fun hw => ?_⟩
  · refine exec_hostCompletion .preset hr ho hw (foundDamaged_of_healthy hfound) rfl rfl (fun x => ?_) (fun k => rfl) rfl
    exact entry_setEntry_notices s e _ s.notices x
  · refine exec_hostCompletion .clearFlags hr ho hw rfl rfl rfl (fun x => ?_) (fun k => rfl) rfl
    exact entry_setEntry_notices s e _ s.notices x

/-- Settles O28: the source is written 0, and then the sum carried to the target, whose entry is another. -/
theorem transferCompletion : Obligations.TransferCompletion := by
  intro s op a b hr ho hw hab hfound
  have hd : op.foundDamaged = false := by simp [Operation.foundDamaged, hfound]
  have htarget : (s.setEntry a ((s.entry a).withValue 0)).entry b = s.entry b := by simp [hab]
  refine exec_hostCompletion .transfer hr ho hw hd rfl (outcome_addTotal ..) (fun x => ?_)
    (fun k => trip_carryToValue ..) ?_
  · rw [carryToValue_addTotal (by exact hr), htarget, entry_setEntry_notices, entry_setEntry]
    by_cases hx : x = a
    · subst hx
      simp [hab]
      rfl
    · simp [hx, Ne.symm hx]
      rfl
  · rw [carryToValue_addTotal (by exact hr), htarget]
    rfl

/-- A number in range written to a value with no flag: REPAIR without the fold (R154). -/
theorem carryToValue_in_range {u : State} (hr : u.Running) (k : OpKind) (e : Fin 64) (v : Nat) :
    carryToValue k e { result := v, wrapped := false, borrowed := false } u = u.setEntry e (written (u.entry e) v) := by
  rw [carryToValue_of_running hr _ _ _ (by simp)]
  simp only [carryNotice_false, Bool.or_false]
  rfl

/-- Settles O29: the entry is restored, and then the operand, or its sum with the suspense, carried to the value. -/
theorem repairCompletion : Obligations.RepairCompletion := by
  intro s op e v fold hr ho hw hfound
  have hd := foundDamaged_of_damaged hfound
  have hrestored : (s.setEntry e (s.entry e).restored).entry e = (s.entry e).restored := by simp
  have hothers : ∀ en x, ((s.setEntry e (s.entry e).restored).setEntry e en).entry x =
      if x = e then en else s.entry x := by
    intro en x
    rw [entry_setEntry, entry_setEntry]
    by_cases hx : e = x
    · simp [hx]
    · simp [hx, Ne.symm hx]
  refine ⟨fun hfold => ?_, fun hfold => ?_⟩ <;> subst hfold
  · refine exec_hostCompletion .repair hr ho hw hd rfl rfl (fun x => ?_) (fun k => trip_carryToValue ..) ?_
    · simp only [repairCarry, Bool.false_eq_true, if_false]
      rw [carryToValue_in_range (by exact hr), hrestored]
      exact hothers _ x
    · simp only [repairCarry, Bool.false_eq_true, if_false]
      rw [carryToValue_in_range (by exact hr)]
      rfl
  · refine exec_hostCompletion .repair hr ho hw hd rfl ?_ (fun x => ?_) (fun k => trip_carryToValue ..) ?_
    · simp only [repairCarry, if_true]
      exact outcome_addTotal ..
    · simp only [repairCarry, if_true]
      rw [carryToValue_addTotal (by exact hr), hrestored]
      exact hothers _ x
    · simp only [repairCarry, if_true]
      rw [carryToValue_addTotal (by exact hr), hrestored]
      rfl

/-- Settles O30: a refusing effect leaves the state as it was. -/
theorem refusedOperationsWriteNothing : Obligations.RefusedOperationsWriteNothing := by
  intro s op hr ho
  refine ⟨fun e v hw h => ?_, fun e v hw h => ?_, fun e v hw h => ?_, fun a b hw h => ?_, fun e v fold hw h => ?_⟩
  · exact exec_hostCompletion .preset hr ho hw (foundDamaged_of_mem h) rfl rfl (fun _ => rfl) (fun _ => rfl) rfl
  · exact exec_hostCompletion .add hr ho hw (foundDamaged_of_mem h) rfl rfl (fun _ => rfl) (fun _ => rfl) rfl
  · exact exec_hostCompletion .subtract hr ho hw (foundDamaged_of_mem h) rfl rfl (fun _ => rfl) (fun _ => rfl) rfl
  · exact exec_hostCompletion .transfer hr ho hw (foundDamaged_of_mem h) rfl rfl (fun _ => rfl) (fun _ => rfl) rfl
  · exact exec_hostCompletion .repair hr ho hw (foundDamaged_of_not_mem h) rfl rfl (fun _ => rfl) (fun _ => rfl) rfl

/-! ### ARM_TRIP and DISARM_TRIP -/

theorem trip_setTrip_eq (s : State) (k : Fin 8) (c : TripCounter) (j : Fin 8) :
    (s.setTrip k c).trip j = if j = k then c else s.trip j := by
  rw [trip_setTrip]
  simp only [eq_comm]

/-- The TRIP line of a counter that is not TRIPPED is released while the part runs (R104). -/
theorem tripLine_released {t : State} {k : Fin 8} (hr : t.Running) (h : (t.trip k).state ≠ .tripped) :
    t.tripLine k = some false := by
  rw [State.tripLine, if_pos hr]
  exact congrArg some (decide_eq_false h)

theorem running_of_completedHost {s t : State} {r : Result} {E : Fin 64 → Entry} {T : Fin 8 → TripCounter} {N : Notices}
    (h : CompletedHost s t r E T N) (hr : s.Running) : t.Running := by
  obtain ⟨-, -, -, -, hsupply, -⟩ := h.others
  rw [State.Running, hsupply]
  exact hr

/-- Settles O31: the effect is one counter written, and not to TRIPPED. -/
theorem armAndDisarmCompletion : Obligations.ArmAndDisarmCompletion := by
  intro s op k hr ho
  refine ⟨fun preset prewarn hw => ?_, fun hw => ?_⟩
  · obtain ⟨t, hexec, hdone⟩ := exec_hostCompletion .armTrip hr ho hw rfl rfl rfl (fun _ => rfl)
      (trip_setTrip_eq s k { state := .armed, remaining := preset, prewarn := prewarn, overshoot := 0 }) rfl
    refine ⟨t, hexec, hdone, tripLine_released (running_of_completedHost hdone hr) ?_⟩
    rw [hdone.trip k, if_pos rfl]
    exact nofun
  · obtain ⟨t, hexec, hdone⟩ := exec_hostCompletion .disarmTrip hr ho hw rfl rfl rfl (fun _ => rfl)
      (trip_setTrip_eq s k { s.trip k with state := .idle }) rfl
    refine ⟨t, hexec, hdone, tripLine_released (running_of_completedHost hdone hr) ?_⟩
    rw [hdone.trip k, if_pos rfl]
    exact nofun

end Sys2Proof.Machine

/-! ## The completions of APPLY and COPY (R48, R56 to R58, R86, R90, R91, R109 to R116) -/

namespace Sys2Proof.Machine

open Sys2Proof.Safety

/-- What an APPLY leaves before the end of a drain. -/
abbrev applied (n : Fin 16) (g : Group) (d : Bool) (s : State) : State :=
  clearInFlight n (moveLinked n g (release (applyAmount g d s)))

theorem exec_applyCompletion {s : State} {op : Operation} {n : Fin 16} {g : Group} (hr : s.Running)
    (ho : s.engine.op = some op) (hw : op.work = .apply n g) :
    exec .applyCompletion s = .next (checkDrain (applied n g op.foundDamaged s)) := by
  show Host.Outcome.next (whenRunning completeApply s) = _
  rw [whenRunning_of_running hr]
  simp only [completeApply, ho, hw]

/-! ### The amount (R50, R51, R56, R57) -/

section

variable {g : Group} {s : State}

theorem entry_applyAmount_other (d : Bool) {x : Fin 64} (hx : x ≠ g.dest) :
    (applyAmount g d s).entry x = s.entry x := by
  obtain ⟨en, q, -, h⟩ := applyAmount_frame g d s
  rw [h, entry_setEntry_notices, if_neg hx]

/-- The sum of an entry found HEALTHY. -/
theorem entry_applyAmount_add (hr : s.Running) (hs : g.sense = .add) :
    (applyAmount g false s).entry g.dest =
      written { s.entry g.dest with
        wrapped := (s.entry g.dest).wrapped ||
          decide (999999999999 < decimalValue (s.entry g.dest).digits + g.count * g.weight) }
        (wrappedSum (decimalValue (s.entry g.dest).digits + g.count * g.weight)) := by
  simp only [applyAmount, hs, carryAmount, Bool.false_eq_true, if_false]
  rw [carryToValue_addTotal hr, entry_setEntry_notices, if_pos rfl]
  rfl

/-- The difference of an entry found HEALTHY. -/
theorem entry_applyAmount_subtract (hr : s.Running) (hs : g.sense = .subtract) :
    (applyAmount g false s).entry g.dest =
      written { s.entry g.dest with
        borrowed := (s.entry g.dest).borrowed ||
          decide (decimalValue (s.entry g.dest).digits < g.count * g.weight) }
        (borrowedDifference (decimalValue (s.entry g.dest).digits) (g.count * g.weight)) := by
  simp only [applyAmount, hs, carryAmount, Bool.false_eq_true, if_false]
  rw [carryToValue_subtractTotal hr, entry_setEntry_notices, if_pos rfl]
  rfl

/-- The sum of an entry found DAMAGED, in its suspense. -/
theorem entry_applyAmount_add_damaged (hr : s.Running) (hs : g.sense = .add) :
    (applyAmount g true s).entry g.dest =
      { s.entry g.dest with
        wrapped := (s.entry g.dest).wrapped ||
          decide (999999999999 < (s.entry g.dest).suspense.getD 0 + g.count * g.weight),
        suspense := some (wrappedSum ((s.entry g.dest).suspense.getD 0 + g.count * g.weight)) } := by
  simp only [applyAmount, hs, carryAmount, if_true]
  rw [addTotal_eq, carryToSuspense_of_running hr _ _ _ (by simp), entry_setEntry_notices, if_pos rfl]
  simp only [Bool.or_false]
  rfl

/-- The difference of an entry found DAMAGED, in its suspense. -/
theorem entry_applyAmount_subtract_damaged (hr : s.Running) (hs : g.sense = .subtract) :
    (applyAmount g true s).entry g.dest =
      { s.entry g.dest with
        borrowed := (s.entry g.dest).borrowed ||
          decide ((s.entry g.dest).suspense.getD 0 < g.count * g.weight),
        suspense := some (borrowedDifference ((s.entry g.dest).suspense.getD 0) (g.count * g.weight)) } := by
  simp only [applyAmount, hs, carryAmount, if_true]
  rw [subtractTotal_eq, carryToSuspense_of_running hr _ _ _ (by simp), entry_setEntry_notices, if_pos rfl]
  simp only [Bool.or_false]
  rfl

end

/-- Settles O32: the amount on the entry with the deferred value on top, and the frame of the rest. -/
theorem applyCarriesTheAmount : Obligations.ApplyCarriesTheAmount := by
  intro s op n g hr ho hw
  refine ⟨_, exec_applyCompletion hr ho hw, ?_, ?_⟩
  · have hentry : ∀ x, (checkDrain (applied n g op.foundDamaged s)).entry x =
        withDeferred s.table.deferred x ((applyAmount g op.foundDamaged s).entry x) := fun x =>
      (entry_checkDrain _ x).trans (entry_applied ..)
    refine ⟨fun x hx => ?_, fun hf hs => ?_, fun hf hs => ?_, fun hf hs => ?_, fun hf hs => ?_⟩ <;> rw [hentry]
    · rw [entry_applyAmount_other _ hx]
    · rw [foundDamaged_of_healthy hf, entry_applyAmount_add hr hs]
    · rw [foundDamaged_of_healthy hf, entry_applyAmount_subtract hr hs]
    · rw [foundDamaged_of_damaged hf, entry_applyAmount_add_damaged hr hs]
    · rw [foundDamaged_of_damaged hf, entry_applyAmount_subtract_damaged hr hs]
  · obtain ⟨C, q, -, hdrain⟩ := checkDrain_frame (applied n g op.foundDamaged s)
    obtain ⟨E, q', -, (happlied : applied n g op.foundDamaged s = _)⟩ := applied_frame n g op.foundDamaged s
    rw [hdrain, happlied]
    exact ⟨rfl, rfl, rfl, rfl, rfl, rfl, rfl, rfl, rfl⟩

/-! ### The linked counter (R109 to R115) -/

theorem trips_applied (n : Fin 16) (g : Group) (d : Bool) (s : State) :
    (g.link = none → (checkDrain (applied n g d s)).trips = s.trips) ∧
      ∀ k, g.link = some k →
        (checkDrain (applied n g d s)).trips = s.trips.set k.val ((s.trip k).move g.sense g.amount).1 := by
  obtain ⟨C, q, -, hdrain⟩ := checkDrain_frame (applied n g d s)
  obtain ⟨E, q', -, (happlied : applied n g d s = _)⟩ := applied_frame n g d s
  rw [hdrain, happlied]
  exact ⟨fun h => by simp only [h], fun k h => by simp only [h]⟩

/-- A movement by an ADD-sense amount, state by state (R110 to R112, R115). -/
theorem moveDown_cases (c : TripCounter) (a : Nat) :
    (c.state = .idle → c.moveDown a = (c, .none)) ∧
    (c.state = .armed → a < c.remaining → c.prewarn = 0 ∨ c.prewarn < c.remaining - a →
      c.moveDown a = ({ c with remaining := c.remaining - a }, .none)) ∧
    (c.state = .armed → a < c.remaining → 0 < c.prewarn → c.remaining - a ≤ c.prewarn →
      c.moveDown a = ({ c with state := .prewarn, remaining := c.remaining - a }, .prewarn)) ∧
    (c.state = .prewarn → a < c.remaining → c.moveDown a = ({ c with remaining := c.remaining - a }, .none)) ∧
    (c.state = .armed ∨ c.state = .prewarn → c.remaining ≤ a →
      c.moveDown a =
        ({ c with state := .tripped, remaining := 0, overshoot := a - c.remaining },
          .trip (decide (c.remaining < a)))) ∧
    (c.state = .tripped → c.moveDown a = ({ c with overshoot := min 99999999 (c.overshoot + a) }, .none)) := by
  refine ⟨fun h => ?_, fun h hlt hlevel => ?_, fun h hlt hpos hlevel => ?_, fun h hlt => ?_, fun h hle => ?_,
    fun h => ?_⟩
  · simp only [TripCounter.moveDown, h]
  · simp only [TripCounter.moveDown, h, if_pos hlt]
    rw [if_neg (by omega)]
  · simp only [TripCounter.moveDown, h, if_pos hlt, if_pos (And.intro hpos hlevel)]
  · simp only [TripCounter.moveDown, h, if_pos hlt]
  · rcases h with h | h <;> simp only [TripCounter.moveDown, h, if_neg (Nat.not_lt.2 hle)]
  · simp only [TripCounter.moveDown, h, Config.tripMax]

/-- A movement by a SUBTRACT-sense amount, state by state (R113 to R115). -/
theorem moveUp_cases (c : TripCounter) (a : Nat) :
    (c.state = .idle → c.moveUp a = c) ∧
    (c.state = .armed → c.moveUp a = { c with remaining := min 99999999 (c.remaining + a) }) ∧
    (c.state = .prewarn → min 99999999 (c.remaining + a) ≤ c.prewarn →
      c.moveUp a = { c with remaining := min 99999999 (c.remaining + a) }) ∧
    (c.state = .prewarn → c.prewarn < min 99999999 (c.remaining + a) →
      c.moveUp a = { c with state := .armed, remaining := min 99999999 (c.remaining + a) }) ∧
    (c.state = .tripped → c.moveUp a = { c with overshoot := c.overshoot - a }) := by
  refine ⟨fun h => ?_, fun h => ?_, fun h hle => ?_, fun h hlt => ?_, fun h => ?_⟩
  · simp only [TripCounter.moveUp, h]
  · simp only [TripCounter.moveUp, h, Config.tripMax]
  · simp only [TripCounter.moveUp, h, Config.tripMax, if_pos hle]
  · simp only [TripCounter.moveUp, h, Config.tripMax, if_neg (Nat.not_le.2 hlt)]
  · simp only [TripCounter.moveUp, h]

/-- Settles O33: the linked counter is the one moved, by the rules of the amount's sense. -/
theorem applyMovesTheLinkedCounter : Obligations.ApplyMovesTheLinkedCounter := by
  intro s t op n g hr ho hw ht
  have hdone := Host.Outcome.next.inj (ht.symm.trans (exec_applyCompletion hr ho hw))
  obtain ⟨hnone, hsome⟩ := trips_applied n g op.foundDamaged s
  rw [← hdone] at hnone hsome
  refine ⟨hnone, fun k hk => ?_⟩
  have htrip : ∀ j, t.trip j = if k = j then ((s.trip k).move g.sense g.amount).1 else s.trip j := fun j => by
    rw [State.trip, hsome k hk]
    exact trip_setTrip s k j _
  refine ⟨fun j hj => by rw [htrip, if_neg (Ne.symm hj)], ?_⟩
  rw [htrip k, if_pos rfl]
  obtain ⟨hidle, harmed, hlevel, hprewarn, htripped, hover⟩ := moveDown_cases (s.trip k) g.amount
  obtain ⟨hidle', harmed', hstays, hback, hunder⟩ := moveUp_cases (s.trip k) g.amount
  refine ⟨fun h => ?_, fun hs h hlt hl => ?_, fun hs h hlt hpos hl => ?_, fun hs h hlt => ?_, fun hs h hle => ?_,
    fun hs h => ?_, fun hs h => ?_, fun hs h hle => ?_, fun hs h hlt => ?_, fun hs h => ?_⟩
  · cases g.sense with
    | add => exact congrArg Prod.fst (hidle h)
    | subtract => exact hidle' h
  all_goals simp only [hs, TripCounter.move]
  · exact congrArg Prod.fst (harmed h hlt hl)
  · exact congrArg Prod.fst (hlevel h hlt hpos hl)
  · exact congrArg Prod.fst (hprewarn h hlt)
  · exact congrArg Prod.fst (htripped h hle)
  · exact congrArg Prod.fst (hover h)
  · exact harmed' h
  · exact hstays h hle
  · exact hback h hlt
  · exact hunder h

/-! ### The notices (R48, R52, R90, R91, R116) -/

/-- The Notice Queue before the end of a drain: the notice of the counter on that of the entry. -/
theorem notices_applied {n : Fin 16} {g : Group} {d : Bool} {s : State} (hr : s.Running) :
    (g.link = none → (applied n g d s).notices = (applyAmount g d s).notices) ∧
      ∀ k, g.link = some k → (applied n g d s).notices =
        tripNotice n k ((s.trip k).move g.sense g.amount).2 (applyAmount g d s).notices := by
  obtain ⟨en, q, -, hamount⟩ := applyAmount_frame g d s
  have hframe := release_frame (applyAmount g d s)
  have hrunning : (release (applyAmount g d s)).Running := by
    rw [State.Running, hframe.2.2.2.2.2.2.2.2.2.2.1, hamount]
    exact hr
  have htrip : ∀ k, (release (applyAmount g d s)).trip k = s.trip k := fun k => by
    rw [State.trip, hframe.2.2.2.2.1, hamount]
    rfl
  have hnotices : (release (applyAmount g d s)).notices = (applyAmount g d s).notices :=
    hframe.2.2.2.2.2.2.2.2.1
  refine ⟨fun h => ?_, fun k h => ?_⟩
  · show (moveLinked n g (release (applyAmount g d s))).notices = _
    rw [moveLinked, h]
    exact hnotices
  · show (moveLinked n g (release (applyAmount g d s))).notices = _
    rw [moveLinked_of_running n g _ hrunning, h]
    simp only [htrip, hnotices]

/-- The notice of the entry (R52). -/
theorem notices_applyAmount {g : Group} {s : State} (hr : s.Running) (d : Bool) :
    (g.sense = .add → (applyAmount g d s).notices =
      carryNotice .wrap g.dest 1 (if d then 1 else 0)
        (decide (999999999999 < (if d then (s.entry g.dest).suspense.getD 0 else decimalValue (s.entry g.dest).digits)
          + g.amount)) (s.entry g.dest).wrapped s.notices) ∧
    (g.sense = .subtract → (applyAmount g d s).notices =
      carryNotice .borrow g.dest 1 (if d then 1 else 0)
        (decide ((if d then (s.entry g.dest).suspense.getD 0 else decimalValue (s.entry g.dest).digits) < g.amount))
        (s.entry g.dest).borrowed s.notices) := by
  rw [applyAmount_of_running g d s hr]
  exact ⟨fun h => by simp only [h], fun h => by simp only [h]⟩

/-- After an APPLY or a COPY no group is in flight, so a previous-epoch group is one queued (R90). -/
theorem previousExists_of_free {s t : State} (hfree : t.engine.op = none) (hepoch : t.capture.epoch = s.capture.epoch)
    (hqueue : ∀ n, (t.input n).queue = (s.input n).queue) : t.previousExists = false ↔ QueuesCurrent s := by
  rw [previousExists_false]
  simp only [previousInFlight_of_free hfree, hepoch, hqueue, true_and, QueuesCurrent]

theorem applied_keeps (n : Fin 16) (g : Group) (d : Bool) (s : State) :
    (applied n g d s).engine.op = none ∧ (applied n g d s).capture = s.capture ∧
      (applied n g d s).supply = s.supply ∧ ∀ m, ((applied n g d s).input m).queue = (s.input m).queue := by
  obtain ⟨E, q, -, (h : applied n g d s = _)⟩ := applied_frame n g d s
  rw [h]
  refine ⟨rfl, rfl, rfl, fun m => ?_⟩
  have hin := input_setInput s n m { s.input n with inFlight := false }
  refine (congrArg Input.queue hin).trans ?_
  split
  · next hm => subst hm; rfl
  · rfl

/-- The end of a drain after an APPLY: none unless it was the last previous-epoch group of a draining capture. -/
theorem checkDrain_applied {n : Fin 16} {g : Group} {d : Bool} {s : State} (hr : s.Running) :
    (s.capture.phase ≠ .draining ∨ ¬QueuesCurrent s → checkDrain (applied n g d s) = applied n g d s) ∧
      ∀ id, s.capture.phase = .draining → QueuesCurrent s → Filling s.capture id →
        (checkDrain (applied n g d s)).capture = completedUnit s.capture id ∧
          (checkDrain (applied n g d s)).notices =
            doneNotice id (s.capture.bank id).header.sequence (applied n g d s).notices := by
  obtain ⟨hfree, hcapture, hsupply, hqueue⟩ := applied_keeps n g d s
  have hexists := previousExists_of_free (s := s) hfree (congrArg _ hcapture) hqueue
  refine ⟨fun h => checkDrain_of_not ?_, fun id hphase hcurrent hfill => ?_⟩
  · rw [hcapture]
    refine h.imp_right fun hne => ?_
    rw [← Bool.not_eq_false, hexists]
    exact hne
  · have hrunning : (applied n g d s).Running := by rw [State.Running, hsupply]; exact hr
    rw [checkDrain_of_drained (by rw [hcapture]; exact hphase) (hexists.2 hcurrent),
      completeCapture_of_filling _ id hrunning (by rw [hcapture]; exact hfill)]
    rw [hcapture]
    exact ⟨rfl, rfl⟩

/-- The event of a movement by an ADD-sense amount that neither trips nor prewarns (R110, R115). -/
theorem moveDown_silent {c : TripCounter} {a : Nat}
    (h : ¬(c.state = .armed ∨ c.state = .prewarn) ∨
      (a < c.remaining ∧ (c.state = .prewarn ∨ c.prewarn = 0 ∨ c.prewarn < c.remaining - a))) :
    (c.moveDown a).2 = .none := by
  obtain ⟨hidle, harmed, hlevel, hprewarn, htripped, hover⟩ := moveDown_cases c a
  rcases h with h | ⟨hlt, h⟩
  · cases hs : c.state with
    | idle => rw [hidle hs]
    | armed => exact absurd (.inl hs) h
    | prewarn => exact absurd (.inr hs) h
    | tripped => rw [hover hs]
  · cases hs : c.state with
    | idle => rw [hidle hs]
    | armed => rw [harmed hs hlt (h.resolve_left (by simp [hs]))]
    | prewarn => rw [hprewarn hs hlt]
    | tripped => rw [hover hs]

/-- Settles O34: the Notice Queue before the end of the drain is the queue asked for. -/
theorem applyQueuesItsNoticesInOrder : Obligations.ApplyQueuesItsNoticesInOrder := by
  intro s t op n g found hr ho hw hfound ht en a quantity which q₁ counts
  have hdone := Host.Outcome.next.inj (ht.symm.trans (exec_applyCompletion hr ho hw))
  have hd : op.foundDamaged = decide (found = .damaged) := by
    cases found
    exacts [foundDamaged_of_healthy hfound, foundDamaged_of_damaged hfound]
  obtain ⟨hnone, hsome⟩ := notices_applied (n := n) (g := g) (d := op.foundDamaged) hr
  obtain ⟨hstill, hdrained⟩ := checkDrain_applied (n := n) (g := g) (d := op.foundDamaged) hr
  have hq : (applyAmount g op.foundDamaged s).notices = q₁ := by
    obtain ⟨hadd, hsubtract⟩ := notices_applyAmount (g := g) hr op.foundDamaged
    cases hs : g.sense with
    | add =>
      rw [hadd hs, hd]
      simp only [q₁, hs, quantity, which, decide_eq_true_eq]
      rfl
    | subtract =>
      rw [hsubtract hs, hd]
      simp only [q₁, hs, quantity, which, decide_eq_true_eq]
      rfl
  rw [hq] at hnone hsome
  refine ⟨(applied n g op.foundDamaged s).notices, fun k hk hs hcounts hle => ?_, fun k hk hs harmed hlt hpos hle => ?_, fun h => ?_, fun h => ?_,
    fun id hphase hcurrent hfill => ?_⟩
  · obtain ⟨-, -, -, -, htripped, -⟩ := moveDown_cases (s.trip k) a
    have hmove : (s.trip k).move g.sense g.amount = (s.trip k).moveDown a := by rw [hs]; rfl
    rw [hsome k hk, hmove, htripped hcounts hle]
    simp only [tripNotice]
    congr 1
    rcases Nat.lt_or_eq_of_le hle with h | h
    · simp [h, Nat.ne_of_lt h]
    · simp [h]
  · obtain ⟨-, -, hlevel, -⟩ := moveDown_cases (s.trip k) a
    have hmove : (s.trip k).move g.sense g.amount = (s.trip k).moveDown a := by rw [hs]; rfl
    rw [hsome k hk, hmove, hlevel harmed hlt hpos hle]
    rfl
  · cases hk : g.link with
    | none => exact hnone hk
    | some k =>
      have hsilent : ((s.trip k).move g.sense g.amount).2 = .none := by
        cases hs : g.sense with
        | subtract => rfl
        | add => exact moveDown_silent ((h k hk).resolve_left (by simp [hs]))
      rw [hsome k hk, hsilent]
      rfl
  · rw [hdone, hstill h]
    exact ⟨(applied_keeps n g op.foundDamaged s).2.1, rfl⟩
  · rw [hdone]
    exact hdrained id hphase hcurrent hfill

/-! ### COPY (R61, R86, R89 to R91) -/

theorem exec_copyCompletion {s : State} {op : Operation} {p : Nat} {e : Fin 64} (hr : s.Running)
    (ho : s.engine.op = some op) (hw : op.work = .copy p e) :
    exec .copyCompletion s = .next
      (checkDrain (release (s.setCapture (s.capture.takeCopy p (copyOf e (s.entry e) op.foundDamaged))))) := by
  show Host.Outcome.next (whenRunning completeCopy s) = _
  rw [whenRunning_of_running hr]
  simp only [completeCopy, ho, hw]

/-- A bank with the copy record at its position, and its two counts raised (R86). -/
theorem addCopy_eq (bk : Bank) (p : Fin 64) (r : CopyRecord) :
    bk.addCopy p.val r =
      { bk with
        header := { bk.header with
          copiesMade := bk.header.copiesMade + 1,
          damagedCopies := bk.header.damagedCopies + (if r.damaged then 1 else 0) },
        copies := bk.copies.set p.val r } := by
  have hcopies : bk.copies.setIfInBounds p.val r = bk.copies.set p.val r :=
    Vector.ext fun i hi => by rw [Vector.getElem_setIfInBounds, Vector.getElem_set]
  rw [Bank.addCopy, hcopies]
  cases r.damaged <;> rfl

/-- The unit after a copy into its filling bank (R86, R89). -/
theorem takeCopy_of_filling {c : CaptureUnit} {id : BankId} (h : Filling c id) (p : Nat) (r : CopyRecord) :
    c.takeCopy p r =
      { c.setBank id ((c.bank id).addCopy p r) with
        copiesMade := c.copiesMade + 1,
        phase := if c.copiesMade + 1 = c.list.length then .draining else c.phase } := by
  simp only [CaptureUnit.takeCopy, fillingBank_of c id h]

/-- The end of a drain after a COPY, from the unit that took it. -/
theorem checkDrain_copied {s : State} {c : CaptureUnit} (hr : s.Running) (hepoch : c.epoch = s.capture.epoch) :
    (c.phase ≠ .draining ∨ ¬QueuesCurrent s →
      (checkDrain (release (s.setCapture c))).capture = c ∧
        (checkDrain (release (s.setCapture c))).notices = s.notices) ∧
      ∀ id, c.phase = .draining → QueuesCurrent s → Filling c id →
        (checkDrain (release (s.setCapture c))).capture = completedUnit c id ∧
          (checkDrain (release (s.setCapture c))).notices = doneNotice id (c.bank id).header.sequence s.notices := by
  obtain ⟨E, he⟩ := release_exists (s.setCapture c)
  rw [he]
  have hexists := previousExists_of_free (s := s)
    (t := { s.setCapture c with
      table := { entries := E, held := [], deferred := none },
      engine := { (s.setCapture c).engine with op := none } }) rfl hepoch fun _ => rfl
  refine ⟨fun h => ?_, fun id hphase hcurrent hfill => ?_⟩
  · rw [checkDrain_of_not (h.imp_right fun hne => by rw [← Bool.not_eq_false, hexists]; exact hne)]
    exact ⟨rfl, rfl⟩
  · rw [checkDrain_of_drained hphase (hexists.2 hcurrent), completeCapture_of_filling _ id (by exact hr) hfill]
    exact ⟨rfl, rfl⟩

/-- The completion of a capture leaves IDLE, whatever the phase before it. -/
theorem completedUnit_phase (c : CaptureUnit) (ph : CapturePhase) (id : BankId) :
    completedUnit { c with phase := ph } id = completedUnit c id := by
  cases id <;> rfl

/-- Settles O35: the unit that takes the copy, the end of its drain, and the frame of the release. -/
theorem copyFillsTheBank : Obligations.CopyFillsTheBank := by
  intro s op p e found id hr ho hw hfound hfill hphase hp
  refine ⟨_, exec_copyCompletion hr ho hw, ?_, fun x => ?_, ?_⟩
  · intro bk en damaged record filled unit
    have hd : op.foundDamaged = damaged := by
      cases found
      exacts [foundDamaged_of_healthy hfound, foundDamaged_of_damaged hfound]
    have hrecord : copyOf e (s.entry e) op.foundDamaged = record := by
      simp only [copyOf, hd, record, damaged, decide_eq_true_eq]
      rfl
    have hfilled : bk.addCopy p.val record = filled := by
      rw [addCopy_eq]
      simp only [filled, record, damaged, decide_eq_true_eq]
      rw [show bk.state = .filling from hfill.1]
    have hunit : s.capture.takeCopy p.val record =
        { unit with phase := if p.val + 1 = s.capture.list.length then .draining else .copying } := by
      rw [takeCopy_of_filling hfill, hfilled, ← hp, hphase]
      simp only [unit, hp]
    have hunitphase : unit.phase = .copying := by
      simp only [unit, (setBank_frame s.capture id filled).2.1, hphase]
    have hbank : ∀ ph : CapturePhase, ({ unit with phase := ph } : CaptureUnit).bank id = filled ∧
        ({ unit with phase := ph } : CaptureUnit).bank id.other = s.capture.bank id.other := fun ph => by
      cases id <;> exact ⟨rfl, rfl⟩
    obtain ⟨hstill, hdrained⟩ := checkDrain_copied hr
      (takeCopy_epoch_phase s.capture p.val (copyOf e (s.entry e) op.foundDamaged)).1
    rw [hrecord, hunit] at hstill hdrained
    rw [hrecord, hunit]
    refine ⟨fun hne => ?_, fun heq hne => ?_, fun heq hcurrent => ?_⟩
    · rw [if_neg hne] at hstill ⊢
      rw [← hunitphase] at hstill ⊢
      exact hstill (.inl (by rw [hunitphase]; decide))
    · rw [if_pos heq] at hstill ⊢
      exact hstill (.inr hne)
    · rw [if_pos heq] at hdrained ⊢
      have hfilling : Filling { unit with phase := .draining } id := by
        rw [Filling, (hbank .draining).1, (hbank .draining).2]
        exact ⟨rfl, hfill.2⟩
      obtain ⟨hcapture, hnotices⟩ := hdrained id rfl hcurrent hfilling
      rw [(hbank .draining).1] at hnotices
      exact ⟨hcapture.trans (completedUnit_phase ..), hnotices⟩
  · rw [entry_checkDrain, release_entry]
    rfl
  · obtain ⟨E, he⟩ :=
      release_exists (s.setCapture (s.capture.takeCopy p (copyOf e (s.entry e) op.foundDamaged)))
    obtain ⟨C, q, -, hdrain⟩ :=
      checkDrain_frame (release (s.setCapture (s.capture.takeCopy p (copyOf e (s.entry e) op.foundDamaged))))
    rw [hdrain, he]
    exact ⟨rfl, rfl, rfl, rfl, rfl, rfl, rfl, rfl, rfl, rfl⟩

end Sys2Proof.Machine

/-! ## Edges of the count inputs (R27 to R34) -/

namespace Sys2Proof.Machine

open Sys2Proof.Safety

theorem placePulse_join {front : List Group} {tail pulse : Group} (h : tail.accepts pulse = true) :
    placePulse pulse (front ++ [tail]) = some (front ++ [{ tail with count := tail.count + 1 }]) := by
  simp [placePulse, h]

theorem placePulse_empty (pulse : Group) : placePulse pulse [] = some [pulse] := by simp [placePulse]

theorem placePulse_open {front : List Group} {tail pulse : Group} (h : tail.accepts pulse = false)
    (hroom : (front ++ [tail]).length < 4) : placePulse pulse (front ++ [tail]) = some (front ++ [tail] ++ [pulse]) := by
  simp only [placePulse, List.getLast?_concat, h, Bool.false_eq_true, if_false, Config.queueDepth, if_pos hroom]

theorem placePulse_full {front : List Group} {tail pulse : Group} (h : tail.accepts pulse = false)
    (hfull : 4 ≤ (front ++ [tail]).length) : placePulse pulse (front ++ [tail]) = none := by
  simp only [placePulse, List.getLast?_concat, h, Bool.false_eq_true, if_false, Config.queueDepth,
    if_neg (Nat.not_lt.2 hfull)]

/-- A pulse does not join a tail group that differs from it, or that is full (R32). -/
theorem accepts_eq_false {tail pulse : Group} (hp : pulse.count = 1)
    (h : { tail with count := 1 } ≠ pulse ∨ 63 ≤ tail.count) : tail.accepts pulse = false := by
  rw [Bool.eq_false_iff, ne_eq, accepts_iff tail pulse hp]
  rintro ⟨heq, hlt⟩
  rcases h with h | h
  · exact h heq
  · omega

/-- The pulse of an input is the group of R31. -/
theorem pulseOf_eq {c : InputConfig} {bin : Fin 4} {dest : Fin 64} (epoch : Bool)
    (h1 : c.tariffed = true → dest.val = c.base.val + bin.val) (h2 : c.tariffed = false → dest = c.base) :
    pulseOf c bin epoch =
      { dest := dest, epoch := epoch, weight := decimalValue c.weight, sense := c.sense, link := c.link,
        count := 1 } := by
  rw [pulseOf, destination_eq c bin dest h1 h2]

section

variable {s : State} {n : Fin 16} {level : Bool}

/-- A qualified edge whose pulse is accepted (R30, R32, R34). -/
theorem exec_inputEdge_accepted (hr : s.Running) (hl : (s.input n).level = !level)
    (hm : (s.input n).config.mode = .count) (h1 : (s.input n).config.edge = .rise → level = true)
    (h2 : (s.input n).config.edge = .fall → level = false) (h3 : (s.input n).lockout = false) {queue : List Group}
    (hp : placePulse (pulseOf (s.input n).config s.tariff.bin s.capture.epoch) (s.input n).queue = some queue) :
    exec (.inputEdge n level) s = .next
      { s with
        inputs := s.inputs.set n.val
          { s.input n with
            queue := queue, state := .active, lockout := decide ((s.input n).config.lockout ≠ 0), level := level } } := by
  show Host.Outcome.next (inputEdge n level s) = _
  rw [inputEdge_qualified s n level hr hl hm h1 h2 h3]
  have hp' : placePulse (pulseOf (s.input n).config (setLevel n level s).tariff.bin (setLevel n level s).capture.epoch)
      (s.input n).queue = some queue := hp
  simp only [qualifiedEdge, input_setLevel, hp']
  exact congrArg Host.Outcome.next (setInput_setInput ..)

/-- A qualified edge whose pulse is dropped (R30, R33). -/
theorem exec_inputEdge_dropped (hr : s.Running) (hl : (s.input n).level = !level)
    (hm : (s.input n).config.mode = .count) (h1 : (s.input n).config.edge = .rise → level = true)
    (h2 : (s.input n).config.edge = .fall → level = false) (h3 : (s.input n).lockout = false)
    (hp : placePulse (pulseOf (s.input n).config s.tariff.bin s.capture.epoch) (s.input n).queue = none) :
    exec (.inputEdge n level) s = .next
      { s with
        inputs := s.inputs.set n.val
          { s.input n with
            dropped := min 65535 ((s.input n).dropped + 1), state := .overrun,
            lockout := decide ((s.input n).config.lockout ≠ 0), level := level },
        notices := if (s.input n).state = .overrun then s.notices
          else s.notices.offer .overrun (byteOf n.val)
            (highByte (BitVec.ofNat 16 (min 65535 ((s.input n).dropped + 1))))
            (lowByte (BitVec.ofNat 16 (min 65535 ((s.input n).dropped + 1)))) } := by
  show Host.Outcome.next (inputEdge n level s) = _
  rw [inputEdge_qualified s n level hr hl hm h1 h2 h3]
  have hp' : placePulse (pulseOf (s.input n).config (setLevel n level s).tariff.bin (setLevel n level s).capture.epoch)
      (s.input n).queue = none := hp
  simp only [qualifiedEdge, input_setLevel, hp', Config.droppedMax]
  split
  · exact congrArg Host.Outcome.next (setInput_setInput ..)
  · rw [offer_of_running (by exact hr), setLevel, setInput_setInput]
    rfl

end

/-- Settles O36: where the pulse is placed, by the tail of the queue. -/
theorem acceptedPulseJoinsOrOpensAGroup : Obligations.AcceptedPulseJoinsOrOpensAGroup := by
  intro s n level dest hr i c hl hm h1 h2 h3 hd1 hd2 pulse
  have hpulse : pulseOf (s.input n).config s.tariff.bin s.capture.epoch = pulse := pulseOf_eq _ hd1 hd2
  refine ⟨fun front tail hq hsame hlt => ?_, fun hq => ?_, fun front tail hq hno hroom => ?_⟩ <;>
    refine exec_inputEdge_accepted hr hl hm h1 h2 h3 ?_ <;> rw [hpulse]
  · rw [show (s.input n).queue = _ from hq]
    exact placePulse_join ((accepts_iff tail pulse rfl).2 ⟨hsame, hlt⟩)
  · rw [show (s.input n).queue = _ from hq]
    exact placePulse_empty pulse
  · rw [hq] at hroom
    rw [show i.queue = _ from hq]
    exact placePulse_open (accepts_eq_false rfl hno) hroom

/-- Settles O37: a full queue whose tail the pulse cannot join takes no pulse. -/
theorem droppedPulseOverruns : Obligations.DroppedPulseOverruns := by
  intro s n level dest front tail hr i c hl hm h1 h2 h3 hd1 hd2 hq hfull hno
  refine exec_inputEdge_dropped hr hl hm h1 h2 h3 ?_
  rw [pulseOf_eq _ hd1 hd2, show (s.input n).queue = _ from hq]
  rw [hq] at hfull
  exact placePulse_full (accepts_eq_false rfl hno) hfull

/-- A transition to a level that the input does not count, or that meets a held part (R29, R43). -/
theorem inputEdge_ignored {s : State} {n : Fin 16} {level : Bool}
    (h : ¬s.Running ∨ ¬((s.input n).config.mode = .count ∧ (s.input n).config.edge.selects level = true)) :
    inputEdge n level s = setLevel n level s := by
  unfold inputEdge
  split
  · next hl => rw [setLevel, ← hl, setInput_input]
  · rcases whenRunning_cases (handleEdge n level) (setLevel n level s) with ⟨hr, he⟩ | ⟨-, he⟩
    · rw [he, handleEdge]
      simp only [input_setLevel]
      rw [if_neg (h.resolve_left (not_not.2 hr))]
    · exact he

/-- Settles O38: an edge that is ignored, one that is rejected, and the end of the lockout. -/
theorem ignoredAndRejectedEdges : Obligations.IgnoredAndRejectedEdges := by
  intro s n level i follows
  refine ⟨fun hl => congrArg Host.Outcome.next (if_pos hl), fun h => ?_, fun hr hl hm h1 h2 hk => ?_, rfl⟩
  · refine congrArg Host.Outcome.next (inputEdge_ignored (h.imp_right ?_))
    rintro h ⟨hm, hs⟩
    rcases h with h | ⟨he, hlevel⟩ | ⟨he, hlevel⟩
    · cases h.symm.trans hm
    · rw [he, hlevel] at hs
      cases hs
    · rw [he, hlevel] at hs
      cases hs
  · have hne : (s.input n).level ≠ level := by
      rw [show (s.input n).level = !level from hl]
      cases level <;> decide
    refine congrArg Host.Outcome.next ?_
    rw [inputEdge, if_neg hne, whenRunning_of_running (by exact hr), handleEdge]
    simp only [input_setLevel]
    rw [if_pos ⟨hm, selects_of _ _ h1 h2⟩, if_pos hk, setLevel, setInput_setInput]
    rfl

end Sys2Proof.Machine

/-! ## Time and the schedule (R121 to R136) -/

namespace Sys2Proof.Machine

open Sys2Proof.Safety

theorem whenTimed_of_timed {s : State} (h : s.supply.hold ≠ .cold) (f : State → State) : whenTimed f s = f s :=
  if_neg h

theorem whenTimed_of_cold {s : State} (h : s.supply.hold = .cold) (f : State → State) : whenTimed f s = s := if_pos h

theorem timebaseEdge_of_lt {s : State} (h : s.tariff.phase < 32767) :
    timebaseEdge s = { s with tariff := { s.tariff with phase := s.tariff.phase + 1 } } :=
  if_pos (Nat.succ_lt_succ h)

theorem timebaseEdge_of_last {s : State} (h : s.tariff.phase = 32767) : timebaseEdge s = secondExpiry s :=
  if_neg (by simp [h])

theorem secondExpiry_of_lt {s : State} (h : s.tariff.second < 59) :
    secondExpiry s = { s with tariff := { s.tariff with phase := 0, second := s.tariff.second + 1 } } :=
  if_pos (Nat.succ_lt_succ h)

theorem secondExpiry_of_last {s : State} (h : s.tariff.second = 59) : secondExpiry s = minuteExpiry s :=
  if_neg (by simp [h])

/-- Settles O40: the counts of the timebase, in cold reset and outside it. -/
theorem timebaseCounts : Obligations.TimebaseCounts := by
  intro s
  refine ⟨fun h => ?_, fun h => ?_⟩
  · exact ⟨congrArg Host.Outcome.next (whenTimed_of_cold h _), congrArg Host.Outcome.next (whenTimed_of_cold h _),
      congrArg Host.Outcome.next (whenTimed_of_cold h _)⟩
  · have htimed : exec .timebaseEdge s = .next (timebaseEdge s) ∧ exec .secondExpiry s = .next (secondExpiry s) ∧
        exec .minuteExpiry s = .next (minuteExpiry s) :=
      ⟨congrArg Host.Outcome.next (whenTimed_of_timed h _), congrArg Host.Outcome.next (whenTimed_of_timed h _),
        congrArg Host.Outcome.next (whenTimed_of_timed h _)⟩
    obtain ⟨hedge, hsecond, hminute⟩ := htimed
    rw [hedge, hsecond, hminute]
    exact ⟨fun hp => congrArg Host.Outcome.next (timebaseEdge_of_lt hp),
      fun hp => congrArg Host.Outcome.next (timebaseEdge_of_last hp),
      fun hs => congrArg Host.Outcome.next (secondExpiry_of_lt hs),
      fun hs => congrArg Host.Outcome.next (secondExpiry_of_last hs)⟩

/-! ### Expiries as runs of edges (R121, R122) -/

/-- A function on outcomes that runs `g` on a next state, iterated, runs `g` iterated. -/
theorem iterate_next {f : Host.Outcome State Fault Refusal → Host.Outcome State Fault Refusal} {g : State → State}
    (h : ∀ u, f (.next u) = .next (g u)) (k : Nat) (s : State) : f^[k] (.next s) = .next (g^[k] s) := by
  induction k generalizing s with
  | zero => rfl
  | succ k ih => rw [Function.iterate_succ_apply, Function.iterate_succ_apply, h, ih]

/-- Timebase edges before the last of a second advance the phase (R121). -/
theorem iterate_timebaseEdge (k : Nat) (s : State) (h : s.tariff.phase + k < 32768) :
    timebaseEdge^[k] s = { s with tariff := { s.tariff with phase := s.tariff.phase + k } } := by
  induction k generalizing s with
  | zero => rfl
  | succ k ih =>
    rw [Function.iterate_succ_apply, timebaseEdge_of_lt (by omega), ih _ (by simp only; omega)]
    simp only [Nat.add_assoc, Nat.add_comm 1 k]

/-- A second expiry overwrites the phase. -/
theorem secondExpiry_phase (s : State) (p : Nat) :
    secondExpiry { s with tariff := { s.tariff with phase := p } } = secondExpiry s := rfl

/-- A minute expiry overwrites the phase and the second. -/
theorem minuteExpiry_second (s : State) (p c : Nat) :
    minuteExpiry { s with tariff := { s.tariff with phase := p, second := c } } = minuteExpiry s := rfl

/-- The edges left of a second are its expiry: the last of them expires it (R121). -/
theorem iterate_timebaseEdge_second (s : State) (h : s.tariff.phase < 32768) :
    timebaseEdge^[32768 - s.tariff.phase] s = secondExpiry s := by
  obtain ⟨k, hk⟩ : ∃ k, 32768 - s.tariff.phase = k + 1 := ⟨32767 - s.tariff.phase, by omega⟩
  rw [hk, Function.iterate_succ_apply', iterate_timebaseEdge k s (by omega),
    timebaseEdge_of_last (by simp only; omega), secondExpiry_phase]

/-- The edges left of a minute are its expiry: second by second, the last of them expires it (R121, R122). -/
theorem iterate_timebaseEdge_minute (k : Nat) (s : State) (hp : s.tariff.phase < 32768)
    (hs : s.tariff.second + k = 59) :
    timebaseEdge^[k * 32768 + (32768 - s.tariff.phase)] s = minuteExpiry s := by
  induction k generalizing s with
  | zero => rw [Nat.zero_mul, Nat.zero_add, iterate_timebaseEdge_second s hp, secondExpiry_of_last hs]
  | succ k ih =>
    have hrest := ih { s with tariff := { s.tariff with phase := 0, second := s.tariff.second + 1 } }
      (Nat.zero_lt_succ _) (by simp only; omega)
    rw [Nat.sub_zero, ← Nat.succ_mul, minuteExpiry_second] at hrest
    rw [Function.iterate_add_apply, iterate_timebaseEdge_second s hp, secondExpiry_of_lt (by omega)]
    exact hrest

theorem supply_timebaseEdge (s : State) : (timebaseEdge s).supply = s.supply := by
  have hminute : (minuteExpiry s).supply = s.supply := by
    obtain ⟨_, _, _, -, he⟩ := minuteExpiry_frame s
    rw [he]
  unfold timebaseEdge secondExpiry
  split
  · rfl
  · split
    · rfl
    · exact hminute

/-- A step that keeps the supply is taken again and again outside cold reset. -/
theorem iterate_whenTimed {g : State → State} (hg : ∀ u, (g u).supply = u.supply) (k : Nat) {s : State}
    (h : s.supply.hold ≠ .cold) : (whenTimed g)^[k] s = g^[k] s := by
  induction k generalizing s with
  | zero => rfl
  | succ k ih =>
    rw [Function.iterate_succ_apply, Function.iterate_succ_apply, whenTimed_of_timed h, ih (by rw [hg]; exact h)]

/-- In cold reset the edges leave no trace. -/
theorem iterate_whenTimed_cold (g : State → State) (k : Nat) {s : State} (h : s.supply.hold = .cold) :
    (whenTimed g)^[k] s = s := Function.iterate_fixed (whenTimed_of_cold h g) k

/-- Settles O41: by the runs of edges of one second and of one minute. -/
theorem expiriesAreRunsOfTimebaseEdges : Obligations.ExpiriesAreRunsOfTimebaseEdges := by
  unfold Obligations.ExpiriesAreRunsOfTimebaseEdges
  intro edges s hp hs _
  have hedges : ∀ k, edges k (.next s) = .next ((whenTimed timebaseEdge)^[k] s) := fun k =>
    iterate_next (fun u => rfl) k s
  rw [hedges, hedges]
  show Host.Outcome.next (whenTimed secondExpiry s) = _ ∧ Host.Outcome.next (whenTimed minuteExpiry s) = _
  by_cases h : s.supply.hold = .cold
  · simp only [whenTimed_of_cold h, iterate_whenTimed_cold _ _ h, and_self]
  · have hminute : (60 - s.tariff.second) * 32768 - s.tariff.phase =
        (59 - s.tariff.second) * 32768 + (32768 - s.tariff.phase) := by omega
    simp only [whenTimed_of_timed h, iterate_whenTimed supply_timebaseEdge _ h, hminute]
    exact ⟨congrArg Host.Outcome.next (iterate_timebaseEdge_second s hp).symm,
      congrArg Host.Outcome.next (iterate_timebaseEdge_minute _ s hp (by omega)).symm⟩

end Sys2Proof.Machine

/-! ## The schedule at a minute expiry and at its enable (R128 to R131) -/

namespace Sys2Proof.Machine

open Sys2Proof.Safety

theorem exec_minuteExpiry {s : State} (h : s.supply.hold ≠ .cold) : exec .minuteExpiry s = .next (minuteExpiry s) :=
  congrArg Host.Outcome.next (whenTimed_of_timed h _)

/-- With the enable clear, or no point at the new minute, a minute expiry is the time alone (R122, R129). -/
theorem minuteExpiry_quiet {s : State} (h : s.tariff.enable = false ∨ s.tariff.nextMinute.matching = none) :
    minuteExpiry s = { s with tariff := s.tariff.nextMinute } := by
  unfold minuteExpiry
  simp only
  split
  · next p hp =>
    rcases h with h | h
    · have he : s.tariff.nextMinute.enable = false := by rw [← h, Tariff.nextMinute]; split <;> rfl
      rw [he, if_neg Bool.false_ne_true]
    · cases h.symm.trans hp
  · rfl

/-- With the enable set, the point at the new minute is switched to (R129). -/
theorem minuteExpiry_matching {s : State} {p : SwitchPoint} (he : s.tariff.nextMinute.enable = true)
    (h : s.tariff.nextMinute.matching = some p) :
    minuteExpiry s = switchTo p { s with tariff := s.tariff.nextMinute } := by
  unfold minuteExpiry
  simp only [h, he, if_true]

/-- A point switched to in a held part writes its bin alone (R136). -/
theorem switchTo_of_held {p : SwitchPoint} {u : State} (hr : ¬u.Running) :
    switchTo p u = { u with tariff := { u.tariff with bin := p.binOf } } := by
  have hbin : setBin p.binOf .schedule u = { u with tariff := { u.tariff with bin := p.binOf } } := by
    rw [setBin_eq, if_neg hr]
  rw [switchTo, hbin]
  simp only
  rw [whenRunning_of_held (by exact hr), ite_self]

/-- A point switched to in a running part writes its bin with its notice, and its flag triggers (R129, R130). -/
theorem switchTo_of_running {p : SwitchPoint} {u : State} (hr : u.Running) :
    switchTo p u =
      if p.capture = true then
        trigger .schedule
          { u with tariff := { u.tariff with bin := p.binOf }, notices := tariffNotice p.binOf u.tariff.bin 1 u.notices }
      else
        { u with
          tariff := { u.tariff with bin := p.binOf }, notices := tariffNotice p.binOf u.tariff.bin 1 u.notices } := by
  rw [switchTo, setBin_of_running hr, whenRunning_of_running (by exact hr)]
  rfl

/-- Settles O42: the point at the new minute, in a held part and in a running one. -/
theorem minuteExpirySwitches : Obligations.MinuteExpirySwitches := by
  intro s hcold hminute time matching
  have htime : s.tariff.nextMinute = time := nextMinute_eq _ hminute
  rw [exec_minuteExpiry hcold]
  refine ⟨fun h => ?_, fun i b he hv hi hb => ?_⟩
  · rw [minuteExpiry_quiet (h.imp_right fun ⟨hc, hno⟩ => ?_), htime]
    rw [htime]
    exact matching_eq_none time hc hno
  · intro told
    have hp : time.matching = some s.tariff.points[i.val] := matching_eq_some time hv i hi
    rw [minuteExpiry_matching (by rw [htime]; exact he) (htime ▸ hp), htime]
    have hbin : s.tariff.points[i.val].binOf = b := binOf_eq _ b hb
    refine ⟨fun hr => ?_, fun hr hflag => ?_, fun hr hflag hphase => ?_, fun hr hflag hphase hbanks hone => ?_⟩
    · rw [switchTo_of_held (by exact hr), hbin]
    · rw [switchTo_of_running (by exact hr), if_neg (by simp [hflag]), hbin]
    · rw [switchTo_of_running (by exact hr), if_pos hflag, hbin, trigger_of_capturing _ (by exact hphase),
        offer_of_running (by exact hr)]
      rfl
    · obtain ⟨t, id, htaken, hspec, heq, henable, hlockout, hlevel⟩ :=
        takeTrigger_spec { s with tariff := { time with bin := b }, notices := told } .schedule hr hbanks hone
      rw [switchTo_of_running (by exact hr), if_pos hflag, hbin]
      refine ⟨t, id, ?_, ?_, ?_⟩
      · rw [trigger, if_pos (by exact hphase)]
        exact congrArg Host.Outcome.next htaken
      · exact ⟨hspec.chosen, hspec.epoch, hspec.sequence, hspec.members, hspec.ascending, hspec.copiesMade,
          hspec.header, hspec.copies, hspec.otherBank, hspec.copying, hspec.draining, hspec.ended⟩
      · rw [heq]
        exact ⟨rfl, henable, hlockout, hlevel, rfl, rfl, rfl, rfl, rfl, rfl, rfl, rfl⟩

theorem exec_enableAttempt {s : State} (hr : s.Running) : exec .enableAttempt s = .next (enableSchedule s) :=
  congrArg Host.Outcome.next (whenRunning_of_running hr _)

/-- An enable attempt on a valid schedule sets the enable and resolves the bin (R128). -/
theorem enableSchedule_of_valid {s : State} (he : s.tariff.enable = false) (hv : ScheduleValid s.tariff) :
    enableSchedule s = resolveBin { s with tariff := { s.tariff with enable := true, invalid := false } } := by
  rw [enableSchedule, if_neg (by simp [he]), if_pos ((valid_iff _).2 hv)]

/-- An empty schedule is valid (R126). -/
theorem scheduleValid_of_empty {t : Tariff} (h : t.count.toNat = 0) : ScheduleValid t :=
  ⟨by omega, fun i hi => by omega, fun i hi => by omega⟩

/-- Settles O46: by the enable and the validity of the schedule. -/
theorem scheduleEnableValidatesAndResolves : Obligations.ScheduleEnableValidatesAndResolves := by
  intro s hr
  rw [exec_enableAttempt hr]
  refine ⟨congrArg Host.Outcome.next (whenRunning_of_running hr _), fun he => ?_, fun he hv => ?_, fun he hc => ?_,
    fun i b he hv hin hb => ?_⟩
  · rw [enableSchedule, if_pos he]
  · rw [enableSchedule, if_neg (by simp [he]), if_neg fun h => hv ((valid_iff _).1 h)]
  · rw [enableSchedule_of_valid he (scheduleValid_of_empty hc), resolveBin_of_empty (by exact hc)]
  · rw [enableSchedule_of_valid he hv, resolveBin_of_inForce (by exact hr) (by exact hv) (by exact hin) (by exact hb)]

/-- Settles O43: by the room in the Notice Queue and by its lost count. -/
theorem noticeIsStoredOrCounted : Obligations.NoticeIsStoredOrCounted := by
  intro q kind subject d0 d1
  refine ⟨fun h => ?_, fun h hlost => ?_, fun h hlost => ?_⟩
  · rw [Notices.offer, if_pos (by exact h)]
  · rw [Notices.offer, if_neg (by exact Nat.not_lt.2 h), Nat.min_eq_right (by exact hlost)]
  · rw [Notices.offer, if_neg (by exact Nat.not_lt.2 h), hlost]
    exact congrArg (fun n => { q with lost := n }) hlost.symm

/-! ## The time hold (R124) -/

theorem highByte_ofNat (n : Nat) : highByte (BitVec.ofNat 16 n) = BitVec.ofNat 8 (n / 256) := by
  apply BitVec.eq_of_toNat_eq
  simp only [highByte, BitVec.extractLsb'_toNat, BitVec.toNat_ofNat, Nat.shiftRight_eq_div_pow]
  omega

theorem lowByte_ofNat (n : Nat) : lowByte (BitVec.ofNat 16 n) = BitVec.ofNat 8 n := by
  apply BitVec.eq_of_toNat_eq
  simp only [lowByte, BitVec.extractLsb'_toNat, BitVec.toNat_ofNat, Nat.shiftRight_zero]
  omega

theorem exec_timeDayHiRead {s : State} (hr : s.Running) : exec .timeDayHiRead s = .next (readDayHigh s) :=
  congrArg Host.Outcome.next (readAccess_of_running hr _)

/-- Settles O47: the read takes the hold, which the other time bytes show. -/
theorem timeDayHiReadLoadsTheHold : Obligations.TimeDayHiReadLoadsTheHold := by
  intro s hr
  refine ⟨readDayHigh s, exec_timeDayHiRead hr, rfl, readRegister_of_running hr 0x1E,
    readRegister_of_running (by exact hr) 0x1F, ?_, ?_, readRegister_of_running (by exact hr) 0x22⟩
  · exact (readRegister_of_running (by exact hr) 0x20).trans (congrArg some (highByte_ofNat s.tariff.minute))
  · exact (readRegister_of_running (by exact hr) 0x21).trans (congrArg some (lowByte_ofNat s.tariff.minute))

end Sys2Proof.Machine

/-! ## The check digit (R3) -/

namespace Sys2Proof.Machine

open Sys2Proof.Safety

/-- The weight of a digit position in the check digit: 3 at even positions, 1 at odd ones. -/
def checkWeight (i : Nat) : Nat := if i % 2 = 0 then 3 else 1

theorem checkWeight_zero : checkWeight 0 = 3 := rfl

theorem checkWeight_one : checkWeight 1 = 1 := rfl

/-- A change of one digit moves the weighted sum by the change, times the weight of the position. -/
theorem weightedSum_set (d : Nibble) : ∀ (l : List Nibble) (i : Nat) (h : i < l.length),
    weightedSum (l.set i d) + checkWeight i * l[i].toNat = weightedSum l + checkWeight i * d.toNat
  | [a], 0, _ => by simp only [List.set_cons_zero, weightedSum, checkWeight_zero, List.getElem_cons_zero]; omega
  | a :: b :: l, 0, _ => by
    simp only [List.set_cons_zero, weightedSum, checkWeight_zero, List.getElem_cons_zero]; omega
  | a :: b :: l, 1, _ => by
    simp only [List.set_cons_succ, List.set_cons_zero, weightedSum, checkWeight_one, List.getElem_cons_succ,
      List.getElem_cons_zero]
    omega
  | a :: b :: l, i + 2, h => by
    have ih := weightedSum_set d l i (by simp only [List.length_cons] at h; omega)
    have hw : checkWeight (i + 2) = checkWeight i := by simp [checkWeight]
    simp only [List.set_cons_succ, weightedSum, List.getElem_cons_succ, hw]
    omega

/-- An even number of decimal digits have a weighted sum of at most 18 each. -/
theorem weightedSum_le : ∀ l : List Nibble, l.length % 2 = 0 → (∀ d ∈ l, d.toNat ≤ 9) →
    weightedSum l ≤ 18 * l.length
  | [], _, _ => Nat.le_refl _
  | a :: b :: l, hlen, h => by
    have ih := weightedSum_le l (by simp only [List.length_cons] at hlen; omega)
      fun d hd => h d (List.mem_cons_of_mem _ (List.mem_cons_of_mem _ hd))
    have ha := h a (by simp)
    have hb := h b (by simp)
    simp only [weightedSum, List.length_cons]
    omega

theorem toNat_le_of_decimal {n : Nat} {ds : Vector Nibble n} (h : Decimal ds) : ∀ d ∈ ds.toList, d.toNat ≤ 9 := by
  have := (allDecimal_iff ds).2 h
  simpa only [allDecimal, isDecimal, List.all_eq_true, decide_eq_true_eq] using this

theorem weightedSum_setDigit (ds : Vector Nibble 12) (i : Nat) (d : Nibble) (h : i < 12) :
    weightedSum (ds.set i d h).toList + checkWeight i * ds[i].toNat =
      weightedSum ds.toList + checkWeight i * d.toNat := by
  have hset := weightedSum_set d ds.toList i (by simpa using h)
  rwa [← Vector.toList_set, Vector.getElem_toList] at hset

/-- Two values have the same check digit when their weighted sums agree modulo 10. -/
theorem checkDigit_eq_iff (a b : Vector Nibble 12) :
    checkDigit a = checkDigit b ↔ weightedSum a.toList % 10 = weightedSum b.toList % 10 := by
  rw [Fin.ext_iff, checkDigit_val, checkDigit_val]
  omega

theorem checkWeight_or (i : Nat) :
    (checkWeight i = 3 ∧ checkWeight (i + 1) = 1) ∨ (checkWeight i = 1 ∧ checkWeight (i + 1) = 3) := by
  unfold checkWeight
  split
  · exact .inl ⟨rfl, if_neg (by omega)⟩
  · exact .inr ⟨rfl, if_pos (by omega)⟩

/-- Settles O8: both weights are invertible modulo 10, and they differ by 2. -/
theorem checkDigitDetectsChanges : Obligations.CheckDigitDetectsChanges := by
  refine ⟨fun ds hds => ?_, fun ds i d hds hd hne => ?_, fun ds i hds => ?_⟩
  · have hsum := weightedSum_eq ds
    have hval := checkDigit_val ds
    have hle := weightedSum_le ds.toList (by simp) (toNat_le_of_decimal hds)
    rw [hsum] at hval hle
    exact ⟨by simpa only [Vector.length_toList] using hle, hval⟩
  · rw [ne_eq, checkDigit_eq_iff]
    have hset := weightedSum_setDigit ds i.val d i.isLt
    have hold := hds i
    have hdiff : d.toNat ≠ ds[i.val].toNat := fun h => hne (BitVec.eq_of_toNat_eq h)
    rcases checkWeight_or i.val with ⟨hw, -⟩ | ⟨hw, -⟩ <;> rw [hw] at hset <;> omega
  · have hfirst := weightedSum_setDigit ds i.val ds[i.val + 1] (by omega)
    have hsecond := weightedSum_setDigit (ds.set i.val ds[i.val + 1]) (i.val + 1) ds[i.val] (by omega)
    rw [Vector.getElem_set_ne (by omega) (by omega) (by omega)] at hsecond
    have hx : ds[i.val].toNat ≤ 9 := hds i.castSucc
    have hy : ds[i.val + 1].toNat ≤ 9 := hds i.succ
    rw [checkDigit_eq_iff, BitVec.toNat_inj.symm]
    rcases checkWeight_or i.val with ⟨hw, hw'⟩ | ⟨hw, hw'⟩ <;> rw [hw] at hfirst <;> rw [hw'] at hsecond <;> omega

end Sys2Proof.Machine

/-! ## Packed BCD and decimal digits (R1, R2, R185) -/

namespace Sys2Proof.Machine

open Sys2Proof.Safety

theorem toNat_packNibbles (high low : Nibble) : (packNibbles high low).toNat = 16 * high.toNat + low.toNat := by
  rw [packNibbles, BitVec.toNat_append, ← Nat.shiftLeft_add_eq_or_of_lt low.isLt, Nat.shiftLeft_eq]
  omega

theorem toNat_highNibble (b : Byte) : (highNibble b).toNat = b.toNat / 16 := by
  simp only [highNibble, BitVec.extractLsb'_toNat, Nat.shiftRight_eq_div_pow]
  omega

theorem toNat_lowNibble (b : Byte) : (lowNibble b).toNat = b.toNat % 16 := by simp [lowNibble]

@[simp] theorem highNibble_pack (high low : Nibble) : highNibble (packNibbles high low) = high := by
  apply BitVec.eq_of_toNat_eq
  rw [toNat_highNibble, toNat_packNibbles]
  omega

@[simp] theorem lowNibble_pack (high low : Nibble) : lowNibble (packNibbles high low) = low := by
  apply BitVec.eq_of_toNat_eq
  rw [toNat_lowNibble, toNat_packNibbles]
  omega

@[simp] theorem pack_nibbles (b : Byte) : packNibbles (highNibble b) (lowNibble b) = b := by
  apply BitVec.eq_of_toNat_eq
  rw [toNat_packNibbles, toNat_highNibble, toNat_lowNibble]
  omega

theorem length_bcdBytes {n : Nat} (ds : Vector Nibble n) : (bcdBytes ds).length = n / 2 := by simp [bcdBytes]

/-- The byte at a position of packed digits, most significant byte first. -/
theorem getD_bcdBytes {n : Nat} (ds : Vector Nibble n) {j : Nat} (h : j < n / 2) :
    (bcdBytes ds).getD j 0 = packNibbles ds[n - 1 - 2 * j] ds[n - 2 - 2 * j] := by
  have hlt : j < (bcdBytes ds).length := by rw [length_bcdBytes]; exact h
  rw [List.getD_eq_getElem _ _ hlt]
  simp only [bcdBytes, List.getElem_map, List.getElem_range]
  rw [List.getD_eq_getElem _ _ (by simp; omega), List.getD_eq_getElem _ _ (by simp; omega)]
  simp

theorem bcdDigits_bcdBytes {n : Nat} (hn : n % 2 = 0) (ds : Vector Nibble n) : bcdDigits n (bcdBytes ds) = ds := by
  refine Vector.ext fun i hi => ?_
  simp only [bcdDigits, Vector.getElem_ofFn]
  rw [getD_bcdBytes ds (by omega)]
  split
  · next h =>
    rw [highNibble_pack]
    congr 1
    omega
  · next h =>
    rw [lowNibble_pack]
    congr 1
    omega

/-- The digits at the two positions that a byte holds. -/
theorem getElem_bcdDigits {n : Nat} (bytes : List Byte) {j : Nat} (h : j < n / 2) :
    (bcdDigits n bytes)[n - 1 - 2 * j] = highNibble (bytes.getD j 0) ∧
      (bcdDigits n bytes)[n - 2 - 2 * j] = lowNibble (bytes.getD j 0) := by
  simp only [bcdDigits, Vector.getElem_ofFn]
  have h1 : n - 1 - (n - 1 - 2 * j) = 2 * j := by omega
  have h2 : n - 1 - (n - 2 - 2 * j) = 2 * j + 1 := by omega
  have h3 : (2 * j + 1) / 2 = j := by omega
  rw [h1, h2, h3, if_pos (by omega), if_neg (by omega), Nat.mul_div_cancel_left j Nat.two_pos]
  exact ⟨rfl, rfl⟩

theorem bcdBytes_bcdDigits {n : Nat} {bytes : List Byte} (h : bytes.length = n / 2) :
    bcdBytes (bcdDigits n bytes) = bytes := by
  apply List.ext_getElem (by rw [length_bcdBytes, h])
  intro j h1 h2
  obtain ⟨hhigh, hlow⟩ := getElem_bcdDigits (n := n) bytes (h ▸ h2 : j < n / 2)
  rw [← List.getD_eq_getElem _ 0 h1, getD_bcdBytes _ (h ▸ h2), hhigh, hlow, pack_nibbles,
    List.getD_eq_getElem _ 0 h2]

/-- Packed digits are read from as many bytes as hold them. -/
theorem bcdDigits_append {n : Nat} (hn : n % 2 = 0) {bytes : List Byte} (rest : List Byte)
    (h : bytes.length = n / 2) : bcdDigits n (bytes ++ rest) = bcdDigits n bytes := by
  refine Vector.ext fun i hi => ?_
  have hlt : (n - 1 - i) / 2 < bytes.length := by omega
  simp only [bcdDigits, Vector.getElem_ofFn]
  rw [List.getD_append _ _ _ _ hlt]

/-! ### Digits and their numbers -/

/-- The digits of a number spell it, as far as they reach. -/
theorem decimalValue_decimalDigits (n v : Nat) : decimalValue (decimalDigits n v) = v % 10 ^ n := by
  unfold decimalValue
  induction n generalizing v with
  | zero =>
    have hnil : (decimalDigits 0 v).toList = [] := List.eq_nil_of_length_eq_zero (by simp)
    rw [hnil, decimalOf, Nat.pow_zero, Nat.mod_one]
  | succ n ih =>
    have hdigit : (BitVec.ofNat 4 (v % 10)).toNat = v % 10 := by
      rw [BitVec.toNat_ofNat]
      omega
    rw [decimalDigits_list, decimalOf, hdigit, ih, Nat.pow_succ, Nat.mul_comm, Nat.mul_comm (10 ^ n), Nat.mod_mul]
    omega

/-- A decimal digit is read back from the number its list spells. -/
theorem decimalOf_div (l : List Nibble) (h : ∀ d ∈ l, d.toNat ≤ 9) {i : Nat} (hi : i < l.length) :
    decimalOf l / 10 ^ i % 10 = l[i].toNat := by
  induction l generalizing i with
  | nil => simp at hi
  | cons d l ih =>
    have hd := h d (by simp)
    cases i with
    | zero => simp only [decimalOf, List.getElem_cons_zero, pow_zero, Nat.div_one]; omega
    | succ i =>
      have hdiv : (d.toNat + 10 * decimalOf l) / 10 = decimalOf l := by omega
      rw [decimalOf, Nat.pow_succ', ← Nat.div_div_eq_div_mul, hdiv,
        ih (fun x hx => h x (by simp [hx])) (by simpa using hi), List.getElem_cons_succ]

theorem decimalDigits_decimalValue {n : Nat} {ds : Vector Nibble n} (h : Decimal ds) :
    decimalDigits n (decimalValue ds) = ds := by
  refine Vector.ext fun i hi => ?_
  have hdigit := decimalOf_div ds.toList (toNat_le_of_decimal h) (i := i) (by simpa using hi)
  simp only [decimalDigits, Vector.getElem_ofFn, decimalValue, hdigit]
  simp

/-- Digit `i` has weight 10 to the `i` (R1). -/
theorem decimalOf_eq_sum (l : List Nibble) :
    decimalOf l = ((List.finRange l.length).map fun i => l[i.val].toNat * 10 ^ i.val).sum := by
  induction l with
  | nil => rfl
  | cons d l ih =>
    have hrange : List.finRange (d :: l).length = 0 :: (List.finRange l.length).map Fin.succ := List.finRange_succ
    rw [decimalOf, ih, hrange, List.map_cons, List.sum_cons, List.map_map,
      ← List.sum_map_mul_left]
    simp only [Fin.val_zero, List.getElem_cons_zero, pow_zero, Nat.mul_one, Function.comp_def, Fin.val_succ,
      List.getElem_cons_succ, Nat.pow_succ]
    congr 3
    funext i
    ring

theorem decimalValue_eq_sum {n : Nat} (ds : Vector Nibble n) :
    decimalValue ds = ((List.finRange n).map fun i => ds[i.val].toNat * 10 ^ i.val).sum := by
  obtain ⟨⟨l⟩, rfl⟩ := ds
  exact decimalOf_eq_sum l

end Sys2Proof.Machine

/-! ## Record layouts (R185 to R187) -/

namespace Sys2Proof.Machine

open Sys2Proof.Safety

theorem flagBit_zero_eq : ∀ a : Bool, flagBit 0 a = BitVec.ofNat 8 (bitAt 0 a) := by decide

theorem two_flags_eq : ∀ a b : Bool, flagBit 0 a ||| flagBit 1 b = BitVec.ofNat 8 (bitAt 0 a + bitAt 1 b) := by decide

theorem three_flags_eq : ∀ a b c : Bool,
    flagBit 0 a ||| flagBit 1 b ||| flagBit 2 c = BitVec.ofNat 8 (bitAt 0 a + bitAt 1 b + bitAt 2 c) := by decide

theorem five_flags_eq : ∀ a b c d e : Bool,
    flagBit 0 a ||| flagBit 1 b ||| flagBit 2 c ||| flagBit 3 d ||| flagBit 4 e =
      BitVec.ofNat 8 (bitAt 0 a + bitAt 1 b + bitAt 2 c + bitAt 3 d + bitAt 4 e) := by decide

/-- The packed bytes of an even number of digits, from the most significant pair down. -/
theorem bcdBytes_eq_ofFn {n : Nat} (ds : Vector Nibble n) :
    bcdBytes ds = List.ofFn fun j : Fin (n / 2) => packNibbles ds[n - 1 - 2 * j.val] ds[n - 2 - 2 * j.val] := by
  apply List.ext_getElem (by simp [length_bcdBytes])
  intro j h1 h2
  rw [← List.getD_eq_getElem _ 0 h1, getD_bcdBytes ds (by simpa using h2), List.getElem_ofFn]

theorem packed12 (d : Vector Nibble 12) :
    bcdBytes d = [d[11] ++ d[10], d[9] ++ d[8], d[7] ++ d[6], d[5] ++ d[4], d[3] ++ d[2], d[1] ++ d[0]] :=
  bcdBytes_eq_ofFn d

theorem packed8 (d : Vector Nibble 8) :
    bcdBytes d = [d[7] ++ d[6], d[5] ++ d[4], d[3] ++ d[2], d[1] ++ d[0]] := bcdBytes_eq_ofFn d

theorem packed4 (d : Vector Nibble 4) : bcdBytes d = [d[3] ++ d[2], d[1] ++ d[0]] := bcdBytes_eq_ofFn d

theorem highByte_eq (w : BitVec 16) : highByte w = BitVec.ofNat 8 (w.toNat / 256) := by
  simpa using highByte_ofNat w.toNat

theorem lowByte_eq (w : BitVec 16) : lowByte w = BitVec.ofNat 8 w.toNat := by simpa using lowByte_ofNat w.toNat

theorem entryBytes_eq (en : Entry) (inUpdate : Bool) :
    entryBytes en inUpdate =
      bcdBytes en.digits ++
        [BitVec.ofNat 8 en.check.val,
         BitVec.ofNat 8 (bitAt 0 en.wrapped + bitAt 1 en.borrowed + bitAt 2 en.damaged + bitAt 3 en.member +
           bitAt 4 inUpdate)] ++
        bcdBytes (decimalDigits 12 (en.suspense.getD 0)) := by
  rw [← five_flags_eq]
  rfl

theorem copyBytes_eq (c : CopyRecord) :
    copyBytes c =
      [BitVec.ofNat 8 c.index.val, BitVec.ofNat 8 (bitAt 0 c.wrapped + bitAt 1 c.borrowed + bitAt 2 c.damaged)] ++
        bcdBytes c.digits ++ bcdBytes (decimalDigits 12 (c.suspense.getD 0)) := by
  rw [← three_flags_eq]
  rfl

/-! ### Switch points (R187) -/

theorem pointBytes_eq (p : SwitchPoint) :
    pointBytes p =
      [BitVec.ofNat 8 (p.minute.toNat / 256), BitVec.ofNat 8 p.minute.toNat,
       BitVec.ofNat 8 (p.bin.toNat + bitAt 7 p.capture)] := by
  have hflag : ∀ (b : BitVec 3) (f : Bool),
      BitVec.setWidth 8 b ||| flagBit 7 f = BitVec.ofNat 8 (b.toNat + bitAt 7 f) := by decide
  rw [pointBytes, hflag]
  congr 2
  apply BitVec.eq_of_toNat_eq
  simp only [BitVec.toNat_setWidth, BitVec.extractLsb'_toNat, BitVec.toNat_ofNat, Nat.shiftRight_eq_div_pow]
  omega

theorem decodePoint_minute (b₀ b₁ b₂ : Byte) :
    (decodePoint [b₀, b₁, b₂]).minute.toNat = 256 * (b₀.toNat % 8) + b₁.toNat := by
  have hhigh : (b₀.extractLsb' 0 3).toNat = b₀.toNat % 8 := by simp
  show (b₀.extractLsb' 0 3 ++ b₁).toNat = _
  rw [BitVec.toNat_append, ← Nat.shiftLeft_add_eq_or_of_lt b₁.isLt, Nat.shiftLeft_eq, hhigh, Nat.mul_comm]

theorem decodePoint_bin (b₀ b₁ b₂ : Byte) : (decodePoint [b₀, b₁, b₂]).bin.toNat = b₂.toNat % 8 := by
  show (b₂.extractLsb' 0 3).toNat = _
  simp

theorem decodePoint_capture (b₀ b₁ b₂ : Byte) : (decodePoint [b₀, b₁, b₂]).capture = true ↔ 128 ≤ b₂.toNat := by
  show b₂.getLsbD 7 = true ↔ _
  have hmsb : b₂.getLsbD 7 = b₂.msb := by simp [BitVec.msb_eq_getLsbD_last]
  rw [hmsb, BitVec.msb_eq_decide, decide_eq_true_eq]

/-- Two switch points with the same minute, bin and flag are the same. -/
theorem switchPoint_ext {p q : SwitchPoint} (hm : p.minute.toNat = q.minute.toNat) (hb : p.bin.toNat = q.bin.toNat)
    (hc : p.capture = true ↔ q.capture = true) : p = q := by
  obtain ⟨pm, pb, pc⟩ := p
  obtain ⟨qm, qb, qc⟩ := q
  obtain rfl : pm = qm := BitVec.eq_of_toNat_eq hm
  obtain rfl : pb = qb := BitVec.eq_of_toNat_eq hb
  obtain rfl : pc = qc := Bool.eq_iff_iff.2 hc
  rfl

theorem decodePoint_pointBytes (p : SwitchPoint) : decodePoint (pointBytes p) = p := by
  rw [pointBytes_eq]
  refine switchPoint_ext ?_ ?_ ?_
  · rw [decodePoint_minute, BitVec.toNat_ofNat, BitVec.toNat_ofNat]
    have := p.minute.isLt
    omega
  · rw [decodePoint_bin, BitVec.toNat_ofNat]
    have := p.bin.isLt
    unfold bitAt
    split <;> omega
  · rw [decodePoint_capture, BitVec.toNat_ofNat]
    have := p.bin.isLt
    cases p.capture <;> simp [bitAt] <;> omega

/-! ### Configurations (R24, R186) -/

theorem decodeMode_iff (b : Byte) (m : InputMode) : decodeMode b = some m ↔ m.code = b := by
  constructor
  · unfold decodeMode
    split
    · next h => rintro ⟨⟩; exact BitVec.eq_of_toNat_eq h.symm
    · next h => rintro ⟨⟩; exact BitVec.eq_of_toNat_eq h.symm
    · nofun
  · rintro rfl
    cases m <;> rfl

theorem decodeEdge_iff (b : Byte) (e : EdgeSelect) : decodeEdge b = some e ↔ e.code = b := by
  constructor
  · unfold decodeEdge
    split
    · next h => rintro ⟨⟩; exact BitVec.eq_of_toNat_eq h.symm
    · next h => rintro ⟨⟩; exact BitVec.eq_of_toNat_eq h.symm
    · next h => rintro ⟨⟩; exact BitVec.eq_of_toNat_eq h.symm
    · nofun
  · rintro rfl
    cases e <;> rfl

theorem decodeSense_iff (b : Byte) (x : Sense) : decodeSense b = some x ↔ x.code = b := by
  constructor
  · unfold decodeSense
    split
    · next h => rintro ⟨⟩; exact BitVec.eq_of_toNat_eq h.symm
    · next h => rintro ⟨⟩; exact BitVec.eq_of_toNat_eq h.symm
    · nofun
  · rintro rfl
    cases x <;> rfl

theorem decodeTariffed_iff (b : Byte) (x : Bool) : decodeTariffed b = some x ↔ (if x then 0x01 else 0x00) = b := by
  constructor
  · unfold decodeTariffed
    split
    · next h => rintro ⟨⟩; exact BitVec.eq_of_toNat_eq h.symm
    · next h => rintro ⟨⟩; exact BitVec.eq_of_toNat_eq h.symm
    · nofun
  · rintro rfl
    cases x <;> rfl

theorem decodeBase_iff (b : Byte) (base : Fin 64) : decodeBase b = some base ↔ byteOf base.val = b := by
  constructor
  · unfold decodeBase
    split
    · next h =>
      rintro ⟨⟩
      exact BitVec.eq_of_toNat_eq (by simp only [byteOf, BitVec.toNat_ofNat]; omega)
    · nofun
  · rintro rfl
    have hval : (byteOf base.val).toNat = base.val := by simp only [byteOf, BitVec.toNat_ofNat]; omega
    rw [decodeBase, dif_pos (by rw [hval]; exact base.isLt)]
    exact congrArg some (Fin.ext hval)

theorem decodeLink_iff (b : Byte) (link : Option (Fin 8)) : decodeLink b = some link ↔ linkCode link = b := by
  constructor
  · unfold decodeLink
    split
    · next h => rintro ⟨⟩; exact BitVec.eq_of_toNat_eq h.symm
    · split
      · next h =>
        rintro ⟨⟩
        exact BitVec.eq_of_toNat_eq (by simp only [linkCode, byteOf, BitVec.toNat_ofNat]; omega)
      · nofun
  · rintro rfl
    cases link with
    | none => rfl
    | some k => decide +revert

/-- The nine bytes of a configuration, field by field. -/
theorem configBytes_eq (c : InputConfig) :
    configBytes c =
      [c.mode.code, c.edge.code, c.sense.code, c.weight[3] ++ c.weight[2], c.weight[1] ++ c.weight[0], c.lockout,
       byteOf c.base.val, if c.tariffed then 0x01 else 0x00, linkCode c.link] := by
  rw [configBytes, packed4]
  rfl

/-- Nine bytes decode to a configuration exactly when each is the code of its field. -/
theorem decodeConfig_iff (b₀ b₁ b₂ b₃ b₄ b₅ b₆ b₇ b₈ : Byte) (c : InputConfig) :
    decodeConfig [b₀, b₁, b₂, b₃, b₄, b₅, b₆, b₇, b₈] = some c ↔
      configBytes c = [b₀, b₁, b₂, b₃, b₄, b₅, b₆, b₇, b₈] := by
  have hweight : ∀ w, bcdDigits 4 [b₃, b₄, b₅, b₆, b₇, b₈] = w ↔ bcdBytes w = [b₃, b₄] := fun w => by
    rw [show [b₃, b₄, b₅, b₆, b₇, b₈] = [b₃, b₄] ++ [b₅, b₆, b₇, b₈] from rfl, bcdDigits_append rfl _ rfl]
    exact ⟨fun h => h ▸ bcdBytes_bcdDigits rfl, fun h => h ▸ bcdDigits_bcdBytes rfl w⟩
  have hbytes : configBytes c = [b₀, b₁, b₂, b₃, b₄, b₅, b₆, b₇, b₈] ↔
      c.mode.code = b₀ ∧ c.edge.code = b₁ ∧ c.sense.code = b₂ ∧ bcdBytes c.weight = [b₃, b₄] ∧ c.lockout = b₅ ∧
        byteOf c.base.val = b₆ ∧ (if c.tariffed then 0x01 else 0x00) = b₇ ∧ linkCode c.link = b₈ := by
    rw [configBytes_eq, packed4]
    simp only [List.cons.injEq, and_true, and_assoc]
  rw [hbytes]
  constructor
  · intro h
    unfold decodeConfig at h
    split at h
    · next hmode hedge hsense hbase htariffed hlink =>
      cases h
      exact ⟨(decodeMode_iff _ _).1 hmode, (decodeEdge_iff _ _).1 hedge, (decodeSense_iff _ _).1 hsense,
        (hweight _).1 rfl, rfl, (decodeBase_iff _ _).1 hbase, (decodeTariffed_iff _ _).1 htariffed,
        (decodeLink_iff _ _).1 hlink⟩
    · cases h
  · rintro ⟨hmode, hedge, hsense, hw, hlockout, hbase, htariffed, hlink⟩
    simp only [decodeConfig, List.getD_cons_zero, List.getD_cons_succ, List.drop_succ_cons, List.drop_zero,
      (decodeMode_iff _ _).2 hmode, (decodeEdge_iff _ _).2 hedge, (decodeSense_iff _ _).2 hsense,
      (decodeBase_iff _ _).2 hbase, (decodeTariffed_iff _ _).2 htariffed, (decodeLink_iff _ _).2 hlink,
      (hweight _).2 hw]
    rw [← hlockout]

/-- A list of nine bytes, byte by byte. -/
theorem eq_of_length_nine {bytes : List Byte} (h : bytes.length = 9) :
    ∃ b₀ b₁ b₂ b₃ b₄ b₅ b₆ b₇ b₈, bytes = [b₀, b₁, b₂, b₃, b₄, b₅, b₆, b₇, b₈] := by
  match bytes, h with
  | [b₀, b₁, b₂, b₃, b₄, b₅, b₆, b₇, b₈], _ => exact ⟨b₀, b₁, b₂, b₃, b₄, b₅, b₆, b₇, b₈, rfl⟩

/-- Settles O6: nine bytes decode to a configuration exactly when they are its bytes. -/
theorem configurationBytesRoundTrip : Obligations.ConfigurationBytesRoundTrip := by
  refine ⟨fun c => ⟨length_configBytes c, ?_⟩, fun bytes c hlen hdecode => ?_⟩
  · rw [configBytes_eq, decodeConfig_iff, configBytes_eq]
  · obtain ⟨b₀, b₁, b₂, b₃, b₄, b₅, b₆, b₇, b₈, rfl⟩ := eq_of_length_nine hlen
    exact (decodeConfig_iff ..).1 hdecode

/-! ### The layouts and the round trips -/

theorem recordLayouts : RecordLayouts where
  packed12 := packed12
  packed8 := packed8
  packed4 := packed4
  entry := entryBytes_eq
  copy := copyBytes_eq
  config c := by
    rw [configBytes]
    congr 1
    cases c.tariffed <;> cases c.link <;> rfl
  input i := by
    rw [inputBytes, wordBytes, highByte_ofNat, lowByte_ofNat]
    cases i.inFlight <;> rfl
  trip _ := rfl
  header id h source hs := by
    rw [headerBytes, hs]
    simp only [wordBytes, highByte_ofNat, lowByte_ofNat]
    rw [highByte_eq, lowByte_eq, highByte_eq, lowByte_eq]
    rfl
  point := pointBytes_eq
  pointRead b₀ b₁ b₂ := ⟨decodePoint_minute b₀ b₁ b₂, decodePoint_bin b₀ b₁ b₂, decodePoint_capture b₀ b₁ b₂⟩

/-- The operand registers, byte by byte. -/
theorem toList_operands (ops : Vector Byte 9) :
    ops.toList = [ops[0], ops[1], ops[2], ops[3], ops[4], ops[5], ops[6], ops[7], ops[8]] := by
  obtain ⟨⟨l⟩, h⟩ := ops
  obtain ⟨b₀, b₁, b₂, b₃, b₄, b₅, b₆, b₇, b₈, rfl⟩ := eq_of_length_nine h
  rfl

/-- The decimal operands lie in their operand bytes (R189). -/
theorem operandDigits_eq (ops : Vector Byte 9) :
    operandDigits ops 1 12 = bcdDigits 12 [ops[1], ops[2], ops[3], ops[4], ops[5], ops[6]] ∧
      operandDigits ops 1 8 = bcdDigits 8 [ops[1], ops[2], ops[3], ops[4]] ∧
      operandDigits ops 5 8 = bcdDigits 8 [ops[5], ops[6], ops[7], ops[8]] := by
  simp only [operandDigits, toList_operands]
  exact ⟨bcdDigits_append (bytes := [ops[1], ops[2], ops[3], ops[4], ops[5], ops[6]]) rfl [ops[7], ops[8]] rfl,
    bcdDigits_append (bytes := [ops[1], ops[2], ops[3], ops[4]]) rfl [ops[5], ops[6], ops[7], ops[8]] rfl, rfl⟩

/-- Settles O7: each round trip and each layout. -/
theorem decimalFieldsRoundTrip : Obligations.DecimalFieldsRoundTrip := by
  refine ⟨fun ds => ⟨length_bcdBytes ds, bcdDigits_bcdBytes rfl ds⟩,
    fun ds => ⟨length_bcdBytes ds, bcdDigits_bcdBytes rfl ds⟩, fun bytes h => bcdBytes_bcdDigits h,
    fun p => ⟨length_pointBytes p, decodePoint_pointBytes p⟩,
    fun v => ⟨decimalDigits_decimal 12 v, fun h => ?_⟩,
    fun ds h => ⟨?_, decimalDigits_decimalValue h⟩,
    fun v => ⟨decimalDigits_decimal 8 v, fun h => ?_⟩, fun _ ds => decimalValue_eq_sum ds, operandDigits_eq,
    recordLayouts⟩
  · rw [decimalValue_decimalDigits, Nat.mod_eq_of_lt (by omega)]
  · have := decimalValue_lt ds h
    omega
  · rw [decimalValue_decimalDigits, Nat.mod_eq_of_lt (by omega)]

end Sys2Proof.Machine

/-! ## The direct registers and the lines out (R104, R166, R169, R173 to R175, R191) -/

namespace Sys2Proof.Machine

open Sys2Proof.Safety

theorem flagBit_eq (p : Nat) (f : Bool) : flagBit p f = BitVec.ofNat 8 (bitAt p f) := by cases f <;> rfl

/-- A flag above the bits of a number adds its weight. -/
theorem ofNat_or_flagBit {n p : Nat} (h : n < 2 ^ p) (f : Bool) :
    BitVec.ofNat 8 n ||| flagBit p f = BitVec.ofNat 8 (n + bitAt p f) := by
  rw [flagBit_eq, ← BitVec.ofNat_or]
  cases f with
  | false => simp [bitAt]
  | true =>
    have hor : n ||| 2 ^ p = 2 ^ p + n := by
      rw [Nat.lor_comm]
      simpa using (Nat.two_pow_add_eq_or_of_lt h 1).symm
    rw [show bitAt p true = 2 ^ p from rfl, hor, Nat.add_comm]

theorem isSome_eq_decide {α : Type} [DecidableEq α] (o : Option α) : o.isSome = decide (o ≠ none) := by
  cases o <;> simp

theorem bankCodes_eq (a b : BankState) :
    a.code ||| (b.code <<< 2) = BitVec.ofNat 8 (a.code.toNat + 4 * b.code.toNat) := by
  cases a <;> cases b <;> rfl

section

variable {s : State}

/-- The five registers of the head notice read a field of it each (R166). -/
theorem registerByte_head {offset : Offset} (h1 : 0x0D ≤ offset.toNat) (h2 : offset.toNat ≤ 0x11) :
    ∃ field, registerByte s offset = headField s.notices.queue field := by
  have hcases : offset = 0x0D ∨ offset = 0x0E ∨ offset = 0x0F ∨ offset = 0x10 ∨ offset = 0x11 := by bv_omega
  rcases hcases with rfl | rfl | rfl | rfl | rfl <;> exact ⟨_, rfl⟩

theorem eq_offset_operand {k : Fin 9} {offset : Offset} (h : offset.toNat = 4 + k.val) :
    offset = BitVec.ofNat _ (4 + k.val) := by
  rw [← h, BitVec.ofNat_toNat, BitVec.setWidth_eq]

theorem registerByte_operand {k : Fin 9} {offset : Offset} (h : offset.toNat = 4 + k.val) :
    registerByte s offset = s.slot.operands[k.val] := by
  obtain rfl := eq_offset_operand h
  fin_cases k <;> rfl

/-- A write-only register and an offset with no register read 0 (R173). -/
theorem registerByte_absent {offset : Offset} (h : offset.toNat = 0x01 ∨ offset.toNat = 0x12 ∨ 0x28 ≤ offset.toNat) :
    registerByte s offset = 0 := by
  unfold registerByte
  split <;> try omega
  rfl

theorem slotStatus_eq (sl : Slot) :
    sl.state.code ||| flagBit 4 sl.refusedBusy ||| flagBit 5 sl.cancelLate =
      BitVec.ofNat 8 (sl.state.code.toNat + bitAt 4 sl.refusedBusy + bitAt 5 sl.cancelLate) := by
  have hcode : sl.state.code.toNat < 2 ^ 4 := by cases sl.state <;> simp [SlotState.code]
  have hflag : bitAt 4 sl.refusedBusy ≤ 2 ^ 4 := by cases sl.refusedBusy <;> decide
  rw [← ofNat_or_flagBit (by omega), ← ofNat_or_flagBit hcode, BitVec.ofNat_toNat, BitVec.setWidth_eq]

theorem phaseCode_eq (p : CapturePhase) :
    p.code = BitVec.ofNat 8 (bitAt 0 (decide (p ≠ .idle)) + bitAt 1 (decide (p = .draining))) := by
  cases p <;> rfl

/-- A running part reads each register as the register map says (R175). -/
theorem registersRead (hr : s.Running) : RegistersRead s := by
  have read : ∀ offset, readRegister s offset = some (registerByte s offset) := readRegister_of_running hr
  exact
    { cmdCode := read 0x00
      slotStatus := (read 0x02).trans (congrArg some (slotStatus_eq s.slot))
      cmdResult := read 0x03
      operands := fun k offset h => (read offset).trans (congrArg some (registerByte_operand h))
      emptyHead := fun hq offset h1 h2 => by
        obtain ⟨field, hfield⟩ := registerByte_head (s := s) h1 h2
        rw [Reads, read, hfield, hq]
        rfl
      head := fun n rest hq => by
        simp only [read, registerByte, headField, hq]
        exact ⟨rfl, rfl, rfl, rfl, rfl⟩
      noticeCount := read 0x13
      noticeLost := read 0x14
      intEnable := (read 0x15).trans (congrArg some (two_flags_eq ..))
      intStatus := (read 0x16).trans (congrArg some ((two_flags_eq ..).trans (by cases s.notices.queue <;> rfl)))
      capEnable := (read 0x17).trans (congrArg some (flagBit_zero_eq _))
      schedControl := (read 0x18).trans (congrArg some (two_flags_eq ..))
      captureStatus := (read 0x19).trans (congrArg some (phaseCode_eq _))
      listLength := read 0x1A
      copies := read 0x1B
      bankStates := (read 0x1C).trans (congrArg some (bankCodes_eq ..))
      currentBin := read 0x1D
      time := ⟨(read 0x1E).trans (congrArg some (highByte_eq _)), (read 0x1F).trans (congrArg some (lowByte_eq _)),
        (read 0x20).trans (congrArg some (highByte_ofNat _)), (read 0x21).trans (congrArg some (lowByte_ofNat _)),
        read 0x22⟩
      pointers := ⟨read 0x23, read 0x24, read 0x25⟩
      winStatus := (read 0x27).trans (congrArg some ((five_flags_eq ..).trans (by
        rw [State.pendingCommit, isSome_eq_decide, isSome_eq_decide, isSome_eq_decide])))
      others := fun offset h => (read offset).trans (congrArg some (registerByte_absent h)) }

theorem irqAsserted_iff :
    s.irqAsserted = true ↔ s.Running ∧
      ((s.notices.queue ≠ [] ∧ s.notices.noticeIe = true) ∨ (s.slot.cmdDone = true ∧ s.notices.cmdIe = true)) := by
  simp [State.irqAsserted]

theorem tripLine_of_held (h : ¬s.Running) (k : Fin 8) : s.tripLine k = none := if_neg h

theorem tripLine_of_running (h : s.Running) (k : Fin 8) :
    s.tripLine k = some (decide ((s.trip k).state = .tripped)) := if_pos h

/-- A held part takes no write access, whichever its row (R173, R191). -/
theorem exec_writeAccess_of_held (h : ¬s.Running) {offset : Offset} {v : Byte} {c : Instr}
    (hc : c ∈ writeAccesses offset v) : exec c s = .next s := by
  rcases List.mem_append.1 hc with hcode | hcode
  · obtain ⟨p, hp, rfl⟩ := List.mem_map.1 hcode
    rw [exec_of_mem_codeRows hp, codeCommand, whenRunning_of_held h]
  · simp only [List.mem_cons, List.not_mem_nil, or_false] at hcode
    rcases hcode with rfl | rfl | rfl | rfl | rfl | rfl | rfl | rfl | rfl | rfl | rfl | rfl | rfl <;>
      exact congrArg Host.Outcome.next (whenRunning_of_held h _)

theorem readAccess_of_held (h : ¬s.Running) (f : State → State) :
    readAccess f s = { s with window := { s.window with readData := none } } := if_neg h

end

/-- Settles O45: the lines and the registers of a running part, and the accesses to a held one. -/
theorem outputLinesFollowTheState : Obligations.OutputLinesFollowTheState := by
  intro s
  refine ⟨irqAsserted_iff, fun k => ⟨fun h => tripLine_of_held h k, fun h => ?_⟩, registersRead, fun h => ?_⟩
  · rw [tripLine_of_running h]
    simp
  · exact ⟨fun offset => readRegister_of_held h offset, congrArg Host.Outcome.next (readAccess_of_held h _),
      congrArg Host.Outcome.next (readAccess_of_held h _), fun offset v c hc => exec_writeAccess_of_held h hc⟩

/-! ### Writes (R174, R175) -/

section

variable {s : State}

theorem exec_registerWrite (hr : s.Running) (offset : Offset) (v : Byte) :
    exec (.registerWrite offset v) s = .next (busWrite offset v s) :=
  congrArg Host.Outcome.next (whenRunning_of_running hr _)

theorem busWrite_operand {k : Fin 9} {offset : Offset} (h : offset.toNat = 4 + k.val) (v : Byte) :
    busWrite offset v s = { s with slot := { s.slot with operands := s.slot.operands.set k.val v } } := by
  have hwrite : busWrite offset v s = writeOperand k.val v s := by
    rw [eq_offset_operand h]
    fin_cases k <;> rfl
  have hset : s.slot.operands.setIfInBounds k.val v = s.slot.operands.set k.val v :=
    Vector.ext fun i hi => by rw [Vector.getElem_setIfInBounds hi, Vector.getElem_set]
  rw [hwrite, writeOperand, hset]

/-- A read-only register and an offset with no register ignore a write (R173, R174). -/
theorem busWrite_ignored {offset : Offset}
    (h : 0x28 ≤ offset.toNat ∨ (0x0D ≤ offset.toNat ∧ offset.toNat ≤ 0x11) ∨ offset.toNat = 0x02 ∨
      offset.toNat = 0x03 ∨ offset.toNat = 0x13 ∨ offset.toNat = 0x14 ∨
      (0x19 ≤ offset.toNat ∧ offset.toNat ≤ 0x22)) (v : Byte) : busWrite offset v s = s := by
  unfold busWrite
  split <;> try omega
  rfl

theorem writeIntStatus_zero {v : Byte} (h : v.getLsbD 0 = false) : writeIntStatus v s = s := by
  rw [writeIntStatus, h, Bool.not_false, Bool.and_true]

theorem writeIntStatus_one {v : Byte} (h : v.getLsbD 0 = true) :
    writeIntStatus v s = { s with slot := { s.slot with cmdDone := false } } := by
  rw [writeIntStatus, h, Bool.not_true, Bool.and_false]

theorem writeWinStatus_eq {v : Byte} {a b : Bool} (ha : v.getLsbD 0 = a) (hb : v.getLsbD 1 = b) :
    writeWinStatus v s =
      { s with window := { s.window with refused := s.window.refused && !a, fault := s.window.fault && !b } } := by
  rw [writeWinStatus, ha, hb]
  rfl

end

/-- Settles O53: each write by its register. -/
theorem registerWritesReachTheirRegister : Obligations.RegisterWritesReachTheirRegister := by
  intro s v hr
  simp only [exec_registerWrite hr]
  refine ⟨fun k offset h => congrArg Host.Outcome.next (busWrite_operand h v), rfl, rfl,
    fun h => congrArg Host.Outcome.next (writeIntStatus_zero h), fun h1 h2 => ?_, fun h1 h2 => ?_,
    fun offset h => congrArg Host.Outcome.next (busWrite_ignored h v), ?_, ?_, ?_⟩
  · have hwin := writeWinStatus_eq (s := s) h1 h2
    simp only [Bool.not_false, Bool.and_true] at hwin
    exact congrArg Host.Outcome.next hwin
  · have hwin := writeWinStatus_eq (s := s) h1 h2
    simp only [Bool.not_true, Bool.and_false] at hwin
    exact congrArg Host.Outcome.next hwin
  · show Host.Outcome.next (whenRunning (writeIntStatus 0x01) s) = _
    rw [whenRunning_of_running hr, writeIntStatus_one rfl]
  · show Host.Outcome.next (whenRunning (writeWinStatus 0x01) s) = _
    rw [whenRunning_of_running hr, writeWinStatus_eq (a := true) (b := false) rfl rfl]
    simp only [Bool.not_true, Bool.and_false, Bool.not_false, Bool.and_true]
  · show Host.Outcome.next (whenRunning (writeWinStatus 0x02) s) = _
    rw [whenRunning_of_running hr, writeWinStatus_eq (a := false) (b := true) rfl rfl]
    simp only [Bool.not_true, Bool.and_false, Bool.not_false, Bool.and_true]

end Sys2Proof.Machine

/-! ## Warm and cold reset (R191) -/

namespace Sys2Proof.Machine

open Sys2Proof.Safety

theorem withCause_eq (p : Supply) (cause : WarmCause) :
    p.withCause cause =
      { p with
        resetLow := p.resetLow || decide (cause = .resetLine),
        mainAbsent := p.mainAbsent || decide (cause = .mainSupply) } := by
  cases cause <;> simp [Supply.withCause]

theorem warmed_of_not_running {h : Hold} (hr : h ≠ .running) : h.warmed = h := by
  cases h
  · exact absurd rfl hr
  · rfl
  · rfl

/-- A cause of warm reset leaves its level on a held part and nothing else. -/
theorem enterWarm_of_held {s : State} (hr : ¬s.Running) (cause : WarmCause) :
    enterWarm cause s = { s with supply := s.supply.withCause cause } := by
  have hhold : (s.supply.withCause cause).hold = s.supply.hold := by rw [withCause_eq]
  rw [enterWarm, whenRunning_of_held hr, warmed_of_not_running hr, ← hhold]

/-- Settles O54: the warm reset of a running part, a cause on a held one, and the end by the hold. -/
theorem warmResetKeepsTheBackupDomain : Obligations.WarmResetKeepsTheBackupDomain := by
  refine ⟨fun s cause hr => ⟨enterWarm cause s, rfl, ?_⟩, fun s => ⟨fun hr cause => ?_, fun h => ?_, fun h => ?_⟩⟩
  · have hinput := input_enterWarm hr cause
    have hconfig : ∀ n, ((enterWarm cause s).input n).config = s.inputs[n.val].config := fun n => by
      rw [hinput]
      rfl
    rw [enterWarm_of_running hr, withCause_eq] at hinput hconfig ⊢
    exact ⟨fun _ => rfl, rfl, rfl, hconfig, rfl, hinput, rfl, rfl, rfl, rfl, rfl, rfl, rfl, rfl, rfl, rfl, rfl, rfl, rfl,
      rfl, rfl, rfl, rfl, rfl⟩
  · show Host.Outcome.next (enterWarm cause s) = _
    rw [enterWarm_of_held hr, withCause_eq]
  · show Host.Outcome.next (endWarm s) = _
    rw [endWarm, if_pos h]
  · show Host.Outcome.next (endWarm s) = _
    rw [endWarm, if_neg h]

theorem coldValues_enterCold (s : State) : ColdValues (enterCold s) := by
  refine coldValues_of rfl (fun n => ?_) rfl rfl rfl rfl rfl rfl rfl
  rw [input_enterCold]
  rfl

/-- Settles O55: every block is cleared, whatever the part was doing, and the end reads the two levels. -/
theorem coldResetGivesTheColdValues : Obligations.ColdResetGivesTheColdValues := by
  refine ⟨fun s => ⟨enterCold s, rfl, coldValues_enterCold s, rfl, fun n => ?_, rfl, rfl⟩,
    fun s => ⟨fun h => ?_, fun h => congrArg Host.Outcome.next (if_neg h)⟩⟩
  · rw [input_enterCold]
    rfl
  · show Host.Outcome.next (endCold s) = _
    rw [endCold, if_pos h]
    simp only [Bool.or_eq_true]

end Sys2Proof.Machine

/-! ## Accesses to WIN_DATA (R179 to R184) -/

namespace Sys2Proof.Machine

open Sys2Proof.Safety

section

variable {s : State} {v : Byte}

theorem exec_winDataRead (hr : s.Running) : exec .winDataRead s = .next (readData s) :=
  congrArg Host.Outcome.next (readAccess_of_running hr _)

theorem exec_winDataWrite (hr : s.Running) : exec (.winDataWrite v) s = .next (writeData v s) :=
  congrArg Host.Outcome.next (whenRunning_of_running hr _)

theorem readData_of_latch {l : Latch} (h : s.window.latch = some l) : readData s = serve l s := by
  simp only [readData, h]

theorem readData_of_addressed {bytes : List Byte} (h : s.window.latch = none) (hb : s.addressed = some bytes) :
    readData s = serve { space := s.window.space, index := s.window.index, bytes := bytes } s := by
  simp only [readData, h, hb]

theorem readData_absent (h : s.window.latch = none) (hb : s.addressed = none) :
    readData s = { s with window := { s.window with readData := some 0, fault := true } } := by
  simp only [readData, h, hb, State.setWindow]

/-- The flags byte of an entry is addressed at offset 7 of its record (R177). -/
theorem addressed_of_flags {e : Fin 64} (hs : s.window.space.toNat = 0) (hi : s.window.index.toNat = e.val)
    (ho : s.window.offset.toNat = 7) : s.addressed = some (entryBytes (s.entry e) (decide (e ∈ s.table.held))) := by
  have hrec : s.recordBytes s.window.space s.window.index =
      some (entryBytes (s.entry e) (decide (e ∈ s.table.held))) := by
    simp [State.recordBytes, hs, hi]
  rw [State.addressed, hrec]
  simp only [length_entryBytes]
  rw [if_pos (by omega)]

theorem entryBytes_flags (en : Entry) (inUpdate : Bool) :
    (entryBytes en inUpdate).getD 7 0 =
      BitVec.ofNat 8 (bitAt 0 en.wrapped + bitAt 1 en.borrowed + bitAt 2 en.damaged + bitAt 3 en.member +
        bitAt 4 inUpdate) := by
  rw [entryBytes_eq, packed12]
  rfl

end

/-- Settles O49: from the latch, from a fresh load and without a record. -/
theorem winDataReadServesTheLatch : Obligations.WinDataReadServesTheLatch := by
  intro s hr w served
  rw [exec_winDataRead hr]
  refine ⟨fun l hl hlt => ?_, fun hl hbanks => ⟨fun bytes hb => ?_, fun hb => ?_⟩, fun t ht => ?_,
    fun e hl hs hi ho => ?_⟩
  · rw [readData_of_latch hl, serve_eq _ _ hlt]
  · rw [readData_of_addressed hl ((addressed_iff s hbanks bytes).2 hb), serve_eq _ _ hb.2]
  · rw [readData_absent hl (addressed_none s hbanks hb)]
  · cases ht
    rw [readData_readData]
    exact (readRegister_of_running hr 0x26).symm
  · have hoffset : s.window.offset.toNat = 7 := ho
    have hlt : s.window.offset.toNat < (entryBytes (s.entry e) (decide (e ∈ s.table.held))).length := by
      rw [length_entryBytes, hoffset]
      decide
    rw [readRegister_of_running hr]
    show some s.servedByte = _
    rw [State.servedByte, readData_of_addressed hl (addressed_of_flags hs hi ho), serve_eq _ _ hlt]
    simp only [Option.getD_some, hoffset, entryBytes_flags]

section

variable {s : State} {v : Byte}

theorem writeData_pending (h : s.table.deferred ≠ none) : writeData v s = refuseWindow s := by
  rw [writeData, if_pos (by simpa [State.pendingCommit, Option.isSome_iff_ne_none] using h)]

theorem writeData_absent (hd : s.table.deferred = none) (hb : s.addressed = none) :
    writeData v s = { s with window := { s.window with latch := none, fault := true } } := by
  rw [writeData, if_neg (by simp [State.pendingCommit, hd])]
  simp only [hb, State.setWindow]

/-- A byte written at a present byte, and the offset moved (R181). -/
theorem writeData_present {bytes : List Byte} (hd : s.table.deferred = none) (hb : s.addressed = some bytes)
    (hlt : s.window.offset.toNat < bytes.length) :
    writeData v s =
      let s' := writePresent bytes v (s.setWindow { s.window with latch := none })
      s'.setWindow { s'.window with offset := movedOffset bytes.length s.window.offset } := by
  rw [writeData, if_neg (by simp [State.pendingCommit, hd])]
  simp only [hb, nextOffset_eq _ _ hlt]

theorem writePresent_member {bytes : List Byte} {e : Fin 64} (h : AtMember s.window e) :
    writePresent bytes v (s.setWindow { s.window with latch := none }) =
      commitMember e (v.getLsbD 3) (s.setWindow { s.window with latch := none }) := by
  simp only [writePresent, setWindow_window, (memberAt_iff s.window e).2 h]

theorem writePresent_part {bytes : List Byte} {p : WindowPart} (h : InPart s.window p) :
    writePresent bytes v (s.setWindow { s.window with latch := none }) =
      writePart p bytes v (s.setWindow { s.window with latch := none }) := by
  simp only [writePresent, setWindow_window, memberAt_of_inPart s.window p h, (partAt_iff s.window p).2 h]

/-- A byte before the commit byte of its part is collected in the buffer (R181). -/
theorem writePart_collected {bytes : List Byte} {p : WindowPart} (h : s.window.offset.toNat ≠ p.commitOffset) :
    writePart p bytes v s =
      s.setWindow { s.window with
        buffer := some { s.window.openBuffer p bytes with
          bytes := (s.window.openBuffer p bytes).bytes.set s.window.offset.toNat v } } := if_neg h

theorem writePresent_readOnly {bytes : List Byte} (hm : ∀ e, ¬AtMember s.window e) (hp : ∀ p, ¬InPart s.window p) :
    writePresent bytes v (s.setWindow { s.window with latch := none }) =
      s.setWindow { s.window with latch := none } := by
  simp only [writePresent, setWindow_window, memberAt_none s.window hm, partAt_none s.window hp]

end

/-- Settles O50: by the pending commit, the presence of the byte, and what the byte belongs to. -/
theorem winDataWriteCollects : Obligations.WinDataWriteCollects := by
  intro s v hr hbanks w moved
  rw [exec_winDataWrite hr]
  refine ⟨fun hd => congrArg Host.Outcome.next (writeData_pending hd), fun hd hb =>
    congrArg Host.Outcome.next (writeData_absent hd (addressed_none s hbanks hb)), fun bytes hd hb =>
    ⟨fun hm hp => ?_, fun e he => ?_, fun p hp ho => ?_⟩⟩ <;>
    rw [writeData_present hd ((addressed_iff s hbanks bytes).2 hb) hb.2]
  · rw [writePresent_readOnly hm hp]
    rfl
  · rw [writePresent_member he]
    rfl
  · rw [writePresent_part hp, writePart_collected (by exact ho)]
    simp only [setWindow_window, Window.openBuffer, collected, w]
    cases s.window.buffer <;> rfl

/-! ### Commits (R182) -/

section

/-- The window has invalidated the latch and closed the buffer before a commit reaches its owner (R181). -/
def State.closedWindow (s : State) : State := s.setWindow { s.window with latch := none, buffer := none }

variable {s : State} {v : Byte} {p : WindowPart}

/-- The bytes that the commit of a part hands to its owner. -/
def State.committed (s : State) (p : WindowPart) (v : Byte) : List Byte :=
  collected s.window ((s.partRecord p).take (p.commitOffset + 1)) v

theorem exec_commit (hr : s.Running) (hd : s.table.deferred = none) (hp : InPart s.window p)
    (ho : s.window.offset.toNat = p.commitOffset) :
    exec (.winDataWrite v) s = .next
      (let s' := commitPart p (s.committed p v) s.closedWindow
       s'.setWindow { s'.window with offset := movedOffset (s.partRecord p).length s.window.offset }) := by
  have hb := addressed_of_inPart hp
  rw [exec_winDataWrite hr, writeData_commit s v hd p hp ho _ hb (addressed_length hb).1]
  rfl

theorem exec_commit_refused (hr : s.Running) (hd : s.table.deferred = none) (hp : InPart s.window p)
    (ho : s.window.offset.toNat = p.commitOffset)
    (h : commitPart p (s.committed p v) s.closedWindow = refuseWindow s.closedWindow) :
    exec (.winDataWrite v) s = .next
      { s with window := committedWindow s.window (s.partRecord p).length true } := by
  rw [exec_commit hr hd hp ho, h, committedWindow, Bool.or_true]
  rfl

theorem exec_commit_taken (hr : s.Running) (hd : s.table.deferred = none) (hp : InPart s.window p)
    (ho : s.window.offset.toNat = p.commitOffset) {t : State}
    (h : commitPart p (s.committed p v) s.closedWindow = t) (hw : t.window = s.closedWindow.window) :
    exec (.winDataWrite v) s = .next
      { t with window := committedWindow s.window (s.partRecord p).length false } := by
  rw [exec_commit hr hd hp ho, h, committedWindow, Bool.or_false]
  simp only [hw]
  rfl

end

theorem take_inputBytes (i : Input) : (inputBytes i).take 9 = configBytes i.config := by
  rw [inputBytes, List.append_assoc, List.take_left' (length_configBytes _)]

theorem take_entryBytes (en : Entry) (inUpdate : Bool) : (entryBytes en inUpdate).take 6 = bcdBytes en.digits := by
  rw [entryBytes, List.append_assoc, List.take_left' (by rw [length_bcdBytes])]

section

variable {s : State} {n : Fin 16} {bytes : List Byte} {c : InputConfig}

theorem commitConfig_of_undefined (h : decodeConfig bytes = none) : commitConfig n bytes s = refuseWindow s := by
  simp only [commitConfig, h]

theorem commitConfig_off_off (h : decodeConfig bytes = some c) (hm : (s.input n).config.mode = .off)
    (hc : c.mode = .off) : commitConfig n bytes s = s.setInput n { s.input n with config := c } := by
  simp only [commitConfig, h, hm, hc]

theorem commitConfig_off_count (h : decodeConfig bytes = some c) (hm : (s.input n).config.mode = .off)
    (hc : c.mode = .count) :
    commitConfig n bytes s = if c.validCount = true then
      s.setInput n { s.input n with config := c, state := .active, lockout := false } else refuseWindow s := by
  simp only [commitConfig, h, hm, hc]

theorem commitConfig_count_off (h : decodeConfig bytes = some c) (hm : (s.input n).config.mode = .count)
    (hc : c.mode = .off) :
    commitConfig n bytes s = s.setInput n
      { s.input n with config := { (s.input n).config with mode := .off }, state := .off, lockout := false } := by
  simp only [commitConfig, h, hm, hc]

theorem commitConfig_count_count (h : decodeConfig bytes = some c) (hm : (s.input n).config.mode = .count)
    (hc : c.mode = .count) : commitConfig n bytes s = refuseWindow s := by
  simp only [commitConfig, h, hm, hc]

end

/-- Settles O51: by the modes of the stored and of the new configuration. -/
theorem configurationCommit : Obligations.ConfigurationCommit := by
  intro s v n hr hd hs hi ho i bytes refused taken
  have hp : InPart s.window (.config n) := ⟨hs, hi, ho.le⟩
  have hbytes : s.committed (.config n) v = bytes := congrArg (collected s.window · v) (take_inputBytes _)
  have hlen : (s.partRecord (.config n)).length = 16 := length_partRecord s (.config n)
  have hrefused : commitConfig n bytes s.closedWindow = refuseWindow s.closedWindow →
      exec (.winDataWrite v) s = refused := fun h => by
    have hexec := exec_commit_refused hr hd hp ho (v := v) (by rw [hbytes]; exact h)
    rwa [hlen] at hexec
  have htaken : ∀ j, commitConfig n bytes s.closedWindow = s.closedWindow.setInput n j →
      exec (.winDataWrite v) s = taken j := fun j h => by
    have hexec := exec_commit_taken hr hd hp ho (v := v) (t := s.closedWindow.setInput n j)
      (by rw [hbytes]; exact h) rfl
    rwa [hlen] at hexec
  refine ⟨fun h => hrefused (commitConfig_of_undefined h), fun c h => ⟨fun hm hc => ?_, fun hm hc hw hz hb => ?_,
    fun hm hc hinvalid => ?_, fun hm hc => ?_, fun hm hc => hrefused (commitConfig_count_count h hm hc)⟩⟩
  · exact htaken _ (commitConfig_off_off h hm hc)
  · exact htaken _ ((commitConfig_off_count (s := s.closedWindow) h hm hc).trans (if_pos ((validCount_iff c).2 ⟨hw, hz, hb⟩)))
  · refine hrefused ((commitConfig_off_count (s := s.closedWindow) h hm hc).trans (if_neg fun hv => ?_))
    obtain ⟨hw, hz, hb⟩ := (validCount_iff c).1 hv
    rcases hinvalid with h | h | ⟨ht, h⟩
    · exact h hw
    · exact hz h
    · exact absurd (hb ht) (by omega)
  · exact htaken _ (commitConfig_count_off h hm hc)

/-- Settles O52: the commits of the three other kinds of part. -/
theorem rawValueAndScheduleCommits : Obligations.RawValueAndScheduleCommits := by
  intro s v hr hd w space index offset
  refine ⟨fun e hs hi ho => ?_, fun i hs hi ho => ?_, fun hs hi ho hbuf => ?_⟩
  · intro digits
    have hp : InPart s.window (.rawValue e) := ⟨hs, hi, ho.le⟩
    have hbytes : s.committed (.rawValue e) v = collected s.window (bcdBytes (s.entry e).digits) v :=
      congrArg (collected s.window · v) (take_entryBytes ..)
    have hlen : (s.partRecord (.rawValue e)).length = 14 := length_partRecord s (.rawValue e)
    have htaken : ∀ t, commitRaw e digits s.closedWindow = t → t.window = s.closedWindow.window →
        exec (.winDataWrite v) s = .next { t with window := committedWindow w 14 false } := fun t h hw => by
      have hexec := exec_commit_taken hr hd hp ho (v := v) (by rw [hbytes]; exact h) hw
      rwa [hlen] at hexec
    refine ⟨fun he => ?_, fun he => ?_⟩
    · have hfree : ¬s.table.held.contains e = true := by simpa using he
      exact htaken _ (if_neg hfree) rfl
    · have hheld : s.table.held.contains e = true := by simpa using he
      exact htaken _ (if_pos hheld) rfl
  · have hp : InPart s.window (.point i) := ⟨hs, hi, ho.le⟩
    have hbytes : s.committed (.point i) v = collected s.window (pointBytes s.tariff.points[i.val]) v := rfl
    have hlen : (s.partRecord (.point i)).length = 3 := length_partRecord s (.point i)
    refine ⟨fun he => ?_, fun he => ?_⟩
    · have hexec := exec_commit_refused hr hd hp ho (v := v) (if_pos he)
      rwa [hlen] at hexec
    · have hexec := exec_commit_taken hr hd hp ho (v := v) (if_neg (Bool.eq_false_iff.1 he)) rfl
      rwa [hlen, hbytes] at hexec
  · have hp : InPart s.window .count := ⟨hs, hi, ho⟩
    have hbytes : (s.committed .count v).getD 0 0 = v := by
      have hoffset : s.window.offset.toNat = 0 := ho
      have hbuffer : s.window.buffer = none := hbuf
      simp [State.committed, collected, hoffset, hbuffer, State.partRecord, WindowPart.commitOffset]
    refine ⟨fun he => exec_commit_refused hr hd hp ho (if_pos he), fun he => ?_⟩
    have hexec := exec_commit_taken hr hd hp ho (v := v) (if_neg (Bool.eq_false_iff.1 he)) rfl
    rwa [hbytes] at hexec

end Sys2Proof.Machine

/-! ## What changes a total and a counter (R4, R6, R7, R14, R22, R102) -/

namespace Sys2Proof.Machine

open Sys2Proof.Safety

/-- What a command does to the totals and the counters: nothing, the marks of a grant, a write through the window, the end
of an operation on the table, the end of a trip command, or a cold reset. -/
inductive TotalsEvent (c : Instr) (s t : State) : Prop
  | kept : t.table.entries = s.table.entries → t.trips = s.trips → TotalsEvent c s t
  | grant : c ∈ grants → s.engine.op = none → t.trips = s.trips →
      (∀ e, t.entry e = s.entry e ∨ t.entry e = { s.entry e with damaged := true, suspense := some 0 }) →
      TotalsEvent c s t
  | data (v : Byte) : c = .winDataWrite v → t.trips = s.trips →
      (∀ e, t.entry e = s.entry e ∨ (e ∉ s.table.held ∧ ∃ digits, t.entry e = { s.entry e with digits := digits }) ∨
        ∃ flag, t.entry e = { s.entry e with member := flag }) → TotalsEvent c s t
  | table (op : Operation) : s.engine.op = some op → c = completionOf op.work → c ∈ tableCompletions →
      (c = .applyCompletion ∨ t.trips = s.trips) → (∀ e, (t.entry e).member = (s.entry e).member) → TotalsEvent c s t
  | trip (op : Operation) : s.engine.op = some op → c = completionOf op.work → c ∈ tripCompletions →
      (∀ e, ∃ digits, t.entry e = { s.entry e with digits := digits }) → TotalsEvent c s t
  | cold : c = .coldReset → TotalsEvent c s t

/-! ### Completions -/

/-- A deferred value replaces the digits of its entry and nothing else (R18). -/
theorem withDeferred_digits (d : Option Deferred) (x : Fin 64) (en : Entry) :
    ∃ digits, withDeferred d x en = { en with digits := digits } := by
  unfold withDeferred
  split
  · split
    · exact ⟨_, rfl⟩
    · exact ⟨en.digits, rfl⟩
  · exact ⟨en.digits, rfl⟩

theorem member_withDeferred (d : Option Deferred) (x : Fin 64) (en : Entry) :
    (withDeferred d x en).member = en.member := by
  obtain ⟨digits, h⟩ := withDeferred_digits d x en
  rw [h]

theorem member_setEntry {s : State} {e : Fin 64} {en : Entry} (h : en.member = (s.entry e).member) (x : Fin 64) :
    ((s.setEntry e en).entry x).member = (s.entry x).member := by
  rw [entry_setEntry]
  split
  · next he => subst he; exact h
  · rfl

theorem member_carryToValue (k : OpKind) (e : Fin 64) (r : Carry) (s : State) (x : Fin 64) :
    ((carryToValue k e r s).entry x).member = (s.entry x).member := by
  rw [entry_carryToValue]
  split
  · next he => subst he; rfl
  · rfl

/-- No host operation changes MEMBER (R6). -/
theorem HostEffect.member {s u : State} {c : EngineCommand} (h : HostEffect s c u) (x : Fin 64) :
    (u.entry x).member = (s.entry x).member := by
  cases h with
  | refused | armTrip | disarmTrip => rfl
  | preset e v => exact member_setEntry (en := (s.entry e).withValue v) rfl x
  | amount => exact member_carryToValue ..
  | transfer source target r =>
    exact (member_carryToValue ..).trans (member_setEntry (en := (s.entry source).withValue 0) rfl x)
  | repair e v fold r =>
    exact (member_carryToValue ..).trans (member_setEntry (en := (s.entry e).restored) rfl x)
  | clearFlags e => exact member_setEntry (en := { s.entry e with wrapped := false, borrowed := false }) rfl x

theorem trips_carryToValue (k : OpKind) (e : Fin 64) (r : Carry) (s : State) : (carryToValue k e r s).trips = s.trips := by
  obtain ⟨q, -, he⟩ := offerCarry_frame k e .value (s.entry e) r
    (s.setEntry e (((s.entry e).withValue r.result).withFlags r))
  rw [carryToValue, he]
  rfl

/-- Only a trip command changes the counters (R102). -/
theorem HostEffect.trips_kept {s u : State} {c : EngineCommand} (h : HostEffect s c u)
    (ha : ∀ k preset prewarn, c ≠ .armTrip k preset prewarn) (hd : ∀ k, c ≠ .disarmTrip k) : u.trips = s.trips := by
  cases h with
  | refused | preset | clearFlags => rfl
  | amount | transfer | repair => exact trips_carryToValue ..
  | armTrip k preset prewarn => exact absurd rfl (ha k preset prewarn)
  | disarmTrip k => exact absurd rfl (hd k)

section

variable {i : Instr} {effect : EngineCommand → Bool → State → Option (HostOutcome × State)} {c : EngineCommand} {d : Bool}
  {s : State} {r : HostOutcome × State}

/-- The row whose effect takes a command is the completion of that command (R48). -/
theorem HostCompletion.eq_completionOf (h : HostCompletion i effect) (he : effect c d s = some r) :
    i = completionOf (.host c) := by
  cases h <;> cases c <;> cases he <;> rfl

/-- A trip command leaves every entry, and a command on the table every counter. -/
theorem HostCompletion.tableOrTrip (h : HostCompletion i effect) (he : effect c d s = some r) :
    (i ∈ tableCompletions ∧ r.2.trips = s.trips) ∨ (i ∈ tripCompletions ∧ ∀ x, r.2.entry x = s.entry x) := by
  have heffect := h.hostEffect he
  cases h <;> cases c <;> cases he
  case armTrip.armTrip | disarmTrip.disarmTrip => exact .inr ⟨by decide, fun _ => rfl⟩
  all_goals exact .inl ⟨by decide, heffect.trips_kept nofun nofun⟩

theorem totalsEvent_completeHost (h : HostCompletion i effect) (s : State) :
    TotalsEvent i s (completeHost effect s) := by
  rcases completeHost_cases effect s with hsame | ⟨op, c, r, hop, hw, hr, hdone⟩
  · rw [hsame]
    exact .kept rfl rfl
  · have hrow : i = completionOf op.work := by rw [hw]; exact h.eq_completionOf hr
    have hentry : ∀ e, (endCommand r.1.result (release r.2)).entry e = withDeferred r.2.table.deferred e (r.2.entry e) :=
      fun e => by rw [endCommand_eq, ← release_entry]; rfl
    have htrips : (endCommand r.1.result (release r.2)).trips = r.2.trips := by
      obtain ⟨E, hrelease⟩ := release_exists r.2
      rw [endCommand_eq, hrelease]
    rw [hdone]
    rcases h.tableOrTrip hr with ⟨htable, hkept⟩ | ⟨htrip, hkept⟩
    · refine .table op hop hrow htable (.inr (htrips.trans hkept)) fun e => ?_
      rw [hentry, member_withDeferred, (h.hostEffect hr).member]
    · refine .trip op hop hrow htrip fun e => ?_
      rw [hentry, hkept]
      exact withDeferred_digits ..

end

/-- An APPLY changes no MEMBER (R6, R56, R57). -/
theorem member_applyAmount (g : Group) (d : Bool) (s : State) (x : Fin 64) :
    ((applyAmount g d s).entry x).member = (s.entry x).member := by
  unfold applyAmount
  split
  · simp only [carryToSuspense, entry_offerCarry, entry_setEntry]
    split
    · next hx => subst hx; rfl
    · rfl
  · exact member_carryToValue ..

theorem totalsEvent_completeApply (s : State) : TotalsEvent .applyCompletion s (completeApply s) := by
  unfold completeApply
  split
  · next op hop =>
    split
    · next n g hw =>
      refine .table op hop (by rw [hw]; rfl) (by decide) (.inl rfl) fun e => ?_
      rw [entry_checkDrain, entry_applied, member_withDeferred, member_applyAmount]
    · exact .kept rfl rfl
  · exact .kept rfl rfl

theorem totalsEvent_completeCopy (s : State) : TotalsEvent .copyCompletion s (completeCopy s) := by
  unfold completeCopy
  split
  · next op hop =>
    split
    · next p e hw =>
      refine .table op hop (by rw [hw]; rfl) (by decide) (.inr ?_) fun x => ?_
      · obtain ⟨C, q, -, hdrain⟩ := checkDrain_frame
          (release (s.setCapture (s.capture.takeCopy p (copyOf e (s.entry e) op.foundDamaged))))
        obtain ⟨E, hrelease⟩ := release_exists (s.setCapture (s.capture.takeCopy p (copyOf e (s.entry e) op.foundDamaged)))
        rw [hdrain, hrelease]
        rfl
      · rw [entry_checkDrain, release_entry, member_withDeferred]
        rfl
    · exact .kept rfl rfl
  · exact .kept rfl rfl

/-! ### Grants and writes to WIN_DATA -/

/-- The entries at the start of an operation: as they were, or marked by the verification (R10, R11). -/
theorem entry_begin {s u : State} (w : Work) (h : ∀ x, u.entry x = s.entry x) (e : Fin 64) :
    (beginOperation w u).entry e = s.entry e ∨
      (beginOperation w u).entry e = { s.entry e with damaged := true, suspense := some 0 } := by
  rw [entry_beginOperation, ← h]
  exact (verifyAll_entry w.verified u e).imp_right And.right

theorem trips_beginOperation (w : Work) (s : State) : (beginOperation w s).trips = s.trips := by
  obtain ⟨E, q, -, h⟩ := beginOperation_frame w s
  rw [h]

theorem totalsEvent_grants (s : State) :
    TotalsEvent .applyGrant s (grantApply s) ∧ TotalsEvent .copyGrant s (grantCopy s) ∧
      TotalsEvent .hostGrant s (grantHost s) := by
  refine ⟨?_, ?_, ?_⟩
  · unfold grantApply
    split
    · next n g ha =>
      exact .grant (by decide) (arbiter_running ha).2 (trips_beginOperation ..) (entry_begin _ fun _ => rfl)
    · exact .kept rfl rfl
  · unfold grantCopy
    split
    · next p e ha =>
      exact .grant (by decide) (arbiter_running ha).2 (trips_beginOperation ..) (entry_begin _ fun _ => rfl)
    · exact .kept rfl rfl
  · unfold grantHost
    split
    · next c ha =>
      exact .grant (by decide) (arbiter_running ha).2 (trips_beginOperation ..) (entry_begin _ fun _ => rfl)
    · exact .kept rfl rfl

/-- A commit writes the digits of an entry that is not held, or no entry (R18). -/
theorem entry_commitPart (p : WindowPart) (bytes : List Byte) (s : State) (e : Fin 64) :
    (commitPart p bytes s).entry e = s.entry e ∨
      (e ∉ s.table.held ∧ ∃ digits, (commitPart p bytes s).entry e = { s.entry e with digits := digits }) := by
  cases p with
  | rawValue x =>
    simp only [commitPart, commitRaw]
    split
    · exact .inl rfl
    · next hfree =>
      rw [entry_setEntry]
      split
      · next hx =>
        subst hx
        exact .inr ⟨by simpa using hfree, _, rfl⟩
      · exact .inl rfl
  | config n =>
    rcases commitConfig_cases n bytes s with h | ⟨i, -, h⟩ <;> simp only [commitPart, h] <;> exact .inl rfl
  | point k =>
    simp only [commitPart, commitPoint]
    split <;> exact .inl rfl
  | count =>
    simp only [commitPart, commitCount]
    split <;> exact .inl rfl

theorem totalsEvent_writeData (v : Byte) (s : State) : TotalsEvent (.winDataWrite v) s (writeData v s) := by
  have htrips : (writeData v s).trips = s.trips := by
    obtain ⟨D, I, T, w, h⟩ := writeData_frame v s
    rw [h]
  refine .data v rfl htrips fun e => ?_
  have hwritten := (writeData_written v s).1
  generalize writeData v s = t at hwritten
  cases hwritten with
  | window w => exact .inl rfl
  | member x flag w =>
    have hentry : ((commitMember x flag s).setWindow w).entry e =
        if x = e then { s.entry x with member := flag } else s.entry e := entry_setEntry ..
    rw [hentry]
    split
    · next hx => subst hx; exact .inr (.inr ⟨flag, rfl⟩)
    · exact .inl rfl
  | commit p bytes w w' hd => exact (entry_commitPart p bytes (s.setWindow w) e).imp_right .inl

/-! ### Every row -/

theorem totalsEvent_of_runs {c : Instr} {s t : State} (hw : WellFormed c = true) (hrun : Runs c s t) :
    TotalsEvent c s t := by
  cases hrun
  case applyGrant => exact (totalsEvent_grants s).1
  case copyGrant => exact (totalsEvent_grants s).2.1
  case hostGrant => exact (totalsEvent_grants s).2.2
  case applyCompletion => exact totalsEvent_completeApply s
  case copyCompletion => exact totalsEvent_completeCopy s
  case hostCompletion he _ => exact totalsEvent_completeHost he s
  case writeData v hc _ =>
    rcases hc with rfl | rfl
    · exact totalsEvent_writeData v s
    · cases hw
  case coldReset => exact .cold rfl
  case code v _ => obtain ⟨_, _, _, _, _, -, he⟩ := writeCode_frame v s; rw [he]; exact .kept rfl rfl
  case cancel => obtain ⟨_, _, he⟩ := writeCancel_frame s; rw [he]; exact .kept rfl rfl
  case inputEdge n level => obtain ⟨_, _, -, he⟩ := inputEdge_frame n level s; rw [he]; exact .kept rfl rfl
  case capEdge level => obtain ⟨_, _, -, he⟩ := capEdge_frame level s; rw [he]; exact .kept rfl rfl
  case timebaseEdge =>
    unfold timebaseEdge secondExpiry
    obtain ⟨_, _, _, -, he⟩ := minuteExpiry_frame s
    rw [he]
    split
    · exact .kept rfl rfl
    · split <;> exact .kept rfl rfl
  case secondExpiry =>
    unfold secondExpiry
    obtain ⟨_, _, _, -, he⟩ := minuteExpiry_frame s
    rw [he]
    split <;> exact .kept rfl rfl
  case minuteExpiry => obtain ⟨_, _, _, -, he⟩ := minuteExpiry_frame s; rw [he]; exact .kept rfl rfl
  case enable =>
    rcases enableSchedule_frame s with he | ⟨-, he⟩ | ⟨-, _, _, -, he⟩ <;> rw [he] <;> exact .kept rfl rfl
  case readData => obtain ⟨_, he⟩ := readData_frame s; rw [he]; exact .kept rfl rfl
  case warmReset cause =>
    rcases whenRunning_cases clearMain s with ⟨-, he⟩ | ⟨-, he⟩ <;> rw [enterWarm, he] <;> exact .kept rfl rfl
  case coldResetEnd => unfold endCold; split <;> exact .kept rfl rfl
  case nothing | lockoutExpiry | capLockoutExpiry | pop | intStatus | intEnable | capEnable | operand | disable |
      readDayHigh | heldRead | winStatus | space | index | offset | warmResetEnd => exact .kept rfl rfl

/-- The check digit and the out-of-range flags of two entries agree. -/
def SameFlags (a b : Entry) : Prop := b.check = a.check ∧ b.wrapped = a.wrapped ∧ b.borrowed = a.borrowed

theorem SameFlags.not_changed {a b : Entry} (h : SameFlags a b) :
    ¬(b.check ≠ a.check ∨ b.wrapped ≠ a.wrapped ∨ b.borrowed ≠ a.borrowed) := by
  obtain ⟨hcheck, hwrapped, hborrowed⟩ := h
  simp [hcheck, hwrapped, hborrowed]

theorem SameMarks.not_changed {a b : Entry} (h : SameMarks a b) :
    ¬(b.damaged ≠ a.damaged ∨ b.suspense ≠ a.suspense) := by
  obtain ⟨hdamaged, hsuspense⟩ := h
  simp [hdamaged, hsuspense]

/-- Settles O60: by what the command did to the totals. -/
theorem totalsChangeOnlyByTheirEvents : Obligations.TotalsChangeOnlyByTheirEvents := by
  intro c s t e k hw hexec a b
  have htrip : t.trips = s.trips → t.trip k = s.trip k := fun h => by
    rw [State.trip, h]
    rfl
  cases totalsEvent_of_runs hw (runs_of_exec hexec) with
  | kept hentries htrips =>
    have hb : b = a := entry_congr hentries e
    have hflags : SameFlags a b := by rw [hb]; exact ⟨rfl, rfl, rfl⟩
    have hmarks : SameMarks a b := by rw [hb]; exact ⟨rfl, rfl⟩
    exact ⟨fun h => absurd (congrArg Entry.digits hb) h, fun h => absurd h hflags.not_changed,
      fun h => absurd h hmarks.not_changed, fun h => absurd (congrArg Entry.member hb) h,
      fun h => absurd (htrip htrips) h, fun _ _ _ _ _ => by rw [hb]⟩
  | grant hgrant hfree htrips hentries =>
    have hdigits : b.digits = a.digits := by rcases hentries e with hb | hb <;> rw [show b = _ from hb]
    have hmember : b.member = a.member := by rcases hentries e with hb | hb <;> rw [show b = _ from hb]
    have hflags : SameFlags a b := by
      rcases hentries e with hb | hb <;> rw [show b = _ from hb] <;> exact ⟨rfl, rfl, rfl⟩
    exact ⟨fun h => absurd hdigits h, fun h => absurd h hflags.not_changed, fun _ => .inr (.inl hgrant),
      fun h => absurd hmember h, fun h => absurd (htrip htrips) h, fun _ hop => nomatch hfree.symm.trans hop⟩
  | data v hc htrips hentries =>
    have hflags : SameFlags a b := by
      rcases hentries e with hb | ⟨-, digits, hb⟩ | ⟨flag, hb⟩ <;> rw [show b = _ from hb] <;> exact ⟨rfl, rfl, rfl⟩
    have hmarks : SameMarks a b := by
      rcases hentries e with hb | ⟨-, digits, hb⟩ | ⟨flag, hb⟩ <;> rw [show b = _ from hb] <;> exact ⟨rfl, rfl⟩
    refine ⟨fun _ => .inr (.inr (.inr ⟨v, hc⟩)), fun h => absurd h hflags.not_changed,
      fun h => absurd h hmarks.not_changed, fun _ => .inr ⟨v, hc⟩, fun h => absurd (htrip htrips) h,
      fun op hop hheld _ _ => ?_⟩
    rcases hentries e with hb | ⟨hfree, -⟩ | ⟨flag, hb⟩
    · rw [show b = a from hb]
    · exact absurd hheld hfree
    · rw [show b = { a with member := flag } from hb]
  | table op hop hc htable htrips hmember =>
    exact ⟨fun _ => .inl htable, fun _ => .inl htable, fun _ => .inl htable, fun h => absurd (hmember e) h,
      fun h => htrips.elim .inl fun hkept => absurd (htrip hkept) h, fun op' hop' _ hne _ => by
        cases hop.symm.trans hop'
        exact absurd hc hne⟩
  | trip op hop hc htripRow hentries =>
    obtain ⟨digits, hb⟩ := hentries e
    have hflags : SameFlags a b := by rw [show b = _ from hb]; exact ⟨rfl, rfl, rfl⟩
    have hmarks : SameMarks a b := by rw [show b = _ from hb]; exact ⟨rfl, rfl⟩
    exact ⟨fun _ => .inr (.inl htripRow), fun h => absurd h hflags.not_changed, fun h => absurd h hmarks.not_changed,
      fun h => absurd (congrArg Entry.member hb) h, fun _ => .inr (.inl htripRow), fun op' hop' _ hne _ => by
        cases hop.symm.trans hop'
        exact absurd hc hne⟩
  | cold hc =>
    exact ⟨fun _ => .inr (.inr (.inl hc)), fun _ => .inr hc, fun _ => .inr (.inr hc), fun _ => .inl hc,
      fun _ => .inr (.inr hc), fun _ _ _ _ hne => absurd hc hne⟩

end Sys2Proof.Machine
